-- ==== Sys2Proof/Word.lean ====
section
/-! DEFINITION. Words of the NX4620: bytes, epochs, counters, and tables of a fixed number of records. -/

namespace Sys2Proof

/-- A byte of a segment or of frame memory. -/
abbrev Byte := BitVec 8

/-- An epoch: a 16-bit value, compared in serial order (R2). -/
abbrev Epoch := BitVec 16

/-- A counter of the part (R3). -/
abbrev Counter := BitVec 32

/-- A fixed number of like records, numbered from 0: 64 stream entries, 1,024 slab records and so on. -/
structure Table (n : Nat) (α : Type) where
  rows : List α
  size : rows.length = n
  deriving DecidableEq, Repr

namespace Table

variable {n : Nat} {α β : Type}

/-- The record of number `i`. -/
def get (t : Table n α) (i : Fin n) : α :=
  t.rows[i.val]'(by rw [t.size]; exact i.isLt)

/-- The table with the record of number `i` replaced. -/
def set (t : Table n α) (i : Fin n) (v : α) : Table n α :=
  { rows := t.rows.set i.val v, size := by rw [List.length_set, t.size] }

/-- The table whose records are all `v`. -/
def replicate (n : Nat) (v : α) : Table n α :=
  { rows := List.replicate n v, size := List.length_replicate }

/-- Every record changed by `f`. -/
def map (f : α → β) (t : Table n α) : Table n β :=
  { rows := t.rows.map f, size := by rw [List.length_map, t.size] }

end Table

end Sys2Proof
end

