-- ==== Sys2Proof/Config.lean ====
section
/-! DEFINITION. The fixed quantities of the NX4620 (00_scope.md, "Capacities") and the numbers that name its records.
The spec leaves no value of a result open, so there is no free value here. -/

namespace Sys2Proof

/-- A stream number, 0 to 63 (R4). -/
abbrev StreamId := Fin 64

/-- A slab number, 0 to 1,023 (R59). -/
abbrev SlabId := Fin 1024

/-- A gang number, 0 to 15 (R99). -/
abbrev GangId := Fin 16

/-- A drain channel number, 0 to 3 (R120). -/
abbrev ChanId := Fin 4

/-- A bank number, 0 to 7 (R135). -/
abbrev BankId := Fin 8

/-- The number of an entry of the pending-operation table (R175). -/
abbrev OpSlot := Fin 8

namespace Config

/-- Bytes of a line (R135). -/
def lineBytes : Nat := 64

/-- Bytes of a slab (R59). -/
def slabBytes : Nat := 65536

/-- Bytes of frame memory (R135). -/
def memoryBytes : Nat := 67108864

/-- Lines of frame memory (R135). -/
def lineCount : Nat := 1048576

/-- Entries of the write queue (R138). -/
def writeQueueDepth : Nat := 32

/-- Ranges of a coverage list (R77). -/
def coverageDepth : Nat := 16

/-- Entries of a port's reply queue (R173). -/
def replyDepth : Nat := 8

/-- Entries of a port's notice queue (R190). -/
def noticeDepth : Nat := 16

/-- Bytes of a segment's payload (R157). -/
def payloadBytes : Nat := 1024

/-- Pending gang-epoch records of a gang (R101). -/
def recordDepth : Nat := 4

/-- The refresh debt's bound, and the fairness count's (R136, R144, R145). -/
def debtBound : Nat := 8

/-- The debt at which a refresh is urgent (R142). -/
def urgentDebt : Nat := 4

/-- The refresh interval in microseconds (R145). -/
def refreshInterval : Nat := 4

/-- Microseconds of a millisecond. -/
def millisecond : Nat := 1000

end Config

end Sys2Proof
end

