-- ==== Sys2Proof/Syntax.lean ====
section
/-! DEFINITION. The commands of the NX4620: one constructor per row of spec/opcode_table.json.
An operand is what the sender must say beyond the row's name: the port, the timer's record, the channel or bank whose
access completed, the bytes received. A request carries its parameters in the CONTROL segment at the head of the port's
receive list (R163, R171), so its command names the port alone. -/

namespace Sys2Proof

/-- The two link ports. -/
inductive Port where
  | a
  | b
  deriving DecidableEq, Repr

/-- The port that is not this one. -/
def Port.other : Port → Port
  | .a => .b
  | .b => .a

/-- The commands, in the order of the table. -/
inductive Instr where
  | coldReset
  | upEvent (port : Port)
  | downEvent (port : Port)
  | receiveSegment (port : Port) (bytes : List Byte)
  | fillTakeData
  | fillTakeMark
  | fillWriteResume
  | fillTimerExpiry (slab : SlabId)
  | alignTimerExpiry (gang : GangId) (epoch : Epoch)
  | unbindDeadlineExpiry (stream : StreamId)
  | leaseExpiry
  | refreshIntervalExpiry
  | grantWrite
  | writeCompletion
  | grantInitWrite
  | initWriteCompletion (bank : BankId)
  | grantDrainRead
  | drainReadCompletion (channel : ChanId)
  | grantManagementRead
  | managementReadCompletion
  | grantRefresh
  | refreshCompletion
  | channelTakeEntry
  | sendCredit (port : Port)
  | sendReply (port : Port)
  | sendNotice (port : Port)
  | sendDrainSegment
  | sendCompletion (port : Port)
  | pokeWriteResume
  | warmResetClear
  | identify (port : Port)
  | claim (port : Port)
  | renew (port : Port)
  | release (port : Port)
  | reset (port : Port)
  | setNoticeRoute (port : Port)
  | readDeviceCounters (port : Port)
  | define (port : Port)
  | clear (port : Port)
  | bind (port : Port)
  | pause (port : Port)
  | resume (port : Port)
  | unbind (port : Port)
  | flush (port : Port)
  | loadWalk (port : Port)
  | commitLayout (port : Port)
  | discardStaging (port : Port)
  | queryStream (port : Port)
  | querySlabs (port : Port)
  | readStreamCounters (port : Port)
  | formGang (port : Port)
  | dissolveGang (port : Port)
  | queryGang (port : Port)
  | peek (port : Port)
  | poke (port : Port)
  | sync (port : Port)
  | unknownRequest (port : Port)
  deriving DecidableEq, Repr

end Sys2Proof
end

