-- ==== Sys2Proof/WellFormed.lean ====
section
/-! DEFINITION. The well-formed commands. The types of the operands hold every bound but those of the bytes that
RECEIVE_SEGMENT delivers: a segment has a 12-byte header, and at most 1,024 payload bytes and a 4-byte check (R157). -/

namespace Sys2Proof

/-- The bytes hold a whole header (R157). -/
def holdsHeader (bytes : List Byte) : Bool := decide (12 ≤ bytes.length)

/-- The bytes are no longer than the longest segment (R157). -/
def fitsSegment (bytes : List Byte) : Bool := decide (bytes.length ≤ 12 + Config.payloadBytes + 4)

/-- A command the environment can give. -/
def Instr.wellFormed : Instr → Bool
  | .receiveSegment _ bytes => holdsHeader bytes && fitsSegment bytes
  | _ => true

end Sys2Proof
end

