-- ==== Sys2Proof/Decode.lean ====
section
/-! DEFINITION. The table gives no row a word: every row of spec/opcode_table.json has an empty list of fields and no
fixed bits. So no word spells a command. -/

namespace Sys2Proof

/-- The command that a word of the table's bits spells: none, since no row of the table has bits. -/
def decodeTableWord (_nbits _w : Nat) : Option Instr := none

end Sys2Proof
end

