-- ==== Sys2Proof/Machine/State.lean ====
section
/-! DEFINITION. Everything the spec gives the NX4620 to hold, as plain data, and the part right after a cold reset. -/

namespace Sys2Proof.Machine

/-- A timer of the time base (R1): stopped, or running with the microsecond count at which it expires. -/
abbrev Timer := Option Nat

/-! ### Streams, walks and formats (R4, R27, R37) -/

/-- The lifecycle state of a stream (R4). -/
inductive StreamState where
  | empty | defined | active | paused | stopping
  deriving DecidableEq, Repr

/-- The signedness of a sample field (R4). -/
inductive Sign where
  | signed | unsigned
  deriving DecidableEq, Repr

/-- The store's overflow policy (R48). -/
inductive StorePolicy where
  | saturate | wrap | mark
  deriving DecidableEq, Repr

/-- The output placement (R55). -/
inductive OutPlacement where
  | low | high
  deriving DecidableEq, Repr

/-- What a stream does when no slab of its ring is EMPTY (R71, R72). -/
inductive OverflowPolicy where
  | dropNew | reclaim
  deriving DecidableEq, Repr

/-- How the innermost level's term is formed (R29). -/
inductive InnerMode where
  | linear | modulo | reversed
  deriving DecidableEq, Repr

/-- One loop of a walk (R27). -/
structure Level where
  count : Nat
  stride : Int
  deriving DecidableEq, Repr

/-- A walk, its levels outermost first (R27). -/
structure Walk where
  origin : Nat
  levels : List Level
  mode : InnerMode
  window : Option Nat
  deriving DecidableEq, Repr

/-- A numbered pair of walks (R37). -/
structure Layout where
  version : BitVec 8
  writeWalk : Walk
  readWalk : Walk
  deriving DecidableEq, Repr

/-- The fields DEFINE sets, but for the layout (R4). The store's signedness is the input's (R7). -/
structure Definition where
  frameLength : Nat
  inWidth : Nat
  inSign : Sign
  inShift : Nat
  storeWidth : Nat
  storePolicy : StorePolicy
  fillValue : Int
  outWidth : Nat
  outSign : Sign
  placement : OutPlacement
  outputId : Byte
  segmentSize : Nat
  ringSize : Nat
  overflow : OverflowPolicy
  fillTimeout : Nat
  holeFill : Bool
  deriving DecidableEq, Repr

/-- The fifteen counters of a stream, in the order they are reported (R192). -/
structure StreamCounters where
  segmentsAccepted : Counter
  samplesAccepted : Counter
  late : Counter
  overflow : Counter
  format : Counter
  fragmented : Counter
  notAccepting : Counter
  sealedComplete : Counter
  sealedIncomplete : Counter
  holesFilled : Counter
  conversionFaults : Counter
  outputClips : Counter
  epochLost : Counter
  gangLate : Counter
  epochsDrained : Counter
  deriving DecidableEq, Repr

/-- All fifteen counters 0 (R25). -/
def StreamCounters.zero : StreamCounters :=
  { segmentsAccepted := 0, samplesAccepted := 0, late := 0, overflow := 0, format := 0, fragmented := 0,
    notAccepting := 0, sealedComplete := 0, sealedIncomplete := 0, holesFilled := 0, conversionFaults := 0,
    outputClips := 0, epochLost := 0, gangLate := 0, epochsDrained := 0 }

/-- A stream entry (R4). The absent ring is the empty list: a ring holds 2 to 16 slabs. -/
structure Stream where
  state : StreamState
  defn : Option Definition
  current : Option Layout
  previous : Option Layout
  stagedWrite : Option Walk
  stagedRead : Option Walk
  ring : List SlabId
  ringPointer : Option Nat
  floor : Option Epoch
  lastLate : Option Epoch
  gang : Option GangId
  pendingOp : Option OpSlot
  counters : StreamCounters
  deriving DecidableEq, Repr

/-- An EMPTY entry with every field absent and every counter 0 (R26). -/
def Stream.blank : Stream :=
  { state := .empty, defn := none, current := none, previous := none, stagedWrite := none, stagedRead := none,
    ring := [], ringPointer := none, floor := none, lastLate := none, gang := none, pendingOp := none,
    counters := .zero }

/-! ### Slabs and the Fill Engine (R59, R63) -/

/-- The state of a slab (R59). -/
inductive SlabState where
  | free | empty | filling | sealing | full | draining
  deriving DecidableEq, Repr

/-- Why a slab was sealed (R85). -/
inductive SealCause where
  | complete | timeout | marked | overtaken | flushed | paused | stopped
  deriving DecidableEq, Repr

/-- The logical indices `start` to `stop - 1` (R77). -/
structure IndexRange where
  start : Nat
  stop : Nat
  deriving DecidableEq, Repr

/-- The block responsible for a slab (R61), a gang's entry or record named by its gang and epoch. -/
inductive Holder where
  | singleEntry
  | gangEntry (gang : GangId) (epoch : Epoch)
  | gangRecord (gang : GangId) (epoch : Epoch)
  | channel (channel : ChanId)
  deriving DecidableEq, Repr

/-- A slab record (R59). The seal-held indication is the presence of `heldCause` (R89). -/
structure Slab where
  state : SlabState
  epoch : Option Epoch
  version : Option (BitVec 8)
  coverage : List IndexRange
  incomplete : Bool
  faulted : Bool
  suspect : Bool
  cause : Option SealCause
  holeCount : Option Nat
  placing : Bool
  heldCause : Option SealCause
  outstanding : Nat
  fillTimer : Timer
  holder : Option Holder
  deriving DecidableEq, Repr

/-- A FREE record with every field at rest and no outstanding write (R59). -/
def Slab.blank : Slab :=
  { state := .free, epoch := none, version := none, coverage := [], incomplete := false, faulted := false,
    suspect := false, cause := none, holeCount := none, placing := false, heldCause := none, outstanding := 0,
    fillTimer := none, holder := none }

/-- A write handed to the write queue (R139). -/
structure Write where
  addr : Nat
  bytes : List Byte
  slab : Option SlabId
  deriving DecidableEq, Repr

/-- The segment being placed (R63): where it goes, the logical index of the next sample, the samples not yet
converted, and whether an UNBIND abort was applied to the stream meanwhile (R83). -/
structure Placing where
  stream : StreamId
  slab : SlabId
  next : Nat
  rest : List (List Byte)
  aborted : Bool
  deriving DecidableEq, Repr

/-- A hole-fill item: the slab, and the logical index from which its holes remain to be filled (R93). -/
structure HoleItem where
  slab : SlabId
  next : Nat
  deriving DecidableEq, Repr

/-- The Fill Engine: the segment being placed, the write held while it waits, the seal-work list (R63, R82, R93). -/
structure FillEngine where
  placing : Option Placing
  held : Option Write
  work : List HoleItem
  deriving DecidableEq, Repr

/-! ### Gangs and draining (R99, R118, R120) -/

/-- The state of a gang record (R99). -/
inductive GangState where
  | free | formed
  deriving DecidableEq, Repr

/-- A gang-epoch record: one slot per member position (R100). -/
structure GangRecord where
  epoch : Epoch
  slots : List (Option SlabId)
  timer : Timer
  deriving DecidableEq, Repr

/-- A gang record, its pending records oldest first (R99). -/
structure Gang where
  state : GangState
  members : List StreamId
  alignTimeout : Option Nat
  markId : Option Byte
  released : Option Epoch
  records : List GangRecord
  deriving DecidableEq, Repr

/-- A FREE gang record (R99). -/
def Gang.blank : Gang :=
  { state := .free, members := [], alignTimeout := none, markId := none, released := none, records := [] }

/-- What a gang drain entry holds: the present slabs with their member positions give the mask (R118). -/
structure GangEntry where
  gang : GangId
  markId : Byte
  members : List (StreamId × Byte)
  epoch : Epoch
  present : List (Nat × SlabId)
  deriving DecidableEq, Repr

/-- A drain entry (R118). -/
inductive DrainEntry where
  | single (slab : SlabId)
  | gang (entry : GangEntry)
  deriving DecidableEq, Repr

/-- Segment kinds (R157). -/
inductive SegKind where
  | data | mark | control | reply | notice | credit
  deriving DecidableEq, Repr

/-- A segment less its two checks, which the wire form adds (R157, R158). -/
structure Segment where
  kind : SegKind
  flags : Byte
  stream : Byte
  epoch : BitVec 16
  first : BitVec 16
  tag : BitVec 16
  payload : List Byte
  deriving DecidableEq, Repr

/-- The state of a drain channel (R120). -/
inductive ChanState where
  | idle | assembling | waitingSend | aborting
  deriving DecidableEq, Repr

/-- A requested drain read: the write-queue entry it is held by, and the bytes it took at its grant (R143). -/
structure DrainRead where
  addr : Nat
  size : Nat
  hold : Option Nat
  data : Option (List Byte)
  deriving DecidableEq, Repr

/-- A drain channel (R120). Read outstanding is the presence of `read`. -/
structure Channel where
  state : ChanState
  entry : Option DrainEntry
  markDue : Bool
  current : Option Nat
  nextIndex : Option Nat
  assembled : Option Segment
  read : Option DrainRead
  inTransmission : Bool
  deriving DecidableEq, Repr

/-- An IDLE channel with its cold-reset values (R120). -/
def Channel.blank : Channel :=
  { state := .idle, entry := none, markDue := false, current := none, nextIndex := none, assembled := none,
    read := none, inTransmission := false }

/-! ### The Frame Memory Controller (R136) -/

/-- Whether frame memory has been initialised (R152). -/
inductive CtrlState where
  | initializing | running
  deriving DecidableEq, Repr

/-- The state of a bank (R137). -/
inductive BankState where
  | ready | busy | refreshing
  deriving DecidableEq, Repr

/-- An entry of the write queue (R138). A byte of the image is present where the mask is set. `number` tells entries
apart for the reads and the SYNCs that record one (R143, R148, R151). -/
structure WriteEntry where
  number : Nat
  line : Nat
  image : Table 64 (Option Byte)
  slab : Option SlabId
  granted : Bool
  deriving DecidableEq, Repr

/-- Whose a management read is: a PEEK the Management Unit waits for, one with a table entry, or one whose request a
warm reset ended (R148, R149). -/
inductive ReadOwner where
  | direct
  | tableEntry (slot : OpSlot)
  | discarded
  deriving DecidableEq, Repr

/-- A read of the management-read list, with its bytes once granted (R149). -/
structure MgmtRead where
  addr : Nat
  size : Nat
  owner : ReadOwner
  data : Option (List Byte)
  deriving DecidableEq, Repr

/-- A PEEK held by a line hazard: the write-queue entry it recorded and its table entry (R148). -/
structure HeldPeek where
  entry : Nat
  slot : OpSlot
  addr : Nat
  size : Nat
  deriving DecidableEq, Repr

/-- The Frame Memory Controller (R136). -/
structure Controller where
  state : CtrlState
  progress : Nat
  initInFlight : List Nat
  banks : Table 8 BankState
  queue : List WriteEntry
  nextNumber : Nat
  reads : List MgmtRead
  heldPeeks : List HeldPeek
  debt : Nat
  bankPointer : BankId
  fairness : Nat
  lastGranted : ChanId
  refreshTimer : Timer
  refreshMisses : Counter
  deriving DecidableEq, Repr

/-! ### Notices, ports and management (R154, R175, R188) -/

/-- Notice kinds (R188). -/
inductive NoticeKind where
  | epochLost | late | conversion | gangPartial | gangLate | refreshMiss | claimEnded | streamStopped
  | portDown | portUp
  deriving DecidableEq, Repr

/-- A notice: its kind, the stream or gang it names, its epoch and its detail (R188). -/
structure Notice where
  kind : NoticeKind
  subject : Option Byte
  epoch : Option Epoch
  detail : BitVec 32
  deriving DecidableEq, Repr

/-- A route of a notice kind (R189). -/
inductive Route where
  | none | a | b | both
  deriving DecidableEq, Repr

/-- The state of a link (R154). -/
inductive LinkState where
  | down | up
  deriving DecidableEq, Repr

/-- A segment being sent: its bytes on the wire, and the drain channel it came from if it came from one (R167). -/
structure Transmission where
  bytes : List Byte
  source : Option ChanId
  deriving DecidableEq, Repr

/-- A port (R154), with its reply queue (R173), its notice queue and lost count (R190, R191). The counts of a class for
which a port has no slots, Port A's data-class partner credits and Port B's UNBOUND counter stay 0. -/
structure PortState where
  link : LinkState
  slots : List Segment
  owedData : Nat
  owedControl : Nat
  advertisedData : Nat
  advertisedControl : Nat
  partnerData : Nat
  partnerControl : Nat
  sending : Option Transmission
  overruns : Counter
  checkFailures : Counter
  misdirected : Counter
  unbound : Counter
  replies : List Segment
  notices : List Notice
  lost : BitVec 16
  deriving DecidableEq, Repr

/-- A port after a cold reset (R154, R173, R190, R191). -/
def PortState.blank : PortState :=
  { link := .down, slots := [], owedData := 0, owedControl := 0, advertisedData := 0, advertisedControl := 0,
    partnerData := 0, partnerControl := 0, sending := none, overruns := 0, checkFailures := 0, misdirected := 0,
    unbound := 0, replies := [], notices := [], lost := 0 }

/-- The requests of the catalogue (R179). -/
inductive RequestKind where
  | identify | claim | renew | release | reset | setNoticeRoute | readDeviceCounters
  | define | clear | bind | pause | resume | unbind | flush
  | loadWalk | commitLayout | discardStaging | queryStream | querySlabs | readStreamCounters
  | formGang | dissolveGang | queryGang | peek | poke | sync
  deriving DecidableEq, Repr

/-- The statuses of a REPLY (R171). -/
inductive Status where
  | done | starting | noClaim | held | badParam | badState | noSlabs | versionsFull | inGang | busy | misaligned
  | range | unknown
  deriving DecidableEq, Repr

/-- What a pending operation's own rule records: of an UNBIND, whether its deadline forced it, and the count and the cut
epoch that its abort fixed (R18, R20); of a FLUSH, the size of its set and the slabs not yet FULL (R91, R92); of a SYNC,
the write-queue entry (R151). A hazarded PEEK's record stands in the controller (R148). -/
inductive OpDetail where
  | unbind (forced : Bool) (discardedEpochs : Nat) (cutEpoch : Option Epoch)
  | flush (size : Nat) (waiting : List SlabId)
  | peek
  | sync (entry : Nat)
  deriving DecidableEq, Repr

/-- An entry of the pending-operation table in use (R175). -/
structure PendingOp where
  slot : OpSlot
  port : Port
  tag : BitVec 16
  kind : RequestKind
  stream : Option StreamId
  discard : Bool
  deadline : Timer
  detail : OpDetail
  deriving DecidableEq, Repr

/-- What the Management Unit waits for before it takes another request (R173). -/
inductive MgmtWait where
  | nothing
  | peek (port : Port) (tag : BitVec 16) (discard : Bool)
  | poke (port : Port) (tag : BitVec 16) (discard : Bool) (write : Write)
  deriving DecidableEq, Repr

/-- A warm reset in progress: the RESET's port and tag (R185). -/
structure WarmReset where
  port : Port
  tag : BitVec 16
  discard : Bool
  deriving DecidableEq, Repr

/-- The Management Unit: the claim (R176), the pending-operation table in the order taken (R175), the last port taken
(R164), what it waits for (R173) and a warm reset in progress (R185). -/
structure Management where
  holder : Option Port
  lease : Option Nat
  leaseTimer : Timer
  ops : List PendingOp
  lastPort : Port
  wait : MgmtWait
  warmReset : Option WarmReset
  deriving DecidableEq, Repr

/-! ### The part -/

/-- The state of the NX4620, and the queue of the commands that wait. -/
structure State where
  now : Nat
  portA : PortState
  portB : PortState
  lastDataChannel : ChanId
  streams : Table 64 Stream
  slabs : Table 1024 Slab
  freeList : List SlabId
  fill : FillEngine
  gangs : Table 16 Gang
  drainQueue : List DrainEntry
  channels : Table 4 Channel
  controller : Controller
  memory : List Host.Cell
  management : Management
  routes : Table 8 Route
  pending : List Instr
  deriving DecidableEq, Repr

/-- A reason to stop. The spec gives the part no condition that stops it, so there is no constructor. -/
inductive Fault where
  deriving DecidableEq, Repr

/-- A reason to give a command no meaning. -/
inductive Refusal where
  /-- Raised by a dispatch arm whose command has no meaning yet: none. Safe: the step stops. -/
  | notModelled (mnemonic : String)
  deriving DecidableEq, Repr

/-- The free list of a cold reset: all slabs, 0 first (R10). -/
def allSlabs : List SlabId := List.finRange 1024

/-- The controller after a cold reset: INITIALIZING, with refresh starting (R136, R152). -/
def Controller.start : Controller :=
  { state := .initializing, progress := 0, initInFlight := [], banks := Table.replicate 8 .ready, queue := [],
    nextNumber := 0, reads := [], heldPeeks := [], debt := 0, bankPointer := 0, fairness := 0, lastGranted := 3,
    refreshTimer := some Config.refreshInterval, refreshMisses := 0 }

/-- The Management Unit after a cold reset (R164, R175, R176). -/
def Management.start : Management :=
  { holder := none, lease := none, leaseTimer := none, ops := [], lastPort := .b, wait := .nothing, warmReset := none }

/-- The NX4620 right after a cold reset. -/
def State.reset : State :=
  { now := 0, portA := .blank, portB := .blank, lastDataChannel := 3, streams := Table.replicate 64 .blank,
    slabs := Table.replicate 1024 .blank, freeList := allSlabs,
    fill := { placing := none, held := none, work := [] }, gangs := Table.replicate 16 .blank, drainQueue := [],
    channels := Table.replicate 4 .blank, controller := .start, memory := [], management := .start,
    routes := Table.replicate 8 .a, pending := [] }

end Sys2Proof.Machine
end

