-- ==== Sys2Proof/Machine/Flags.lean ====
section
/-! DEFINITION. Saturating counters (R3) and the flag bytes of segments and slab reports (R157, R187). -/

namespace Sys2Proof.Machine

/-- A count raised by `n`, which stays at its greatest value once it would pass it (R3, R191). -/
def satAdd {w : Nat} (c : BitVec w) (n : Nat) : BitVec w :=
  if c.toNat + n < 2 ^ w then BitVec.ofNat w (c.toNat + n) else BitVec.allOnes w

/-- The bit of weight `2 ^ k` when `b` is set. -/
def flagBit (k : Nat) (b : Bool) : Nat := if b then 2 ^ k else 0

/-- The flags byte of an outbound DATA segment (R157): bit 0 LAST, 1 INCOMPLETE, 2 FAULTED, 3 SUSPECT, 4 GANGED. -/
def dataFlags (last incomplete faulted suspect ganged : Bool) : Byte :=
  BitVec.ofNat 8 (flagBit 0 last + flagBit 1 incomplete + flagBit 2 faulted + flagBit 3 suspect + flagBit 4 ganged)

/-- The flags byte of a slab report (R187): bit 0 INCOMPLETE, 1 FAULTED, 2 SUSPECT. -/
def slabFlags (v : Slab) : Byte :=
  BitVec.ofNat 8 (flagBit 0 v.incomplete + flagBit 1 v.faulted + flagBit 2 v.suspect)

/-- Bit 0 of an outbound DATA segment's flags: LAST (R157). -/
def isLast (seg : Segment) : Bool := seg.flags.getLsbD 0

end Sys2Proof.Machine
end

