-- ==== Sys2Proof/Machine/Operands.lean ====
section
/-! DEFINITION. Byte order, the segment format and its two checks (R157, R158), the codes of enumerations and the payload
layouts of requests (R187). -/

namespace Sys2Proof.Machine

/-! ### Byte order -/

/-- The `n` bytes of a number, most significant first. -/
def beBytes : Nat → Nat → List Byte
  | 0, _ => []
  | n + 1, v => BitVec.ofNat 8 (v / 256 ^ n) :: beBytes n v

/-- The number that bytes hold, most significant first. -/
def beNat (bytes : List Byte) : Nat := bytes.foldl (fun acc b => acc * 256 + b.toNat) 0

/-- The value of a field of `w` bits in two's complement (R46). -/
def signedValue (w v : Nat) : Int := if v < 2 ^ (w - 1) then (v : Int) else (v : Int) - (2 ^ w : Nat)

/-- The value of a field of `w` bits in a signedness (R46). -/
def fieldValue (sign : Sign) (w v : Nat) : Int :=
  match sign with
  | .signed => signedValue w v
  | .unsigned => (v : Int)

/-- The `w / 8` bytes of a value in two's complement or plain binary (R53). -/
def valueBytes (w : Nat) (v : Int) : List Byte := beBytes (w / 8) (v % (2 ^ w : Nat)).toNat

/-- The bytes `off` to `off + n - 1`. -/
def slice (bytes : List Byte) (off n : Nat) : List Byte := (bytes.drop off).take n

/-- The number in the bytes `off` to `off + n - 1`. -/
def field (bytes : List Byte) (off n : Nat) : Nat := beNat (slice bytes off n)

/-! ### Checks (R158) -/

/-- One bit of the header check: x^8 + x^2 + x + 1. -/
def crc8Bit (r : BitVec 8) : BitVec 8 := if r.msb then (r <<< 1) ^^^ 0x07#8 else r <<< 1

/-- One byte of the header check, most significant bit first. -/
def crc8Byte (r : BitVec 8) (b : Byte) : BitVec 8 := Nat.repeat crc8Bit 8 (r ^^^ b)

/-- The header check of the eleven other header bytes. -/
def headerCheck (bytes : List Byte) : Byte := bytes.foldl crc8Byte 0xFF#8

/-- One bit of the payload check: 04C11DB7h. -/
def crc32Bit (r : BitVec 32) : BitVec 32 := if r.msb then (r <<< 1) ^^^ 0x04C11DB7#32 else r <<< 1

/-- One byte of the payload check, most significant bit first. -/
def crc32Byte (r : BitVec 32) (b : Byte) : BitVec 32 := Nat.repeat crc32Bit 8 (r ^^^ (b.setWidth 32 <<< 24))

/-- The payload check, inverted at the end. -/
def payloadCheck (bytes : List Byte) : BitVec 32 := ~~~ (bytes.foldl crc32Byte 0xFFFFFFFF#32)

/-! ### Segments (R157) -/

/-- The code of a segment kind. -/
def SegKind.code : SegKind → Byte
  | .data => 1 | .mark => 2 | .control => 3 | .reply => 4 | .notice => 5 | .credit => 6

/-- The segment kind of a code. -/
def SegKind.ofCode (b : Byte) : Option SegKind :=
  match b.toNat with
  | 1 => some .data | 2 => some .mark | 3 => some .control | 4 => some .reply | 5 => some .notice | 6 => some .credit
  | _ => none

/-- Header bytes 0 to 2. -/
def Segment.headerFront (seg : Segment) : List Byte := [seg.kind.code, seg.flags, seg.stream]

/-- Header bytes 4 to 11. -/
def Segment.headerBack (seg : Segment) : List Byte :=
  beBytes 2 seg.epoch.toNat ++ beBytes 2 seg.first.toNat ++ beBytes 2 seg.payload.length ++ beBytes 2 seg.tag.toNat

/-- The payload and its check, which a segment without payload does not have. -/
def Segment.body (seg : Segment) : List Byte :=
  if seg.payload = [] then [] else seg.payload ++ beBytes 4 (payloadCheck seg.payload).toNat

/-- The bytes of a segment on the wire, both checks added (R157, R158, R167). -/
def Segment.wire (seg : Segment) : List Byte :=
  seg.headerFront ++ headerCheck (seg.headerFront ++ seg.headerBack) :: seg.headerBack ++ seg.body

/-- The kind byte of received bytes. -/
def rxKind (bytes : List Byte) : Byte := bytes.getD 0 0

/-- The payload length a received header names. -/
def rxLength (bytes : List Byte) : Nat := field bytes 8 2

/-- The header check of received bytes is right (R158). -/
def rxHeaderGood (bytes : List Byte) : Bool :=
  headerCheck (slice bytes 0 3 ++ slice bytes 4 8) == bytes.getD 3 0

/-- The payload of received bytes. -/
def rxPayload (bytes : List Byte) : List Byte := slice bytes 12 (rxLength bytes)

/-- The bytes are one whole segment of the length its header names (R157). -/
def rxWhole (bytes : List Byte) : Bool :=
  bytes.length == 12 + (if rxLength bytes = 0 then 0 else rxLength bytes + 4)

/-- The payload check of received bytes is right, or there is no payload (R161). -/
def rxPayloadGood (bytes : List Byte) : Bool :=
  rxLength bytes == 0 ||
    (payloadCheck (rxPayload bytes)).toNat == field bytes (12 + rxLength bytes) 4

/-- The segment that received bytes of kind `kind` hold. -/
def rxSegment (kind : SegKind) (bytes : List Byte) : Segment :=
  { kind := kind, flags := bytes.getD 1 0, stream := bytes.getD 2 0,
    epoch := BitVec.ofNat 16 (field bytes 4 2), first := BitVec.ofNat 16 (field bytes 6 2),
    tag := BitVec.ofNat 16 (field bytes 10 2), payload := rxPayload bytes }

/-! ### Codes of enumerations (R187): the order in which the manual lists the values, from 0 -/

/-- The code of a port (R187, R188). -/
def Port.code : Port → Byte
  | .a => 1 | .b => 2

/-- The code of a claim holder (R180, R187). -/
def holderCode : Option Port → Byte
  | none => 0
  | some p => Port.code p

/-- The code of a stream state (R4). -/
def StreamState.code : StreamState → Byte
  | .empty => 0 | .defined => 1 | .active => 2 | .paused => 3 | .stopping => 4

/-- The code of a signedness (R4). -/
def Sign.code : Sign → Byte
  | .signed => 0 | .unsigned => 1

/-- The signedness of a code. -/
def Sign.ofCode : Nat → Option Sign
  | 0 => some .signed | 1 => some .unsigned | _ => none

/-- The code of a store policy (R4). -/
def StorePolicy.code : StorePolicy → Byte
  | .saturate => 0 | .wrap => 1 | .mark => 2

/-- The store policy of a code. -/
def StorePolicy.ofCode : Nat → Option StorePolicy
  | 0 => some .saturate | 1 => some .wrap | 2 => some .mark | _ => none

/-- The code of a placement (R4). -/
def OutPlacement.code : OutPlacement → Byte
  | .low => 0 | .high => 1

/-- The placement of a code. -/
def OutPlacement.ofCode : Nat → Option OutPlacement
  | 0 => some .low | 1 => some .high | _ => none

/-- The code of an overflow policy (R4). -/
def OverflowPolicy.code : OverflowPolicy → Byte
  | .dropNew => 0 | .reclaim => 1

/-- The overflow policy of a code. -/
def OverflowPolicy.ofCode : Nat → Option OverflowPolicy
  | 0 => some .dropNew | 1 => some .reclaim | _ => none

/-- The code of hole fill, listed ON or OFF (R4). -/
def holeFillCode : Bool → Byte
  | true => 0 | false => 1

/-- Hole fill of a code. -/
def holeFillOf : Nat → Option Bool
  | 0 => some true | 1 => some false | _ => none

/-- The code of an inner mode (R27). -/
def InnerMode.code : InnerMode → Byte
  | .linear => 0 | .modulo => 1 | .reversed => 2

/-- The inner mode of a code. -/
def InnerMode.ofCode : Nat → Option InnerMode
  | 0 => some .linear | 1 => some .modulo | 2 => some .reversed | _ => none

/-- The code of a slab state (R59). -/
def SlabState.code : SlabState → Byte
  | .free => 0 | .empty => 1 | .filling => 2 | .sealing => 3 | .full => 4 | .draining => 5

/-- The code of a seal cause (R59). -/
def SealCause.code : SealCause → Byte
  | .complete => 0 | .timeout => 1 | .marked => 2 | .overtaken => 3 | .flushed => 4 | .paused => 5 | .stopped => 6

/-- The code of a gang state (R99). -/
def GangState.code : GangState → Byte
  | .free => 0 | .formed => 1

/-- The code of a controller state (R136). -/
def CtrlState.code : CtrlState → Byte
  | .initializing => 0 | .running => 1

/-- The code of a route (R181). -/
def Route.code : Route → Byte
  | .none => 0 | .a => 1 | .b => 2 | .both => 3

/-- The route of a code. -/
def Route.ofCode : Nat → Option Route
  | 0 => some .none | 1 => some .a | 2 => some .b | 3 => some .both | _ => Option.none

/-- The code of a notice kind (R187, R188). -/
def NoticeKind.code : NoticeKind → Byte
  | .epochLost => 1 | .late => 2 | .conversion => 3 | .gangPartial => 4 | .gangLate => 5 | .refreshMiss => 6
  | .claimEnded => 7 | .streamStopped => 8 | .portDown => 9 | .portUp => 10

/-- The place in the route table of a routed kind, by its code (R189). -/
def routeIndex : NoticeKind → Option (Fin 8)
  | .epochLost => some 0 | .late => some 1 | .conversion => some 2 | .gangPartial => some 3 | .gangLate => some 4
  | .refreshMiss => some 5 | .claimEnded => some 6 | .streamStopped => some 7 | .portDown => none | .portUp => none

/-- The code of a request kind (R187). -/
def RequestKind.code : RequestKind → Byte
  | .identify => 0x01 | .claim => 0x02 | .renew => 0x03 | .release => 0x04 | .reset => 0x05
  | .setNoticeRoute => 0x06 | .readDeviceCounters => 0x07
  | .define => 0x10 | .clear => 0x11 | .bind => 0x12 | .pause => 0x13 | .resume => 0x14 | .unbind => 0x15
  | .flush => 0x16 | .loadWalk => 0x18 | .commitLayout => 0x19 | .discardStaging => 0x1A
  | .queryStream => 0x1C | .querySlabs => 0x1D | .readStreamCounters => 0x1E
  | .formGang => 0x20 | .dissolveGang => 0x21 | .queryGang => 0x22
  | .peek => 0x28 | .poke => 0x29 | .sync => 0x2A

/-- Every request kind of the catalogue (R179). -/
def RequestKind.all : List RequestKind :=
  [.identify, .claim, .renew, .release, .reset, .setNoticeRoute, .readDeviceCounters,
   .define, .clear, .bind, .pause, .resume, .unbind, .flush,
   .loadWalk, .commitLayout, .discardStaging, .queryStream, .querySlabs, .readStreamCounters,
   .formGang, .dissolveGang, .queryGang, .peek, .poke, .sync]

/-- The request kind of a code, if the catalogue has it (R172). -/
def RequestKind.ofCode (b : Byte) : Option RequestKind := RequestKind.all.find? (fun k => k.code == b)

/-- The code of a status (R171). -/
def Status.code : Status → Byte
  | .done => 0 | .starting => 1 | .noClaim => 2 | .held => 3 | .badParam => 4 | .badState => 5 | .noSlabs => 6
  | .versionsFull => 7 | .inGang => 8 | .busy => 9 | .misaligned => 10 | .range => 11 | .unknown => 12

/-! ### Layouts of payload items (R187) -/

/-- An optional field of `n` bytes, preceded by its presence byte. -/
def optBytes (n : Nat) (v : Option Nat) : List Byte :=
  match v with
  | some x => 1 :: beBytes n x
  | none => 0 :: beBytes n 0

/-- One byte, 1 for yes and 0 for no. -/
def yesNo (b : Bool) : Byte := if b then 1 else 0

/-- A walk's layout: origin, level count, inner mode, window, then each level's count and stride. -/
def walkBytes (w : Walk) : List Byte :=
  beBytes 2 w.origin ++ [BitVec.ofNat 8 w.levels.length, w.mode.code] ++ beBytes 4 (w.window.getD 0) ++
    w.levels.flatMap (fun l => beBytes 4 l.count ++ valueBytes 32 l.stride)

/-- The layout of a definition as DEFINE carries it, without its stream byte: 24 bytes. -/
def definitionBytes (d : Definition) : List Byte :=
  beBytes 4 d.frameLength ++
    [BitVec.ofNat 8 d.inWidth, d.inSign.code, BitVec.ofNat 8 d.inShift, BitVec.ofNat 8 d.storeWidth, d.storePolicy.code] ++
    valueBytes 32 d.fillValue ++
    [BitVec.ofNat 8 d.outWidth, d.outSign.code, d.placement.code, d.outputId] ++
    beBytes 2 d.segmentSize ++ [BitVec.ofNat 8 d.ringSize, d.overflow.code] ++
    beBytes 2 d.fillTimeout ++ [holeFillCode d.holeFill]

/-- The stream counters, 4 bytes each in the order of R192. -/
def StreamCounters.bytes (c : StreamCounters) : List Byte :=
  [c.segmentsAccepted, c.samplesAccepted, c.late, c.overflow, c.format, c.fragmented, c.notAccepting,
   c.sealedComplete, c.sealedIncomplete, c.holesFilled, c.conversionFaults, c.outputClips, c.epochLost,
   c.gangLate, c.epochsDrained].flatMap (fun x => beBytes 4 x.toNat)

/-- A NOTICE's payload with the lost count written into it (R187, R191). -/
def noticeBytes (n : Notice) (lost : BitVec 16) : List Byte :=
  [n.kind.code] ++ optBytes 1 (n.subject.map (·.toNat)) ++ optBytes 2 (n.epoch.map (·.toNat)) ++
    beBytes 4 n.detail.toNat ++ beBytes 2 lost.toNat

/-- A NOTICE segment: kind NOTICE and zeros in the other header fields (R187). -/
def noticeSegment (n : Notice) (lost : BitVec 16) : Segment :=
  { kind := .notice, flags := 0, stream := 0, epoch := 0, first := 0, tag := 0, payload := noticeBytes n lost }

/-- A REPLY segment: the request's tag, its kind, the status and the results (R171). -/
def replySegment (tag : BitVec 16) (kind : Byte) (status : Status) (results : List Byte) : Segment :=
  { kind := .reply, flags := 0, stream := 0, epoch := 0, first := 0, tag := tag,
    payload := kind :: status.code :: results }

/-- A CREDIT segment with its two increments (R165). -/
def creditSegment (data control : Nat) : Segment :=
  { kind := .credit, flags := 0, stream := 0, epoch := BitVec.ofNat 16 data, first := BitVec.ofNat 16 control,
    tag := 0, payload := [] }

/-- The payload length that a request's kind and its own count fields call for (R172, R187). -/
def expectedLength (k : RequestKind) (payload : List Byte) : Nat :=
  match k with
  | .identify | .renew | .release | .reset | .sync => 1
  | .claim | .setNoticeRoute | .querySlabs | .readStreamCounters => 3
  | .readDeviceCounters => 2
  | .define => 26
  | .clear | .bind | .pause | .resume | .flush | .commitLayout | .discardStaging | .queryStream => 2
  | .dissolveGang | .queryGang => 2
  | .unbind => 5
  | .loadWalk => 11 + 8 * field payload 5 1
  | .formGang => 6 + field payload 2 1
  | .peek => 6
  | .poke => 6 + field payload 5 1

/-- The levels of a walk from `n` level fields of 8 bytes. -/
def levelsOf : Nat → List Byte → List Level
  | 0, _ => []
  | n + 1, bytes =>
    { count := field bytes 0 4, stride := signedValue 32 (field bytes 4 4) } :: levelsOf n (bytes.drop 8)

/-- A LOAD WALK's walk, if its inner mode is one of the three; a window of 0 is an absent one (R187). -/
def walkOf (payload : List Byte) : Option Walk :=
  (InnerMode.ofCode (field payload 6 1)).map fun mode =>
    { origin := field payload 3 2, levels := levelsOf (field payload 5 1) (payload.drop 11), mode := mode,
      window := if field payload 7 4 = 0 then none else some (field payload 7 4) }

/-- A DEFINE's definition, if each enumeration byte is one of its values (R187). -/
def definitionOf (payload : List Byte) : Option Definition := do
  let inSign ← Sign.ofCode (field payload 7 1)
  let storePolicy ← StorePolicy.ofCode (field payload 10 1)
  let outSign ← Sign.ofCode (field payload 16 1)
  let placement ← OutPlacement.ofCode (field payload 17 1)
  let overflow ← OverflowPolicy.ofCode (field payload 22 1)
  let holeFill ← holeFillOf (field payload 25 1)
  some { frameLength := field payload 2 4, inWidth := field payload 6 1, inSign := inSign,
         inShift := field payload 8 1, storeWidth := field payload 9 1, storePolicy := storePolicy,
         fillValue := fieldValue inSign 32 (field payload 11 4), outWidth := field payload 15 1,
         outSign := outSign, placement := placement, outputId := payload.getD 18 0,
         segmentSize := field payload 19 2, ringSize := field payload 21 1, overflow := overflow,
         fillTimeout := field payload 23 2, holeFill := holeFill }

end Sys2Proof.Machine
end

