-- ==== Sys2Proof/Machine/Ops.lean ====
section
/-! DEFINITION. The shared operations: the order of epochs, access to the records, timers, the queueing of notices and
REPLYs, and the end of the claim. -/

namespace Sys2Proof.Machine

/-! ### Epochs (R2) -/

/-- `e` is newer than `f` (R2). -/
def newer (e f : Epoch) : Bool := decide (1 ≤ (e - f).toNat ∧ (e - f).toNat ≤ 32767)

/-- The floor, or a released epoch, after `e` has reached it: the newer of the two (R21, R86). -/
def raiseEpoch (floor : Option Epoch) (e : Epoch) : Epoch :=
  match floor with
  | none => e
  | some f => if newer e f then e else f

/-- `e` and `f` differ by exactly 32,768 (R68). -/
def opposite (e f : Epoch) : Bool := decide ((e - f).toNat = 32768)

/-! ### Records -/

namespace State

/-- A port's record. -/
def port (s : State) : Port → PortState
  | .a => s.portA
  | .b => s.portB

/-- The state with a port's record replaced. -/
def setPort (s : State) (p : Port) (v : PortState) : State :=
  match p with
  | .a => { s with portA := v }
  | .b => { s with portB := v }

/-- The state with a port's record changed. -/
def modPort (s : State) (p : Port) (f : PortState → PortState) : State := s.setPort p (f (s.port p))

/-- A stream's entry. -/
def stream (s : State) (i : StreamId) : Stream := s.streams.get i

/-- The state with a stream's entry replaced. -/
def setStream (s : State) (i : StreamId) (v : Stream) : State := { s with streams := s.streams.set i v }

/-- The state with a stream's entry changed. -/
def modStream (s : State) (i : StreamId) (f : Stream → Stream) : State := s.setStream i (f (s.stream i))

/-- A slab's record. -/
def slab (s : State) (i : SlabId) : Slab := s.slabs.get i

/-- The state with a slab's record replaced. -/
def setSlab (s : State) (i : SlabId) (v : Slab) : State := { s with slabs := s.slabs.set i v }

/-- The state with a slab's record changed. -/
def modSlab (s : State) (i : SlabId) (f : Slab → Slab) : State := s.setSlab i (f (s.slab i))

/-- A gang's record. -/
def gang (s : State) (i : GangId) : Gang := s.gangs.get i

/-- The state with a gang's record replaced. -/
def setGang (s : State) (i : GangId) (v : Gang) : State := { s with gangs := s.gangs.set i v }

/-- A channel's record. -/
def channel (s : State) (i : ChanId) : Channel := s.channels.get i

/-- The state with a channel's record replaced. -/
def setChannel (s : State) (i : ChanId) (v : Channel) : State := { s with channels := s.channels.set i v }

/-- The state with a channel's record changed. -/
def modChannel (s : State) (i : ChanId) (f : Channel → Channel) : State := s.setChannel i (f (s.channel i))

/-- The state with the controller changed. -/
def modController (s : State) (f : Controller → Controller) : State := { s with controller := f s.controller }

/-- The state with the Management Unit changed. -/
def modManagement (s : State) (f : Management → Management) : State := { s with management := f s.management }

/-- The state with a stream's counters changed (R192). -/
def count (s : State) (i : StreamId) (f : StreamCounters → StreamCounters) : State :=
  s.modStream i fun e => { e with counters := f e.counters }

/-- The stream whose ring holds a slab (R118). -/
def owner (s : State) (sl : SlabId) : Option StreamId :=
  (List.finRange 64).find? fun i => (s.stream i).ring.contains sl

/-- The frame length of a stream (R4). -/
def frameLength (s : State) (i : StreamId) : Nat := ((s.stream i).defn.map (·.frameLength)).getD 0

/-- Dispatch is halted by a warm reset (R163, R185). -/
def halted (s : State) : Bool := s.management.warmReset.isSome

/-- The time base has reached the moment `d` (R1). -/
def reach (s : State) (d : Nat) : State := { s with now := max s.now d }

end State

/-- A timer started with an interval in microseconds (R1). -/
def startTimer (now interval : Nat) : Timer := some (now + interval)

/-- A timer started with an interval, 0 meaning no timer (R76, R83). -/
def startUnlessZero (now interval : Nat) : Timer := if interval = 0 then none else startTimer now interval

/-- The microseconds until a timer expires (R115, R176). -/
def remaining (now : Nat) (t : Timer) : Nat := (t.getD now) - now

/-! ### Notices (R188 to R190) -/

/-- A notice is offered to a port's queue: appended, or lost and counted in the lost count (R190). -/
def offerNotice (p : Port) (n : Notice) (s : State) : State :=
  s.modPort p fun q =>
    if q.link = .up ∧ q.notices.length < Config.noticeDepth then { q with notices := q.notices ++ [n] }
    else { q with lost := satAdd q.lost 1 }

/-- A notice is offered as a route says (R189). -/
def offerRoute (r : Route) (n : Notice) (s : State) : State :=
  match r with
  | .none => s
  | .a => offerNotice .a n s
  | .b => offerNotice .b n s
  | .both => offerNotice .b n (offerNotice .a n s)

/-- A notice of a routed kind is raised (R189). PORT_DOWN and PORT_UP have no route; `raiseLink` raises them. -/
def raise (n : Notice) (s : State) : State :=
  match routeIndex n.kind with
  | some i => offerRoute (s.routes.get i) n s
  | none => s

/-- PORT_DOWN or PORT_UP of a port is offered to the other port (R155, R156, R189). -/
def raiseLink (kind : NoticeKind) (p : Port) (s : State) : State :=
  offerNotice p.other { kind := kind, subject := none, epoch := none, detail := (Port.code p).setWidth 32 } s

/-- A notice that names a stream and an epoch (R188). -/
def streamNotice (kind : NoticeKind) (i : StreamId) (e : Option Epoch) (detail : Nat) : Notice :=
  { kind := kind, subject := some (BitVec.ofNat 8 i.val), epoch := e, detail := BitVec.ofNat 32 detail }

/-! ### REPLYs (R173, R174) -/

/-- A REPLY is queued on its port, or discarded if the port is DOWN (R173, R174). -/
def pushReply (p : Port) (seg : Segment) (s : State) : State :=
  s.modPort p fun q => if q.link = .up then { q with replies := q.replies ++ [seg] } else q

/-- The REPLY of a request that did not complete at once: discarded when it is marked so (R174). -/
def lateReply (p : Port) (discard : Bool) (seg : Segment) (s : State) : State :=
  if discard then s else pushReply p seg s

/-! ### Receive slots (R162, R163) -/

/-- A segment kind of the data class (09, introduction). -/
def SegKind.dataClass : SegKind → Bool
  | .data => true | .mark => true | .control => false | .reply => false | .notice => false | .credit => false

/-- One credit of a class is owed to the partner (R162). -/
def PortState.owe (q : PortState) (dataClass : Bool) : PortState :=
  if dataClass then { q with owedData := q.owedData + 1 } else { q with owedControl := q.owedControl + 1 }

/-- A port without its head segment, whose slot's credit is owed (R162). -/
def PortState.dropHead (q : PortState) : PortState :=
  match q.slots with
  | seg :: rest => { q with slots := rest }.owe seg.kind.dataClass
  | [] => q

/-- The segment at the head of a port's receive list is taken (R163). -/
def takeHead (p : Port) (s : State) : State := s.modPort p PortState.dropHead

/-- The stream a byte names, if it is at most 63 (R6, R64). -/
def streamOf (n : Nat) : Option StreamId := if h : n < 64 then some ⟨n, h⟩ else none

/-- The gang a byte names, if it is at most 15 (R102). -/
def gangOfNat (n : Nat) : Option GangId := if h : n < 16 then some ⟨n, h⟩ else none

/-! ### The pending-operation table (R175) -/

/-- The table's first entry that is not in use (R175). -/
def freeSlot (ops : List PendingOp) : Option OpSlot :=
  (List.finRange 8).find? fun k => !(ops.any fun o => o.slot == k)

/-- The entry of a number, if it is in use. -/
def findOp (k : OpSlot) (s : State) : Option PendingOp := s.management.ops.find? fun o => o.slot == k

/-- A request takes an entry (R175). -/
def addOp (o : PendingOp) (s : State) : State :=
  s.modManagement fun m => { m with ops := m.ops ++ [o] }

/-- An entry in use is changed. -/
def modOp (k : OpSlot) (f : PendingOp → PendingOp) (s : State) : State :=
  s.modManagement fun m => { m with ops := m.ops.map fun o => if o.slot = k then f o else o }

/-- An entry is released (R175). -/
def releaseOp (k : OpSlot) (s : State) : State :=
  s.modManagement fun m => { m with ops := m.ops.filter fun o => o.slot != k }

/-- The pending operation of a stream (R24). -/
def streamOp (i : StreamId) (s : State) : Option PendingOp := (s.stream i).pendingOp.bind fun k => findOp k s

/-! ### The claim (R178) -/

/-- A stream with nothing staged (R42, R43). -/
def Stream.unstaged (e : Stream) : Stream := { e with stagedWrite := none, stagedRead := none }

/-- The claim ends: no holder, no lease, and every stream's staged walks discarded (R43, R178). -/
def endClaim (s : State) : State :=
  { s with
    management := { s.management with holder := none, lease := none, leaseTimer := none }
    streams := s.streams.map Stream.unstaged }

/-- The CLAIM_ENDED notice of a former holder (R178). -/
def claimEndedNotice (p : Port) : Notice :=
  { kind := .claimEnded, subject := none, epoch := none, detail := (Port.code p).setWidth 32 }

end Sys2Proof.Machine
end

