-- ==== Sys2Proof/Machine/Walks.lean ====
section
/-! DEFINITION. The Walk Unit: the address a walk generates (R28, R29), the checks made when a walk is loaded (R33 to
R35), and the life of layouts (R39 to R41). -/

namespace Sys2Proof.Machine

/-- Samples a slab holds at a store width (R27). -/
def slabCapacity (storeWidth : Nat) : Nat := Config.slabBytes / (storeWidth / 8)

/-- The product of the counts of levels, formed exactly (R28, R34). -/
def countProduct : List Level → Nat
  | [] => 1
  | l :: ls => l.count * countProduct ls

/-- The reversal of the low `b` bits of `i` (R29). -/
def reverseBits : Nat → Nat → Nat
  | 0, _ => 0
  | b + 1, i => (i % 2) * 2 ^ b + reverseBits b (i / 2)

/-- The innermost level's term, with `i` the innermost index (R29). -/
def innerTerm (w : Walk) (l : Level) (i : Nat) : Int :=
  match w.mode with
  | .linear => i * l.stride
  | .modulo => (i * l.stride) % ((w.window.getD 1 : Nat) : Int)
  | .reversed => reverseBits (Nat.log2 l.count) i * l.stride

/-- The sum of the terms of levels, outermost first, for logical index `j` split in mixed radix (R28, R29). -/
def termSum (w : Walk) : List Level → Nat → Int
  | [], _ => 0
  | [l], j => innerTerm w l (j % l.count)
  | l :: l' :: ls, j =>
    ((j / countProduct (l' :: ls)) % l.count : Nat) * l.stride + termSum w (l' :: ls) j

/-- The sample address of logical index `j` (R29). A loaded walk never yields a negative one (R35). -/
def walkAddress (w : Walk) (j : Nat) : Nat := (w.origin + termSum w w.levels j).toNat

/-- The walk of DEFINE's version 0: index `j` at sample address `j` (R8). -/
def identityWalk (frameLength : Nat) : Walk :=
  { origin := 0, levels := [{ count := frameLength, stride := 1 }], mode := .linear, window := none }

/-- The identity layout of DEFINE (R8). -/
def identityLayout (frameLength : Nat) : Layout :=
  { version := 0, writeWalk := identityWalk frameLength, readWalk := identityWalk frameLength }

/-- The form of a walk is permitted (R33). -/
def walkFormOk (w : Walk) : Bool :=
  decide (1 ≤ w.levels.length ∧ w.levels.length ≤ 4) &&
  w.levels.all (fun l => decide (1 ≤ l.count ∧ l.count ≤ 65536 ∧ -65535 ≤ l.stride ∧ l.stride ≤ 65535)) &&
  (match w.mode, w.window with
   | .modulo, some n => decide (1 ≤ n ∧ n ≤ 65536)
   | .modulo, none => false
   | _, none => true
   | _, some _ => false)

/-- A walk fits the frame: its counts' product is F, and under REVERSED the innermost count is 2^b with b in 1 to 16
(R34). -/
def walkFitsFrame (w : Walk) (frameLength : Nat) : Bool :=
  countProduct w.levels == frameLength &&
  (w.mode != .reversed ||
    (match w.levels.getLast? with
     | some l => (List.range 16).any fun b => l.count == 2 ^ (b + 1)
     | none => false))

/-- The low and high contributions of a level whose term is linear (R35). -/
def linearSpan (l : Level) : Int × Int :=
  (min 0 ((l.count - 1 : Int) * l.stride), max 0 ((l.count - 1 : Int) * l.stride))

/-- The low and high contributions of the innermost level (R35). -/
def innerSpan (w : Walk) (l : Level) : Int × Int :=
  match w.mode with
  | .modulo => (0, (w.window.getD 1 : Nat) - 1)
  | _ => linearSpan l

/-- The sums of the low and of the high contributions of levels, outermost first (R35). -/
def spanSum (w : Walk) : List Level → Int × Int
  | [] => (0, 0)
  | [l] => innerSpan w l
  | l :: l' :: ls =>
    ((linearSpan l).1 + (spanSum w (l' :: ls)).1, (linearSpan l).2 + (spanSum w (l' :: ls)).2)

/-- Every address the walk can produce lies within the slab (R35). -/
def walkInRange (w : Walk) (capacity : Nat) : Bool :=
  decide (w.origin < capacity) &&
  decide (0 ≤ (w.origin : Int) + (spanSum w w.levels).1) &&
  decide ((w.origin : Int) + (spanSum w w.levels).2 < capacity)

/-- The refusal of a LOAD WALK by R33, R34 or R35, the first that fails. -/
def walkRefusal (w : Walk) (d : Definition) : Option Status :=
  if !walkFormOk w then some .badParam
  else if !walkFitsFrame w d.frameLength then some .badParam
  else if !walkInRange w (slabCapacity d.storeWidth) then some .range
  else none

/-- The layout of a version among a stream's current and previous ones (R30). -/
def layoutOf (e : Stream) (version : BitVec 8) : Option Layout :=
  match e.current with
  | some l => if l.version = version then some l else e.previous.filter fun p => p.version = version
  | none => e.previous.filter fun p => p.version = version

/-- Some slab of the ring carries a layout version; an EMPTY slab carries none (R37, R60). -/
def carriesVersion (s : State) (ring : List SlabId) (version : BitVec 8) : Bool :=
  ring.any fun sl => (s.slab sl).version == some version

/-- A previous layout that no slab of the ring carries any longer is dropped (R41). -/
def dropPrevious (i : StreamId) (s : State) : State :=
  match (s.stream i).previous with
  | some l =>
    if carriesVersion s (s.stream i).ring l.version then s
    else s.modStream i fun e => { e with previous := none }
  | none => s

/-- The layout COMMIT LAYOUT forms: the staged walks, those not staged copied, one version on (R39). -/
def committedLayout (e : Stream) (cur : Layout) : Layout :=
  { version := cur.version + 1, writeWalk := e.stagedWrite.getD cur.writeWalk, readWalk := e.stagedRead.getD cur.readWalk }

end Sys2Proof.Machine
end

