-- ==== Sys2Proof/Machine/Conversion.lean ====
section
/-! DEFINITION. The Conversion Unit (R45 to R58): functions of one sample and the formats of a definition. -/

namespace Sys2Proof.Machine

/-- The least value of a field of width `w` (03, introduction). -/
def rangeLow (sign : Sign) (w : Nat) : Int :=
  match sign with
  | .signed => -(2 ^ (w - 1) : Nat)
  | .unsigned => 0

/-- The greatest value of a field of width `w` (03, introduction). -/
def rangeHigh (sign : Sign) (w : Nat) : Int :=
  match sign with
  | .signed => (2 ^ (w - 1) : Nat) - 1
  | .unsigned => (2 ^ w : Nat) - 1

/-- A value lies in the range of a field. -/
def inRange (sign : Sign) (w : Nat) (v : Int) : Bool := decide (rangeLow sign w ≤ v ∧ v ≤ rangeHigh sign w)

/-- The nearest value of the range of a field. -/
def clampTo (sign : Sign) (w : Nat) (v : Int) : Int := max (rangeLow sign w) (min v (rangeHigh sign w))

/-- The value of the range that differs from `v` by a whole multiple of 2^w (R50). -/
def wrapTo (sign : Sign) (w : Nat) (v : Int) : Int := fieldValue sign w (v % (2 ^ w : Nat)).toNat

/-- The shifted value of an input field: decoded big-endian, divided by 2^h, rounded down (R46, R47). -/
def shiftedValue (d : Definition) (bytes : List Byte) : Int :=
  fieldValue d.inSign d.inWidth (beNat bytes) / (2 ^ d.inShift : Nat)

/-- What is stored of an out-of-range value (R49 to R51). -/
def outOfRangeValue (d : Definition) (v : Int) : Int :=
  match d.storePolicy with
  | .saturate => clampTo d.inSign d.storeWidth v
  | .wrap => wrapTo d.inSign d.storeWidth v
  | .mark => d.fillValue

/-- The inbound conversion: the stored value, and whether the sample was out of range (R48). -/
def inboundConvert (d : Definition) (bytes : List Byte) : Int × Bool :=
  if inRange d.inSign d.storeWidth (shiftedValue d bytes) then (shiftedValue d bytes, false)
  else (outOfRangeValue d (shiftedValue d bytes), true)

/-- The bytes of a stored value (R53). -/
def storeBytes (d : Definition) (v : Int) : List Byte := valueBytes d.storeWidth v

/-- The byte address of sample `a` of a slab (R53). -/
def sampleAddr (sl : SlabId) (storeWidth a : Nat) : Nat := sl.val * Config.slabBytes + a * (storeWidth / 8)

/-- The outbound conversion of the bytes read: the output sample's bytes, and whether it was clipped (R55 to R58). -/
def outboundConvert (d : Definition) (bytes : List Byte) : List Byte × Bool :=
  let v := fieldValue d.inSign d.storeWidth (beNat bytes)
  match d.placement with
  | .low => (valueBytes d.outWidth (clampTo d.outSign d.outWidth v), !inRange d.outSign d.outWidth v)
  | .high => (valueBytes d.outWidth (v * (2 ^ (d.outWidth - d.storeWidth) : Nat)), false)

/-- A definition passes every check of R7. -/
def definitionOk (d : Definition) : Bool :=
  decide (1 ≤ d.frameLength ∧ d.frameLength ≤ 65536 ∧ d.frameLength ≤ slabCapacity d.storeWidth) &&
  [8, 16, 24, 32].contains d.inWidth && decide (d.inShift < d.inWidth) &&
  [8, 16, 32].contains d.storeWidth &&
  inRange d.inSign d.storeWidth d.fillValue &&
  [8, 16, 24, 32].contains d.outWidth &&
  (d.placement == .low || (decide (d.storeWidth ≤ d.outWidth) && d.outSign == d.inSign)) &&
  decide (64 ≤ d.segmentSize ∧ d.segmentSize ≤ 1024 ∧ d.segmentSize % (d.outWidth / 8) = 0) &&
  decide (2 ≤ d.ringSize ∧ d.ringSize ≤ 16) && decide (d.fillTimeout ≤ 65535)

end Sys2Proof.Machine
end

