-- ==== Sys2Proof/Machine/Memory.lean ====
section
/-! DEFINITION. Frame memory as a list of bytes in one canonical form (R135), and the write queue's taking of a write and
its retiring of one (R138 to R141). -/

namespace Sys2Proof.Machine

namespace Memory

/-- What an unlisted address reads as: the zero of initialisation (R152). -/
def unlisted : Byte := 0

/-- The byte at an address. -/
def read (m : List Host.Cell) (a : Nat) : Byte :=
  match m.find? fun c => c.1 == a with
  | some c => c.2
  | none => unlisted

/-- The bytes at an address and after it. -/
def readBytes (m : List Host.Cell) (a n : Nat) : List Byte := (List.range n).map fun k => read m (a + k)

/-- A byte put in its place among rising addresses. -/
def insert : List Host.Cell → Nat → Byte → List Host.Cell
  | [], a, b => [(a, b)]
  | c :: m, a, b => if a < c.1 then (a, b) :: c :: m else if a = c.1 then (a, b) :: m else c :: insert m a b

/-- An address made unlisted. -/
def erase (m : List Host.Cell) (a : Nat) : List Host.Cell := m.filter fun c => c.1 != a

/-- A byte written: listed unless it is what an unlisted address reads as. -/
def write (m : List Host.Cell) (a : Nat) (b : Byte) : List Host.Cell :=
  if b = unlisted then erase m a else insert m a b

/-- The canonical form: addresses strictly rising, no byte that an unlisted address reads as. -/
abbrev wf (m : List Host.Cell) : Prop :=
  m.Pairwise (fun c d => c.1 < d.1) ∧ ∀ c ∈ m, c.2 ≠ unlisted

/-- The masked bytes of an image written into a line; the others keep their contents (R138, R141). -/
def writeLine (m : List Host.Cell) (line : Nat) (image : Table 64 (Option Byte)) : List Host.Cell :=
  (List.finRange 64).foldl
    (fun acc k => match image.get k with
      | some b => write acc (line * Config.lineBytes + k.val) b
      | none => acc) m

/-- Zero written into all 64 bytes of a line (R152). -/
def zeroLine (m : List Host.Cell) (line : Nat) : List Host.Cell := m.filter fun c => c.1 / Config.lineBytes != line

end Memory

/-- The line of a byte address (R135). -/
def lineOf (addr : Nat) : Nat := addr / Config.lineBytes

/-- The bank of a line (R135). -/
def bankOf (line : Nat) : BankId := ⟨line % 8, Nat.mod_lt _ (by decide)⟩

/-- Bytes put into an image from an offset on, each byte's mask set (R139). -/
def putBytes (image : Table 64 (Option Byte)) (off : Nat) : List Byte → Table 64 (Option Byte)
  | [] => image
  | b :: bs => putBytes (if h : off < 64 then image.set ⟨off, h⟩ (some b) else image) (off + 1) bs

/-- An entry with a write merged into it: its bytes replace those at their positions, and an entry without a slab number
takes the write's (R139). -/
def WriteEntry.merge (e : WriteEntry) (w : Write) : WriteEntry :=
  { e with image := putBytes e.image (w.addr % Config.lineBytes) w.bytes, slab := e.slab.or w.slab }

/-- The entry a write appended makes (R139). -/
def newEntry (number : Nat) (w : Write) : WriteEntry :=
  { number := number, line := lineOf w.addr,
    image := putBytes (Table.replicate 64 none) (w.addr % Config.lineBytes) w.bytes, slab := w.slab, granted := false }

/-- The tail entry, if a write merges into it (R139). -/
def mergeTarget (queue : List WriteEntry) (w : Write) : Option WriteEntry :=
  queue.getLast?.filter fun t => t.line == lineOf w.addr && !t.granted

/-- The outstanding-write count of a slab rises by one (R140). -/
def countWrite (slab : Option SlabId) (s : State) : State :=
  match slab with
  | some sl => s.modSlab sl fun v => { v with outstanding := v.outstanding + 1 }
  | none => s

/-- A write merged into the tail entry `t` (R139, R140). -/
def mergeWrite (t : WriteEntry) (w : Write) (s : State) : State :=
  let s := s.modController fun c => { c with queue := c.queue.dropLast ++ [t.merge w] }
  if t.slab = none then countWrite w.slab s else s

/-- A write appended as a new entry (R139, R140). -/
def appendWrite (w : Write) (s : State) : State :=
  countWrite w.slab <| s.modController fun c =>
    { c with queue := c.queue ++ [newEntry c.nextNumber w], nextNumber := c.nextNumber + 1 }

/-- A write handed to the write queue: merged, appended, or none when the queue is full and it cannot be taken (R139). -/
def enqueue (w : Write) (s : State) : Option State :=
  match mergeTarget s.controller.queue w with
  | some t => some (mergeWrite t w s)
  | none => if s.controller.queue.length < Config.writeQueueDepth then some (appendWrite w s) else none

/-- The newest entry of the write queue for a line (R143, R148). -/
def newestFor (queue : List WriteEntry) (line : Nat) : Option Nat :=
  ((queue.filter fun e => e.line == line).getLast?).map (·.number)

/-- A bank's state changed (R137). -/
def setBank (b : BankId) (v : BankState) (s : State) : State :=
  s.modController fun c => { c with banks := c.banks.set b v }

/-- A bank's state (R137). -/
def bank (s : State) (b : BankId) : BankState := s.controller.banks.get b

end Sys2Proof.Machine
end

