-- ==== Sys2Proof/Machine/Slabs.lean ====
section
/-! DEFINITION. A slab coming to rest (R60), the completion of an UNBIND (R19, R20), coverage lists (R77, R78) and the
detachment of a slab from its drain entry (R73, R119). -/

namespace Sys2Proof.Machine

/-! ### Coverage (R77, R78) -/

/-- A range touches `[i, stop)`: they overlap or one begins where the other ends (R78). -/
def IndexRange.touches (r : IndexRange) (i stop : Nat) : Bool := decide (i ≤ r.stop ∧ r.start ≤ stop)

/-- The coverage list with `[i, i + n)` merged into it (R78). -/
def mergeRange (cov : List IndexRange) (i n : Nat) : List IndexRange :=
  let hit := cov.filter fun r => r.touches i (i + n)
  cov.filter (fun r => decide (r.stop < i)) ++
    { start := hit.foldl (fun a r => min a r.start) i, stop := hit.foldl (fun a r => max a r.stop) (i + n) } ::
    cov.filter (fun r => decide (i + n < r.start))

/-- The number of covered indices (R77). -/
def coveredCount (cov : List IndexRange) : Nat := (cov.map fun r => r.stop - r.start).sum

/-- The first index of [0, F) at or after `k` that no range covers (R94). -/
def nextHole (cov : List IndexRange) (frameLength k : Nat) : Option Nat :=
  let j := cov.foldl (fun k r => if r.start ≤ k ∧ k < r.stop then r.stop else k) k
  if j < frameLength then some j else none

/-! ### At rest (R60) -/

/-- A slab at the end of a use: EMPTY, its coverage list, flags and outstanding writes kept (R60). -/
def Slab.atRest (v : Slab) : Slab :=
  { v with state := .empty, epoch := none, version := none, cause := none, holeCount := none, placing := false,
           heldCause := none, fillTimer := none, holder := none }

/-- A slab that returns to the free list: every field at rest but the outstanding writes (R60). -/
def Slab.freed (v : Slab) : Slab := { Slab.blank with outstanding := v.outstanding }

/-- Every slab of a ring is EMPTY (R19). -/
def allEmpty (s : State) (ring : List SlabId) : Bool := ring.all fun sl => (s.slab sl).state == .empty

/-- Slabs changed one by one. -/
def modSlabs (f : Slab → Slab) (ring : List SlabId) (s : State) : State :=
  ring.foldl (fun acc sl => acc.modSlab sl f) s

/-- The REPLY of an UNBIND (R19, R187). Its FORCED byte is 1 for a forced one and 0 for any other, and its count is 0 for a
GRACEFUL one that completes before its deadline (DESIGN CHOICE, log entry 26). -/
def unbindReply (o : PendingOp) (forced : Bool) (discarded : Nat) : Segment :=
  replySegment o.tag RequestKind.unbind.code .done (yesNo forced :: beBytes 2 discarded)

/-- A stream whose ring has been returned: DEFINED, its binding fields, previous layout and pending operation absent
(R19). -/
def Stream.unbound (e : Stream) : Stream :=
  { e with state := .defined, previous := none, ring := [], ringPointer := none, floor := none, lastLate := none,
           pendingOp := none }

/-- The completion of an UNBIND, and its STREAM_STOPPED notice where it is due (R19, R20). -/
def completeUnbind (i : StreamId) (o : PendingOp) (forced : Bool) (discarded : Nat) (cut : Option Epoch) (s : State) :
    State :=
  let ring := (s.stream i).ring
  let s := modSlabs Slab.freed ring s
  let s := { s with freeList := s.freeList ++ ring }
  let s := releaseOp o.slot (s.modStream i Stream.unbound)
  let s := lateReply o.port o.discard (unbindReply o forced discarded) s
  if forced || cut.isSome then raise (streamNotice .streamStopped i cut discarded) s else s

/-- The completion test of an UNBIND: it completes when its stream is STOPPING and every slab of the ring is EMPTY
(R19). A warm reset that has ended it leaves no pending operation, and nothing completes (R185). -/
def unbindTest (i : StreamId) (s : State) : State :=
  if (s.stream i).state = .stopping ∧ allEmpty s (s.stream i).ring = true then
    match streamOp i s with
    | some o =>
      match o.detail with
      | .unbind forced discarded cut => completeUnbind i o forced discarded cut s
      | _ => s
    | none => s
  else s

/-- A slab of a stream becomes EMPTY, for whichever cause: the record comes to rest, a previous layout carried by no
slab is dropped and an UNBIND that waits for it completes (R19, R41, R60). -/
def emptySlab (i : StreamId) (sl : SlabId) (s : State) : State :=
  unbindTest i (dropPrevious i (s.modSlab sl Slab.atRest))

/-- A slab becomes EMPTY, its stream the one whose ring holds it. -/
def emptyOwned (sl : SlabId) (s : State) : State :=
  match s.owner sl with
  | some i => emptySlab i sl s
  | none => s.modSlab sl Slab.atRest

/-! ### Drain entries (R118) -/

/-- The slabs of a drain entry, in the order they drain (R118). -/
def DrainEntry.slabs : DrainEntry → List SlabId
  | .single sl => [sl]
  | .gang e => e.present.map (·.2)

/-- The gang of a drain entry (R118). -/
def DrainEntry.gangOf : DrainEntry → Option GangId
  | .single _ => none
  | .gang e => some e.gang

/-- A drain entry without one slab, or none when that was its last (R73, R119). -/
def DrainEntry.without (sl : SlabId) : DrainEntry → Option DrainEntry
  | .single sl' => if sl' = sl then none else some (.single sl')
  | .gang e =>
    let rest := e.present.filter fun p => p.2 != sl
    if rest = [] then none else some (.gang { e with present := rest })

/-- A slab detached from its untaken drain entry; the other entries keep their order (R73, R119). -/
def detachEntry (sl : SlabId) (s : State) : State :=
  { s with drainQueue := s.drainQueue.filterMap (DrainEntry.without sl) }

/-- The present mask of positions (R100). -/
def presentMask (present : List (Nat × SlabId)) : Nat := (present.map fun p => 2 ^ p.1).sum

end Sys2Proof.Machine
end

