-- ==== Sys2Proof/Machine/Gangs.lean ====
section
/-! DEFINITION. The Gang Aligner: arrivals (R104 to R107), the completion test (R108) and the release of a record
(R110). -/

namespace Sys2Proof.Machine

/-- The present slots of a record, each with its member position (R100). -/
def GangRecord.present (r : GangRecord) : List (Nat × SlabId) :=
  r.slots.zipIdx.filterMap fun p => p.1.map fun sl => (p.2, sl)

/-- Every member position's slot holds a slab (R100). -/
def GangRecord.complete (r : GangRecord) : Bool := r.slots.all Option.isSome

/-- The gang drain entry of a record as it stands at its release (R110). -/
def releaseEntry (g : GangId) (r : GangRecord) (s : State) : GangEntry :=
  { gang := g, markId := (s.gang g).markId.getD 0,
    members := (s.gang g).members.map fun i => (i, ((s.stream i).defn.map (·.outputId)).getD 0),
    epoch := r.epoch, present := r.present }

/-- The GANG_PARTIAL notice of a record (R110). -/
def partialNotice (g : GangId) (r : GangRecord) : Notice :=
  { kind := .gangPartial, subject := some (BitVec.ofNat 8 g.val), epoch := some r.epoch,
    detail := BitVec.ofNat 32 (presentMask r.present) }

/-- The oldest pending record is released (R110). -/
def releaseOldest (g : GangId) (s : State) : State :=
  match (s.gang g).records with
  | [] => s
  | r :: rest =>
    let s := { s with drainQueue := s.drainQueue ++ [.gang (releaseEntry g r s)] }
    let s := modSlabs (fun v => { v with holder := some (.gangEntry g r.epoch) }) (r.present.map (·.2)) s
    let s := s.setGang g { s.gang g with released := some r.epoch, records := rest }
    if r.complete then s else raise (partialNotice g r) s

/-- The oldest `n` pending records are released, oldest first. -/
def releaseMany (g : GangId) : Nat → State → State
  | 0, s => s
  | n + 1, s => releaseMany g n (releaseOldest g s)

/-- The completion test, over at most `n` records: the oldest is released while it is complete (R108). -/
def completionLoop (g : GangId) : Nat → State → State
  | 0, s => s
  | n + 1, s =>
    match (s.gang g).records with
    | r :: _ => if r.complete then completionLoop g n (releaseOldest g s) else s
    | [] => s

/-- The completion test (R108). -/
def completionTest (g : GangId) (s : State) : State := completionLoop g (s.gang g).records.length s

/-- A record put in its place in ascending epoch order (R107). -/
def insertRecord (r : GangRecord) : List GangRecord → List GangRecord
  | [] => [r]
  | x :: xs => if newer x.epoch r.epoch then r :: x :: xs else x :: insertRecord r xs

/-- A gang-late arrival: the slab returns to EMPTY, counted and noticed (R105). -/
def gangLate (g : GangId) (i : StreamId) (sl : SlabId) (e : Epoch) (s : State) : State :=
  let s := emptySlab i sl s
  let s := s.count i fun c => { c with gangLate := satAdd c.gangLate 1 }
  raise (streamNotice .gangLate i (some e) g.val) s

/-- An arrival that joins the record of its epoch (R106). -/
def joinRecord (g : GangId) (k : Nat) (sl : SlabId) (e : Epoch) (s : State) : State :=
  let s := s.modSlab sl fun v => { v with holder := some (.gangRecord g e) }
  let records := (s.gang g).records.map fun r => if r.epoch = e then { r with slots := r.slots.set k (some sl) } else r
  let s := s.setGang g { s.gang g with records := records }
  if records.any fun r => r.epoch == e && r.complete then completionTest g s else s

/-- An arrival that creates a record, with the forced release of a fifth (R107). -/
def createRecord (g : GangId) (k : Nat) (sl : SlabId) (e : Epoch) (s : State) : State :=
  let s := s.modSlab sl fun v => { v with holder := some (.gangRecord g e) }
  let v := s.gang g
  let r : GangRecord :=
    { epoch := e, slots := (v.members.map fun _ => none).set k (some sl),
      timer := startTimer s.now (v.alignTimeout.getD 0) }
  let s := s.setGang g { v with records := insertRecord r v.records }
  if Config.recordDepth < (s.gang g).records.length then completionTest g (releaseOldest g s) else s

/-- An arrival is late against the released epoch (R104, case 1). -/
def lateAgainstReleased (v : Gang) (e : Epoch) : Bool :=
  match v.released with
  | some r => !newer e r
  | none => false

/-- An arrival is outside the window of the pending records (R104, case 3). -/
def outsideWindow (v : Gang) (e : Epoch) : Bool :=
  match v.released, v.records.head?, v.records.getLast? with
  | none, some oldest, some newest => !(newer e oldest.epoch || newer newest.epoch e)
  | _, _, _ => false

/-- The arrival of a member's FULL slab, by the first case of R104 that applies. -/
def arrive (g : GangId) (i : StreamId) (sl : SlabId) (s : State) : State :=
  let e := (s.slab sl).epoch.getD 0
  let v := s.gang g
  if lateAgainstReleased v e then gangLate g i sl e s
  else if v.records.any fun r => r.epoch == e then joinRecord g (v.members.idxOf i) sl e s
  else if outsideWindow v e then gangLate g i sl e s
  else createRecord g (v.members.idxOf i) sl e s

/-- RECLAIM takes a slab from a pending record; an emptied record goes, and the completion test follows (R74, R112). -/
def detachRecord (g : GangId) (e : Epoch) (sl : SlabId) (s : State) : State :=
  let v := s.gang g
  let records := v.records.map fun r =>
    if r.epoch = e then { r with slots := r.slots.map fun o => if o = some sl then none else o } else r
  let kept := records.filter fun r => r.slots.any Option.isSome
  let s := s.setGang g { v with records := kept }
  if kept.length < records.length then completionTest g s else s

end Sys2Proof.Machine
end

