-- ==== Sys2Proof/Machine/Sealing.lean ====
section
/-! DEFINITION. Seals (R85, R86, R89), the passage to FULL (R95 to R97), the progress of a FLUSH (R92) and the seal-work
list (R93, R94). -/

namespace Sys2Proof.Machine

/-- The completion of a FLUSH (R92). -/
def completeFlush (i : StreamId) (o : PendingOp) (size : Nat) (s : State) : State :=
  lateReply o.port o.discard (replySegment o.tag RequestKind.flush.code .done [BitVec.ofNat 8 size])
    (releaseOp o.slot (s.modStream i fun e => { e with pendingOp := none }))

/-- A slab of a flush set has become FULL; the FLUSH completes with its last one (R92). -/
def flushProgress (i : StreamId) (sl : SlabId) (s : State) : State :=
  match streamOp i s with
  | some o =>
    match o.detail with
    | .flush size waiting =>
      if waiting.contains sl then
        if waiting.erase sl = [] then completeFlush i o size s
        else modOp o.slot (fun o => { o with detail := .flush size (waiting.erase sl) }) s
      else s
    | _ => s
  | none => s

/-- A FULL slab is handed on: to the Gang Aligner, or as a single entry at the Drain Queue's tail (R97). -/
def handOn (i : StreamId) (sl : SlabId) (s : State) : State :=
  match (s.stream i).gang with
  | some g => arrive g i sl s
  | none =>
    let s := { s with drainQueue := s.drainQueue ++ [DrainEntry.single sl] }
    s.modSlab sl fun v => { v with holder := some .singleEntry }

/-- A slab becomes FULL: its CONVERSION notice, its handing on, and the FLUSH that waits for it (R92, R95 to R97), in this
order (DESIGN CHOICE, log entry 24). -/
def becomeFull (i : StreamId) (sl : SlabId) (s : State) : State :=
  let v := s.slab sl
  let s := s.modSlab sl fun v => { v with state := .full }
  let s := if v.faulted then raise (streamNotice .conversion i v.epoch sl.val) s else s
  flushProgress i sl (handOn i sl s)

/-- A hole-fill item for a slab stands on the seal-work list (R95). -/
def hasItem (s : State) (sl : SlabId) : Bool := s.fill.work.any fun it => it.slab == sl

/-- The SEALING-to-FULL test (R95). -/
def testFull (i : StreamId) (sl : SlabId) (s : State) : State :=
  if (s.slab sl).state = .sealing ∧ hasItem s sl = false ∧ (s.slab sl).outstanding = 0 then becomeFull i sl s else s

/-- The SEALING-to-FULL test of a slab, its stream the one whose ring holds it (R95, R140). -/
def testFullOwned (sl : SlabId) (s : State) : State :=
  match s.owner sl with
  | some i => testFull i sl s
  | none => s

/-- The slab's record at its seal (R85, steps 1 to 4). -/
def Slab.sealed (v : Slab) (cause : SealCause) (holes : Nat) : Slab :=
  { v with state := .sealing, cause := some cause, fillTimer := none, holeCount := some holes, heldCause := none,
           incomplete := v.incomplete || decide (0 < holes) }

/-- The counter a seal raises (R85, step 4). -/
def countSeal (holes : Nat) (c : StreamCounters) : StreamCounters :=
  if 0 < holes then { c with sealedIncomplete := satAdd c.sealedIncomplete 1 }
  else { c with sealedComplete := satAdd c.sealedComplete 1 }

/-- The floor of a stream is raised to an epoch (R86). -/
def raiseFloor (i : StreamId) (e : Epoch) (s : State) : State :=
  s.modStream i fun v => { v with floor := some (raiseEpoch v.floor e) }

/-- Hole fill is ON for a stream (R85, step 6). -/
def holeFillOn (s : State) (i : StreamId) : Bool := ((s.stream i).defn.map (·.holeFill)).getD false

/-- The seal of a FILLING slab (R85). -/
def sealSlab (i : StreamId) (sl : SlabId) (cause : SealCause) (s : State) : State :=
  let v := s.slab sl
  let holes := s.frameLength i - coveredCount v.coverage
  let s := s.setSlab sl (v.sealed cause holes)
  let s := raiseFloor i (v.epoch.getD 0) (s.count i (countSeal holes))
  let s :=
    if 0 < holes ∧ holeFillOn s i = true then
      { s with fill := { s.fill with work := s.fill.work ++ [{ slab := sl, next := 0 }] } }
    else s
  testFull i sl s

/-- A seal cause reaches a slab: it seals a FILLING slab, is held during a placement into it, the first held being kept,
and otherwise has no effect (R85, R89). -/
def reachSlab (i : StreamId) (cause : SealCause) (sl : SlabId) (s : State) : State :=
  if (s.slab sl).state = .filling then
    if (s.slab sl).placing then s.modSlab sl fun v => { v with heldCause := v.heldCause.or (some cause) }
    else sealSlab i sl cause s
  else s

/-- A seal cause reaches every slab of a stream's ring, in ring order (R13, R16, R91; DESIGN CHOICE, log entry 5). -/
def reachRing (i : StreamId) (cause : SealCause) (s : State) : State :=
  (s.stream i).ring.foldl (fun acc sl => reachSlab i cause sl acc) s

/-! ### The seal-work list (R94) -/

/-- The write of the fill value at a logical index (R94). -/
def holeWrite (sl : SlabId) (d : Definition) (w : Walk) (j : Nat) : Write :=
  { addr := sampleAddr sl d.storeWidth (walkAddress w j), bytes := storeBytes d d.fillValue, slab := some sl }

/-- One hole-fill write counted (R94). -/
def countHole (i : StreamId) (s : State) : State :=
  s.count i fun c => { c with holesFilled := satAdd c.holesFilled 1 }

/-- The holes of a slab from index `k` on filled, at most `n` of them: the state, and where the item stopped with the
write it holds when the queue is full (R94). -/
def fillHoles (i : StreamId) (sl : SlabId) (d : Definition) (w : Walk) : Nat → Nat → State → State × Option (Nat × Write)
  | 0, _, s => (s, none)
  | n + 1, k, s =>
    match nextHole (s.slab sl).coverage d.frameLength k with
    | none => (s, none)
    | some j =>
      match enqueue (holeWrite sl d w j) s with
      | some s' => fillHoles i sl d w n (j + 1) (countHole i s')
      | none => (s, some (j + 1, holeWrite sl d w j))

/-- The write walk of the layout version a slab carries (R30). -/
def writeWalkOf (s : State) (i : StreamId) (sl : SlabId) : Option Walk :=
  (s.slab sl).version.bind fun v => (layoutOf (s.stream i) v).map (·.writeWalk)

/-- A hole-fill item performed as far as the write queue allows (R94). -/
def performItem (it : HoleItem) (s : State) : State × Option (Nat × Write) :=
  match s.owner it.slab with
  | none => (s, none)
  | some i =>
    match (s.stream i).defn, writeWalkOf s i it.slab with
    | some d, some w => fillHoles i it.slab d w (d.frameLength + 1) it.next s
    | _, _ => (s, none)

/-- The items of the seal-work list performed one at a time, head first, until one must wait (R94). -/
def runItems : List HoleItem → State → State
  | [], s => { s with fill := { s.fill with work := [] } }
  | it :: rest, s =>
    match performItem it s with
    | (s', some (k, w)) =>
      { s' with fill := { s'.fill with work := { it with next := k } :: rest, held := some w } }
    | (s', none) => runItems rest (testFullOwned it.slab { s' with fill := { s'.fill with work := rest } })

/-- The Fill Engine holds no segment and no write (R63). -/
def fillFree (s : State) : Bool := s.fill.placing.isNone && s.fill.held.isNone

/-- The Fill Engine performs the seal-work list when nothing else occupies it (R94). -/
def runWork (s : State) : State := if fillFree s then runItems s.fill.work s else s

end Sys2Proof.Machine
end

