-- ==== Sys2Proof/Machine/Drain.lean ====
section
/-! DEFINITION. The Drain Queue's takers: the drain channels (R120 to R133). -/

namespace Sys2Proof.Machine

/-! ### What a channel holds -/

/-- The slabs a channel's entry still holds: the current one and every later one (R118, R130). -/
def Channel.slabs (ch : Channel) : List SlabId :=
  match ch.entry with
  | some e => e.slabs.drop (ch.current.getD 0)
  | none => []

/-- The slab being drained (R120). -/
def Channel.currentSlab (ch : Channel) : Option SlabId :=
  match ch.entry, ch.current with
  | some e, some k => e.slabs[k]?
  | _, _ => none

/-- The channel's entry is a gang entry (R125). -/
def Channel.ganged (ch : Channel) : Bool := (ch.entry.bind DrainEntry.gangOf).isSome

/-- The streams of a drain entry: of a single entry the stream whose ring holds its slab, of a gang entry the present
members, in member order (R118). -/
def DrainEntry.streams (s : State) : DrainEntry → List StreamId
  | .single sl => (s.owner sl).toList
  | .gang e => e.present.filterMap fun p => e.members[p.1]?.map (·.1)

/-- Two drain entries share a stream or a gang (R121). -/
def DrainEntry.shares (s : State) (e f : DrainEntry) : Bool :=
  (e.streams s).any (fun i => (f.streams s).contains i) || (e.gangOf.isSome && e.gangOf == f.gangOf)

/-- A drain entry is eligible: no channel holds an entry that shares a stream or a gang with it (R121). -/
def eligible (s : State) (e : DrainEntry) : Bool :=
  (List.finRange 4).all fun c =>
    (s.channel c).state == .idle || !(s.channel c).entry.any fun f => e.shares s f

/-- A drain entry with these entries before it in the queue can be taken: it is eligible, and none of the older ones,
which were passed over, shares a stream or a gang with it, so that such entries are taken in queue order (R121). -/
def takeable (s : State) (older : List DrainEntry) (e : DrainEntry) : Bool :=
  eligible s e && !older.any fun f => e.shares s f

/-- The oldest entry of a list that can be taken, with `older` before the list (R121). -/
def oldestTakeable (s : State) (older : List DrainEntry) : List DrainEntry → Option DrainEntry
  | [] => none
  | e :: rest => if takeable s older e then some e else oldestTakeable s (older ++ [e]) rest

/-! ### Drain reads (R124, R143) -/

/-- The read walk of the layout version a slab carries (R30). -/
def readWalkOf (s : State) (i : StreamId) (sl : SlabId) : Option Walk :=
  (s.slab sl).version.bind fun v => (layoutOf (s.stream i) v).map (·.readWalk)

/-- The read of output index `k` of a slab, held by the newest entry of the write queue for its line (R124, R143). -/
def readRequest (s : State) (sl : SlabId) (k : Nat) : Option DrainRead := do
  let i ← s.owner sl
  let d ← (s.stream i).defn
  let w ← readWalkOf s i sl
  let addr := sampleAddr sl d.storeWidth (walkAddress w k)
  some { addr := addr, size := d.storeWidth / 8, hold := newestFor s.controller.queue (lineOf addr), data := none }

/-- A channel requests the read of its next output index (R124). -/
def requestRead (c : ChanId) (s : State) : State :=
  match (s.channel c).currentSlab, (s.channel c).nextIndex with
  | some sl, some k => s.modChannel c fun ch => { ch with read := readRequest s sl k }
  | _, _ => s

/-! ### The take (R122, R123) -/

/-- The MARK segment of a gang entry (R123). -/
def markSegment (e : GangEntry) : Segment :=
  { kind := .mark, flags := 0, stream := e.markId, epoch := e.epoch, first := 0, tag := 0,
    payload := BitVec.ofNat 8 e.members.length :: BitVec.ofNat 8 (presentMask e.present) :: e.members.map (·.2) }

/-- The channel's fields at its take of an entry; its in-transmission indication stands (R122, R123). -/
def Channel.taking (ch : Channel) (e : DrainEntry) : Channel :=
  match e with
  | .single _ =>
    { ch with state := .assembling, entry := some e, markDue := false, current := some 0, nextIndex := some 0,
              assembled := none, read := none }
  | .gang g =>
    { ch with state := .waitingSend, entry := some e, markDue := true, current := none, nextIndex := none,
              assembled := some (markSegment g), read := none }

/-- A channel takes an entry: it leaves the queue and its slabs become DRAINING, held by the channel (R122). -/
def takeEntry (c : ChanId) (e : DrainEntry) (s : State) : State :=
  let s := { s with drainQueue := s.drainQueue.erase e }
  let s := modSlabs (fun v => { v with state := .draining, holder := some (.channel c) }) e.slabs s
  requestRead c (s.modChannel c fun ch => ch.taking e)

/-- The lowest-numbered IDLE channel (R122). -/
def idleChannel (s : State) : Option ChanId := (List.finRange 4).find? fun c => (s.channel c).state == .idle

/-- CHANNEL_TAKE_ENTRY (R121, R122): no channel takes while a warm reset halts dispatch (R132). -/
def execChannelTakeEntry (s : State) : Host.Outcome State Fault Refusal :=
  match idleChannel s, oldestTakeable s [] s.drainQueue with
  | some c, some e => .next (if s.halted then s else takeEntry c e s)
  | _, _ => .next s

/-! ### Aborts (R129, R130) -/

/-- An abort completes: the entry's slabs become EMPTY undrained and the channel becomes IDLE (R130); the slabs of a gang
entry in member order (DESIGN CHOICE, log entry 25). -/
def completeAbort (c : ChanId) (s : State) : State :=
  ((s.channel c).slabs.foldl (fun acc sl => emptyOwned sl acc) s).setChannel c .blank

/-- The end of an abort, when no read and no transmission of the channel is left (R130). -/
def testAbort (c : ChanId) (s : State) : State :=
  if (s.channel c).state = .aborting ∧ (s.channel c).read = none ∧ (s.channel c).inTransmission = false then
    completeAbort c s
  else s

/-- The channel builds or offers a segment: an abort reaches it (R129). -/
def Channel.abortable (ch : Channel) : Bool := ch.state == .assembling || ch.state == .waitingSend

/-- A channel is aborted: its segment is dropped or withdrawn (R129). -/
def abortChannel (c : ChanId) (s : State) : State :=
  if (s.channel c).abortable then
    testAbort c (s.modChannel c fun ch => { ch with state := .aborting, assembled := none })
  else s

/-! ### Assembly (R124, R125) -/

/-- A DATA segment before its header is fixed: the first index and the output bytes (R124). -/
def partialSegment (k : Nat) : Segment :=
  { kind := .data, flags := 0, stream := 0, epoch := 0, first := BitVec.ofNat 16 k, tag := 0, payload := [] }

/-- A whole DATA segment with the header fixed as the slab stands (R125). -/
def fixHeader (seg : Segment) (d : Definition) (v : Slab) (last ganged : Bool) : Segment :=
  { seg with flags := dataFlags last v.incomplete v.faulted v.suspect ganged, stream := d.outputId,
             epoch := v.epoch.getD 0 }

/-- An output clip counted (R57). -/
def countClip (i : StreamId) (clipped : Bool) (s : State) : State :=
  if clipped then s.count i fun c => { c with outputClips := satAdd c.outputClips 1 } else s

/-- The sample of output index `k` joins the channel's segment, which is whole at the segment size or at the frame's end
(R124). -/
def appendSample (c : ChanId) (i : StreamId) (d : Definition) (sl : SlabId) (k : Nat) (bytes : List Byte) (s : State) :
    State :=
  let out := outboundConvert d bytes
  let s := countClip i out.2 s
  let seg := (s.channel c).assembled.getD (partialSegment k)
  let seg := { seg with payload := seg.payload ++ out.1 }
  if d.segmentSize ≤ seg.payload.length ∨ d.frameLength ≤ k + 1 then
    s.modChannel c fun ch =>
      { ch with state := .waitingSend, nextIndex := some (k + 1),
                assembled := some (fixHeader seg d (s.slab sl) (decide (d.frameLength ≤ k + 1)) ch.ganged) }
  else requestRead c (s.modChannel c fun ch => { ch with nextIndex := some (k + 1), assembled := some seg })

/-- The bytes of a drain read reach an ASSEMBLING channel (R124). -/
def receiveRead (c : ChanId) (bytes : List Byte) (s : State) : State :=
  match (s.channel c).currentSlab, (s.channel c).nextIndex with
  | some sl, some k =>
    match s.owner sl with
    | some i =>
      match (s.stream i).defn with
      | some d => appendSample c i d sl k bytes s
      | none => s
    | none => s
  | _, _ => s

/-- The effect of a drain read's completion on its channel, by the channel's state (R124, R130). -/
def readReturned (c : ChanId) (bytes : List Byte) (s : State) : State :=
  match (s.channel c).state with
  | .assembling => receiveRead c bytes s
  | .aborting => testAbort c s
  | _ => s

/-- The granted read of a channel, with its address and bytes (R143). -/
def grantedRead (ch : Channel) : Option (Nat × List Byte) := ch.read.bind fun r => r.data.map fun b => (r.addr, b)

/-- DRAIN_READ_COMPLETION (R124, R143). -/
def execDrainReadCompletion (c : ChanId) (s : State) : Host.Outcome State Fault Refusal :=
  match grantedRead (s.channel c) with
  | some (addr, bytes) =>
    .next (readReturned c bytes
      ((setBank (bankOf (lineOf addr)) .ready s).modChannel c fun ch => { ch with read := none }))
  | none => .next s

/-! ### The hand-over (R126, R127) -/

/-- A channel begins the slab at a position of its entry (R123, R127). -/
def beginSlab (c : ChanId) (k : Nat) (s : State) : State :=
  requestRead c (s.modChannel c fun ch =>
    { ch with state := .assembling, markDue := false, current := some k, nextIndex := some 0 })

/-- One frame counted drained (R127). -/
def countDrained (sl : SlabId) (s : State) : State :=
  match s.owner sl with
  | some i => s.count i fun c => { c with epochsDrained := satAdd c.epochsDrained 1 }
  | none => s

/-- A slab's LAST segment was taken: the slab becomes EMPTY, and the channel goes on to the next slab of its entry or
becomes IDLE (R127). -/
def finishSlab (c : ChanId) (s : State) : State :=
  match (s.channel c).entry, (s.channel c).current with
  | some e, some k =>
    let s :=
      match e.slabs[k]? with
      | some sl => emptyOwned sl (countDrained sl s)
      | none => s
    if k + 1 < e.slabs.length then beginSlab c (k + 1) s
    else s.setChannel c { Channel.blank with inTransmission := (s.channel c).inTransmission }
  | _, _ => s

/-- The transmitter has taken the channel's segment, and the channel goes on (R126). -/
def segmentTaken (c : ChanId) (seg : Segment) (s : State) : State :=
  let s := s.modChannel c fun ch => { ch with assembled := none, inTransmission := true }
  if (s.channel c).markDue then beginSlab c 0 s
  else if isLast seg then finishSlab c s
  else requestRead c (s.modChannel c fun ch => { ch with state := .assembling })

/-- A transmission of a channel's segment has ended (R133). -/
def transmissionEnded (source : Option ChanId) (s : State) : State :=
  match source with
  | some c => testAbort c (s.modChannel c fun ch => { ch with inTransmission := false })
  | none => s

end Sys2Proof.Machine
end

