-- ==== Sys2Proof/Machine/Fill.lean ====
section
/-! DEFINITION. The Fill Engine's taking of inbound DATA and MARK (R63 to R84, R90). -/

namespace Sys2Proof.Machine

/-! ### Discards (R5, R22, R64, R65) -/

/-- A segment discarded as UNBOUND (R5, R64). -/
def countUnbound (s : State) : State := s.modPort .a fun q => { q with unbound := satAdd q.unbound 1 }

/-- A segment discarded as NOT_ACCEPTING (R5). -/
def countNotAccepting (i : StreamId) (s : State) : State :=
  s.count i fun c => { c with notAccepting := satAdd c.notAccepting 1 }

/-- A DATA discarded as FORMAT (R65). -/
def countFormat (i : StreamId) (s : State) : State := s.count i fun c => { c with format := satAdd c.format 1 }

/-- A DATA discarded as OVERFLOW (R71). -/
def countOverflow (i : StreamId) (s : State) : State := s.count i fun c => { c with overflow := satAdd c.overflow 1 }

/-- A DATA discarded as FRAGMENTED (R79). -/
def countFragmented (i : StreamId) (s : State) : State :=
  s.count i fun c => { c with fragmented := satAdd c.fragmented 1 }

/-- A DATA discarded as LATE, with its notice unless the last-late epoch holds its epoch (R22). -/
def discardLate (i : StreamId) (e : Epoch) (detail : Nat) (s : State) : State :=
  let s := s.count i fun c => { c with late := satAdd c.late 1 }
  if (s.stream i).lastLate = some e then s
  else raise (streamNotice .late i (some e) detail) (s.modStream i fun v => { v with lastLate := some e })

/-! ### Placement (R78 to R83) -/

/-- The first `k` sample fields of a payload, `n` bytes each (R46). -/
def sampleFields (n : Nat) : Nat → List Byte → List (List Byte)
  | 0, _ => []
  | k + 1, bytes => bytes.take n :: sampleFields n k (bytes.drop n)

/-- A conversion fault counted and flagged (R52). -/
def countFault (i : StreamId) (sl : SlabId) (outOfRange : Bool) (s : State) : State :=
  if outOfRange then
    (s.count i fun c => { c with conversionFaults := satAdd c.conversionFaults 1 }).modSlab sl fun v =>
      { v with faulted := true }
  else s

/-- The coverage list is the single range [0, F) (R80). -/
def isComplete (s : State) (i : StreamId) (sl : SlabId) : Bool :=
  (s.slab sl).coverage == [{ start := 0, stop := s.frameLength i }]

/-- The fill timer restarted at the end of a placement that applies no seal (R83 step 5). -/
def restartFillTimer (i : StreamId) (sl : SlabId) (s : State) : State :=
  s.modSlab sl fun v =>
    { v with fillTimer := startUnlessZero s.now (((s.stream i).defn.map (·.fillTimeout)).getD 0) }

/-- The end of a placement (R83). -/
def endPlacement (pl : Placing) (s : State) : State :=
  let s := { s with fill := { s.fill with placing := none } }
  let s := s.modSlab pl.slab fun v => { v with placing := false }
  if pl.aborted then emptySlab pl.stream pl.slab s
  else if isComplete s pl.stream pl.slab then sealSlab pl.stream pl.slab .complete s
  else
    match (s.slab pl.slab).heldCause with
    | some cause => sealSlab pl.stream pl.slab cause s
    | none => restartFillTimer pl.stream pl.slab s

/-- The write of a stored value at a logical index (R81). -/
def sampleWrite (sl : SlabId) (d : Definition) (w : Walk) (j : Nat) (v : Int) : Write :=
  { addr := sampleAddr sl d.storeWidth (walkAddress w j), bytes := storeBytes d v, slab := some sl }

/-- The samples `rest` of a placement converted and written from logical index `j` on, until the last is handed over or
a write must be held (R81, R82). -/
def placeSamples (pl : Placing) (d : Definition) (w : Walk) : List (List Byte) → Nat → State → State
  | [], _, s => endPlacement pl s
  | b :: rest, j, s =>
    let v := inboundConvert d b
    let s := countFault pl.stream pl.slab v.2 s
    match enqueue (sampleWrite pl.slab d w j v.1) s with
    | some s' => placeSamples pl d w rest (j + 1) s'
    | none =>
      { s with fill := { s.fill with placing := some { pl with next := j + 1, rest := rest },
                                     held := some (sampleWrite pl.slab d w j v.1) } }

/-- A placement begun or continued (R81). -/
def continuePlacing (pl : Placing) (s : State) : State :=
  match (s.stream pl.stream).defn, writeWalkOf s pl.stream pl.slab with
  | some d, some w => placeSamples pl d w pl.rest pl.next s
  | _, _ => endPlacement pl s

/-- A DATA accepted: its counters, and the slab's coverage with its range merged (R78, R80). -/
def countAccepted (i : StreamId) (sl : SlabId) (cov : List IndexRange) (s : State) : State :=
  let newly := coveredCount cov - coveredCount (s.slab sl).coverage
  let s := s.modSlab sl fun v => { v with coverage := cov, placing := true }
  s.count i fun c =>
    { c with segmentsAccepted := satAdd c.segmentsAccepted 1, samplesAccepted := satAdd c.samplesAccepted newly }

/-- A DATA reaches its slab: discarded as FRAGMENTED, or accepted and placed (R78 to R81). -/
def mergeAndPlace (i : StreamId) (d : Definition) (sl : SlabId) (seg : Segment) (s : State) : State :=
  let n := seg.payload.length / (d.inWidth / 8)
  let cov := mergeRange (s.slab sl).coverage seg.first.toNat n
  if Config.coverageDepth < cov.length then countFragmented i s
  else
    continuePlacing
      { stream := i, slab := sl, next := seg.first.toNat, rest := sampleFields (d.inWidth / 8) n seg.payload,
        aborted := false }
      (countAccepted i sl cov s)

/-! ### Finding a slab (R67 to R76) -/

/-- The open slabs of a stream, in ring order (R68). -/
def openSlabs (s : State) (i : StreamId) : List SlabId :=
  (s.stream i).ring.filter fun sl => (s.slab sl).state == .filling

/-- The epoch of a slab. -/
def slabEpoch (s : State) (sl : SlabId) : Epoch := (s.slab sl).epoch.getD 0

/-- Two open slabs, the older first (R68, R90). -/
def olderFirst (s : State) : List SlabId → List SlabId
  | [x, y] => if newer (slabEpoch s x) (slabEpoch s y) then [y, x] else [x, y]
  | l => l

/-- The ring in search order: from the position after the ring pointer, the pointer's own last (R70). -/
def searchOrder (e : Stream) : List SlabId :=
  e.ring.drop (e.ringPointer.getD 0 + 1) ++ e.ring.take (e.ringPointer.getD 0 + 1)

/-- The record of a slab opened for an epoch; its outstanding writes stand (R62, R76). -/
def Slab.opened (v : Slab) (e : Epoch) (version : Option (BitVec 8)) (timer : Timer) : Slab :=
  { Slab.blank with state := .filling, epoch := some e, version := version, outstanding := v.outstanding,
                    fillTimer := timer }

/-- A slab is opened for an epoch (R76). -/
def openSlab (i : StreamId) (d : Definition) (sl : SlabId) (e : Epoch) (s : State) : State :=
  let version := (s.stream i).current.map (·.version)
  let s := s.modSlab sl fun v => v.opened e version (startUnlessZero s.now d.fillTimeout)
  s.modStream i fun v => { v with ringPointer := some (v.ring.idxOf sl) }

/-- A reclaim candidate: FULL, with a holder (R72). A slab sealed for the segment in hand is none (DEDUCED, log entry
12). -/
def isCandidate (s : State) (overtaken : Option SlabId) (sl : SlabId) : Bool :=
  (s.slab sl).state == .full && (s.slab sl).holder.isSome && overtaken != some sl

/-- The candidate taken: the one older than every other, else the first in search order (R72). -/
def chooseCandidate (s : State) (cands : List SlabId) : Option SlabId :=
  match cands.find? fun x => cands.all fun y => y == x || newer (slabEpoch s y) (slabEpoch s x) with
  | some sl => some sl
  | none => cands.head?

/-- A slab detached from its holder (R73, R74). -/
def detachHolder (sl : SlabId) (s : State) : State :=
  match (s.slab sl).holder with
  | some (.gangRecord g e) => detachRecord g e sl s
  | _ => detachEntry sl s

/-- A slab reclaimed for epoch `e`: detached, made EMPTY, counted and reported (R72 to R75). -/
def reclaim (i : StreamId) (sl : SlabId) (e : Epoch) (s : State) : State :=
  let lost := (s.slab sl).epoch
  let s := emptySlab i sl (detachHolder sl s)
  let s := s.count i fun c => { c with epochLost := satAdd c.epochLost 1 }
  raise (streamNotice .epochLost i lost e.toNat) s

/-- A slab is chosen and opened, or the DATA is discarded as OVERFLOW (R70 to R72). -/
def chooseSlab (i : StreamId) (d : Definition) (seg : Segment) (overtaken : Option SlabId) (s : State) : State :=
  let order := searchOrder (s.stream i)
  match order.find? fun sl => (s.slab sl).state == .empty with
  | some sl => mergeAndPlace i d sl seg (openSlab i d sl seg.epoch s)
  | none =>
    match d.overflow with
    | .dropNew => countOverflow i s
    | .reclaim =>
      match chooseCandidate s (order.filter (isCandidate s overtaken)) with
      | some sl => mergeAndPlace i d sl seg (openSlab i d sl seg.epoch (reclaim i sl seg.epoch s))
      | none => countOverflow i s

/-- A LATE discard judged against an open slab (R68 steps 1 and 4). -/
def lateAgainstOpen (i : StreamId) (seg : Segment) (sl : SlabId) (s : State) : State :=
  discardLate i seg.epoch (65536 + (slabEpoch s sl).toNat) s

/-- No FILLING slab holds the epoch: the steps of R68. -/
def openForEpoch (i : StreamId) (d : Definition) (seg : Segment) (s : State) : State :=
  let opens := openSlabs s i
  match opens.find? fun sl => opposite seg.epoch (slabEpoch s sl) with
  | some sl => lateAgainstOpen i seg sl s
  | none =>
    match olderFirst s opens with
    | older :: _ :: _ =>
      if newer seg.epoch (slabEpoch s older) then
        chooseSlab i d seg (some older) (sealSlab i older .overtaken s)
      else lateAgainstOpen i seg older s
    | _ => chooseSlab i d seg none s

/-- A DATA that passed the floor goes to the FILLING slab of its epoch, or one is opened (R67). -/
def placeData (i : StreamId) (d : Definition) (seg : Segment) (s : State) : State :=
  match (openSlabs s i).find? fun sl => (s.slab sl).epoch == some seg.epoch with
  | some sl => mergeAndPlace i d sl seg s
  | none => openForEpoch i d seg s

/-- The floor test (R66). -/
def floorTest (i : StreamId) (d : Definition) (seg : Segment) (s : State) : State :=
  match (s.stream i).floor with
  | some f => if newer seg.epoch f then placeData i d seg s else discardLate i seg.epoch f.toNat s
  | none => placeData i d seg s

/-- The form of a DATA segment is bad (R65). -/
def badForm (d : Definition) (seg : Segment) : Bool :=
  seg.payload.length % (d.inWidth / 8) != 0 || seg.payload.isEmpty ||
    decide (d.frameLength < seg.first.toNat + seg.payload.length / (d.inWidth / 8))

/-- A DATA for an ACTIVE stream (R65). -/
def activeData (i : StreamId) (seg : Segment) (s : State) : State :=
  match (s.stream i).defn with
  | some d => if badForm d seg then countFormat i s else floorTest i d seg s
  | none => s

/-- A DATA segment's fate by its stream's state (R5, R64). -/
def fillData (seg : Segment) (s : State) : State :=
  match streamOf seg.stream.toNat with
  | none => countUnbound s
  | some i =>
    match (s.stream i).state with
    | .empty => countUnbound s
    | .defined => countUnbound s
    | .paused => countNotAccepting i s
    | .stopping => countNotAccepting i s
    | .active => activeData i seg s

/-- A MARK acted on for an ACTIVE stream (R90 steps 1 and 2). -/
def markStream (i : StreamId) (e : Epoch) (s : State) : State :=
  let closing := (olderFirst s (openSlabs s i)).filter fun sl => !newer (slabEpoch s sl) e
  raiseFloor i e (closing.foldl (fun acc sl => sealSlab i sl .marked acc) s)

/-- A MARK segment's fate by its stream's state (R5, R64, R90). -/
def fillMark (seg : Segment) (s : State) : State :=
  match streamOf seg.stream.toNat with
  | none => countUnbound s
  | some i => if (s.stream i).state = .active then markStream i seg.epoch s else countNotAccepting i s

/-! ### The commands -/

/-- The Fill Engine can take a segment: idle, its seal-work list empty, dispatch not halted (R63, R163). -/
def fillReady (s : State) : Bool := fillFree s && s.fill.work.isEmpty && !s.halted

/-- The segment of a kind at the head of Port A's receive list, when the Fill Engine can take it (R63). -/
def fillHead (s : State) (kind : SegKind) : Option Segment :=
  if fillReady s then s.portA.slots.head?.filter fun seg => seg.kind == kind else none

/-- FILL_TAKE_DATA (R64 to R83). -/
def execFillTakeData (s : State) : Host.Outcome State Fault Refusal :=
  match fillHead s .data with
  | some seg => .next (runWork (fillData seg (takeHead .a s)))
  | none => .next s

/-- FILL_TAKE_MARK (R90). -/
def execFillTakeMark (s : State) : Host.Outcome State Fault Refusal :=
  match fillHead s .mark with
  | some seg => .next (runWork (fillMark seg (takeHead .a s)))
  | none => .next s

/-- One hole-fill write of the item at the head of the seal-work list counted (R94). -/
def countHeldHole (s : State) : State :=
  match s.fill.work.head?.bind fun it => s.owner it.slab with
  | some i => countHole i s
  | none => s

/-- The held write has been handed over: the placement or the hole fill goes on (R82, R94). -/
def afterHeld (s : State) : State :=
  let s := { s with fill := { s.fill with held := none } }
  match s.fill.placing with
  | some pl => runWork (continuePlacing pl s)
  | none => runWork (countHeldHole s)

/-- FILL_WRITE_RESUME (R82, R94). -/
def execFillWriteResume (s : State) : Host.Outcome State Fault Refusal :=
  match s.fill.held.bind fun w => enqueue w s with
  | some s' => .next (afterHeld s')
  | none => .next s

end Sys2Proof.Machine
end

