-- ==== Sys2Proof/Machine/Timers.lean ====
section
/-! DEFINITION. The five timers of the part (R1): the fill timer, the align timer, the UNBIND deadline with the abort it
brings (R18), the claim lease and the refresh interval. -/

namespace Sys2Proof.Machine

/-! ### The abort of an UNBIND (R18) -/

/-- The Fill Engine performs the item of a slab: the item is the head and a write of it is held (R94). -/
def itemInProgress (s : State) (sl : SlabId) : Bool :=
  s.fill.placing.isNone && s.fill.held.isSome && s.fill.work.head?.any fun it => it.slab == sl

/-- The hole-fill item of a slab is removed; one in progress enqueues no further writes (R18). -/
def dropItem (sl : SlabId) (s : State) : State :=
  { s with fill := { s.fill with held := if itemInProgress s sl then none else s.fill.held,
                                 work := s.fill.work.filter fun it => it.slab != sl } }

/-- A placement whose stream an abort was applied to (R83). -/
def Placing.abort (pl : Placing) : Placing := { pl with aborted := true }

/-- An abort reaches the slab being placed into: its timer stops, and it becomes EMPTY at the placement's end (R18,
R83). -/
def abortPlacing (sl : SlabId) (s : State) : State :=
  let s := { s with fill := { s.fill with placing := s.fill.placing.map Placing.abort } }
  s.modSlab sl fun v => { v with fillTimer := none }

/-- An abort acts on one slab of the ring (R18). -/
def abortSlab (i : StreamId) (sl : SlabId) (s : State) : State :=
  match (s.slab sl).state with
  | .free => s
  | .empty => s
  | .filling => if (s.slab sl).placing then abortPlacing sl s else emptySlab i sl s
  | .sealing => emptySlab i sl (dropItem sl s)
  | .full => emptySlab i sl (detachEntry sl s)
  | .draining =>
    match (s.slab sl).holder with
    | some (.channel c) => abortChannel c s
    | _ => s

/-- The slabs of a ring that are not EMPTY (R18). -/
def notEmpty (s : State) (ring : List SlabId) : List SlabId := ring.filter fun sl => (s.slab sl).state != .empty

/-- The epoch of the ring's DRAINING slab (R20). -/
def cutEpoch (s : State) (ring : List SlabId) : Option Epoch :=
  (ring.find? fun sl => (s.slab sl).state == .draining).bind fun sl => (s.slab sl).epoch

/-- An abort applied to a STOPPING stream: the count and the cut epoch are fixed, and each slab is acted on (R18). -/
def applyAbort (i : StreamId) (slot : OpSlot) (forced : Bool) (s : State) : State :=
  let ring := (s.stream i).ring
  let detail := OpDetail.unbind forced (notEmpty s ring).length (cutEpoch s ring)
  let s := modOp slot (fun o => { o with deadline := none, detail := detail }) s
  runWork (unbindTest i (ring.foldl (fun acc sl => abortSlab i sl acc) s))

/-! ### The commands -/

/-- FILL_TIMER_EXPIRY (R87, R89). A timer whose expiry is held during a placement is stopped from then on, so QUERY SLABS
reports it as not running (DESIGN CHOICE, log entry 27). -/
def execFillTimerExpiry (sl : SlabId) (s : State) : Host.Outcome State Fault Refusal :=
  match (s.slab sl).fillTimer, s.owner sl with
  | some d, some i =>
    .next (if s.halted then s
      else runWork (reachSlab i .timeout sl ((s.reach d).modSlab sl fun v => { v with fillTimer := none })))
  | _, _ => .next s

/-- The pending records of a gang whose epoch is not newer than `e` (R109). -/
def notNewerRecords (v : Gang) (e : Epoch) : List GangRecord := v.records.filter fun r => !newer r.epoch e

/-- The timer of a gang's pending record. -/
def recordTimer (v : Gang) (e : Epoch) : Timer := (v.records.find? fun r => r.epoch == e).bind (·.timer)

/-- ALIGN_TIMER_EXPIRY (R109). -/
def execAlignTimerExpiry (g : GangId) (e : Epoch) (s : State) : Host.Outcome State Fault Refusal :=
  match recordTimer (s.gang g) e with
  | some d =>
    .next (if s.halted then s
      else completionTest g (releaseMany g (notNewerRecords (s.gang g) e).length (s.reach d)))
  | none => .next s

/-- The pending UNBIND of a stream whose deadline runs (R17). -/
def deadlineOp (i : StreamId) (s : State) : Option (OpSlot × Nat) :=
  (streamOp i s).bind fun o => o.deadline.map fun d => (o.slot, d)

/-- UNBIND_DEADLINE_EXPIRY (R17, R18). -/
def execUnbindDeadlineExpiry (i : StreamId) (s : State) : Host.Outcome State Fault Refusal :=
  match deadlineOp i s with
  | some (slot, d) => .next (if s.halted then s else applyAbort i slot true (s.reach d))
  | none => .next s

/-- LEASE_EXPIRY (R178). -/
def execLeaseExpiry (s : State) : Host.Outcome State Fault Refusal :=
  match s.management.holder, s.management.leaseTimer with
  | some p, some d => .next (raise (claimEndedNotice p) (endClaim (s.reach d)))
  | _, _ => .next s

/-- A slab is in use: FILLING, SEALING, FULL or DRAINING (R147). -/
def Slab.inUse (v : Slab) : Bool :=
  match v.state with
  | .free => false
  | .empty => false
  | .filling => true
  | .sealing => true
  | .full => true
  | .draining => true

/-- The number of slabs in use (R147). -/
def slabsInUse (s : State) : Nat := s.slabs.rows.countP Slab.inUse

/-- The REFRESH_MISS notice (R147). -/
def refreshMissNotice (n : Nat) : Notice :=
  { kind := .refreshMiss, subject := none, epoch := none, detail := BitVec.ofNat 32 n }

/-- A refresh miss: counted, every slab in use marked SUSPECT, noticed (R147). -/
def refreshMiss (s : State) : State :=
  let n := slabsInUse s
  let s := s.modController fun c => { c with refreshMisses := satAdd c.refreshMisses 1 }
  raise (refreshMissNotice n)
    { s with slabs := s.slabs.map fun v => if v.inUse then { v with suspect := true } else v }

/-- The refresh interval timer restarted at its expiry (R145). -/
def restartRefresh (s : State) : State :=
  let s := s.reach (s.controller.refreshTimer.getD s.now)
  s.modController fun c => { c with refreshTimer := startTimer s.now Config.refreshInterval }

/-- REFRESH_INTERVAL_EXPIRY (R145, R147). -/
def execRefreshIntervalExpiry (s : State) : Host.Outcome State Fault Refusal :=
  let s := restartRefresh s
  if s.controller.debt < Config.debtBound then
    .next (s.modController fun c => { c with debt := c.debt + 1 })
  else .next (refreshMiss s)

end Sys2Proof.Machine
end

