-- ==== Sys2Proof/Machine/FrameMemory.lean ====
section
/-! DEFINITION. The Frame Memory Controller: the arbiter's choice (R142 to R144), its grants, and the completions of
writes, reads and refreshes (R137 to R152). -/

namespace Sys2Proof.Machine

/-! ### Claimants (R142) -/

/-- The kinds of claimant, the refresh in its two urgencies as one. -/
inductive Claimant where
  | refresh | managementRead | write | drainRead
  deriving DecidableEq, Repr

/-- A bank is READY (R137). -/
def bankReady (s : State) (b : BankId) : Bool := bank s b == .ready

/-- A refresh is in progress (R146). -/
def refreshing (s : State) : Bool := s.controller.banks.rows.contains .refreshing

/-- The refresh claimant stands, and its bank is READY (R142, R146). -/
def refreshReady (s : State) : Bool :=
  decide (1 ≤ s.controller.debt) && !refreshing s && bankReady s s.controller.bankPointer

/-- The refresh claimant is urgent (R142, R145). -/
def refreshUrgent (s : State) : Bool := decide (Config.urgentDebt ≤ s.controller.debt)

/-- The management-read claimant: the head of the list, not yet granted (R142, R149). -/
def readClaim (s : State) : Option MgmtRead := s.controller.reads.head?.filter fun r => r.data.isNone

/-- The line of the write claimant: the next initialisation line, or that of the ungranted head entry (R142, R152). -/
def writeClaim (s : State) : Option Nat :=
  match s.controller.state with
  | .initializing => if s.controller.progress < Config.lineCount then some s.controller.progress else none
  | .running => (s.controller.queue.head?.filter fun e => !e.granted).map (·.line)

/-- The drain read of a channel, when it is a claimant: requested, not granted, not held (R143). -/
def drainClaim (ch : Channel) : Option DrainRead := ch.read.filter fun r => r.data.isNone && r.hold.isNone

/-- Some drain read is a claimant (R144). -/
def anyDrainClaim (s : State) : Bool := (List.finRange 4).any fun c => (drainClaim (s.channel c)).isSome

/-- A drain read is a claimant and its bank is READY (R143). -/
def drainReady (s : State) (c : ChanId) : Bool :=
  (drainClaim (s.channel c)).any fun r => bankReady s (bankOf (lineOf r.addr))

/-- The channels in rotation, starting after `c` (R143, R169). -/
def rotation (c : ChanId) : List ChanId := [c + 1, c + 2, c + 3, c]

/-- The channel whose drain read is granted next (R143). -/
def drainChoice (s : State) : Option ChanId := (rotation s.controller.lastGranted).find? (drainReady s)

/-- A claimant stands and its bank is READY (R142). -/
def claimReady (s : State) : Claimant → Bool
  | .refresh => refreshReady s
  | .managementRead => (readClaim s).any fun r => bankReady s (bankOf (lineOf r.addr))
  | .write => (writeClaim s).any fun line => bankReady s (bankOf line)
  | .drainRead => (drainChoice s).isSome

/-- The order of the claimants, with the fairness count (R142, R144). -/
def claimOrder (s : State) : List Claimant :=
  let middle : List Claimant :=
    if s.controller.fairness = Config.debtBound then [.managementRead, .drainRead, .write]
    else [.managementRead, .write, .drainRead]
  if refreshUrgent s then .refresh :: middle else middle ++ [.refresh]

/-- The arbiter's choice: the first claimant in the order whose bank is READY (R142). -/
def arbiterChoice (s : State) : Option Claimant := (claimOrder s).find? (claimReady s)

/-! ### Grants -/

/-- The fairness count after a write grant (R144). -/
def fairnessAfterWrite (s : State) : Nat :=
  if anyDrainClaim s then min Config.debtBound (s.controller.fairness + 1) else 0

/-- The head of the write queue granted. -/
def grantHead : List WriteEntry → List WriteEntry
  | e :: rest => { e with granted := true } :: rest
  | [] => []

/-- The bank of a granted access becomes BUSY, and the fairness count follows a write grant (R137, R144). -/
def grantLine (line : Nat) (s : State) : State :=
  let fairness := fairnessAfterWrite s
  setBank (bankOf line) .busy (s.modController fun c => { c with fairness := fairness })

/-- GRANT_WRITE (R141, R142). -/
def execGrantWrite (s : State) : Host.Outcome State Fault Refusal :=
  match s.controller.state, writeClaim s, arbiterChoice s with
  | .running, some line, some .write =>
    .next ((grantLine line s).modController fun c => { c with queue := grantHead c.queue })
  | _, _, _ => .next s

/-- GRANT_INIT_WRITE (R152). -/
def execGrantInitWrite (s : State) : Host.Outcome State Fault Refusal :=
  match s.controller.state, writeClaim s, arbiterChoice s with
  | .initializing, some line, some .write =>
    .next ((grantLine line s).modController fun c =>
      { c with progress := line + 1, initInFlight := c.initInFlight ++ [line] })
  | _, _, _ => .next s

/-- A drain read granted: its bank BUSY, its bytes those of the line at the grant, the fairness count 0 (R143, R144). -/
def grantDrain (c : ChanId) (r : DrainRead) (s : State) : State :=
  let s := setBank (bankOf (lineOf r.addr)) .busy s
  let s := s.modController fun k => { k with fairness := 0, lastGranted := c }
  let bytes := Memory.readBytes s.memory r.addr r.size
  s.modChannel c fun ch => { ch with read := some { r with data := some bytes } }

/-- GRANT_DRAIN_READ (R143). -/
def execGrantDrainRead (s : State) : Host.Outcome State Fault Refusal :=
  match arbiterChoice s, drainChoice s with
  | some .drainRead, some c =>
    match drainClaim (s.channel c) with
    | some r => .next (grantDrain c r s)
    | none => .next s
  | _, _ => .next s

/-- The head of the management-read list granted, with its bytes. -/
def grantRead (bytes : List Byte) : List MgmtRead → List MgmtRead
  | r :: rest => { r with data := some bytes } :: rest
  | [] => []

/-- GRANT_MANAGEMENT_READ (R149). -/
def execGrantManagementRead (s : State) : Host.Outcome State Fault Refusal :=
  match arbiterChoice s, readClaim s with
  | some .managementRead, some r =>
    .next ((setBank (bankOf (lineOf r.addr)) .busy s).modController fun c =>
      { c with reads := grantRead (Memory.readBytes s.memory r.addr r.size) c.reads })
  | _, _ => .next s

/-- GRANT_REFRESH (R146). -/
def execGrantRefresh (s : State) : Host.Outcome State Fault Refusal :=
  if arbiterChoice s = some .refresh then .next (setBank s.controller.bankPointer .refreshing s) else .next s

/-! ### Completions -/

/-- The outstanding-write count of a departed entry's slab falls, and a SEALING slab may become FULL (R95, R140). -/
def departSlab (slab : Option SlabId) (s : State) : State :=
  match slab with
  | some sl => testFullOwned sl (s.modSlab sl fun v => { v with outstanding := v.outstanding - 1 })
  | none => s

/-- A drain read freed of the hold by entry `n` (R143). -/
def Channel.unhold (n : Nat) (ch : Channel) : Channel :=
  { ch with read := ch.read.map fun r => if r.hold = some n then { r with hold := none } else r }

/-- Drain reads held by entry `n` are held no longer (R143). -/
def releaseHolds (n : Nat) (s : State) : State := { s with channels := s.channels.map (Channel.unhold n) }

/-- The read of a PEEK whose hazard has cleared (R148). -/
def HeldPeek.toRead (h : HeldPeek) : MgmtRead :=
  { addr := h.addr, size := h.size, owner := .tableEntry h.slot, data := none }

/-- PEEKs held by entry `n` have their reads appended, in the order taken (R148). -/
def releasePeeks (n : Nat) (s : State) : State :=
  s.modController fun c =>
    { c with reads := c.reads ++ (c.heldPeeks.filter fun h => h.entry == n).map HeldPeek.toRead,
             heldPeeks := c.heldPeeks.filter fun h => h.entry != n }

/-- A SYNC completes (R151). -/
def completeSync (s : State) (o : PendingOp) : State :=
  lateReply o.port o.discard (replySegment o.tag RequestKind.sync.code .done []) (releaseOp o.slot s)

/-- The SYNCs that recorded entry `n` complete, in the order taken (R151). -/
def completeSyncs (n : Nat) (s : State) : State :=
  (s.management.ops.filter fun o => o.detail == .sync n).foldl completeSync s

/-- The effects of an entry's departure, in the order of R141 (log entry 6). -/
def depart (e : WriteEntry) (s : State) : State :=
  completeSyncs e.number (releasePeeks e.number (releaseHolds e.number (departSlab e.slab s)))

/-- The head entry's bytes reach memory, its bank becomes READY and it leaves the queue (R141). -/
def retireHead (e : WriteEntry) (s : State) : State :=
  let s := { s with memory := Memory.writeLine s.memory e.line e.image }
  (setBank (bankOf e.line) .ready s).modController fun c => { c with queue := c.queue.tail }

/-- WRITE_COMPLETION (R141). -/
def execWriteCompletion (s : State) : Host.Outcome State Fault Refusal :=
  match s.controller.queue.head?.filter fun e => e.granted with
  | some e => .next (depart e (retireHead e s))
  | none => .next s

/-- The controller becomes RUNNING when the last line has been granted and no initialisation write is in progress
(R152). -/
def Controller.testRunning (c : Controller) : Controller :=
  if c.progress = Config.lineCount ∧ c.initInFlight = [] then { c with state := .running } else c

/-- An initialisation write of a line completes (R152). -/
def completeInit (line : Nat) (s : State) : State :=
  let s := { s with memory := Memory.zeroLine s.memory line }
  (setBank (bankOf line) .ready s).modController fun c =>
    { c with initInFlight := c.initInFlight.filter fun l => l != line }.testRunning

/-- INIT_WRITE_COMPLETION (R152). -/
def execInitWriteCompletion (b : BankId) (s : State) : Host.Outcome State Fault Refusal :=
  match s.controller.initInFlight.find? fun line => bankOf line == b with
  | some line => .next (completeInit line s)
  | none => .next s

/-- The REPLY of a PEEK: the bytes, most significant at the lowest address (R149). -/
def peekReply (tag : BitVec 16) (bytes : List Byte) : Segment :=
  replySegment tag RequestKind.peek.code .done bytes

/-- A PEEK without a hazard completes, and the Management Unit waits no longer (R148, R149). -/
def finishDirect (bytes : List Byte) (s : State) : State :=
  match s.management.wait with
  | .peek p tag discard =>
    lateReply p discard (peekReply tag bytes) (s.modManagement fun m => { m with wait := .nothing })
  | _ => s

/-- A PEEK with a table entry completes (R149). -/
def finishEntry (slot : OpSlot) (bytes : List Byte) (s : State) : State :=
  match findOp slot s with
  | some o => lateReply o.port o.discard (peekReply o.tag bytes) (releaseOp slot s)
  | none => s

/-- What the completion of a management read brings, by the read's owner (R149). -/
def finishRead (owner : ReadOwner) (bytes : List Byte) (s : State) : State :=
  match owner with
  | .direct => finishDirect bytes s
  | .tableEntry slot => finishEntry slot bytes s
  | .discarded => s

/-- The granted head of the management-read list, with its bytes. -/
def grantedHead (reads : List MgmtRead) : Option (MgmtRead × List Byte) :=
  reads.head?.bind fun r => r.data.map fun bytes => (r, bytes)

/-- MANAGEMENT_READ_COMPLETION (R149). -/
def execManagementReadCompletion (s : State) : Host.Outcome State Fault Refusal :=
  match grantedHead s.controller.reads with
  | some (r, bytes) =>
    .next (finishRead r.owner bytes
      ((setBank (bankOf (lineOf r.addr)) .ready s).modController fun c => { c with reads := c.reads.tail }))
  | none => .next s

/-- A refresh completes: the bank READY, the debt one less, the pointer one on (R146). -/
def completeRefresh (s : State) : State :=
  (setBank s.controller.bankPointer .ready s).modController fun c =>
    { c with debt := c.debt - 1, bankPointer := c.bankPointer + 1 }

/-- REFRESH_COMPLETION (R146). -/
def execRefreshCompletion (s : State) : Host.Outcome State Fault Refusal :=
  if bank s s.controller.bankPointer = .refreshing then .next (completeRefresh s) else .next s

end Sys2Proof.Machine
end

