-- ==== Sys2Proof/Machine/Ports.lean ====
section
/-! DEFINITION. The two link ports: their UP and DOWN events (R155, R156), the judgement of a received segment (R159 to
R162, R166) and the transmitters (R165, R167 to R169). -/

namespace Sys2Proof.Machine

/-! ### Link state (R155, R156, R174) -/

/-- The data-class slots of a port (R154). -/
def Port.dataSlots : Port → Nat
  | .a => 24
  | .b => 0

/-- The control-class slots of a port (R154). -/
def controlSlots : Nat := 8

/-- A port's fields at its UP event (R155). -/
def PortState.raised (q : PortState) (p : Port) : PortState :=
  { q with link := .up, slots := [], owedData := Port.dataSlots p, owedControl := controlSlots, advertisedData := 0,
           advertisedControl := 0, partnerData := 0, partnerControl := 0, sending := none }

/-- UP_EVENT (R155). -/
def execUpEvent (p : Port) (s : State) : Host.Outcome State Fault Refusal :=
  match (s.port p).link with
  | .down => .next (raiseLink .portUp p (s.modPort p fun q => q.raised p))
  | .up => .next s

/-- A port's fields after a DOWN event: its counters stand, and its queued notices are lost (R156, R190). -/
def PortState.dropped (q : PortState) : PortState :=
  { q with link := .down, slots := [], owedData := 0, owedControl := 0, advertisedData := 0, advertisedControl := 0,
           partnerData := 0, partnerControl := 0, sending := none, replies := [], notices := [],
           lost := satAdd q.lost q.notices.length }

/-- An operation taken from a port that went DOWN is marked so that its REPLY is discarded (R174, R175). -/
def PendingOp.markFor (p : Port) (o : PendingOp) : PendingOp := if o.port = p then { o with discard := true } else o

/-- The request that the Management Unit waits on, marked likewise (R174). -/
def MgmtWait.markFor (p : Port) : MgmtWait → MgmtWait
  | .nothing => .nothing
  | .peek q tag discard => .peek q tag (discard || decide (q = p))
  | .poke q tag discard w => .poke q tag (discard || decide (q = p)) w

/-- The RESET in progress, marked likewise (R186). -/
def WarmReset.markFor (p : Port) (r : WarmReset) : WarmReset := { r with discard := r.discard || decide (r.port = p) }

/-- Every request taken from a port is marked at its DOWN event (R174). -/
def markDiscards (p : Port) (s : State) : State :=
  s.modManagement fun m =>
    { m with ops := m.ops.map (PendingOp.markFor p), wait := m.wait.markFor p,
             warmReset := m.warmReset.map (WarmReset.markFor p) }

/-- The claim ends when its holder's port goes DOWN (R156, R178). -/
def dropClaim (p : Port) (s : State) : State :=
  if s.management.holder = some p then raise (claimEndedNotice p) (endClaim s) else s

/-- A DOWN event of an UP port (R156). -/
def goDown (p : Port) (s : State) : State :=
  let source := (s.port p).sending.bind (·.source)
  let s := markDiscards p (s.modPort p PortState.dropped)
  raiseLink .portDown p (dropClaim p (transmissionEnded source s))

/-- DOWN_EVENT (R156). -/
def execDownEvent (p : Port) (s : State) : Host.Outcome State Fault Refusal :=
  match (s.port p).link with
  | .up => .next (goDown p s)
  | .down => .next s

/-! ### Receiving (R159 to R162, R166) -/

/-- A port accepts segments of a kind (R159). -/
def accepts (p : Port) (k : SegKind) : Bool :=
  match p, k with
  | _, .control => true
  | _, .credit => true
  | .a, .data => true
  | .a, .mark => true
  | _, _ => false

/-- A misdirected segment: counted, and a control credit spent on a REPLY or NOTICE owed again (R159). -/
def PortState.misdirect (q : PortState) (kind : Option SegKind) : PortState :=
  let q := { q with misdirected := satAdd q.misdirected 1 }
  if (kind = some .reply ∨ kind = some .notice) ∧ 0 < q.advertisedControl then
    { q with advertisedControl := q.advertisedControl - 1, owedControl := q.owedControl + 1 }
  else q

/-- The advertised count of a class (R154). -/
def PortState.advertised (q : PortState) (dataClass : Bool) : Nat :=
  if dataClass then q.advertisedData else q.advertisedControl

/-- One advertised credit of a class consumed (R160). -/
def PortState.consume (q : PortState) (dataClass : Bool) : PortState :=
  if dataClass then { q with advertisedData := q.advertisedData - 1 }
  else { q with advertisedControl := q.advertisedControl - 1 }

/-- A segment with its payload check compared: held in a slot, or counted and its credit owed back (R161, R162). -/
def PortState.hold (q : PortState) (seg : Segment) (good : Bool) : PortState :=
  if good then { q with slots := q.slots ++ [seg] }
  else { q with checkFailures := satAdd q.checkFailures 1 }.owe seg.kind.dataClass

/-- The credit test of a DATA, MARK or CONTROL segment (R160). -/
def PortState.testCredit (q : PortState) (seg : Segment) (good : Bool) : PortState :=
  if 0 < q.advertised seg.kind.dataClass then (q.consume seg.kind.dataClass).hold seg good
  else { q with overruns := satAdd q.overruns 1 }

/-- A partner credit count after an increment: 65,535 at most (R166). -/
def addCredits (count increment : Nat) : Nat := min 65535 (count + increment)

/-- A CREDIT segment acted on (R166). -/
def PortState.credited (q : PortState) (p : Port) (seg : Segment) : PortState :=
  { q with partnerControl := addCredits q.partnerControl seg.first.toNat,
           partnerData := if p = .b then addCredits q.partnerData seg.epoch.toNat else q.partnerData }

/-- The effect of a whole segment with a good header on its port, by its kind (R159 steps 3 to 5). -/
def PortState.receive (q : PortState) (p : Port) (bytes : List Byte) : PortState :=
  match (SegKind.ofCode (rxKind bytes)).filter (accepts p) with
  | some .credit => q.credited p (rxSegment .credit bytes)
  | some k => q.testCredit (rxSegment k bytes) (rxPayloadGood bytes)
  | none => q.misdirect (SegKind.ofCode (rxKind bytes))

/-- A received header makes the port declare framing loss (R159 steps 1 and 2). -/
def framingLoss (bytes : List Byte) : Bool := !rxHeaderGood bytes || decide (Config.payloadBytes < rxLength bytes)

/-- The judgement of a received segment by an UP port (R159). Bytes that are not one whole segment are no segment (log
entry 11). -/
def judge (p : Port) (bytes : List Byte) (s : State) : State :=
  if bytes.length < 12 then s
  else if framingLoss bytes then goDown p s
  else if rxWhole bytes then s.modPort p fun q => q.receive p bytes
  else s

/-- RECEIVE_SEGMENT (R159 to R162, R166): a DOWN port receives nothing (R154). -/
def execReceiveSegment (p : Port) (bytes : List Byte) (s : State) : Host.Outcome State Fault Refusal :=
  match (s.port p).link with
  | .up => .next (judge p bytes s)
  | .down => .next s

/-! ### Sending (R165, R167 to R169) -/

/-- The sources of a transmitter (R168). -/
inductive Source where
  | credit | reply | notice | drain
  deriving DecidableEq, Repr

/-- The data-class credits a port may advertise: Port A's wait until the controller is RUNNING (R165). -/
def dataIncrement (p : Port) (s : State) : Nat :=
  if p = .a ∧ s.controller.state = .initializing then 0 else (s.port p).owedData

/-- A CREDIT segment is due (R165). -/
def creditDue (p : Port) (s : State) : Bool := decide (0 < dataIncrement p s) || decide (0 < (s.port p).owedControl)

/-- The segment a channel offers (R126). -/
def Channel.offered (ch : Channel) : Option Segment := if ch.state = .waitingSend then ch.assembled else none

/-- The channel whose segment Port B takes next (R169). -/
def sendChannel (s : State) : Option ChanId :=
  (rotation s.lastDataChannel).find? fun c => (s.channel c).offered.isSome

/-- A source has an eligible segment (R168). -/
def sourceReady (p : Port) (s : State) : Source → Bool
  | .credit => creditDue p s
  | .reply => !(s.port p).replies.isEmpty && decide (0 < (s.port p).partnerControl)
  | .notice => !(s.port p).notices.isEmpty && decide (0 < (s.port p).partnerControl)
  | .drain => p == .b && decide (0 < (s.port p).partnerData) && (sendChannel s).isSome

/-- The port's transmitter is free and its link UP (R154, R167). -/
def sendFree (p : Port) (s : State) : Bool := (s.port p).link == .up && (s.port p).sending.isNone

/-- The source a free transmitter takes from, in the order of precedence (R168). -/
def sendChoice (p : Port) (s : State) : Option Source :=
  if sendFree p s then [Source.credit, .reply, .notice, .drain].find? (sourceReady p s) else none

/-- A port's fields when its CREDIT is taken (R165). -/
def PortState.sendCredit (q : PortState) (data : Nat) : PortState :=
  { q with owedData := q.owedData - data, advertisedData := q.advertisedData + data, owedControl := 0,
           advertisedControl := q.advertisedControl + q.owedControl,
           sending := some { bytes := (creditSegment data q.owedControl).wire, source := none } }

/-- SEND_CREDIT (R165). -/
def execSendCredit (p : Port) (s : State) : Host.Outcome State Fault Refusal :=
  if sendChoice p s = some .credit then
    .next (s.modPort p fun q => q.sendCredit (dataIncrement p s))
  else .next s

/-- A port's fields when its oldest REPLY is taken (R167). -/
def PortState.sendReply (q : PortState) : PortState :=
  match q.replies with
  | seg :: rest =>
    { q with replies := rest, partnerControl := q.partnerControl - 1,
             sending := some { bytes := seg.wire, source := none } }
  | [] => q

/-- SEND_REPLY (R167). -/
def execSendReply (p : Port) (s : State) : Host.Outcome State Fault Refusal :=
  if sendChoice p s = some .reply then .next (s.modPort p PortState.sendReply) else .next s

/-- A port's fields when its head NOTICE is taken: it carries the lost count, which becomes 0 (R191). -/
def PortState.sendNotice (q : PortState) : PortState :=
  match q.notices with
  | n :: rest =>
    { q with notices := rest, partnerControl := q.partnerControl - 1, lost := 0,
             sending := some { bytes := (noticeSegment n q.lost).wire, source := none } }
  | [] => q

/-- SEND_NOTICE (R167, R191). -/
def execSendNotice (p : Port) (s : State) : Host.Outcome State Fault Refusal :=
  if sendChoice p s = some .notice then .next (s.modPort p PortState.sendNotice) else .next s

/-- A port's fields when a channel's segment is taken against a data-class credit (R167). -/
def PortState.sendData (q : PortState) (c : ChanId) (seg : Segment) : PortState :=
  { q with partnerData := q.partnerData - 1, sending := some { bytes := seg.wire, source := some c } }

/-- Port B takes a channel's segment, and the channel goes on (R126, R167, R169). -/
def sendDrain (c : ChanId) (seg : Segment) (s : State) : State :=
  segmentTaken c seg { s with portB := s.portB.sendData c seg, lastDataChannel := c }

/-- SEND_DRAIN_SEGMENT (R126, R169). -/
def execSendDrainSegment (s : State) : Host.Outcome State Fault Refusal :=
  match sendChoice .b s, sendChannel s with
  | some .drain, some c =>
    match (s.channel c).offered with
    | some seg => .next (sendDrain c seg s)
    | none => .next s
  | _, _ => .next s

/-- SEND_COMPLETION (R133, R167). -/
def execSendCompletion (p : Port) (s : State) : Host.Outcome State Fault Refusal :=
  match (s.port p).sending with
  | some t => .next (transmissionEnded t.source (s.modPort p fun q => { q with sending := none }))
  | none => .next s

end Sys2Proof.Machine
end

