-- ==== Sys2Proof/Machine/Requests.lean ====
section
/-! DEFINITION. The taking of a request (R163, R164, R173), the checks common to requests (R6, R172) and their REPLYs
(R171). -/

namespace Sys2Proof.Machine

/-- A request taken: its port, its tag and its payload (R171). -/
structure Request where
  port : Port
  tag : BitVec 16
  payload : List Byte
  deriving DecidableEq, Repr

/-! ### Taking (R164, R173) -/

/-- The CONTROL at the head of a port's receive list (R163). -/
def controlHead (p : Port) (s : State) : Option Segment := (s.port p).slots.head?.filter fun seg => seg.kind == .control

/-- The reservations of the operations taken from a port whose REPLYs are still to be sent (R173). -/
def opReservations (p : Port) (ops : List PendingOp) : Nat := ops.countP fun o => o.port == p && !o.discard

/-- The reservation of the request that the Management Unit waits on (R173). -/
def waitReservation (p : Port) : MgmtWait → Nat
  | .nothing => 0
  | .peek q _ discard => if q = p ∧ discard = false then 1 else 0
  | .poke q _ discard _ => if q = p ∧ discard = false then 1 else 0

/-- The reservation of a RESET in progress (R173). -/
def resetReservation (p : Port) : Option WarmReset → Nat
  | some r => if r.port = p ∧ r.discard = false then 1 else 0
  | none => 0

/-- A port's reply reservations (R173). -/
def reservations (p : Port) (s : State) : Nat :=
  (s.port p).replies.length + opReservations p s.management.ops + waitReservation p s.management.wait +
    resetReservation p s.management.warmReset

/-- A port has a request that may be taken: a CONTROL at its head and fewer than 8 reservations (R173). -/
def canTake (p : Port) (s : State) : Bool :=
  (controlHead p s).isSome && decide (reservations p s < Config.replyDepth)

/-- The Management Unit is ready to take a request (R173). -/
def mgmtReady (s : State) : Bool := s.management.wait == .nothing && !s.halted

/-- The Management Unit takes from this port: the other has none to take, or was taken from last (R164, R173). -/
def mgmtTakes (p : Port) (s : State) : Bool :=
  mgmtReady s && canTake p s && (!canTake p.other s || s.management.lastPort == p.other)

/-- The request of a port that the Management Unit takes next. -/
def nextRequest (p : Port) (s : State) : Option Request :=
  if mgmtTakes p s then (controlHead p s).map fun seg => { port := p, tag := seg.tag, payload := seg.payload } else none

/-- A request is taken: its slot is freed, and its port is the last one taken (R162, R164). -/
def takeRequest (p : Port) (s : State) : State := (takeHead p s).modManagement fun m => { m with lastPort := p }

/-- The request kind of a payload, if the catalogue has it (R172). -/
def requestKind (payload : List Byte) : Option RequestKind := payload.head?.bind RequestKind.ofCode

/-! ### Answers and common checks (R171, R172) -/

/-- A request answered at once (R171, R173). -/
def answer (r : Request) (k : RequestKind) (st : Status) (results : List Byte) (s : State) : State :=
  pushReply r.port (replySegment r.tag k.code st results) s

/-- A request refused without results. -/
def refuse (r : Request) (k : RequestKind) (st : Status) (s : State) : State := answer r k st [] s

/-- A request needs the claim; the counter readings do with the clear option (R172, R179). -/
def needsClaim (k : RequestKind) (payload : List Byte) : Bool :=
  match k with
  | .identify | .claim | .renew | .release | .queryStream | .querySlabs | .queryGang | .peek | .sync => false
  | .readDeviceCounters => field payload 1 1 == 1
  | .readStreamCounters => field payload 2 1 == 1
  | .reset | .setNoticeRoute | .define | .clear | .bind | .pause | .resume | .unbind | .flush | .loadWalk
  | .commitLayout | .discardStaging | .formGang | .dissolveGang | .poke => true

/-- A request that the common check refuses while the controller is INITIALIZING; PEEK and POKE make that check after
their own (R172). -/
def refusedStarting (k : RequestKind) : Bool := k != .identify && k != .peek && k != .poke

/-- The controller is INITIALIZING. -/
def initializing (s : State) : Bool := s.controller.state == .initializing

/-- The first of the common checks 2 to 4 that a request fails (R172). -/
def commonRefusal (k : RequestKind) (r : Request) (s : State) : Option Status :=
  if r.payload.length ≠ expectedLength k r.payload then some .badParam
  else if needsClaim k r.payload ∧ s.management.holder ≠ some r.port then some .noClaim
  else if refusedStarting k && initializing s then some .starting
  else none

/-- A request of a kind, when the Management Unit takes it next from a port: the common checks, then its own rule. A
request that is not the next one taken leaves the state as it is (log entry 1). -/
def serve (k : RequestKind) (own : Request → State → State) (p : Port) (s : State) : State :=
  match (nextRequest p s).filter fun r => requestKind r.payload == some k with
  | some r =>
    match commonRefusal k r (takeRequest p s) with
    | some st => refuse r k st (takeRequest p s)
    | none => own r (takeRequest p s)
  | none => s

/-- The checks of R6 on a request that changes a stream: its number, its pending operation, its state. -/
def onStream (k : RequestKind) (permitted : StreamState → Bool) (own : StreamId → Request → State → State)
    (r : Request) (s : State) : State :=
  match streamOf (field r.payload 1 1) with
  | none => refuse r k .badParam s
  | some i =>
    if (s.stream i).pendingOp.isSome then refuse r k .busy s
    else if permitted (s.stream i).state then own i r s
    else refuse r k .badState s

/-- UNKNOWN_REQUEST (R172): an empty payload, or a kind that the catalogue does not have. -/
def execUnknownRequest (p : Port) (s : State) : Host.Outcome State Fault Refusal :=
  match (nextRequest p s).filter fun r => (requestKind r.payload).isNone with
  | some r => .next (pushReply p (replySegment r.tag (r.payload.headD 0) .unknown []) (takeRequest p s))
  | none => .next s

end Sys2Proof.Machine
end

