-- ==== Sys2Proof/Machine/Management.lean ====
section
/-! DEFINITION. The requests on the part as a whole: IDENTIFY, the claim, the notice routes and the device counters
(R176, R177, R180, R181, R184). -/

namespace Sys2Proof.Machine

/-! ### IDENTIFY (R180) -/

/-- The results of IDENTIFY (R180, R187). -/
def identifyResults (p : Port) (s : State) : List Byte :=
  beBytes 2 0x7A31 ++ beBytes 2 0x4620 ++ [1, 64, 16] ++ beBytes 2 1024 ++
    [4, s.controller.state.code, holderCode s.management.holder, Port.code p]

/-- IDENTIFY's own rule (R180). -/
def identify (r : Request) (s : State) : State := answer r .identify .done (identifyResults r.port s) s

/-- IDENTIFY (R180). -/
def execIdentify (p : Port) (s : State) : Host.Outcome State Fault Refusal := .next (serve .identify identify p s)

/-! ### The claim (R176, R177) -/

/-- The claim is held by a port for a lease in milliseconds, and its timer starts (R176). -/
def holdClaim (p : Port) (lease : Nat) (s : State) : State :=
  s.modManagement fun m =>
    { m with holder := some p, lease := some lease, leaseTimer := startTimer s.now (lease * Config.millisecond) }

/-- The time remaining on the lease in whole milliseconds, rounded up (R176). -/
def leaseRemaining (s : State) : Nat :=
  (remaining s.now s.management.leaseTimer + Config.millisecond - 1) / Config.millisecond

/-- The results of a CLAIM refused HELD (R176). -/
def heldResults (s : State) : List Byte := beBytes 2 (leaseRemaining s) ++ beBytes 2 (s.management.lease.getD 0)

/-- A CLAIM of a permitted lease (R176). -/
def grantClaim (lease : Nat) (r : Request) (s : State) : State :=
  if s.management.holder = some r.port.other then answer r .claim .held (heldResults s) s
  else answer r .claim .done (beBytes 2 lease) (holdClaim r.port lease s)

/-- CLAIM's own rule (R176). -/
def claim (r : Request) (s : State) : State :=
  let lease := field r.payload 1 2
  if 100 ≤ lease ∧ lease ≤ 60000 then grantClaim lease r s else refuse r .claim .badParam s

/-- CLAIM (R176). -/
def execClaim (p : Port) (s : State) : Host.Outcome State Fault Refusal := .next (serve .claim claim p s)

/-- RENEW's own rule (R177). -/
def renew (r : Request) (s : State) : State :=
  if s.management.holder = some r.port then
    let lease := s.management.lease.getD 0
    answer r .renew .done (beBytes 2 lease) (holdClaim r.port lease s)
  else refuse r .renew .noClaim s

/-- RENEW (R177). -/
def execRenew (p : Port) (s : State) : Host.Outcome State Fault Refusal := .next (serve .renew renew p s)

/-- RELEASE's own rule (R177, R178). -/
def release (r : Request) (s : State) : State :=
  if s.management.holder = some r.port then answer r .release .done [] (endClaim s)
  else refuse r .release .noClaim s

/-- RELEASE (R177). -/
def execRelease (p : Port) (s : State) : Host.Outcome State Fault Refusal := .next (serve .release release p s)

/-! ### Notice routes (R181) -/

/-- The place in the route table of a notice-kind code: the routed kinds are coded 1 to 8 (R181, R189). -/
def routeSlot (code : Nat) : Option (Fin 8) := if h : 1 ≤ code ∧ code ≤ 8 then some ⟨code - 1, by omega⟩ else none

/-- SET NOTICE ROUTE's own rule (R181). -/
def setNoticeRoute (r : Request) (s : State) : State :=
  match routeSlot (field r.payload 1 1), Route.ofCode (field r.payload 2 1) with
  | some i, some route =>
    answer r .setNoticeRoute .done [(s.routes.get i).code] { s with routes := s.routes.set i route }
  | _, _ => refuse r .setNoticeRoute .badParam s

/-- SET_NOTICE_ROUTE (R181). -/
def execSetNoticeRoute (p : Port) (s : State) : Host.Outcome State Fault Refusal :=
  .next (serve .setNoticeRoute setNoticeRoute p s)

/-! ### Device counters (R184, R193) -/

/-- The device counters in the order they are reported (R193). -/
def deviceCounters (s : State) : List Byte :=
  [s.portA.overruns, s.portA.checkFailures, s.portA.misdirected, s.portA.unbound, s.portB.overruns,
   s.portB.checkFailures, s.portB.misdirected, s.controller.refreshMisses].flatMap fun x => beBytes 4 x.toNat

/-- A port's counters at 0 (R184, R186). -/
def PortState.clearCounters (q : PortState) : PortState :=
  { q with overruns := 0, checkFailures := 0, misdirected := 0, unbound := 0 }

/-- The device counters at 0 (R184, R186). -/
def clearDeviceCounters (s : State) : State :=
  { s with portA := s.portA.clearCounters, portB := s.portB.clearCounters,
           controller := { s.controller with refreshMisses := 0 } }

/-- READ DEVICE COUNTERS' own rule (R184). -/
def readDeviceCounters (r : Request) (s : State) : State :=
  match field r.payload 1 1 with
  | 0 => answer r .readDeviceCounters .done (deviceCounters s) s
  | 1 => answer r .readDeviceCounters .done (deviceCounters s) (clearDeviceCounters s)
  | _ => refuse r .readDeviceCounters .badParam s

/-- READ_DEVICE_COUNTERS (R184). -/
def execReadDeviceCounters (p : Port) (s : State) : Host.Outcome State Fault Refusal :=
  .next (serve .readDeviceCounters readDeviceCounters p s)

end Sys2Proof.Machine
end

