-- ==== Sys2Proof/Machine/StreamRequests.lean ====
section
/-! DEFINITION. The requests that change a stream: DEFINE to FLUSH (R7 to R16, R91), and the staging and commit of
layouts (R33 to R42). -/

namespace Sys2Proof.Machine

/-! ### The states in which a request is taken (R6) -/

/-- DEFINE is taken on EMPTY and DEFINED. -/
def definable : StreamState → Bool
  | .empty => true | .defined => true | .active => false | .paused => false | .stopping => false

/-- CLEAR and BIND are taken on DEFINED. -/
def isDefined : StreamState → Bool
  | .empty => false | .defined => true | .active => false | .paused => false | .stopping => false

/-- PAUSE is taken on ACTIVE. -/
def isActive : StreamState → Bool
  | .empty => false | .defined => false | .active => true | .paused => false | .stopping => false

/-- RESUME is taken on PAUSED. -/
def isPaused : StreamState → Bool
  | .empty => false | .defined => false | .active => false | .paused => true | .stopping => false

/-- UNBIND and FLUSH are taken on ACTIVE and PAUSED; only such a stream may be a gang member (R15, R91, R102). -/
def isBound : StreamState → Bool
  | .empty => false | .defined => false | .active => true | .paused => true | .stopping => false

/-- LOAD WALK, COMMIT LAYOUT and DISCARD STAGING are taken on DEFINED, ACTIVE and PAUSED (R33, R39, R42). -/
def hasLayout : StreamState → Bool
  | .empty => false | .defined => true | .active => true | .paused => true | .stopping => false

/-! ### DEFINE, CLEAR, BIND (R7 to R11) -/

/-- A stream with a new definition: DEFINED, the identity layout current, nothing staged (R8). -/
def Stream.defining (e : Stream) (d : Definition) : Stream :=
  { e with state := .defined, defn := some d, current := some (identityLayout d.frameLength), previous := none,
           stagedWrite := none, stagedRead := none }

/-- DEFINE on a stream that admits it (R7, R8). -/
def defineStream (i : StreamId) (r : Request) (s : State) : State :=
  match (definitionOf r.payload).filter definitionOk with
  | some d => answer r .define .done [] (s.modStream i fun e => e.defining d)
  | none => refuse r .define .badParam s

/-- DEFINE (R8). -/
def execDefine (p : Port) (s : State) : Host.Outcome State Fault Refusal :=
  .next (serve .define (onStream .define definable defineStream) p s)

/-- A cleared stream: EMPTY, without definition and layouts; its counters stand (R9). -/
def Stream.cleared (e : Stream) : Stream :=
  { e with state := .empty, defn := none, current := none, previous := none, stagedWrite := none, stagedRead := none }

/-- CLEAR on a DEFINED stream (R9). -/
def clearStream (i : StreamId) (r : Request) (s : State) : State :=
  answer r .clear .done [] (s.modStream i Stream.cleared)

/-- CLEAR (R9). -/
def execClear (p : Port) (s : State) : Host.Outcome State Fault Refusal :=
  .next (serve .clear (onStream .clear isDefined clearStream) p s)

/-- A slab allocated at BIND: EMPTY with every other field at rest, its outstanding writes kept (R11). -/
def Slab.allocated (v : Slab) : Slab := { Slab.blank with state := .empty, outstanding := v.outstanding }

/-- A stream with its ring (R11). -/
def Stream.bound (e : Stream) (ring : List SlabId) : Stream :=
  { e with state := .active, ring := ring, ringPointer := some (ring.length - 1), floor := none, lastLate := none }

/-- The ring of a stream taken from the head of the free list (R11). -/
def bindRing (i : StreamId) (n : Nat) (s : State) : State :=
  let ring := s.freeList.take n
  let s := { s with freeList := s.freeList.drop n }
  modSlabs Slab.allocated ring (s.modStream i fun e => e.bound ring)

/-- BIND on a DEFINED stream (R11). -/
def bindStream (i : StreamId) (r : Request) (s : State) : State :=
  let n := ((s.stream i).defn.map (·.ringSize)).getD 0
  if s.freeList.length < n then refuse r .bind .noSlabs s else answer r .bind .done [] (bindRing i n s)

/-- BIND (R11). -/
def execBind (p : Port) (s : State) : Host.Outcome State Fault Refusal :=
  .next (serve .bind (onStream .bind isDefined bindStream) p s)

/-! ### PAUSE and RESUME (R13, R14) -/

/-- A stream in another state of its life. -/
def setStreamState (i : StreamId) (v : StreamState) (s : State) : State :=
  s.modStream i fun e => { e with state := v }

/-- PAUSE on an ACTIVE stream: PAUSED at once, its FILLING slabs sealed or their seals held (R13). -/
def pauseStream (i : StreamId) (r : Request) (s : State) : State :=
  answer r .pause .done [] (runWork (reachRing i .paused (setStreamState i .paused s)))

/-- PAUSE (R13). -/
def execPause (p : Port) (s : State) : Host.Outcome State Fault Refusal :=
  .next (serve .pause (onStream .pause isActive pauseStream) p s)

/-- RESUME on a PAUSED stream (R14). -/
def resumeStream (i : StreamId) (r : Request) (s : State) : State :=
  answer r .resume .done [] (setStreamState i .active s)

/-- RESUME (R14). -/
def execResume (p : Port) (s : State) : Host.Outcome State Fault Refusal :=
  .next (serve .resume (onStream .resume isPaused resumeStream) p s)

/-! ### UNBIND (R15, R16, R18) -/

/-- The modes of UNBIND (R15). -/
inductive UnbindMode where
  | graceful (deadline : Nat)
  | abort
  deriving DecidableEq, Repr

/-- The mode that an UNBIND's payload names, if its deadline fits it (R15, R187). -/
def unbindMode (payload : List Byte) : Option UnbindMode :=
  match field payload 2 1, field payload 3 2 with
  | 0, n => if 1 ≤ n then some (.graceful n) else none
  | 1, n => if n = 0 then some .abort else none
  | _, _ => none

/-- The table entry of an UNBIND (R15). -/
def unbindOp (slot : OpSlot) (i : StreamId) (r : Request) (deadline : Timer) : PendingOp :=
  { slot := slot, port := r.port, tag := r.tag, kind := .unbind, stream := some i, discard := false,
    deadline := deadline, detail := .unbind false 0 none }

/-- A stream becomes STOPPING with its pending operation (R15 to R18). -/
def stopStream (i : StreamId) (o : PendingOp) (s : State) : State :=
  addOp o (s.modStream i fun e => { e with state := .stopping, pendingOp := some o.slot })

/-- An UNBIND of a mode, taken with a table entry (R16, R18). -/
def startUnbind (mode : UnbindMode) (slot : OpSlot) (i : StreamId) (r : Request) (s : State) : State :=
  match mode with
  | .graceful n =>
    let s := stopStream i (unbindOp slot i r (startTimer s.now (n * Config.millisecond))) s
    runWork (unbindTest i (reachRing i .stopped s))
  | .abort => applyAbort i slot false (stopStream i (unbindOp slot i r none) s)

/-- UNBIND on an ACTIVE or PAUSED stream (R15). -/
def unbindStream (i : StreamId) (r : Request) (s : State) : State :=
  if (s.stream i).gang.isSome then refuse r .unbind .inGang s
  else
    match unbindMode r.payload with
    | none => refuse r .unbind .badParam s
    | some mode =>
      match freeSlot s.management.ops with
      | none => refuse r .unbind .busy s
      | some slot => startUnbind mode slot i r s

/-- UNBIND (R15). -/
def execUnbind (p : Port) (s : State) : Host.Outcome State Fault Refusal :=
  .next (serve .unbind (onStream .unbind isBound unbindStream) p s)

/-! ### FLUSH (R91, R92) -/

/-- The flush set: the slabs of the ring that are FILLING or SEALING (R91). -/
def flushSet (s : State) (i : StreamId) : List SlabId :=
  (s.stream i).ring.filter fun sl => (s.slab sl).state == .filling || (s.slab sl).state == .sealing

/-- The table entry of a FLUSH (R91). -/
def flushOp (slot : OpSlot) (i : StreamId) (r : Request) (set : List SlabId) : PendingOp :=
  { slot := slot, port := r.port, tag := r.tag, kind := .flush, stream := some i, discard := false, deadline := none,
    detail := .flush set.length set }

/-- A FLUSH taken with a table entry: complete at once with an empty set, else its FILLING slabs are sealed (R91). -/
def startFlush (slot : OpSlot) (i : StreamId) (r : Request) (s : State) : State :=
  let set := flushSet s i
  if set = [] then answer r .flush .done [0] s
  else
    let s := addOp (flushOp slot i r set) (s.modStream i fun e => { e with pendingOp := some slot })
    runWork (reachRing i .flushed s)

/-- FLUSH on an ACTIVE or PAUSED stream (R91). -/
def flushStream (i : StreamId) (r : Request) (s : State) : State :=
  match freeSlot s.management.ops with
  | none => refuse r .flush .busy s
  | some slot => startFlush slot i r s

/-- FLUSH (R91). -/
def execFlush (p : Port) (s : State) : Host.Outcome State Fault Refusal :=
  .next (serve .flush (onStream .flush isBound flushStream) p s)

/-! ### Layouts (R33 to R42) -/

/-- A walk staged under a LOAD WALK's selector, coded WRITE 0 and READ 1 (R36, R187). -/
def stageWalk (selector : Nat) (w : Walk) (e : Stream) : Option Stream :=
  match selector with
  | 0 => some { e with stagedWrite := some w }
  | 1 => some { e with stagedRead := some w }
  | _ => none

/-- A LOAD WALK whose walk has its form (R33 to R36). -/
def loadForm (i : StreamId) (d : Definition) (w : Walk) (r : Request) (s : State) : State :=
  match stageWalk (field r.payload 2 1) w (s.stream i), walkRefusal w d with
  | none, _ => refuse r .loadWalk .badParam s
  | some _, some st => refuse r .loadWalk st s
  | some e, none => answer r .loadWalk .done [] (s.setStream i e)

/-- LOAD WALK on a stream with a definition (R33). -/
def loadWalk (i : StreamId) (r : Request) (s : State) : State :=
  match walkOf r.payload, (s.stream i).defn with
  | some w, some d => loadForm i d w r s
  | _, _ => refuse r .loadWalk .badParam s

/-- LOAD_WALK (R33). -/
def execLoadWalk (p : Port) (s : State) : Host.Outcome State Fault Refusal :=
  .next (serve .loadWalk (onStream .loadWalk hasLayout loadWalk) p s)

/-- The previous layout after a commit: the old current one, if some slab of a bound stream carries its version (R39,
R40). -/
def previousAfter (s : State) (i : StreamId) (cur : Layout) : Option Layout :=
  if isBound (s.stream i).state && carriesVersion s (s.stream i).ring cur.version then some cur else none

/-- A commit taken: the new layout is current, nothing is staged (R39, R40). -/
def commitLayout (i : StreamId) (cur : Layout) (r : Request) (s : State) : State :=
  let new := committedLayout (s.stream i) cur
  let previous := previousAfter s i cur
  answer r .commitLayout .done [new.version]
    (s.modStream i fun e => { e.unstaged with current := some new, previous := previous })

/-- COMMIT LAYOUT on a stream with a layout: the staging check, then on a bound stream the VERSIONS_FULL check (R39,
R40). -/
def commitStream (i : StreamId) (r : Request) (s : State) : State :=
  let e := s.stream i
  match e.current with
  | none => refuse r .commitLayout .badState s
  | some cur =>
    if e.stagedWrite = none ∧ e.stagedRead = none then refuse r .commitLayout .badState s
    else if isBound e.state && e.previous.isSome then refuse r .commitLayout .versionsFull s
    else commitLayout i cur r s

/-- COMMIT_LAYOUT (R39). -/
def execCommitLayout (p : Port) (s : State) : Host.Outcome State Fault Refusal :=
  .next (serve .commitLayout (onStream .commitLayout hasLayout commitStream) p s)

/-- DISCARD STAGING on a stream with a layout (R42). -/
def discardStaging (i : StreamId) (r : Request) (s : State) : State :=
  answer r .discardStaging .done [] (s.modStream i Stream.unstaged)

/-- DISCARD_STAGING (R42). -/
def execDiscardStaging (p : Port) (s : State) : Host.Outcome State Fault Refusal :=
  .next (serve .discardStaging (onStream .discardStaging hasLayout discardStaging) p s)

end Sys2Proof.Machine
end

