-- ==== Sys2Proof/Machine/Queries.lean ====
section
/-! DEFINITION. The queries on streams, their slabs and their counters (R182 to R184, R187). -/

namespace Sys2Proof.Machine

/-- The results of a query on the stream its payload names, of which only the number is checked (R6, R182). -/
def askStream (k : RequestKind) (own : StreamId → Request → State → State) (r : Request) (s : State) : State :=
  match streamOf (field r.payload 1 1) with
  | none => refuse r k .badParam s
  | some i => own i r s

/-! ### QUERY STREAM (R182, R187) -/

/-- An epoch or its absence (R187). -/
def epochBytes (e : Option Epoch) : List Byte := optBytes 2 (e.map (·.toNat))

/-- The layouts and staging of a stream (R187). -/
def layoutBytes (e : Stream) (cur : Layout) : List Byte :=
  [cur.version] ++ walkBytes cur.writeWalk ++ walkBytes cur.readWalk ++
    optBytes 1 (e.previous.map fun l => l.version.toNat) ++ [yesNo e.stagedWrite.isSome, yesNo e.stagedRead.isSome]

/-- The ring and tracking fields of a stream (R187). -/
def ringBytes (e : Stream) : List Byte :=
  [BitVec.ofNat 8 e.ring.length, BitVec.ofNat 8 (e.ringPointer.getD 0)] ++ epochBytes e.floor ++ epochBytes e.lastLate

/-- The results of QUERY STREAM: an EMPTY stream's state alone, else the whole entry (R182, R187). -/
def queryStreamResults (s : State) (i : StreamId) : List Byte :=
  let e := s.stream i
  match e.defn, e.current with
  | some d, some cur =>
    [e.state.code] ++ definitionBytes d ++ layoutBytes e cur ++ ringBytes e ++
      optBytes 1 (e.gang.map (·.val)) ++ optBytes 1 ((streamOp i s).map fun o => o.kind.code.toNat)
  | _, _ => [e.state.code]

/-- QUERY STREAM's own rule (R182). -/
def queryStream (i : StreamId) (r : Request) (s : State) : State :=
  answer r .queryStream .done (queryStreamResults s i) s

/-- QUERY_STREAM (R182). -/
def execQueryStream (p : Port) (s : State) : Host.Outcome State Fault Refusal :=
  .next (serve .queryStream (askStream .queryStream queryStream) p s)

/-! ### QUERY SLABS (R183, R187) -/

/-- A range of a coverage list: its start and its last index (R187). -/
def rangeBytes (c : IndexRange) : List Byte := beBytes 2 c.start ++ beBytes 2 (c.stop - 1)

/-- The holder of a slab in a slab report: kind, number, epoch (R187). -/
def holderBytes (v : Slab) : List Byte :=
  match v.holder with
  | none => [0, 0, 0, 0]
  | some .singleEntry => [1, 0] ++ beBytes 2 ((v.epoch.map (·.toNat)).getD 0)
  | some (.gangEntry g e) => [2, BitVec.ofNat 8 g.val] ++ beBytes 2 e.toNat
  | some (.gangRecord g e) => [3, BitVec.ofNat 8 g.val] ++ beBytes 2 e.toNat
  | some (.channel c) => [4, BitVec.ofNat 8 c.val, 0, 0]

/-- A slab report (R183, R187). -/
def slabReport (s : State) (sl : SlabId) : List Byte :=
  let v := s.slab sl
  beBytes 2 sl.val ++ [v.state.code] ++ epochBytes v.epoch ++ optBytes 1 (v.version.map (·.toNat)) ++
    BitVec.ofNat 8 v.coverage.length :: v.coverage.flatMap rangeBytes ++ [slabFlags v] ++
    optBytes 1 (v.cause.map fun c => c.code.toNat) ++ optBytes 4 v.holeCount ++
    [yesNo v.placing, yesNo v.heldCause.isSome] ++ optBytes 1 (v.heldCause.map fun c => c.code.toNat) ++
    [BitVec.ofNat 8 v.outstanding, yesNo v.fillTimer.isSome] ++ holderBytes v

/-- The reports that fit whole into `room` bytes, up to the first that does not (R183). -/
def reportsWithin : Nat → List (List Byte) → List (List Byte)
  | _, [] => []
  | room, x :: xs => if x.length ≤ room then x :: reportsWithin (room - x.length) xs else []

/-- The results of QUERY SLABS from a ring position on (R183, R187). -/
def querySlabsResults (s : State) (i : StreamId) (first : Nat) : List Byte :=
  let ring := (s.stream i).ring
  let reports := reportsWithin (Config.payloadBytes - 5) ((ring.drop first).map (slabReport s))
  [BitVec.ofNat 8 ring.length, BitVec.ofNat 8 first, BitVec.ofNat 8 reports.length] ++ reports.flatten

/-- QUERY SLABS' own rule (R183). -/
def querySlabs (i : StreamId) (r : Request) (s : State) : State :=
  let first := field r.payload 2 1
  if first ≤ 15 then answer r .querySlabs .done (querySlabsResults s i first) s
  else refuse r .querySlabs .badParam s

/-- QUERY_SLABS (R183). -/
def execQuerySlabs (p : Port) (s : State) : Host.Outcome State Fault Refusal :=
  .next (serve .querySlabs (askStream .querySlabs querySlabs) p s)

/-! ### READ STREAM COUNTERS (R184) -/

/-- READ STREAM COUNTERS' own rule (R184). -/
def readStreamCounters (i : StreamId) (r : Request) (s : State) : State :=
  let results := (s.stream i).counters.bytes
  match field r.payload 2 1 with
  | 0 => answer r .readStreamCounters .done results s
  | 1 => answer r .readStreamCounters .done results (s.count i fun _ => .zero)
  | _ => refuse r .readStreamCounters .badParam s

/-- READ_STREAM_COUNTERS (R184). -/
def execReadStreamCounters (p : Port) (s : State) : Host.Outcome State Fault Refusal :=
  .next (serve .readStreamCounters (askStream .readStreamCounters readStreamCounters) p s)

end Sys2Proof.Machine
end

