-- ==== Sys2Proof/Machine/GangRequests.lean ====
section
/-! DEFINITION. FORM GANG, DISSOLVE GANG and QUERY GANG (R102, R103, R114, R115). -/

namespace Sys2Proof.Machine

/-! ### FORM GANG (R102, R103) -/

/-- The parameters of a FORM GANG (R187). -/
structure GangRequest where
  gang : GangId
  members : List StreamId
  alignTimeout : Nat
  markId : Byte
  deriving DecidableEq, Repr

/-- The member list of a FORM GANG, if every number is at most 63 (R102). -/
def membersOf (payload : List Byte) : Option (List StreamId) :=
  (slice payload 3 (field payload 2 1)).mapM fun b => streamOf b.toNat

/-- The parameters of a FORM GANG, if they pass check 1 (R102). -/
def gangRequestOf (payload : List Byte) : Option GangRequest :=
  match gangOfNat (field payload 1 1), membersOf payload with
  | some g, some members =>
    let m := field payload 2 1
    let timeout := field payload (3 + m) 2
    if 2 ≤ m ∧ m ≤ 8 ∧ members.Nodup ∧ 1 ≤ timeout then
      some { gang := g, members := members, alignTimeout := timeout, markId := payload.getD (5 + m) 0 }
    else none
  | _, _ => none

/-- The first member whose state is not ACTIVE or PAUSED (R102 check 3). -/
def firstUnbound (s : State) (members : List StreamId) : Option StreamId :=
  members.find? fun i => !isBound (s.stream i).state

/-- The first member that already is in a gang (R102 check 4). -/
def firstGanged (s : State) (members : List StreamId) : Option StreamId :=
  members.find? fun i => (s.stream i).gang.isSome

/-- A formed gang record (R103). -/
def formedGang (q : GangRequest) : Gang :=
  { state := .formed, members := q.members, alignTimeout := some q.alignTimeout, markId := some q.markId,
    released := none, records := [] }

/-- The gang field of streams set or made absent (R103, R114). -/
def setGangField (g : Option GangId) (members : List StreamId) (s : State) : State :=
  members.foldl (fun acc i => acc.modStream i fun e => { e with gang := g }) s

/-- A FORM GANG taken (R103). -/
def takeGang (q : GangRequest) (s : State) : State :=
  setGangField (some q.gang) q.members (s.setGang q.gang (formedGang q))

/-- A FORM GANG refused for a member, which its results name (R102). -/
def refuseMember (st : Status) (i : StreamId) (r : Request) (s : State) : State :=
  answer r .formGang st [BitVec.ofNat 8 i.val] s

/-- A FORM GANG of a FREE gang record: checks 3 and 4 (R102). -/
def formChecked (q : GangRequest) (r : Request) (s : State) : State :=
  match firstUnbound s q.members, firstGanged s q.members with
  | some i, _ => refuseMember .badState i r s
  | none, some i => refuseMember .inGang i r s
  | none, none => answer r .formGang .done [] (takeGang q s)

/-- FORM GANG's own rule (R102). -/
def formGang (r : Request) (s : State) : State :=
  match gangRequestOf r.payload with
  | none => refuse r .formGang .badParam s
  | some q => if (s.gang q.gang).state = .formed then refuse r .formGang .badState s else formChecked q r s

/-- FORM_GANG (R102). -/
def execFormGang (p : Port) (s : State) : Host.Outcome State Fault Refusal := .next (serve .formGang formGang p s)

/-! ### DISSOLVE GANG (R114) -/

/-- A request on the gang its payload names (R114, R115). -/
def onGang (k : RequestKind) (own : GangId → Request → State → State) (r : Request) (s : State) : State :=
  match gangOfNat (field r.payload 1 1) with
  | none => refuse r k .badParam s
  | some g => own g r s

/-- A gang dissolved: its records released, its members' gang fields absent, its record FREE (R114). -/
def dissolve (g : GangId) (s : State) : State :=
  let s := releaseMany g (s.gang g).records.length s
  (setGangField none (s.gang g).members s).setGang g .blank

/-- DISSOLVE GANG's own rule (R114). -/
def dissolveGang (g : GangId) (r : Request) (s : State) : State :=
  if (s.gang g).state = .formed then
    answer r .dissolveGang .done [BitVec.ofNat 8 (s.gang g).records.length] (dissolve g s)
  else refuse r .dissolveGang .badState s

/-- DISSOLVE_GANG (R114). -/
def execDissolveGang (p : Port) (s : State) : Host.Outcome State Fault Refusal :=
  .next (serve .dissolveGang (onGang .dissolveGang dissolveGang) p s)

/-! ### QUERY GANG (R115, R187) -/

/-- A record report (R187). -/
def recordReport (now : Nat) (r : GangRecord) : List Byte :=
  beBytes 2 r.epoch.toNat ++ [BitVec.ofNat 8 (presentMask r.present)] ++
    r.slots.flatMap (fun o => optBytes 2 (o.map (·.val))) ++ beBytes 2 (remaining now r.timer)

/-- The results of QUERY GANG: a FREE gang's state alone, else the whole record (R115, R187). -/
def queryGangResults (s : State) (g : GangId) : List Byte :=
  let v := s.gang g
  match v.state with
  | .free => [v.state.code]
  | .formed =>
    [v.state.code, BitVec.ofNat 8 v.members.length] ++ v.members.map (fun i => BitVec.ofNat 8 i.val) ++
      beBytes 2 (v.alignTimeout.getD 0) ++ [v.markId.getD 0] ++ epochBytes v.released ++
      BitVec.ofNat 8 v.records.length :: v.records.flatMap (recordReport s.now)

/-- QUERY GANG's own rule (R115). -/
def queryGang (g : GangId) (r : Request) (s : State) : State := answer r .queryGang .done (queryGangResults s g) s

/-- QUERY_GANG (R115). -/
def execQueryGang (p : Port) (s : State) : Host.Outcome State Fault Refusal :=
  .next (serve .queryGang (onGang .queryGang queryGang) p s)

end Sys2Proof.Machine
end

