-- ==== Sys2Proof/Machine/MemoryRequests.lean ====
section
/-! DEFINITION. PEEK, POKE and SYNC (R148 to R151). -/

namespace Sys2Proof.Machine

/-- The checks of an address and a size, in order, the last of them STARTING (R148, R150). -/
def accessRefusal (s : State) (addr size : Nat) : Option Status :=
  if size ≠ 1 ∧ size ≠ 2 ∧ size ≠ 4 ∧ size ≠ 8 then some .badParam
  else if Config.memoryBytes ≤ addr then some .range
  else if addr % size ≠ 0 then some .misaligned
  else if initializing s then some .starting
  else none

/-! ### PEEK (R148) -/

/-- A PEEK without a hazard: its read joins the list, and the Management Unit waits for it (R148). -/
def directPeek (r : Request) (addr size : Nat) (s : State) : State :=
  let s := s.modController fun c =>
    { c with reads := c.reads ++ [{ addr := addr, size := size, owner := .direct, data := none }] }
  s.modManagement fun m => { m with wait := .peek r.port r.tag false }

/-- The table entry of a PEEK or a SYNC: no stream, no deadline (R148, R151). -/
def memoryOp (slot : OpSlot) (k : RequestKind) (r : Request) (detail : OpDetail) : PendingOp :=
  { slot := slot, port := r.port, tag := r.tag, kind := k, stream := none, discard := false, deadline := none,
    detail := detail }

/-- A PEEK held by a line hazard on entry `n` of the write queue (R148). -/
def heldPeek (n : Nat) (r : Request) (addr size : Nat) (s : State) : State :=
  match freeSlot s.management.ops with
  | none => refuse r .peek .busy s
  | some slot =>
    addOp (memoryOp slot .peek r .peek) (s.modController fun c =>
      { c with heldPeeks := c.heldPeeks ++ [{ entry := n, slot := slot, addr := addr, size := size }] })

/-- PEEK's own rule (R148). -/
def peek (r : Request) (s : State) : State :=
  let addr := field r.payload 1 4
  let size := field r.payload 5 1
  match accessRefusal s addr size, newestFor s.controller.queue (lineOf addr) with
  | some st, _ => refuse r .peek st s
  | none, some n => heldPeek n r addr size s
  | none, none => directPeek r addr size s

/-- PEEK (R148). -/
def execPeek (p : Port) (s : State) : Host.Outcome State Fault Refusal := .next (serve .peek peek p s)

/-! ### POKE (R150) -/

/-- The write of a POKE: no slab (R139, R150). -/
def pokeWrite (payload : List Byte) : Write :=
  { addr := field payload 1 4, bytes := slice payload 6 (field payload 5 1), slab := none }

/-- A POKE's write is taken by the queue, or held (R150). -/
def handPoke (r : Request) (w : Write) (s : State) : State :=
  match enqueue w s with
  | some s' => answer r .poke .done [] s'
  | none => s.modManagement fun m => { m with wait := .poke r.port r.tag false w }

/-- POKE's own rule (R150). -/
def poke (r : Request) (s : State) : State :=
  match accessRefusal s (field r.payload 1 4) (field r.payload 5 1) with
  | some st => refuse r .poke st s
  | none => handPoke r (pokeWrite r.payload) s

/-- POKE (R150). -/
def execPoke (p : Port) (s : State) : Host.Outcome State Fault Refusal := .next (serve .poke poke p s)

/-- A held POKE's write has been taken: its REPLY is queued, and the Management Unit waits no longer (R150). -/
def pokeTaken (p : Port) (tag : BitVec 16) (discard : Bool) (s : State) : State :=
  lateReply p discard (replySegment tag RequestKind.poke.code .done [])
    (s.modManagement fun m => { m with wait := .nothing })

/-- POKE_WRITE_RESUME (R139, R150). -/
def execPokeWriteResume (s : State) : Host.Outcome State Fault Refusal :=
  match s.management.wait with
  | .poke p tag discard w =>
    match enqueue w s with
    | some s' => .next (pokeTaken p tag discard s')
    | none => .next s
  | _ => .next s

/-! ### SYNC (R151) -/

/-- A SYNC with a table entry: complete at once on an empty queue, else it records the tail (R151). -/
def startSync (slot : OpSlot) (r : Request) (s : State) : State :=
  match s.controller.queue.getLast? with
  | none => answer r .sync .done [] s
  | some e => addOp (memoryOp slot .sync r (.sync e.number)) s

/-- SYNC's own rule (R151). -/
def sync (r : Request) (s : State) : State :=
  match freeSlot s.management.ops with
  | none => refuse r .sync .busy s
  | some slot => startSync slot r s

/-- SYNC (R151). -/
def execSync (p : Port) (s : State) : Host.Outcome State Fault Refusal := .next (serve .sync sync p s)

end Sys2Proof.Machine
end

