-- ==== Sys2Proof/Machine/Reset.lean ====
section
/-! DEFINITION. The two resets: the cold reset, the RESET request that starts a warm reset (R185), and the step that
clears and resumes (R186). -/

namespace Sys2Proof.Machine

/-! ### RESET (R185, R170) -/

/-- Step 1: a port's receive list emptied, the credits of its segments owed (R170). -/
def PortState.emptySlots (q : PortState) : PortState :=
  { q with slots := [], owedData := q.owedData + q.slots.countP (fun seg => seg.kind.dataClass),
           owedControl := q.owedControl + q.slots.countP (fun seg => !seg.kind.dataClass) }

/-- A slab whose fill timer has stopped. -/
def Slab.untimed (v : Slab) : Slab := { v with fillTimer := none }

/-- A gang whose align timers have stopped (R116). -/
def Gang.untimed (v : Gang) : Gang := { v with records := v.records.map fun r => { r with timer := none } }

/-- The Management Unit with its lease timer and its deadlines stopped. -/
def Management.untimed (m : Management) : Management :=
  { m with leaseTimer := none, ops := m.ops.map fun o => { o with deadline := none } }

/-- Step 2: every timer but the refresh interval timer stops (R185). -/
def stopTimers (s : State) : State :=
  { s with slabs := s.slabs.map Slab.untimed, gangs := s.gangs.map Gang.untimed, management := s.management.untimed }

/-- Step 2: the seal-work list is emptied, and an item in progress enqueues no further writes (R63, R185). -/
def clearWork (s : State) : State :=
  { s with fill := { s.fill with held := if s.fill.placing.isNone then none else s.fill.held, work := [] } }

/-- Step 2: the slabs whose items have left the list are tested, and one that becomes FULL is handed on (R95, R97;
DEDUCED, log entry 13). -/
def discardWork (s : State) : State :=
  s.fill.work.foldl (fun acc it => testFullOwned it.slab acc) (clearWork s)

/-- Step 3: every drain channel is aborted (R129, R132), channel 0 first (DESIGN CHOICE, log entry 25). -/
def abortChannels (s : State) : State := (List.finRange 4).foldl (fun acc c => abortChannel c acc) s

/-- Step 4: the data of a table entry's read will be discarded (R149). -/
def MgmtRead.orphan (r : MgmtRead) : MgmtRead :=
  match r.owner with
  | .tableEntry _ => { r with owner := .discarded }
  | _ => r

/-- Step 4: a stream whose pending operation has ended (R24). -/
def Stream.unpended (e : Stream) : Stream := { e with pendingOp := none }

/-- Step 4: every pending operation ended without REPLY (R185, R149). -/
def endOperations (s : State) : State :=
  { s with
    management := { s.management with ops := [] }
    streams := s.streams.map Stream.unpended
    controller := { s.controller with heldPeeks := [], reads := s.controller.reads.map MgmtRead.orphan } }

/-- Dispatch halts, and the RESET's port and tag are recorded (R185). -/
def halt (r : Request) (s : State) : State :=
  s.modManagement fun m => { m with warmReset := some { port := r.port, tag := r.tag, discard := false } }

/-- RESET's own rule: steps 1 to 5 (R185). The pending operations end before the discarded seal work and the aborted
channels could complete one, since a warm reset ends every one of them without REPLY (R19, R92, R185; log entry 18). -/
def reset (r : Request) (s : State) : State :=
  let s := (s.modPort .a PortState.emptySlots).modPort .b PortState.emptySlots
  let s := endOperations (stopTimers (halt r s))
  endClaim (abortChannels (discardWork s))

/-- RESET (R185). -/
def execReset (p : Port) (s : State) : Host.Outcome State Fault Refusal := .next (serve .reset reset p s)

/-! ### The end of a warm reset (R186) -/

/-- Every drain channel is IDLE with every field at its cold-reset value (R120, R132, R186; DEDUCED, log entry 8). -/
def allIdle (s : State) : Bool := s.channels.rows.all fun ch => ch == .blank

/-- The warm reset may go on to step 7: the write queue, the channels and the management-read list are at rest, and so is
the Fill Engine (R63, R153, R186). -/
def atRest (s : State) : Bool :=
  s.controller.queue.isEmpty && allIdle s && s.controller.reads.isEmpty && fillFree s && s.fill.work.isEmpty

/-- A port at step 7: its notices and lost count gone, its counters 0 (R154, R186). -/
def PortState.cleared (q : PortState) : PortState := { q.clearCounters with notices := [], lost := 0 }

/-- Step 7 (R186). -/
def clearAll (s : State) : State :=
  { s with
    portA := s.portA.cleared, portB := s.portB.cleared
    streams := Table.replicate 64 .blank, slabs := Table.replicate 1024 .blank, freeList := allSlabs
    gangs := Table.replicate 16 .blank, drainQueue := [], channels := Table.replicate 4 .blank
    controller := { s.controller with refreshMisses := 0 }
    routes := Table.replicate 8 .a }

/-- Step 8: dispatch resumes, and the REPLY is queued (R186). -/
def resumeDispatch (r : WarmReset) (s : State) : State :=
  lateReply r.port r.discard (replySegment r.tag RequestKind.reset.code .done [])
    (s.modManagement fun m => { m with warmReset := none })

/-- WARM_RESET_CLEAR (R186). -/
def execWarmResetClear (s : State) : Host.Outcome State Fault Refusal :=
  match s.management.warmReset with
  | some r => if atRest s then .next (resumeDispatch r (clearAll s)) else .next s
  | none => .next s

/-! ### The cold reset -/

/-- COLD_RESET: every block takes its cold-reset values; frame memory keeps its bytes until initialisation writes them
(R135, R152, log entry 3), and the waiting commands wait on. -/
def execColdReset (s : State) : Host.Outcome State Fault Refusal :=
  .next { State.reset with memory := s.memory, pending := s.pending }

end Sys2Proof.Machine
end

