-- ==== Sys2Proof/Machine/Dispatch.lean ====
section
/-! DEFINITION. The meaning of a command, one arm per command. -/

namespace Sys2Proof.Machine

def exec (i : Instr) (s : State) : Host.Outcome State Fault Refusal :=
  match i with
  | .coldReset => Sys2Proof.Machine.execColdReset s
  | .upEvent port => Sys2Proof.Machine.execUpEvent port s
  | .downEvent port => Sys2Proof.Machine.execDownEvent port s
  | .receiveSegment port bytes => Sys2Proof.Machine.execReceiveSegment port bytes s
  | .fillTakeData => Sys2Proof.Machine.execFillTakeData s
  | .fillTakeMark => Sys2Proof.Machine.execFillTakeMark s
  | .fillWriteResume => Sys2Proof.Machine.execFillWriteResume s
  | .fillTimerExpiry slab => Sys2Proof.Machine.execFillTimerExpiry slab s
  | .alignTimerExpiry gang epoch => Sys2Proof.Machine.execAlignTimerExpiry gang epoch s
  | .unbindDeadlineExpiry stream => Sys2Proof.Machine.execUnbindDeadlineExpiry stream s
  | .leaseExpiry => Sys2Proof.Machine.execLeaseExpiry s
  | .refreshIntervalExpiry => Sys2Proof.Machine.execRefreshIntervalExpiry s
  | .grantWrite => Sys2Proof.Machine.execGrantWrite s
  | .writeCompletion => Sys2Proof.Machine.execWriteCompletion s
  | .grantInitWrite => Sys2Proof.Machine.execGrantInitWrite s
  | .initWriteCompletion bank => Sys2Proof.Machine.execInitWriteCompletion bank s
  | .grantDrainRead => Sys2Proof.Machine.execGrantDrainRead s
  | .drainReadCompletion channel => Sys2Proof.Machine.execDrainReadCompletion channel s
  | .grantManagementRead => Sys2Proof.Machine.execGrantManagementRead s
  | .managementReadCompletion => Sys2Proof.Machine.execManagementReadCompletion s
  | .grantRefresh => Sys2Proof.Machine.execGrantRefresh s
  | .refreshCompletion => Sys2Proof.Machine.execRefreshCompletion s
  | .channelTakeEntry => Sys2Proof.Machine.execChannelTakeEntry s
  | .sendCredit port => Sys2Proof.Machine.execSendCredit port s
  | .sendReply port => Sys2Proof.Machine.execSendReply port s
  | .sendNotice port => Sys2Proof.Machine.execSendNotice port s
  | .sendDrainSegment => Sys2Proof.Machine.execSendDrainSegment s
  | .sendCompletion port => Sys2Proof.Machine.execSendCompletion port s
  | .pokeWriteResume => Sys2Proof.Machine.execPokeWriteResume s
  | .warmResetClear => Sys2Proof.Machine.execWarmResetClear s
  | .identify port => Sys2Proof.Machine.execIdentify port s
  | .claim port => Sys2Proof.Machine.execClaim port s
  | .renew port => Sys2Proof.Machine.execRenew port s
  | .release port => Sys2Proof.Machine.execRelease port s
  | .reset port => Sys2Proof.Machine.execReset port s
  | .setNoticeRoute port => Sys2Proof.Machine.execSetNoticeRoute port s
  | .readDeviceCounters port => Sys2Proof.Machine.execReadDeviceCounters port s
  | .define port => Sys2Proof.Machine.execDefine port s
  | .clear port => Sys2Proof.Machine.execClear port s
  | .bind port => Sys2Proof.Machine.execBind port s
  | .pause port => Sys2Proof.Machine.execPause port s
  | .resume port => Sys2Proof.Machine.execResume port s
  | .unbind port => Sys2Proof.Machine.execUnbind port s
  | .flush port => Sys2Proof.Machine.execFlush port s
  | .loadWalk port => Sys2Proof.Machine.execLoadWalk port s
  | .commitLayout port => Sys2Proof.Machine.execCommitLayout port s
  | .discardStaging port => Sys2Proof.Machine.execDiscardStaging port s
  | .queryStream port => Sys2Proof.Machine.execQueryStream port s
  | .querySlabs port => Sys2Proof.Machine.execQuerySlabs port s
  | .readStreamCounters port => Sys2Proof.Machine.execReadStreamCounters port s
  | .formGang port => Sys2Proof.Machine.execFormGang port s
  | .dissolveGang port => Sys2Proof.Machine.execDissolveGang port s
  | .queryGang port => Sys2Proof.Machine.execQueryGang port s
  | .peek port => Sys2Proof.Machine.execPeek port s
  | .poke port => Sys2Proof.Machine.execPoke port s
  | .sync port => Sys2Proof.Machine.execSync port s
  | .unknownRequest port => Sys2Proof.Machine.execUnknownRequest port s

end Sys2Proof.Machine
end

