-- ==== Sys2Proof/Machine/Step.lean ====
section
/-! DEFINITION. The step: the command at the front of the queue is carried out. A step on an empty queue lets one
microsecond pass (DESIGN CHOICE, log entry 2). -/

namespace Sys2Proof.Machine

/-- One microsecond passes (R1; DESIGN CHOICE, log entry 2). -/
def State.tick (s : State) : State := { s with now := s.now + 1 }

/-- One step: the command that has waited longest, or one microsecond. -/
def step (s : State) : Host.Outcome State Fault Refusal :=
  match s.pending with
  | [] => .next s.tick
  | c :: rest => exec c { s with pending := rest }

/-- The state with the command that a word spells put at the front of the queue; no word spells one. -/
def State.withFetchWord (s : State) (nbits w : Nat) : State :=
  match decodeTableWord nbits w with
  | some c => { s with pending := c :: s.pending }
  | none => s

end Sys2Proof.Machine
end

