-- ==== Sys2Proof/Safety.lean ====
section
/-! DEFINITION. The laws of the device as predicates on a state, and the conditions under which statements are made. -/

namespace Sys2Proof.Machine

/-- The segments of a class held in a port's receive slots (R162). -/
def PortState.held (q : PortState) (dataClass : Bool) : Nat := q.slots.countP fun seg => seg.kind.dataClass == dataClass

/-- The owed count of a class (R154). -/
def PortState.owed (q : PortState) (dataClass : Bool) : Nat := if dataClass then q.owedData else q.owedControl

/-- The slot count of a class (R154). -/
def slotCount (p : Port) (dataClass : Bool) : Nat := if dataClass then Port.dataSlots p else controlSlots

/-- The credits of a class are conserved: held, advertised and owed add up to the slot count while the port is UP, and to
nothing while it is DOWN (R156, R162). -/
def creditsConserved (p : Port) (q : PortState) (dataClass : Bool) : Prop :=
  q.held dataClass + q.advertised dataClass + q.owed dataClass =
    match q.link with
    | .up => slotCount p dataClass
    | .down => 0

/-- The eleventh law, in its stronger form of R162: the credits of both classes of both ports are conserved. -/
def creditLaw (s : State) : Prop := ∀ p dataClass, creditsConserved p (s.port p) dataClass

/-- The tenth law: the claim is held only by a port whose link is UP (R176). -/
def claimLaw (s : State) : Prop := ∀ p, s.management.holder = some p → (s.port p).link = .up

/-- The fifth law: the refresh debt lies between 0 and 8 (R145), and so does the fairness count (R144). -/
def debtLaw (s : State) : Prop := s.controller.debt ≤ Config.debtBound ∧ s.controller.fairness ≤ Config.debtBound

/-- The first part of the sixth law: the write queue holds at most 32 entries (R138). -/
def queueLaw (s : State) : Prop := s.controller.queue.length ≤ Config.writeQueueDepth

/-- The first part of the twelfth law: a gang holds at most four pending records (R101). -/
def recordLaw (s : State) : Prop := ∀ g, (s.gang g).records.length ≤ Config.recordDepth

/-- Frame memory is in its canonical form: no rule of the spec, but the model's way of holding memory (log entry 3). -/
def memoryLaw (s : State) : Prop := Memory.wf s.memory

/-- The notice queues hold at most 16 notices (R190). -/
def noticeLaw (s : State) : Prop := ∀ p, (s.port p).notices.length ≤ Config.noticeDepth

/-- The slabs in the rings of all streams. -/
def ringSlabs (s : State) : List SlabId := s.streams.rows.flatMap (·.ring)

/-- The first law: every slab is on the free list or in the ring of exactly one stream (R10). -/
def slabLaw (s : State) : Prop := (s.freeList ++ ringSlabs s).Perm allSlabs

/-- A stream in this state holds a ring (R4). -/
def holdsRing : StreamState → Bool
  | .empty => false | .defined => false | .active => true | .paused => true | .stopping => true

/-- A stream without a binding has no ring (R4). -/
def ringLaw (s : State) : Prop := ∀ i, holdsRing (s.stream i).state = false → (s.stream i).ring = []

/-- The second law: no stream has more than two open slabs (R68). -/
def openLaw (s : State) : Prop := ∀ i, (openSlabs s i).length ≤ 2

/-! ### Conditions of statements -/

/-- The Management Unit takes from port `p` next the request `r`, of kind `k`, and the common checks pass (R164, R172,
R173). -/
def asks (p : Port) (k : RequestKind) (r : Request) (s : State) : Prop :=
  nextRequest p s = some r ∧ requestKind r.payload = some k ∧ commonRefusal k r s = none

/-- Such a request on stream `i`, without a pending operation and in a state in which the request is taken (R6). -/
def asksStream (p : Port) (k : RequestKind) (permitted : StreamState → Bool) (i : StreamId) (r : Request) (s : State) :
    Prop :=
  asks p k r s ∧ field r.payload 1 1 = i.val ∧ (s.stream i).pendingOp = none ∧ permitted (s.stream i).state = true

/-- The command that executes a request of a kind from a port. -/
def RequestKind.command (p : Port) : RequestKind → Instr
  | .identify => .identify p | .claim => .claim p | .renew => .renew p | .release => .release p | .reset => .reset p
  | .setNoticeRoute => .setNoticeRoute p | .readDeviceCounters => .readDeviceCounters p
  | .define => .define p | .clear => .clear p | .bind => .bind p | .pause => .pause p | .resume => .resume p
  | .unbind => .unbind p | .flush => .flush p
  | .loadWalk => .loadWalk p | .commitLayout => .commitLayout p | .discardStaging => .discardStaging p
  | .queryStream => .queryStream p | .querySlabs => .querySlabs p | .readStreamCounters => .readStreamCounters p
  | .formGang => .formGang p | .dissolveGang => .dissolveGang p | .queryGang => .queryGang p
  | .peek => .peek p | .poke => .poke p | .sync => .sync p

/-- The states in which a request that changes a stream is taken; none for the other requests (R6, R33, R39, R42,
R91). -/
def RequestKind.permitted : RequestKind → Option (List StreamState)
  | .define => some [.empty, .defined]
  | .clear => some [.defined]
  | .bind => some [.defined]
  | .pause => some [.active]
  | .resume => some [.paused]
  | .unbind => some [.active, .paused]
  | .flush => some [.active, .paused]
  | .loadWalk => some [.defined, .active, .paused]
  | .commitLayout => some [.defined, .active, .paused]
  | .discardStaging => some [.defined, .active, .paused]
  | .identify => none | .claim => none | .renew => none | .release => none | .reset => none
  | .setNoticeRoute => none | .readDeviceCounters => none | .queryStream => none | .querySlabs => none
  | .readStreamCounters => none | .formGang => none | .dissolveGang => none | .queryGang => none | .peek => none
  | .poke => none | .sync => none

/-- An UP port receives one whole segment with a good header (R157 to R159). -/
def arrives (p : Port) (bytes : List Byte) (s : State) : Prop :=
  (s.port p).link = .up ∧ 12 ≤ bytes.length ∧ rxHeaderGood bytes = true ∧ rxLength bytes ≤ 1024 ∧ rxWhole bytes = true

/-- The Fill Engine is idle with an empty seal-work list, dispatch is not halted, and a segment of a kind stands at the
head of Port A's receive list (R63, R163). -/
def offersFill (seg : Segment) (rest : List Segment) (s : State) : Prop :=
  s.fill = { placing := none, held := none, work := [] } ∧ s.management.warmReset = none ∧ s.portA.slots = seg :: rest

/-- Port A after the Fill Engine has taken the head: the slot is freed, and its data credit is owed (R162). -/
def afterTake (rest : List Segment) (s : State) : State :=
  { s with portA := { s.portA with slots := rest, owedData := s.portA.owedData + 1 } }

/-- A FILLING slab with no placement into it, with a write outstanding, of a stream whose hole fill is OFF, while the
seal-work list is empty: its seal leaves it SEALING (R85, R95). -/
def sealsQuietly (i : StreamId) (sl : SlabId) (s : State) : Prop :=
  (s.slab sl).state = .filling ∧ (s.slab sl).placing = false ∧ 0 < (s.slab sl).outstanding ∧ holeFillOn s i = false ∧
    s.fill.work = []

/-- The number of indices of the frame that no range of a slab covers (R85, step 3). -/
def holesOf (i : StreamId) (sl : SlabId) (s : State) : Nat := s.frameLength i - coveredCount (s.slab sl).coverage

/-- A slab as its seal leaves it SEALING (R85, steps 1 to 4). -/
def sealedRecord (v : Slab) (cause : SealCause) (holes : Nat) : Slab :=
  { v with state := .sealing, cause := some cause, fillTimer := none, holeCount := some holes, heldCause := none,
           incomplete := v.incomplete || decide (0 < holes) }

/-- A stream as the seal of a slab of epoch `e` leaves it: one seal counted, the floor raised (R85, R86). -/
def sealedStream (v : Stream) (e : Epoch) (holes : Nat) : Stream :=
  { v with floor := some (raiseEpoch v.floor e),
           counters := if 0 < holes then { v.counters with sealedIncomplete := satAdd v.counters.sealedIncomplete 1 }
                       else { v.counters with sealedComplete := satAdd v.counters.sealedComplete 1 } }

/-- The state after a slab of stream `i` was sealed and stays SEALING. -/
def sealedWaiting (i : StreamId) (sl : SlabId) (cause : SealCause) (s : State) : State :=
  (s.setSlab sl (sealedRecord (s.slab sl) cause (holesOf i sl s))).setStream i
    (sealedStream (s.stream i) ((s.slab sl).epoch.getD 0) (holesOf i sl s))

/-! ### Late and opening DATA -/

/-- A DATA segment of good form for an ACTIVE stream, newer than its floor (R65, R66). -/
def onTime (i : StreamId) (d : Definition) (seg : Segment) (s : State) : Prop :=
  seg.kind = .data ∧ seg.stream.toNat = i.val ∧ (s.stream i).state = .active ∧ (s.stream i).defn = some d ∧
    seg.payload.length % (d.inWidth / 8) = 0 ∧ seg.payload ≠ [] ∧
    seg.first.toNat + seg.payload.length / (d.inWidth / 8) ≤ d.frameLength ∧
    (s.stream i).floor.all (newer seg.epoch) = true

/-- The state after a DATA of epoch `e` was discarded as LATE: counted, and noticed with this detail unless the last-late
epoch holds `e` (R22). -/
def lateDiscarded (i : StreamId) (e : Epoch) (detail : Nat) (s : State) : State :=
  if (s.stream i).lastLate = some e then s.count i fun n => { n with late := satAdd n.late 1 }
  else raise
    { kind := .late, subject := some (BitVec.ofNat 8 i.val), epoch := some e, detail := BitVec.ofNat 32 detail }
    ((s.count i fun n => { n with late := satAdd n.late 1 }).modStream i fun v => { v with lastLate := some e })

/-- The state `u` in which the Fill Engine chooses a slab for a segment's epoch, no open slab holding that epoch or one
32,768 from it: fewer than two slabs are open, or the older of two was sealed OVERTAKEN and stays SEALING (R67, R68). -/
def choosesIn (i : StreamId) (seg : Segment) (rest : List Segment) (s u : State) : Prop :=
  (∀ x, x ∈ openSlabs s i → (s.slab x).epoch ≠ some seg.epoch ∧ (seg.epoch - slabEpoch s x).toNat ≠ 32768) ∧
    (((openSlabs s i).length ≤ 1 ∧ u = afterTake rest s) ∨
      ∃ older other, (openSlabs s i = [older, other] ∨ openSlabs s i = [other, older]) ∧
        newer (slabEpoch s other) (slabEpoch s older) = true ∧ newer seg.epoch (slabEpoch s older) = true ∧
        sealsQuietly i older s ∧ u = sealedWaiting i older .overtaken (afterTake rest s))

/-- Slab `sl` opened under layout `l` for the epoch of a segment, which is counted accepted and is about to be placed (R76,
R78, R80, R81). -/
def openedFor (i : StreamId) (d : Definition) (seg : Segment) (sl : SlabId) (l : Layout) (u : State) : State :=
  let n := seg.payload.length / (d.inWidth / 8)
  (u.setSlab sl
      { state := .filling, epoch := some seg.epoch, version := some l.version
        coverage := [{ start := seg.first.toNat, stop := seg.first.toNat + n }]
        incomplete := false, faulted := false, suspect := false, cause := none, holeCount := none, placing := true
        heldCause := none, outstanding := (u.slab sl).outstanding
        fillTimer := if d.fillTimeout = 0 then none else some (u.now + d.fillTimeout), holder := none }).setStream i
    { u.stream i with
      ringPointer := some ((u.stream i).ring.idxOf sl)
      counters := { (u.stream i).counters with
        segmentsAccepted := satAdd (u.stream i).counters.segmentsAccepted 1
        samplesAccepted := satAdd (u.stream i).counters.samplesAccepted n } }

/-- The reclaim candidates of a stream, in search order (R72). -/
def candidates (i : StreamId) (s : State) : List SlabId :=
  (searchOrder (s.stream i)).filter fun x => (s.slab x).state == .full && (s.slab x).holder.isSome

/-- RECLAIM takes `sl`: the candidate older than every other, or the first when there is no such candidate (R72). -/
def reclaims (i : StreamId) (sl : SlabId) (s : State) : Prop :=
  (sl ∈ candidates i s ∧ ∀ y, y ∈ candidates i s → y = sl ∨ newer (slabEpoch s y) (slabEpoch s sl) = true) ∨
    ((candidates i s).head? = some sl ∧
      ∀ x, x ∈ candidates i s → ∃ y, y ∈ candidates i s ∧ y ≠ x ∧ newer (slabEpoch s y) (slabEpoch s x) = false)

/-- The pending records of a gang without slab `sl` in the record of epoch `e`, an emptied record left out (R74). -/
def recordsWithout (sl : SlabId) (e : Epoch) (l : List GangRecord) : List GangRecord :=
  (l.map fun r =>
    if r.epoch = e then { r with slots := r.slots.map fun o => if o = some sl then none else o } else r).filter
    fun r => r.slots.any Option.isSome

/-- The state `w` in which slab `sl` of `u` has left its holder: its drain entry (R73), or its gang-epoch record, where no
record is released by its going (R74). -/
def detachedFrom (sl : SlabId) (u w : State) : Prop :=
  (((u.slab sl).holder = some .singleEntry ∨ ∃ g e, (u.slab sl).holder = some (.gangEntry g e)) ∧
      w = { u with drainQueue := u.drainQueue.filterMap (DrainEntry.without sl) }) ∨
    ∃ g e, (u.slab sl).holder = some (.gangRecord g e) ∧
      (∀ r, (recordsWithout sl e (u.gang g).records).head? = some r → r.slots.all Option.isSome = false) ∧
      w = u.setGang g { u.gang g with records := recordsWithout sl e (u.gang g).records }

/-- The previous layout of a stream, unless no slab but `sl` carries its version (R41). -/
def previousWithout (i : StreamId) (sl : SlabId) (s : State) : Option Layout :=
  (s.stream i).previous.filter fun l => (s.stream i).ring.any fun y => y != sl && (s.slab y).version == some l.version

/-! ### A slab that becomes FULL -/

/-- The departure of a write-queue entry makes a SEALING slab FULL: the entry is the last that carries the slab's number,
and no hole-fill item names the slab (R95). -/
def fillsUp (e : WriteEntry) (sl : SlabId) (i : StreamId) (s : State) : Prop :=
  e.slab = some sl ∧ (s.slab sl).state = .sealing ∧ (s.slab sl).outstanding ≤ 1 ∧
    (∀ x, x ∈ s.fill.work → x.slab ≠ sl) ∧ s.owner sl = some i

/-- The CONVERSION notice of a FAULTED slab of stream `i` raised in `c` (R96). -/
def conversionRaised (i : StreamId) (v : Slab) (sl : SlabId) (c : State) : State :=
  if v.faulted = true then
    raise { kind := .conversion, subject := some (BitVec.ofNat 8 i.val), epoch := v.epoch,
            detail := BitVec.ofNat 32 sl.val } c
  else c

/-- A FILLING slab with no placement into it and no write outstanding, of a stream in no gang whose hole fill is OFF and
that has no pending operation, while the seal-work list is empty: its seal makes it FULL at once (R85, R95, R97). -/
def sealsToFull (i : StreamId) (sl : SlabId) (s : State) : Prop :=
  (s.slab sl).state = .filling ∧ (s.slab sl).placing = false ∧ (s.slab sl).outstanding = 0 ∧ holeFillOn s i = false ∧
    s.fill.work = [] ∧ (s.stream i).gang = none ∧ (s.stream i).pendingOp = none

/-- The state after a slab of stream `i` was sealed and became FULL at once: a single drain entry at the queue's tail holds
it, and a FAULTED one raises CONVERSION (R85, R95 to R97). -/
def sealedFull (i : StreamId) (sl : SlabId) (cause : SealCause) (s : State) : State :=
  let u := sealedWaiting i sl cause s
  conversionRaised i (s.slab sl) sl
    { u.setSlab sl { u.slab sl with state := .full, holder := some .singleEntry } with
      drainQueue := s.drainQueue ++ [.single sl] }

/-- The REPLYs of the SYNCs of `s` that recorded an entry, queued in `c` in the order taken (R151). -/
def syncReplies (e : WriteEntry) (s c : State) : State :=
  (s.management.ops.filter fun o => o.detail == .sync e.number).foldl
    (fun acc o => if o.discard = true then acc else pushReply o.port (replySegment o.tag 0x2A .done []) acc) c

/-- The state after the gang's oldest record `r` was released, `rest` staying: a gang entry at the queue's tail holds its
slabs, the released epoch is the record's, and a partial record raises GANG_PARTIAL (R110). -/
def recordReleased (g : GangId) (r : GangRecord) (rest : List GangRecord) (s : State) : State :=
  let u := (r.slots.filterMap id).foldl
    (fun acc sl => acc.modSlab sl fun v => { v with holder := some (.gangEntry g r.epoch) })
    { s with
      drainQueue := s.drainQueue ++ [.gang
        { gang := g, markId := (s.gang g).markId.getD 0
          members := (s.gang g).members.map fun i => (i, ((s.stream i).defn.map (·.outputId)).getD 0)
          epoch := r.epoch, present := r.present }]
      gangs := s.gangs.set g { s.gang g with released := some r.epoch, records := rest } }
  if r.slots.all Option.isSome = true then u
  else raise { kind := .gangPartial, subject := some (BitVec.ofNat 8 g.val), epoch := some r.epoch,
               detail := BitVec.ofNat 32 (presentMask r.present) } u

/-- The state after the gang's oldest records were released one by one, those of `later` staying (R108 to R110, R114). -/
def releasedAll (g : GangId) : List GangRecord → List GangRecord → State → State
  | [], _, s => s
  | r :: l, later, s => releasedAll g l later (recordReleased g r (l ++ later) s)

/-- No record of the list would be released by the completion test (R108). -/
def oldestIncomplete (l : List GangRecord) : Prop := ∀ r, l.head? = some r → r.slots.all Option.isSome = false

/-- Of the records that stand after a release, the completion test releases `done` and stops before `later` (R108). -/
def completesThrough (done later : List GangRecord) : Prop :=
  (∀ r, r ∈ done → r.slots.all Option.isSome = true) ∧ oldestIncomplete later

/-! ### The abort of an UNBIND -/

/-- An abort of a stream makes its whole ring EMPTY at once: each slab is EMPTY, FILLING without a placement, SEALING,
FULL, or DRAINING as the one slab left to a channel that has no read and no transmission; and the seal-work list holds
items of the ring's SEALING slabs only (R18, R129, R130). -/
def abortsAtOnce (i : StreamId) (s : State) : Prop :=
  (s.stream i).ring.Nodup ∧
    (∀ x, x ∈ s.fill.work → x.slab ∈ (s.stream i).ring ∧ (s.slab x.slab).state = .sealing) ∧
    ∀ x, x ∈ (s.stream i).ring →
      (s.slab x).state = .empty ∨ ((s.slab x).state = .filling ∧ (s.slab x).placing = false) ∨
      (s.slab x).state = .sealing ∨ (s.slab x).state = .full ∨
      ((s.slab x).state = .draining ∧ s.owner x = some i ∧ ∃ c, (s.slab x).holder = some (.channel c) ∧
        (s.channel c).abortable = true ∧ (s.channel c).read = none ∧ (s.channel c).inTransmission = false ∧
        (s.channel c).slabs = [x])

/-- The epochs an abort of a stream discards: the slabs of its ring that are not EMPTY (R18). -/
def discardedBy (i : StreamId) (s : State) : Nat := ((s.stream i).ring.filter fun x => (s.slab x).state != .empty).length

/-- The epoch an abort of a stream cuts short: that of the ring's DRAINING slab (R20). -/
def cutBy (i : StreamId) (s : State) : Option Epoch :=
  ((s.stream i).ring.find? fun x => (s.slab x).state == .draining).bind fun x => (s.slab x).epoch

/-- The records of `t` are those of `s` after an abort made the whole ring of stream `i` EMPTY and its UNBIND, with table
entry `slot`, completed; ports and time aside (R18, R19, R119, R130). -/
def unbindEnded (i : StreamId) (slot : OpSlot) (s t : State) : Prop :=
  t.freeList = s.freeList ++ (s.stream i).ring ∧
    t.stream i = { s.stream i with state := .defined, previous := none, ring := [], ringPointer := none, floor := none
                                   lastLate := none, pendingOp := none } ∧
    (∀ k, k ≠ i → t.stream k = s.stream k) ∧
    (∀ x, x ∈ (s.stream i).ring → t.slab x = { Slab.blank with outstanding := (s.slab x).outstanding }) ∧
    (∀ x, x ∉ (s.stream i).ring → t.slab x = s.slab x) ∧
    t.drainQueue = ((s.stream i).ring.filter fun x => (s.slab x).state == .full).foldl
      (fun q x => q.filterMap (DrainEntry.without x)) s.drainQueue ∧
    (∀ x c, x ∈ (s.stream i).ring → (s.slab x).state = .draining → (s.slab x).holder = some (.channel c) →
      t.channel c = .blank) ∧
    (∀ c, (∀ x, x ∈ (s.stream i).ring → (s.slab x).state = .draining → (s.slab x).holder ≠ some (.channel c)) →
      t.channel c = s.channel c) ∧
    t.fill = { placing := s.fill.placing, work := []
               held := if s.fill.placing = none ∧ s.fill.work ≠ [] then none else s.fill.held } ∧
    t.management = { s.management with ops := s.management.ops.filter fun o => o.slot != slot } ∧
    t.controller = s.controller ∧ t.memory = s.memory ∧ t.gangs = s.gangs ∧ t.routes = s.routes ∧
    t.lastDataChannel = s.lastDataChannel

/-- The STREAM_STOPPED notice of a stream (R20). -/
def stoppedNotice (i : StreamId) (cut : Option Epoch) (n : Nat) : Notice :=
  { kind := .streamStopped, subject := some (BitVec.ofNat 8 i.val), epoch := cut, detail := BitVec.ofNat 32 n }

/-- The state after an UNBIND whose ring is all EMPTY has completed, with its REPLY and its notice where due (R19, R20; the
FORCED byte as log entry 26 says). -/
def unbindDone (i : StreamId) (o : PendingOp) (forced : Bool) (n : Nat) (cut : Option Epoch) (s : State) : State :=
  let u := (s.stream i).ring.foldl (fun acc x => acc.modSlab x fun v => { Slab.blank with outstanding := v.outstanding })
    ({ s with
      freeList := s.freeList ++ (s.stream i).ring
      management := { s.management with ops := s.management.ops.filter fun x => x.slot != o.slot } }.setStream i
      { s.stream i with state := .defined, previous := none, ring := [], ringPointer := none, floor := none
                        lastLate := none, pendingOp := none })
  let v := if o.discard = true then u
    else pushReply o.port (replySegment o.tag 0x15 .done ((if forced = true then 1 else 0) :: beBytes 2 n)) u
  if forced = true ∨ cut ≠ none then raise (stoppedNotice i cut n) v else v

/-! ### Hole fill -/

/-- The write queue takes these writes one after another (R81, R94). -/
def enqueueAll (l : List Write) (s : State) : Option State := l.foldlM (fun acc x => enqueue x acc) s

/-- The holes of a coverage list at or after index `k`, lowest first (R94). -/
def holesAre (cov : List IndexRange) (frameLength : Nat) : List Nat → Nat → Prop
  | [], k => nextHole cov frameLength k = none
  | j :: l, k => nextHole cov frameLength k = some j ∧ holesAre cov frameLength l (j + 1)

/-- The write of the fill value at logical index `j` (R94). -/
def fillOf (d : Definition) (w : Walk) (sl : SlabId) (j : Nat) : Write :=
  { addr := sl.val * 65536 + walkAddress w j * (d.storeWidth / 8), bytes := valueBytes d.storeWidth d.fillValue
    slab := some sl }

/-- The holes of a slab from index `k` on are filled, from `u` on, with the result `t`: the write queue takes all the writes,
and the slab waits for a write; or one finds it full and is held, with its item (R94, R95). -/
def fillsHoles (i : StreamId) (sl : SlabId) (d : Definition) (w : Walk) (k : Nat) (u t : State) : Prop :=
  (∃ l v, holesAre (u.slab sl).coverage d.frameLength l k ∧ enqueueAll (l.map (fillOf d w sl)) u = some v ∧
      0 < (v.slab sl).outstanding ∧
      t = State.count { v with fill := { placing := none, held := none, work := [] } } i fun n =>
        { n with holesFilled := satAdd n.holesFilled l.length }) ∨
    ∃ front j back v, holesAre (u.slab sl).coverage d.frameLength (front ++ j :: back) k ∧
      enqueueAll (front.map (fillOf d w sl)) u = some v ∧ enqueue (fillOf d w sl j) v = none ∧
      t = State.count { v with fill := { placing := none, held := some (fillOf d w sl j)
                                         work := [{ slab := sl, next := j + 1 }] } } i fun n =>
        { n with holesFilled := satAdd n.holesFilled front.length }

/-! ### Placement -/

/-- The sample fields of a DATA segment, in order (R46, R65). -/
def fieldsOf (d : Definition) (seg : Segment) : List (List Byte) :=
  (List.range (seg.payload.length / (d.inWidth / 8))).map fun k =>
    slice seg.payload (k * (d.inWidth / 8)) (d.inWidth / 8)

/-- The write of a sample field at logical index `j` (R53, R81). -/
def writeOf (d : Definition) (w : Walk) (sl : SlabId) (j : Nat) (b : List Byte) : Write :=
  { addr := sl.val * 65536 + walkAddress w j * (d.storeWidth / 8)
    bytes := valueBytes d.storeWidth (inboundConvert d b).1, slab := some sl }

/-- The writes of sample fields, at the logical indices from `j` on (R81). -/
def writesOf (d : Definition) (w : Walk) (sl : SlabId) (j : Nat) (l : List (List Byte)) : List Write :=
  l.mapIdx fun k b => writeOf d w sl (j + k) b

/-- The conversion faults of sample fields, counted and flagged (R52). -/
def faultsCounted (i : StreamId) (sl : SlabId) (d : Definition) (l : List (List Byte)) (s : State) : State :=
  (s.setSlab sl { s.slab sl with
      faulted := (s.slab sl).faulted || l.any fun b => (inboundConvert d b).2 }).count i fun n =>
    { n with conversionFaults := satAdd n.conversionFaults (l.countP fun b => (inboundConvert d b).2) }

/-- The end of a placement that an abort has marked, in the state `x` in which nothing is placed any more: the slab becomes
EMPTY, and the UNBIND completes if it was the last (R18, R19, R83). -/
def abortedEnd (i : StreamId) (sl : SlabId) (x t : State) : Prop :=
  (((x.stream i).state ≠ .stopping ∨ ∃ y, y ∈ (x.stream i).ring ∧ y ≠ sl ∧ (x.slab y).state ≠ .empty) ∧
      t = (x.setSlab sl (x.slab sl).atRest).setStream i { x.stream i with previous := previousWithout i sl x }) ∨
    ((x.stream i).state = .stopping ∧ (∀ y, y ∈ (x.stream i).ring → y ≠ sl → (x.slab y).state = .empty) ∧
      ∃ o forced n cut, streamOp i x = some o ∧ o.detail = .unbind forced n cut ∧
        t = unbindDone i o forced n cut (x.setSlab sl (x.slab sl).atRest))

/-- The end of a placement that no abort has marked, in the state `x` in which nothing is placed any more: a whole frame is
sealed COMPLETE, whatever cause is held; else a held cause seals, and the holes are filled where hole fill is ON; else the
fill timer restarts (R83, R94). A seal leaves the slab SEALING here, a write being outstanding. -/
def placementEnd (i : StreamId) (sl : SlabId) (d : Definition) (x t : State) : Prop :=
  ((x.slab sl).coverage = [{ start := 0, stop := d.frameLength }] ∧ 0 < (x.slab sl).outstanding ∧
      t = sealedWaiting i sl .complete x) ∨
    ((x.slab sl).coverage ≠ [{ start := 0, stop := d.frameLength }] ∧ ∃ cause, (x.slab sl).heldCause = some cause ∧
      ((d.holeFill = false ∧ 0 < (x.slab sl).outstanding ∧ t = sealedWaiting i sl cause x) ∨
        (d.holeFill = true ∧ 0 < holesOf i sl x ∧ x.owner sl = some i ∧
          ∃ w, writeWalkOf x i sl = some w ∧ fillsHoles i sl d w 0 (sealedWaiting i sl cause x) t))) ∨
    ((x.slab sl).coverage ≠ [{ start := 0, stop := d.frameLength }] ∧ (x.slab sl).heldCause = none ∧
      t = x.setSlab sl { x.slab sl with
        fillTimer := if d.fillTimeout = 0 then none else some (x.now + d.fillTimeout) })

/-- The state when the last write of a placement has been handed over in `v` (R83, step 1). -/
def handedOver (pl : Placing) (d : Definition) (v : State) : State :=
  let u := faultsCounted pl.stream pl.slab d pl.rest v
  { u.setSlab pl.slab { u.slab pl.slab with placing := false } with fill := { v.fill with placing := none } }

/-- The samples left of a placement are converted and written from `u` on, with the result `t`: the write queue takes all
the writes and the placement ends, or one finds it full and is held with the samples behind it (R81 to R83). -/
def places (pl : Placing) (d : Definition) (w : Walk) (u t : State) : Prop :=
  (∃ v, enqueueAll (writesOf d w pl.slab pl.next pl.rest) u = some v ∧
      (pl.aborted = false → placementEnd pl.stream pl.slab d (handedOver pl d v) t) ∧
      (pl.aborted = true → abortedEnd pl.stream pl.slab (handedOver pl d v) t)) ∨
    ∃ front b back v, pl.rest = front ++ b :: back ∧
      enqueueAll (writesOf d w pl.slab pl.next front) u = some v ∧
      enqueue (writeOf d w pl.slab (pl.next + front.length) b) v = none ∧
      t = { faultsCounted pl.stream pl.slab d (front ++ [b]) v with
        fill := { v.fill with
          placing := some { pl with next := pl.next + front.length + 1, rest := back }
          held := some (writeOf d w pl.slab (pl.next + front.length) b) } }

/-! ### Coverage -/

/-- The fourth law: at most 16 ranges, disjoint, non-adjacent, ascending and within the frame (R77). The bound of 16 is
apart, since R79 tests it on the merged list. -/
def rangesOk (frameLength : Nat) (l : List IndexRange) : Prop :=
  l.Pairwise (fun r x => r.stop < x.start) ∧ ∀ r, r ∈ l → r.start < r.stop ∧ r.stop ≤ frameLength

/-- A logical index is covered (R77). -/
def covered (l : List IndexRange) (k : Nat) : Prop := ∃ r, r ∈ l ∧ r.start ≤ k ∧ k < r.stop

/-! ### A seal cause that reaches a whole ring -/

/-- A seal cause that reaches a stream in state `s` acts on its FILLING slab `x` in `acc`: it is held during a placement
into the slab; else it seals the slab, which gets an item at the tail of the seal-work list where it has holes and hole fill
is ON, or is FULL at once where it has no outstanding write (R85, R89, R93, R95). -/
def sealReaches (i : StreamId) (cause : SealCause) (s acc : State) (x : SlabId) : State :=
  if (s.slab x).placing = true then
    acc.setSlab x { s.slab x with heldCause := (s.slab x).heldCause.or (some cause) }
  else if 0 < holesOf i x s ∧ ((s.stream i).defn.any fun d => d.holeFill) = true then
    { sealedWaiting i x cause acc with fill := { acc.fill with work := acc.fill.work ++ [{ slab := x, next := 0 }] } }
  else if (s.slab x).outstanding = 0 then sealedFull i x cause acc
  else sealedWaiting i x cause acc

/-- The state after a seal cause has reached, from `u` on, every FILLING slab of the ring, in ring order (log entry 5). -/
def ringReached (i : StreamId) (cause : SealCause) (s u : State) : State :=
  ((s.stream i).ring.filter fun x => (s.slab x).state == .filling).foldl (sealReaches i cause s) u

/-- No FILLING slab has an item on the seal-work list (R93). -/
def itemsSealed (s : State) : Prop := ∀ it, it ∈ s.fill.work → (s.slab it.slab).state ≠ .filling

/-- A FILLING slab does not become FULL when a seal cause reaches it: a placement holds the cause, a hole is to be filled,
or a write is outstanding (R85, R89, R95). -/
def staysOpen (i : StreamId) (x : SlabId) (s : State) : Prop :=
  (s.slab x).placing = true ∨ (0 < holesOf i x s ∧ ((s.stream i).defn.any fun d => d.holeFill) = true) ∨
    0 < (s.slab x).outstanding

/-- The items of the seal-work list are performed head first, from `u` on, with the result `t`: the write queue takes every
write of an item, whose slab then waits for a write, and the next item follows; or it does not take one, which is held with
the item and the items behind it (R94, R95). -/
def itemsDone : List HoleItem → State → State → Prop
  | [], u, t => t = { u with fill := { u.fill with work := [] } }
  | it :: rest, u, t => ∃ i d w, u.owner it.slab = some i ∧ (u.stream i).defn = some d ∧
      writeWalkOf u i it.slab = some w ∧
      ((∃ l v, holesAre (u.slab it.slab).coverage d.frameLength l it.next ∧
          enqueueAll (l.map (fillOf d w it.slab)) u = some v ∧ 0 < (v.slab it.slab).outstanding ∧
          itemsDone rest (State.count { v with fill := { v.fill with work := rest } } i fun n =>
            { n with holesFilled := satAdd n.holesFilled l.length }) t) ∨
        ∃ front j back v, holesAre (u.slab it.slab).coverage d.frameLength (front ++ j :: back) it.next ∧
          enqueueAll (front.map (fillOf d w it.slab)) u = some v ∧ enqueue (fillOf d w it.slab j) v = none ∧
          t = State.count { v with fill := { v.fill with
            held := some (fillOf d w it.slab j), work := { slab := it.slab, next := j + 1 } :: rest } } i fun n =>
            { n with holesFilled := satAdd n.holesFilled front.length })

/-- The Fill Engine performs its seal-work list from `v` on, with the result `t`, unless a placement or a held write
occupies it (R63, R94). -/
def workDone (v t : State) : Prop :=
  if v.fill.placing = none ∧ v.fill.held = none then itemsDone v.fill.work v t else t = v

/-! ### A port that goes DOWN -/

/-- The port's own fields at its DOWN event, and the marks on every request taken from it: in the pending-operation table,
the one the Management Unit waits on, and the RESET in progress (R156, R174, R190). -/
def portDropped (p : Port) (s : State) : State :=
  { s.setPort p { PortState.blank with
      overruns := (s.port p).overruns, checkFailures := (s.port p).checkFailures, misdirected := (s.port p).misdirected
      unbound := (s.port p).unbound, lost := satAdd (s.port p).lost (s.port p).notices.length } with
    management := { s.management with
      ops := s.management.ops.map fun o => if o.port = p then { o with discard := true } else o
      wait := match s.management.wait with
        | .nothing => .nothing
        | .peek q tag discard => .peek q tag (discard || decide (q = p))
        | .poke q tag discard w => .poke q tag (discard || decide (q = p)) w
      warmReset := s.management.warmReset.map fun r => { r with discard := r.discard || decide (r.port = p) } } }

/-- The end of the transmission of channel `c`'s segment, from `v` on, in which the channel is still in transmission: an
ABORTING channel without a read completes its abort, the slabs its entry still holds coming to rest one after another
(R130, R133; log entry 25); any other goes on. -/
def sendEnded (c : ChanId) (v : State) : State :=
  let u := v.setChannel c { v.channel c with inTransmission := false }
  if (v.channel c).state = .aborting ∧ (v.channel c).read = none then
    ((v.channel c).slabs.foldl
      (fun acc sl => match acc.owner sl with
        | some i => emptySlab i sl acc
        | none => acc.setSlab sl (acc.slab sl).atRest) u).setChannel c .blank
  else u

/-- The state after the claim of port `p` has ended with its DOWN event: no holder, no lease and no lease timer, nothing
staged on any stream, and CLAIM_ENDED raised with the number of the port (R43, R156, R178). -/
def claimLost (p : Port) (s : State) : State :=
  raise { kind := .claimEnded, subject := none, epoch := none, detail := if p = .a then 1 else 2 }
    { s with
      management := { s.management with holder := none, lease := none, leaseTimer := none }
      streams := s.streams.map fun e => { e with stagedWrite := none, stagedRead := none } }

/-! ### Payload layouts (R187), written out -/

/-- Two bytes, most significant first. -/
def bytes2 (n : Nat) : List Byte := [BitVec.ofNat 8 (n / 256), BitVec.ofNat 8 n]

/-- Four bytes, most significant first. -/
def bytes4 (n : Nat) : List Byte :=
  [BitVec.ofNat 8 (n / 16777216), BitVec.ofNat 8 (n / 65536), BitVec.ofNat 8 (n / 256), BitVec.ofNat 8 n]

/-- A field with its presence byte: 1 and the field, or 0 and `n` bytes of 0. -/
def withPresence (n : Nat) : Option (List Byte) → List Byte
  | some b => 1 :: b
  | none => 0 :: List.replicate n 0

/-- A signedness: SIGNED 0, UNSIGNED 1 (R4; log entry 19, as for the other enumerations below). -/
def signByte : Sign → Byte
  | .signed => 0 | .unsigned => 1

/-- A definition as DEFINE carries it, without its stream byte. -/
def definitionLayout (d : Definition) : List Byte :=
  bytes4 d.frameLength ++
  [BitVec.ofNat 8 d.inWidth, signByte d.inSign, BitVec.ofNat 8 d.inShift, BitVec.ofNat 8 d.storeWidth,
    match d.storePolicy with | .saturate => 0 | .wrap => 1 | .mark => 2] ++
  bytes4 (d.fillValue % 4294967296).toNat ++
  [BitVec.ofNat 8 d.outWidth, signByte d.outSign, match d.placement with | .low => 0 | .high => 1, d.outputId] ++
  bytes2 d.segmentSize ++
  [BitVec.ofNat 8 d.ringSize, match d.overflow with | .dropNew => 0 | .reclaim => 1] ++
  bytes2 d.fillTimeout ++
  [if d.holeFill = true then 0 else 1]

/-- A walk: origin, level count, inner mode, window, then each level's count and stride. -/
def walkLayout (w : Walk) : List Byte :=
  bytes2 w.origin ++
  [BitVec.ofNat 8 w.levels.length, match w.mode with | .linear => 0 | .modulo => 1 | .reversed => 2] ++
  bytes4 (w.window.getD 0) ++
  w.levels.flatMap fun l => bytes4 l.count ++ bytes4 (l.stride % 4294967296).toNat

/-- The request kind of a stream's pending operation, which is an UNBIND or a FLUSH (R24). -/
def pendingByte : RequestKind → Byte
  | .unbind => 0x15 | .flush => 0x16 | k => k.code

/-- The results of QUERY STREAM for a stream that is not EMPTY, with its pending operation `o` (R182). -/
def streamLayout (e : Stream) (d : Definition) (cur : Layout) (o : Option PendingOp) : List Byte :=
  ([match e.state with | .empty => 0 | .defined => 1 | .active => 2 | .paused => 3 | .stopping => 4] : List Byte) ++
  definitionLayout d ++
  [cur.version] ++ walkLayout cur.writeWalk ++ walkLayout cur.readWalk ++
  withPresence 1 (e.previous.map fun l => [l.version]) ++
  [if e.stagedWrite = none then 0 else 1, if e.stagedRead = none then 0 else 1] ++
  [BitVec.ofNat 8 e.ring.length, BitVec.ofNat 8 (e.ringPointer.getD 0)] ++
  withPresence 2 (e.floor.map fun f => bytes2 f.toNat) ++
  withPresence 2 (e.lastLate.map fun f => bytes2 f.toNat) ++
  withPresence 1 (e.gang.map fun g => [BitVec.ofNat 8 g.val]) ++
  withPresence 1 (o.map fun x => [pendingByte x.kind])

/-- A seal cause, in the order of R59. -/
def causeByte : SealCause → Byte
  | .complete => 0 | .timeout => 1 | .marked => 2 | .overtaken => 3 | .flushed => 4 | .paused => 5 | .stopped => 6

/-- The holder of a slab: its kind, its number and its epoch. -/
def holderLayout (v : Slab) : List Byte :=
  match v.holder with
  | none => [0, 0, 0, 0]
  | some .singleEntry => [1, 0] ++ bytes2 ((v.epoch.map BitVec.toNat).getD 0)
  | some (.gangEntry g e) => [2, BitVec.ofNat 8 g.val] ++ bytes2 e.toNat
  | some (.gangRecord g e) => [3, BitVec.ofNat 8 g.val] ++ bytes2 e.toNat
  | some (.channel c) => [4, BitVec.ofNat 8 c.val, 0, 0]

/-- The report of slab `sl` in QUERY SLABS (R183). -/
def slabLayout (sl : SlabId) (v : Slab) : List Byte :=
  bytes2 sl.val ++
  ([match v.state with
      | .free => 0 | .empty => 1 | .filling => 2 | .sealing => 3 | .full => 4 | .draining => 5] : List Byte) ++
  withPresence 2 (v.epoch.map fun e => bytes2 e.toNat) ++
  withPresence 1 (v.version.map fun n => [n]) ++
  [BitVec.ofNat 8 v.coverage.length] ++
  (v.coverage.flatMap fun c => bytes2 c.start ++ bytes2 (c.stop - 1)) ++
  [(if v.incomplete = true then 1 else 0) + (if v.faulted = true then 2 else 0) + (if v.suspect = true then 4 else 0)] ++
  withPresence 1 (v.cause.map fun c => [causeByte c]) ++
  withPresence 4 (v.holeCount.map bytes4) ++
  [if v.placing = true then 1 else 0, if v.heldCause = none then 0 else 1] ++
  withPresence 1 (v.heldCause.map fun c => [causeByte c]) ++
  [BitVec.ofNat 8 v.outstanding, if v.fillTimer = none then 0 else 1] ++
  holderLayout v

/-- The report of a pending record in QUERY GANG at moment `now` (R115): the present mask has the bit of weight `2 ^ k` for
each position `k` whose slot holds a slab. -/
def recordLayout (now : Nat) (r : GangRecord) : List Byte :=
  bytes2 r.epoch.toNat ++
  [BitVec.ofNat 8 ((r.slots.zipIdx.map fun p => if p.1 = none then 0 else 2 ^ p.2).sum)] ++
  (r.slots.flatMap fun o => withPresence 2 (o.map fun sl => bytes2 sl.val)) ++
  bytes2 ((r.timer.map fun d => d - now).getD 0)

/-- The results of QUERY GANG for a FORMED gang (R115). -/
def gangLayout (now : Nat) (v : Gang) : List Byte :=
  [1, BitVec.ofNat 8 v.members.length] ++ (v.members.map fun i => BitVec.ofNat 8 i.val) ++
  bytes2 (v.alignTimeout.getD 0) ++ [v.markId.getD 0] ++
  withPresence 2 (v.released.map fun e => bytes2 e.toNat) ++
  [BitVec.ofNat 8 v.records.length] ++ v.records.flatMap (recordLayout now)

end Sys2Proof.Machine
end

