-- ==== Sys2Proof/Certificates/Slice0/Obligations.lean ====
section
/-! DEFINITION. The statements about the NX4620 for the provers. A conclusion `exec c s = .next t` with `t` written out
says the command's result and its frame at once: whatever `t` does not name is as in `s`. -/

open Sys2Proof Sys2Proof.Machine

/-! ### The device as a whole -/

/-- A step carries out the command at the front of the queue on the state with the queue's rest. With an empty queue one
microsecond passes: that clause is the model's choice (log entry 2). -/
def Obligations.StepRunsFrontCommand : Prop :=
  (∀ (c : Instr) (s : State), step { s with pending := c :: s.pending } = exec c s) ∧
    ∀ s : State, s.pending = [] → step s = .next { s with now := s.now + 1 }

/-- Every command answers a next state in every state, and leaves the commands that wait as they are. A request command
that the Management Unit does not take next leaves the state as it is: the model's choice (log entry 1). -/
def Obligations.CommandsAnswerNext : Prop :=
  (∀ (c : Instr) (s : State), ∃ t, exec c s = .next t ∧ t.pending = s.pending) ∧
    ∀ (k : RequestKind) (p : Port) (s : State),
      (∀ r, nextRequest p s = some r → requestKind r.payload ≠ some k) → exec (k.command p) s = .next s

/-- Frame memory changes at the completion of a write or of an initialisation write, and at no other command (R138, R141,
R152). That a cold reset keeps the bytes is the model's choice (log entry 3). -/
def Obligations.MemoryWrittenAtCompletion : Prop :=
  ∀ (c : Instr) (s t : State), exec c s = .next t → c ≠ .writeCompletion → (∀ b, c ≠ .initWriteCompletion b) →
    t.memory = s.memory

/-- The values after a cold reset (R4, R10, R59, R63, R93, R99, R118, R120, R136, R145, R154, R164, R169, R173, R175, R176,
R189 to R191), and COLD_RESET, which takes every block to them. Some of these values are the model's own, and no rule gives
them: the number 0 of the next write-queue entry, `nextNumber` (log entry 4); the microsecond count 0 and the empty queue of
commands (log entry 2); frame memory with no byte listed (log entry 3). Some stand in the model's own form: the refresh
interval timer of R145 as the moment 4 at which it expires (log entry 2); an absent ring as the empty list, and 0 for a count
that a port does not have (log entry 20). `initInFlight`, `heldPeeks`, `wait` and `warmReset` hold the work in progress of
R152, R148, R173 and R185, of which a cold reset leaves none. That a COLD_RESET keeps frame memory's bytes until
initialisation writes them, and the commands that wait, is the model's choice (log entry 3). -/
def Obligations.ResetValues : Prop :=
  (∀ p, State.reset.port p =
    { link := .down, slots := [], owedData := 0, owedControl := 0, advertisedData := 0, advertisedControl := 0,
      partnerData := 0, partnerControl := 0, sending := none, overruns := 0, checkFailures := 0, misdirected := 0,
      unbound := 0, replies := [], notices := [], lost := 0 }) ∧
  (∀ i, State.reset.stream i =
    { state := .empty, defn := none, current := none, previous := none, stagedWrite := none, stagedRead := none,
      ring := [], ringPointer := none, floor := none, lastLate := none, gang := none, pendingOp := none,
      counters := .zero }) ∧
  (∀ sl, State.reset.slab sl =
    { state := .free, epoch := none, version := none, coverage := [], incomplete := false, faulted := false,
      suspect := false, cause := none, holeCount := none, placing := false, heldCause := none, outstanding := 0,
      fillTimer := none, holder := none }) ∧
  (∀ g, State.reset.gang g =
    { state := .free, members := [], alignTimeout := none, markId := none, released := none, records := [] }) ∧
  (∀ c, State.reset.channel c =
    { state := .idle, entry := none, markDue := false, current := none, nextIndex := none, assembled := none,
      read := none, inTransmission := false }) ∧
  State.reset.controller =
    { state := .initializing, progress := 0, initInFlight := [], banks := Table.replicate 8 .ready, queue := [],
      nextNumber := 0, reads := [], heldPeeks := [], debt := 0, bankPointer := 0, fairness := 0, lastGranted := 3,
      refreshTimer := some 4, refreshMisses := 0 } ∧
  State.reset.management =
    { holder := none, lease := none, leaseTimer := none, ops := [], lastPort := .b, wait := .nothing,
      warmReset := none } ∧
  (∀ k, State.reset.routes.get k = .a) ∧
  State.reset.freeList = List.finRange 1024 ∧
  State.reset.fill = { placing := none, held := none, work := [] } ∧
  State.reset.drainQueue = [] ∧ State.reset.lastDataChannel = 3 ∧ State.reset.memory = [] ∧
  State.reset.now = 0 ∧ State.reset.pending = [] ∧
  ∀ s : State, exec .coldReset s = .next { State.reset with memory := s.memory, pending := s.pending }

/-- Right after a cold reset the laws of the device hold: the credit law (R162), the tenth law (R176), the bounds of the
refresh debt and of the fairness count (R144, R145), of the write queue (R138), of a gang's pending records (R101) and of
the notice queues (R190), the first law (R10), and no ring without a binding (R4; the absent ring is the empty list, log
entry 20). `memoryLaw`, which holds with them, is no rule of the spec: the canonical form of frame memory is the model's way
of holding memory (log entry 3). -/
def Obligations.ResetMeetsLaws : Prop :=
  creditLaw .reset ∧ claimLaw .reset ∧ debtLaw .reset ∧ queueLaw .reset ∧ recordLaw .reset ∧ noticeLaw .reset ∧
    memoryLaw .reset ∧ slabLaw .reset ∧ ringLaw .reset

/-- Every step keeps the credit law of R162 (the eleventh law) together with the tenth law (R176). -/
def Obligations.LinkLawsKept : Prop :=
  ∀ s t : State, creditLaw s → claimLaw s → step s = .next t → creditLaw t ∧ claimLaw t

/-- Every step keeps the fifth law (R145) with the bound of the fairness count (R144), the bound of the write queue (R138),
the bound of the notice queues (R190) and the canonical form of frame memory. The canonical form is no rule of the spec: it
is the model's way of holding memory (log entry 3). -/
def Obligations.DeviceBoundsKept : Prop :=
  ∀ s t : State, step s = .next t →
    (debtLaw s → debtLaw t) ∧ (queueLaw s → queueLaw t) ∧ (noticeLaw s → noticeLaw t) ∧ (memoryLaw s → memoryLaw t)

/-- Every step keeps the bound of four pending records of a gang (R101). -/
def Obligations.RecordLawKept : Prop := ∀ s t : State, recordLaw s → step s = .next t → recordLaw t

/-- Every step keeps the first law (R10): each slab is on the free list or in the ring of exactly one stream, and a
stream that is EMPTY or DEFINED has no ring. -/
def Obligations.SlabLawKept : Prop :=
  ∀ s t : State, slabLaw s → ringLaw s → step s = .next t → slabLaw t ∧ ringLaw t

/-- The serial order of epochs and the newer of two epochs (R2); counters saturate at 4,294,967,295 and the lost count at
65,535 (R3, R191). -/
def Obligations.EpochsAndCounters : Prop :=
  (∀ e f : Epoch, newer e f = true ↔
    1 ≤ (e.toNat + 65536 - f.toNat) % 65536 ∧ (e.toNat + 65536 - f.toNat) % 65536 ≤ 32767) ∧
  (∀ e f : Epoch, newer e f = true → newer f e = false) ∧
  (∀ e f : Epoch, (e.toNat + 65536 - f.toNat) % 65536 = 32768 → newer e f = false ∧ newer f e = false) ∧
  (∀ e : Epoch, raiseEpoch none e = e) ∧
  (∀ e f : Epoch, raiseEpoch (some f) e = if newer e f = true then e else f) ∧
  (∀ (c : Counter) (n : Nat), (satAdd c n).toNat = min 4294967295 (c.toNat + n)) ∧
  ∀ (c : BitVec 16) (n : Nat), (satAdd c n).toNat = min 65535 (c.toNat + n)

/-! ### The ports -/

/-- The UP event (R155). -/
def Obligations.UpEvent : Prop :=
  ∀ (p : Port) (s : State),
    ((s.port p).link = .up → exec (.upEvent p) s = .next s) ∧
    ((s.port p).link = .down → ∃ t u,
      t = s.setPort p { s.port p with
        link := .up, slots := [], owedData := if p = .a then 24 else 0, owedControl := 8, advertisedData := 0,
        advertisedControl := 0, partnerData := 0, partnerControl := 0, sending := none } ∧
      u = offerNotice p.other
        { kind := .portUp, subject := none, epoch := none, detail := if p = .a then 1 else 2 } t ∧
      exec (.upEvent p) s = .next u ∧
      sendChoice p u = some .credit ∧ sourceReady p u .reply = false ∧ sourceReady p u .notice = false ∧
      sourceReady p u .drain = false ∧
      ((s.port p.other).link = .down → (u.port p.other).notices = (s.port p.other).notices))

/-- The DOWN event (R156): the port's record, the claim with its lease, the marking of its requests, and what a DOWN event
does not change; and the whole next state, its effects in this order (log entry 22): the port's own fields and the marks on
its requests (R174), the end of the transmission of a channel's segment (R133), the end of the claim with CLAIM_ENDED (R43,
R178), and PORT_DOWN for the other port. -/
def Obligations.DownEvent : Prop :=
  ∀ (p : Port) (s : State),
    ((s.port p).link = .down → exec (.downEvent p) s = .next s) ∧
    ((s.port p).link = .up → ∃ t, exec (.downEvent p) s = .next t ∧
      (∃ n, t.port p = { PortState.blank with
        overruns := (s.port p).overruns, checkFailures := (s.port p).checkFailures,
        misdirected := (s.port p).misdirected, unbound := (s.port p).unbound, lost := n }) ∧
      t.management.holder = (if s.management.holder = some p then none else s.management.holder) ∧
      t.management.lease = (if s.management.holder = some p then none else s.management.lease) ∧
      t.management.leaseTimer = (if s.management.holder = some p then none else s.management.leaseTimer) ∧
      (s.management.holder = some p → ∀ i, (t.stream i).stagedWrite = none ∧ (t.stream i).stagedRead = none) ∧
      (∀ o, o ∈ t.management.ops → o.port = p → o.discard = true) ∧
      (∀ tag discard, s.management.wait = .peek p tag discard → t.management.wait = .peek p tag true) ∧
      (∀ tag discard w, s.management.wait = .poke p tag discard w → t.management.wait = .poke p tag true w) ∧
      (∀ r, s.management.warmReset = some r → r.port = p → t.management.warmReset = some { r with discard := true }) ∧
      (∀ c, (s.port p).sending.bind (·.source) = some c → (t.channel c).inTransmission = false) ∧
      t.gangs = s.gangs ∧ t.drainQueue = s.drainQueue ∧ t.controller = s.controller ∧ t.fill = s.fill ∧
      t.memory = s.memory ∧ t.routes = s.routes ∧ t.lastDataChannel = s.lastDataChannel ∧ t.now = s.now) ∧
    ((s.port p).link = .up → ∀ v w x : State,
      v = portDropped p s →
      w = (match (s.port p).sending.bind (·.source) with
        | some c => sendEnded c v
        | none => v) →
      x = (if s.management.holder = some p then claimLost p w else w) →
      exec (.downEvent p) s = .next (offerNotice p.other
        { kind := .portDown, subject := none, epoch := none, detail := if p = .a then 1 else 2 } x))

/-- A header that fails its check, or that names more than 1,024 payload bytes, takes an UP port DOWN (R159, steps 1 and
2), and a DOWN port receives nothing (R154). A misdirected segment is counted; a REPLY or a NOTICE gives the control credit
it consumed back as owed (R159, step 3). -/
def Obligations.ReceiveRefusals : Prop :=
  (∀ (p : Port) (bytes : List Byte) (s : State),
    ((s.port p).link = .down → exec (.receiveSegment p bytes) s = .next s) ∧
    ((s.port p).link = .up → 12 ≤ bytes.length →
      (headerCheck (slice bytes 0 3 ++ slice bytes 4 8) ≠ bytes.getD 3 0 ∨ 1024 < field bytes 8 2) →
      exec (.receiveSegment p bytes) s = exec (.downEvent p) s)) ∧
  (∀ (p : Port) (bytes : List Byte) (s : State), arrives p bytes s →
    (∀ k, SegKind.ofCode (rxKind bytes) = some k → accepts p k = false) →
    exec (.receiveSegment p bytes) s = .next (s.setPort p
      (if (SegKind.ofCode (rxKind bytes) = some .reply ∨ SegKind.ofCode (rxKind bytes) = some .notice) ∧
          0 < (s.port p).advertisedControl then
        { s.port p with
          misdirected := satAdd (s.port p).misdirected 1
          advertisedControl := (s.port p).advertisedControl - 1
          owedControl := (s.port p).owedControl + 1 }
      else { s.port p with misdirected := satAdd (s.port p).misdirected 1 })))

/-- The credit test (R160) and the payload check (R161) of a DATA, MARK or CONTROL segment, and the slot it is held in. -/
def Obligations.CreditTest : Prop :=
  ∀ (p : Port) (bytes : List Byte) (s : State), arrives p bytes s →
    (SegKind.ofCode (rxKind bytes) = some .control →
      ((s.port p).advertisedControl = 0 →
        exec (.receiveSegment p bytes) s = .next (s.setPort p { s.port p with overruns := satAdd (s.port p).overruns 1 })) ∧
      (0 < (s.port p).advertisedControl → rxPayloadGood bytes = true →
        exec (.receiveSegment p bytes) s = .next (s.setPort p { s.port p with
          advertisedControl := (s.port p).advertisedControl - 1
          slots := (s.port p).slots ++ [rxSegment .control bytes] })) ∧
      (0 < (s.port p).advertisedControl → rxPayloadGood bytes = false →
        exec (.receiveSegment p bytes) s = .next (s.setPort p { s.port p with
          advertisedControl := (s.port p).advertisedControl - 1
          owedControl := (s.port p).owedControl + 1
          checkFailures := satAdd (s.port p).checkFailures 1 }))) ∧
    (∀ k, p = .a → k = .data ∨ k = .mark → SegKind.ofCode (rxKind bytes) = some k →
      (s.portA.advertisedData = 0 →
        exec (.receiveSegment p bytes) s =
          .next { s with portA := { s.portA with overruns := satAdd s.portA.overruns 1 } }) ∧
      (0 < s.portA.advertisedData → rxPayloadGood bytes = true →
        exec (.receiveSegment p bytes) s = .next { s with portA := { s.portA with
          advertisedData := s.portA.advertisedData - 1
          slots := s.portA.slots ++ [rxSegment k bytes] } }) ∧
      (0 < s.portA.advertisedData → rxPayloadGood bytes = false →
        exec (.receiveSegment p bytes) s = .next { s with portA := { s.portA with
          advertisedData := s.portA.advertisedData - 1
          owedData := s.portA.owedData + 1
          checkFailures := satAdd s.portA.checkFailures 1 } })) ∧
    (rxLength bytes = 0 → rxPayloadGood bytes = true)

/-- A received CREDIT raises the partner credits, which saturate at 65,535, and changes nothing else, whatever its payload
(R166). -/
def Obligations.ReceivedCredit : Prop :=
  ∀ (p : Port) (bytes : List Byte) (s : State), arrives p bytes s → SegKind.ofCode (rxKind bytes) = some .credit →
    exec (.receiveSegment p bytes) s = .next (s.setPort p { s.port p with
      partnerControl := min 65535 ((s.port p).partnerControl + field bytes 6 2)
      partnerData :=
        if p = .b then min 65535 ((s.port p).partnerData + field bytes 4 2) else (s.port p).partnerData })

/-- A free transmitter of an UP port takes a CREDIT whenever one is due: the owed counts move to the advertised counts
(R165, R167, R168). -/
def Obligations.SendCredit : Prop :=
  ∀ (p : Port) (s : State) (d : Nat),
    d = (if p = .a ∧ s.controller.state = .initializing then 0 else (s.port p).owedData) →
    (s.port p).link = .up → (s.port p).sending = none → 0 < d ∨ 0 < (s.port p).owedControl →
    exec (.sendCredit p) s = .next (s.setPort p { s.port p with
      owedData := (s.port p).owedData - d
      advertisedData := (s.port p).advertisedData + d
      owedControl := 0
      advertisedControl := (s.port p).advertisedControl + (s.port p).owedControl
      sending := some
        { bytes := Segment.wire { kind := .credit, flags := 0, stream := 0, epoch := BitVec.ofNat 16 d,
                                  first := BitVec.ofNat 16 (s.port p).owedControl, tag := 0, payload := [] }
          source := none } })

/-- With no CREDIT due and a control credit in hand, the oldest REPLY is taken, and without a REPLY the oldest NOTICE,
which carries the lost count and sets it to 0 (R167, R168, R191). -/
def Obligations.SendReplyAndNotice : Prop :=
  ∀ (p : Port) (s : State),
    (s.port p).link = .up → (s.port p).sending = none → creditDue p s = false → 0 < (s.port p).partnerControl →
    (∀ seg rest, (s.port p).replies = seg :: rest →
      exec (.sendReply p) s = .next (s.setPort p { s.port p with
        replies := rest
        partnerControl := (s.port p).partnerControl - 1
        sending := some { bytes := seg.wire, source := none } })) ∧
    (∀ n rest, (s.port p).replies = [] → (s.port p).notices = n :: rest →
      exec (.sendNotice p) s = .next (s.setPort p { s.port p with
        notices := rest
        partnerControl := (s.port p).partnerControl - 1
        lost := 0
        sending := some { bytes := (noticeSegment n (s.port p).lost).wire, source := none } }))

/-- Port B takes the segment of the first channel that offers one, in rotation, when nothing of higher precedence is
eligible and it holds a data credit. The channel goes on: after a MARK to its first slab, otherwise to its next read. After
the LAST segment of a slab that slab is EMPTY and one frame is counted drained, and the channel goes on to the next slab of
its entry, or after the last one to IDLE (R123, R126, R127, R169). -/
def Obligations.SendDrainSegment : Prop :=
  ∀ (c : ChanId) (seg : Segment) (s u : State),
    s.portB.link = .up → s.portB.sending = none → creditDue .b s = false →
    (s.portB.replies = [] ∧ s.portB.notices = []) ∨ s.portB.partnerControl = 0 → 0 < s.portB.partnerData →
    ([s.lastDataChannel + 1, s.lastDataChannel + 2, s.lastDataChannel + 3, s.lastDataChannel].find?
      fun k => decide ((s.channel k).state = .waitingSend) && (s.channel k).assembled.isSome) = some c →
    (s.channel c).assembled = some seg →
    u = { s with
      portB := { s.portB with partnerData := s.portB.partnerData - 1,
                              sending := some { bytes := seg.wire, source := some c } }
      lastDataChannel := c } →
    ((s.channel c).markDue = true →
      exec .sendDrainSegment s = .next (requestRead c (u.setChannel c { s.channel c with
        assembled := none, inTransmission := true, state := .assembling, markDue := false, current := some 0,
        nextIndex := some 0 }))) ∧
    ((s.channel c).markDue = false → seg.flags.getLsbD 0 = false →
      exec .sendDrainSegment s = .next (requestRead c (u.setChannel c { s.channel c with
        assembled := none, inTransmission := true, state := .assembling }))) ∧
    (∀ e k sl i, (s.channel c).markDue = false → seg.flags.getLsbD 0 = true → (s.channel c).entry = some e →
      (s.channel c).current = some k → e.slabs[k]? = some sl → k + 1 = e.slabs.length → s.owner sl = some i →
      exec .sendDrainSegment s = .next
        ((emptySlab i sl ((u.setChannel c { s.channel c with assembled := none, inTransmission := true }).count i
          fun n => { n with epochsDrained := satAdd n.epochsDrained 1 })).setChannel c
          { Channel.blank with inTransmission := true })) ∧
    ∀ e k sl i, (s.channel c).markDue = false → seg.flags.getLsbD 0 = true → (s.channel c).entry = some e →
      (s.channel c).current = some k → e.slabs[k]? = some sl → k + 1 < e.slabs.length → s.owner sl = some i →
      exec .sendDrainSegment s = .next (requestRead c
        ((emptySlab i sl ((u.setChannel c { s.channel c with assembled := none, inTransmission := true }).count i
          fun n => { n with epochsDrained := satAdd n.epochsDrained 1 })).setChannel c
          { s.channel c with
            assembled := none, inTransmission := true, state := .assembling, current := some (k + 1)
            nextIndex := some 0 }))

/-- A send completion frees the transmitter, and ends the transmission of the channel whose segment it was; a channel in
ABORTING without a read then completes its abort: the slabs its entry still holds come to rest undrained, the channel is
IDLE, and of the rest no counter, no other channel, no gang and no drain entry changes, nor does memory, its controller or
the Fill Engine; a port's queues may get the REPLY and the notice of an UNBIND that completes (R130, R133, R167). -/
def Obligations.SendCompletion : Prop :=
  ∀ (p : Port) (s v : State) (x : Transmission), (s.port p).sending = some x →
    v = s.setPort p { s.port p with sending := none } →
    (x.source = none → exec (.sendCompletion p) s = .next v) ∧
    (∀ c, x.source = some c → (s.channel c).state ≠ .aborting ∨ (s.channel c).read ≠ none →
      exec (.sendCompletion p) s = .next (v.setChannel c { s.channel c with inTransmission := false })) ∧
    (∀ c, x.source = some c → (s.channel c).state = .aborting → (s.channel c).read = none →
      ∃ t, exec (.sendCompletion p) s = .next t ∧ t = sendEnded c v ∧ (t.port p).sending = none ∧ t.channel c = .blank ∧
        (∀ k, k ≠ c → t.channel k = s.channel k) ∧
        (∀ sl, sl ∈ (s.channel c).slabs → (t.slab sl).state = .empty ∨ (t.slab sl).state = .free) ∧
        (∀ i, (t.stream i).counters = (s.stream i).counters) ∧
        (∀ q, ∃ l n k, t.port q = { v.port q with replies := l, notices := n, lost := k }) ∧
        t.memory = s.memory ∧ t.controller = s.controller ∧ t.gangs = s.gangs ∧ t.drainQueue = s.drainQueue ∧
        t.fill = s.fill ∧ t.routes = s.routes ∧ t.lastDataChannel = s.lastDataChannel ∧ t.now = s.now)

/-! ### The Fill Engine -/

/-- The discards of a DATA segment, each counted where its rule says: UNBOUND, NOT_ACCEPTING, FORMAT, and LATE against the
floor (R5, R22, R64 to R66). A segment of a new epoch that finds no EMPTY slab, under DROP_NEW or without a reclaim
candidate, is counted OVERFLOW, and no slab changes but for an OVERTAKEN seal (R68, R69, R71, R72). One whose range would
make a seventeenth is counted FRAGMENTED (R79). One whose epoch is 32,768 from that of an open slab, or older than the
older of two open slabs, is LATE, its notice with that slab's epoch plus 65,536 (R68). -/
def Obligations.DataDiscards : Prop :=
  (∀ (seg : Segment) (rest : List Segment) (s u : State), offersFill seg rest s → seg.kind = .data → u = afterTake rest s →
    (63 < seg.stream.toNat → exec .fillTakeData s =
      .next { u with portA := { u.portA with unbound := satAdd u.portA.unbound 1 } }) ∧
    ∀ i : StreamId, seg.stream.toNat = i.val →
      ((s.stream i).state = .empty ∨ (s.stream i).state = .defined → exec .fillTakeData s =
        .next { u with portA := { u.portA with unbound := satAdd u.portA.unbound 1 } }) ∧
      ((s.stream i).state = .paused ∨ (s.stream i).state = .stopping → exec .fillTakeData s =
        .next (u.count i fun n => { n with notAccepting := satAdd n.notAccepting 1 })) ∧
      ∀ d, (s.stream i).state = .active → (s.stream i).defn = some d →
        (seg.payload.length % (d.inWidth / 8) ≠ 0 ∨ seg.payload = [] ∨
            d.frameLength < seg.first.toNat + seg.payload.length / (d.inWidth / 8) →
          exec .fillTakeData s = .next (u.count i fun n => { n with format := satAdd n.format 1 })) ∧
        ∀ f, (s.stream i).floor = some f → newer seg.epoch f = false →
          seg.payload.length % (d.inWidth / 8) = 0 → seg.payload ≠ [] →
          seg.first.toNat + seg.payload.length / (d.inWidth / 8) ≤ d.frameLength →
          ((s.stream i).lastLate = some seg.epoch →
            exec .fillTakeData s = .next (u.count i fun n => { n with late := satAdd n.late 1 })) ∧
          ((s.stream i).lastLate ≠ some seg.epoch →
            exec .fillTakeData s = .next (raise
              { kind := .late, subject := some (BitVec.ofNat 8 i.val), epoch := some seg.epoch,
                detail := BitVec.ofNat 32 f.toNat }
              ((u.count i fun n => { n with late := satAdd n.late 1 }).modStream i
                fun e => { e with lastLate := some seg.epoch })))) ∧
  ∀ (i : StreamId) (d : Definition) (seg : Segment) (rest : List Segment) (s : State),
    offersFill seg rest s → onTime i d seg s →
    (∀ u, choosesIn i seg rest s u → (∀ x, x ∈ (s.stream i).ring → (s.slab x).state ≠ .empty) →
      d.overflow = .dropNew ∨ candidates i s = [] →
      exec .fillTakeData s = .next (u.count i fun n => { n with overflow := satAdd n.overflow 1 })) ∧
    (∀ sl, (openSlabs s i).find? (fun x => (s.slab x).epoch == some seg.epoch) = some sl →
      16 < (mergeRange (s.slab sl).coverage seg.first.toNat (seg.payload.length / (d.inWidth / 8))).length →
      exec .fillTakeData s =
        .next ((afterTake rest s).count i fun n => { n with fragmented := satAdd n.fragmented 1 })) ∧
    ((∀ x, x ∈ openSlabs s i → (s.slab x).epoch ≠ some seg.epoch) →
      (∀ sl, (openSlabs s i).find? (fun x => (seg.epoch - slabEpoch s x).toNat == 32768) = some sl →
        exec .fillTakeData s =
          .next (lateDiscarded i seg.epoch (65536 + (slabEpoch s sl).toNat) (afterTake rest s))) ∧
      ∀ older other, openSlabs s i = [older, other] ∨ openSlabs s i = [other, older] →
        newer (slabEpoch s other) (slabEpoch s older) = true →
        (∀ x, x ∈ openSlabs s i → (seg.epoch - slabEpoch s x).toNat ≠ 32768) →
        newer seg.epoch (slabEpoch s older) = false →
        exec .fillTakeData s =
          .next (lateDiscarded i seg.epoch (65536 + (slabEpoch s older).toNat) (afterTake rest s)))

/-- A DATA segment joins the FILLING slab of its epoch: counted accepted, its range merged, its samples converted one after
another and each handed to the write queue at the address of its own logical index, until all are or one must wait; at the
end a whole frame is sealed COMPLETE, whatever cause is held, else a held cause seals, with the holes filled where hole
fill is ON, else the fill timer restarts (R67, R78, R80 to R83, R85, R94). The merge keeps the ranges disjoint, non-adjacent, ascending and within the frame, and covers what was
covered and the segment's own indices (R77, R78). -/
def Obligations.DataJoinsSlab : Prop :=
  (∀ (i : StreamId) (d : Definition) (seg : Segment) (rest : List Segment) (s u t : State) (sl : SlabId) (w : Walk)
    (cov : List IndexRange),
    offersFill seg rest s → onTime i d seg s →
    (openSlabs s i).find? (fun x => (s.slab x).epoch == some seg.epoch) = some sl → writeWalkOf s i sl = some w →
    cov = mergeRange (s.slab sl).coverage seg.first.toNat (seg.payload.length / (d.inWidth / 8)) → cov.length ≤ 16 →
    u = State.count ((afterTake rest s).setSlab sl { s.slab sl with coverage := cov, placing := true }) i (fun n =>
      { n with
        segmentsAccepted := satAdd n.segmentsAccepted 1
        samplesAccepted := satAdd n.samplesAccepted (coveredCount cov - coveredCount (s.slab sl).coverage) }) →
    places { stream := i, slab := sl, next := seg.first.toNat, rest := fieldsOf d seg, aborted := false } d w u t →
    exec .fillTakeData s = .next t) ∧
  ∀ (cov : List IndexRange) (f n frameLength : Nat), rangesOk frameLength cov → 0 < n → f + n ≤ frameLength →
    rangesOk frameLength (mergeRange cov f n) ∧
      ∀ k, covered (mergeRange cov f n) k ↔ covered cov k ∨ (f ≤ k ∧ k < f + n)

/-- A DATA segment for a new epoch, with fewer than two slabs open or the older of two sealed OVERTAKEN first: the first
EMPTY slab after the ring pointer is opened for its epoch under the current layout version, the ring pointer moves to it,
and the segment's samples are placed into it (R68 to R70, R76, R78, R80 to R83). Under RECLAIM, with no slab EMPTY, the
candidate taken leaves its drain entry or record, the stream counts one epoch lost, an EPOCH_LOST notice names the lost
epoch with the new one as its detail, and the slab is opened likewise (R72 to R75). -/
def Obligations.DataOpensSlab : Prop :=
  ∀ (i : StreamId) (d : Definition) (seg : Segment) (rest : List Segment) (s u t : State) (sl : SlabId) (l : Layout)
    (pl : Placing),
    offersFill seg rest s → onTime i d seg s → (s.stream i).current = some l → choosesIn i seg rest s u →
    pl = { stream := i, slab := sl, next := seg.first.toNat, rest := fieldsOf d seg, aborted := false } →
    ((searchOrder (s.stream i)).find? (fun x => (s.slab x).state == .empty) = some sl →
      places pl d l.writeWalk (openedFor i d seg sl l u) t → exec .fillTakeData s = .next t) ∧
    ∀ v, (∀ x, x ∈ (s.stream i).ring → (s.slab x).state ≠ .empty) → d.overflow = .reclaim → reclaims i sl s →
      detachedFrom sl u v →
      places pl d l.writeWalk (openedFor i d seg sl l (raise
        { kind := .epochLost, subject := some (BitVec.ofNat 8 i.val), epoch := (s.slab sl).epoch
          detail := BitVec.ofNat 32 seg.epoch.toNat }
        (v.setStream i { v.stream i with
          previous := previousWithout i sl s
          counters := { (v.stream i).counters with epochLost := satAdd (v.stream i).counters.epochLost 1 } }))) t →
      exec .fillTakeData s = .next t

/-- An inbound MARK: discarded and counted when no ACTIVE stream is named; otherwise the floor rises, and a FILLING slab
whose epoch is not newer is sealed MARKED, one whose epoch is newer is not; of two slabs to be sealed the older is first,
and where both become FULL at once it is ahead in the Drain Queue (R5, R64, R86, R90, R97). -/
def Obligations.MarkActs : Prop :=
  ∀ (seg : Segment) (rest : List Segment) (s u : State), offersFill seg rest s → seg.kind = .mark → u = afterTake rest s →
    (63 < seg.stream.toNat → exec .fillTakeMark s =
      .next { u with portA := { u.portA with unbound := satAdd u.portA.unbound 1 } }) ∧
    ∀ i : StreamId, seg.stream.toNat = i.val →
      ((s.stream i).state ≠ .active → exec .fillTakeMark s =
        .next (u.count i fun n => { n with notAccepting := satAdd n.notAccepting 1 })) ∧
      ((s.stream i).state = .active → (∀ x, x ∈ (s.stream i).ring → (s.slab x).state ≠ .filling) →
        exec .fillTakeMark s =
          .next (u.modStream i fun e => { e with floor := some (raiseEpoch e.floor seg.epoch) })) ∧
      (∀ sl, (s.stream i).state = .active →
        (s.stream i).ring.filter (fun x => (s.slab x).state == .filling) = [sl] →
        (newer ((s.slab sl).epoch.getD 0) seg.epoch = true → exec .fillTakeMark s =
          .next (u.modStream i fun e => { e with floor := some (raiseEpoch e.floor seg.epoch) })) ∧
        (newer ((s.slab sl).epoch.getD 0) seg.epoch = false → sealsQuietly i sl s → exec .fillTakeMark s =
          .next ((sealedWaiting i sl .marked u).modStream i
            fun e => { e with floor := some (raiseEpoch e.floor seg.epoch) }))) ∧
      ∀ older other, (s.stream i).state = .active → openSlabs s i = [older, other] ∨ openSlabs s i = [other, older] →
        newer (slabEpoch s other) (slabEpoch s older) = true →
        ((∀ x, x = older ∨ x = other → sealsQuietly i x s) → exec .fillTakeMark s =
          .next ((([older, other].filter fun x => !newer (slabEpoch s x) seg.epoch).foldl
            (fun acc x => sealedWaiting i x .marked acc) u).modStream i
            fun e => { e with floor := some (raiseEpoch e.floor seg.epoch) })) ∧
        ((∀ x, x = older ∨ x = other → sealsToFull i x s) → exec .fillTakeMark s =
          .next ((([older, other].filter fun x => !newer (slabEpoch s x) seg.epoch).foldl
            (fun acc x => sealedFull i x .marked acc) u).modStream i
            fun e => { e with floor := some (raiseEpoch e.floor seg.epoch) }))

/-- A held write is handed over when the queue takes it, and not before. The placement it belongs to then goes on with the
samples that wait behind it, to its end or to the next write that must wait; at its end a whole frame is sealed COMPLETE,
whatever cause is held, else a held cause seals, else the fill timer restarts, and a placement that an abort has marked
leaves its slab EMPTY (R18, R82, R83, R85, R89). When it belongs to the one hole-fill item, its hole is counted filled, and
the holes behind it are filled until all are or one must wait; the item leaves the list after its last hole, its slab still
SEALING while a write is outstanding (R94, R95). -/
def Obligations.HeldWriteResumes : Prop :=
  ∀ (s : State) (w : Write), s.fill.held = some w →
    (enqueue w s = none → exec .fillWriteResume s = .next s) ∧
    (∀ (v t : State) (pl : Placing) (d : Definition) (walk : Walk), enqueue w s = some v → s.fill.placing = some pl →
      (s.stream pl.stream).defn = some d → writeWalkOf s pl.stream pl.slab = some walk → s.fill.work = [] →
      places pl d walk { v with fill := { v.fill with held := none } } t → exec .fillWriteResume s = .next t) ∧
    ∀ (v t : State) (sl : SlabId) (k : Nat) (i : StreamId) (d : Definition) (walk : Walk), enqueue w s = some v →
      s.fill.placing = none → s.fill.work = [{ slab := sl, next := k }] → s.owner sl = some i →
      (s.stream i).defn = some d → writeWalkOf s i sl = some walk →
      fillsHoles i sl d walk k (State.count { v with fill := { placing := none, held := none, work := [] } } i
        fun n => { n with holesFilled := satAdd n.holesFilled 1 }) t →
      exec .fillWriteResume s = .next t

/-! ### The timers -/

/-- The fill timer's expiry seals a FILLING slab TIMEOUT, or is held during a placement into it; a warm reset in
progress keeps it from taking effect (R85 to R89, R185). That a held expiry leaves the timer stopped until the
placement's end is the model's choice (log entry 27). A slab sealed without holes to fill and without outstanding
writes becomes FULL at once; its stream in no gang, it gets a single drain entry at the queue's tail, and a FAULTED one
raises a CONVERSION notice (R95 to R97). A member of a gang hands it to the Gang Aligner: gang late, it returns to
EMPTY, counted and noticed; it joins the record of its epoch, which is released when that makes it complete and oldest,
with the complete ones that then follow; or it gets a new record, of which a fifth forces the oldest out (R97, R104 to
R108, R110). That the CONVERSION notice comes first is the model's choice (log entry 24). With hole fill ON, the fill
value is written at each hole's address, lowest index first, and the slab stays SEALING, or its item waits with the
write that the queue does not take; a hole is an index that no range covers (R77, R85, R93, R94). The time base reaches
the deadline (log entry 2). -/
def Obligations.FillTimerExpires : Prop :=
  (∀ (sl : SlabId) (i : StreamId) (d : Nat) (s u : State),
    (s.slab sl).fillTimer = some d → s.owner sl = some i → u = { s with now := max s.now d } →
    (s.management.warmReset ≠ none → exec (.fillTimerExpiry sl) s = .next s) ∧
    (s.management.warmReset = none → sealsQuietly i sl s →
      exec (.fillTimerExpiry sl) s = .next (sealedWaiting i sl .timeout u)) ∧
    (s.management.warmReset = none → (s.slab sl).state = .filling → (s.slab sl).placing = true → s.fill.work = [] →
      exec (.fillTimerExpiry sl) s = .next (u.setSlab sl { s.slab sl with
        fillTimer := none, heldCause := (s.slab sl).heldCause.or (some .timeout) }))) ∧
  (∀ (sl : SlabId) (i : StreamId) (d : Nat) (s : State),
    (s.slab sl).fillTimer = some d → s.owner sl = some i → s.management.warmReset = none → sealsToFull i sl s →
    exec (.fillTimerExpiry sl) s = .next (sealedFull i sl .timeout { s with now := max s.now d })) ∧
  (∀ (sl : SlabId) (i : StreamId) (g : GangId) (d n k : Nat) (e : Epoch) (s u b : State) (v : Gang) (h : Slab),
    (s.slab sl).fillTimer = some d → s.owner sl = some i → s.management.warmReset = none →
    (s.slab sl).state = .filling → (s.slab sl).placing = false → (s.slab sl).outstanding = 0 →
    holeFillOn s i = false → s.fill.work = [] → (s.stream i).gang = some g → (s.stream i).pendingOp = none →
    (s.slab sl).epoch = some e → n = max s.now d → v = s.gang g → k = v.members.idxOf i →
    u = sealedWaiting i sl .timeout { s with now := n } →
    b = conversionRaised i (s.slab sl) sl (u.setSlab sl { u.slab sl with state := .full }) →
    h = { u.slab sl with state := .full, holder := some (.gangRecord g e) } →
    ((∃ f, v.released = some f ∧ newer e f = false) ∨
        (v.released = none ∧ (∀ r, r ∈ v.records → r.epoch ≠ e) ∧ ∃ oldest newest, v.records.head? = some oldest ∧
          v.records.getLast? = some newest ∧ newer e oldest.epoch = false ∧ newer newest.epoch e = false) →
      exec (.fillTimerExpiry sl) s = .next (raise
        { kind := .gangLate, subject := some (BitVec.ofNat 8 i.val), epoch := some e, detail := BitVec.ofNat 32 g.val }
        ((b.setSlab sl { u.slab sl with
            state := .empty, epoch := none, version := none, cause := none, holeCount := none, placing := false
            heldCause := none, fillTimer := none, holder := none }).setStream i { u.stream i with
          previous := previousWithout i sl s
          counters := { (u.stream i).counters with gangLate := satAdd (u.stream i).counters.gangLate 1 } }))) ∧
    ((∀ f, v.released = some f → newer e f = true) →
      (∀ front r back x, v.records = front ++ r :: back → r.epoch = e → (∀ y, y ∈ front ∨ y ∈ back → y.epoch ≠ e) →
        x = { r with slots := r.slots.set k (some sl) } →
        (x.slots.all Option.isSome = false ∨ (front ≠ [] ∧ oldestIncomplete front) →
          exec (.fillTimerExpiry sl) s = .next ((b.setSlab sl h).setGang g { v with records := front ++ x :: back })) ∧
        ∀ done later, x.slots.all Option.isSome = true → front = [] → back = done ++ later → completesThrough done later →
          exec (.fillTimerExpiry sl) s = .next
            (releasedAll g (x :: done) later ((b.setSlab sl h).setGang g { v with records := x :: back }))) ∧
      ∀ front back x, v.records = front ++ back → (∀ r, r ∈ v.records → r.epoch ≠ e) →
        (∀ y, y ∈ front → newer y.epoch e = false) → (∀ y, back.head? = some y → newer y.epoch e = true) →
        v.released ≠ none ∨ v.records = [] ∨ (∃ oldest newest, v.records.head? = some oldest ∧
          v.records.getLast? = some newest ∧ (newer e oldest.epoch = true ∨ newer newest.epoch e = true)) →
        x = ({ epoch := e, slots := (v.members.map fun _ => none).set k (some sl)
               timer := some (n + v.alignTimeout.getD 0) } : GangRecord) →
        (v.records.length < 4 →
          exec (.fillTimerExpiry sl) s = .next ((b.setSlab sl h).setGang g { v with records := front ++ x :: back })) ∧
        ∀ first done later, 4 ≤ v.records.length → front ++ x :: back = first :: (done ++ later) →
          completesThrough done later →
          exec (.fillTimerExpiry sl) s = .next (releasedAll g (first :: done) later
            ((b.setSlab sl h).setGang g { v with records := first :: (done ++ later) })))) ∧
  (∀ (sl : SlabId) (i : StreamId) (d : Nat) (f : Definition) (w : Walk) (s t : State),
    (s.slab sl).fillTimer = some d → s.owner sl = some i → s.management.warmReset = none →
    (s.slab sl).state = .filling → (s.slab sl).placing = false → s.fill = { placing := none, held := none, work := [] } →
    (s.stream i).defn = some f → f.holeFill = true → writeWalkOf s i sl = some w → 0 < holesOf i sl s →
    fillsHoles i sl f w 0 (sealedWaiting i sl .timeout { s with now := max s.now d }) t →
    exec (.fillTimerExpiry sl) s = .next t) ∧
  ∀ (cov : List IndexRange) (frameLength k : Nat), rangesOk frameLength cov →
    (nextHole cov frameLength k = none ↔ ∀ m, k ≤ m → m < frameLength → covered cov m) ∧
    ∀ j, nextHole cov frameLength k = some j ↔
      k ≤ j ∧ j < frameLength ∧ ¬ covered cov j ∧ ∀ m, k ≤ m → m < j → covered cov m

/-- The align timer's expiry of a gang's record releases, oldest first, every record not newer than it, each as it stands,
and then those the completion test finds complete: for each a gang entry at the queue's tail holds its slabs, the released
epoch is the record's, and a partial record raises GANG_PARTIAL (R108 to R110). -/
def Obligations.AlignTimerReleases : Prop :=
  ∀ (g : GangId) (older done later : List GangRecord) (r : GangRecord) (d : Nat) (s : State),
    (s.gang g).records = older ++ r :: (done ++ later) → r.timer = some d → s.management.warmReset = none →
    (∀ x, x ∈ older → x.epoch ≠ r.epoch ∧ newer x.epoch r.epoch = false) →
    (∀ x, x ∈ done ∨ x ∈ later → newer x.epoch r.epoch = true) → completesThrough done later →
    exec (.alignTimerExpiry g r.epoch) s =
      .next (releasedAll g (older ++ r :: done) later { s with now := max s.now d })

/-- The deadline of a GRACEFUL UNBIND whose abort makes the whole ring EMPTY at once: FILLING and SEALING slabs are given
up with their hole-fill items, FULL ones leave their drain entries, a DRAINING one ends with its channel's abort; all
become FREE at the free list's tail, the stream is DEFINED, the table entry is released, the REPLY is FORCED with the
number of slabs that were not EMPTY, and STREAM_STOPPED carries the DRAINING slab's epoch, if any (R17 to R20, R119, R129
to R131). While a read or a transmission of its channel is left, a DRAINING slab keeps the UNBIND pending, the count and
the cut epoch fixed (R18, R130, R131). -/
def Obligations.DeadlineForcesUnbind : Prop :=
  ∀ (i : StreamId) (slot : OpSlot) (o : PendingOp) (forced : Bool) (m : Nat) (cut : Option Epoch) (s : State) (d : Nat),
    (s.stream i).state = .stopping → (s.stream i).pendingOp = some slot → findOp slot s = some o →
    o.deadline = some d → o.detail = .unbind forced m cut → s.management.warmReset = none →
    (abortsAtOnce i s → ∃ t, exec (.unbindDeadlineExpiry i) s = .next t ∧ unbindEnded i slot s t ∧ t.now = max s.now d ∧
      ∀ p, t.port p = (raise (stoppedNotice i (cutBy i s) (discardedBy i s))
        (if o.discard = true then s
        else pushReply o.port (replySegment o.tag 0x15 .done (1 :: beBytes 2 (discardedBy i s))) s)).port p) ∧
    ∀ front x back c, (s.stream i).ring = front ++ x :: back → (∀ y, y ∈ front ∨ y ∈ back → (s.slab y).state = .empty) →
      (s.slab x).state = .draining → (s.slab x).holder = some (.channel c) → (s.channel c).abortable = true →
      (s.channel c).read ≠ none ∨ (s.channel c).inTransmission = true → s.fill.work = [] →
      exec (.unbindDeadlineExpiry i) s = .next { s.setChannel c { s.channel c with state := .aborting, assembled := none } with
        now := max s.now d
        management := { s.management with ops := s.management.ops.map fun (y : PendingOp) =>
          if y.slot = slot then { y with deadline := none, detail := .unbind true 1 (s.slab x).epoch } else y } }

/-- The lease's expiry ends the claim: no holder, no lease, nothing staged on any stream, and a CLAIM_ENDED notice that
names the holder's port (R43, R178). -/
def Obligations.LeaseExpires : Prop :=
  ∀ (p : Port) (d : Nat) (s : State), s.management.holder = some p → s.management.leaseTimer = some d →
    exec .leaseExpiry s = .next (raise
      { kind := .claimEnded, subject := none, epoch := none, detail := if p = .a then 1 else 2 }
      { s with
        now := max s.now d
        management := { s.management with holder := none, lease := none, leaseTimer := none }
        streams := s.streams.map fun e => { e with stagedWrite := none, stagedRead := none } })

/-- The refresh interval's expiry restarts its timer and raises a debt below 8; at 8 it is a miss: counted, every slab in
use marked SUSPECT, and noticed with their number (R145, R147). -/
def Obligations.RefreshIntervalExpires : Prop :=
  ∀ (s u : State) (n : Nat),
    n = max s.now (s.controller.refreshTimer.getD s.now) →
    u = { s with now := n, controller := { s.controller with refreshTimer := some (n + 4) } } →
    (s.controller.debt < 8 → exec .refreshIntervalExpiry s =
      .next { u with controller := { u.controller with debt := s.controller.debt + 1 } }) ∧
    (8 ≤ s.controller.debt → exec .refreshIntervalExpiry s = .next (raise
      { kind := .refreshMiss, subject := none, epoch := none
        detail := BitVec.ofNat 32 (s.slabs.rows.countP fun v => v.state != .free && v.state != .empty) }
      { u with
        controller := { u.controller with refreshMisses := satAdd s.controller.refreshMisses 1 }
        slabs := s.slabs.map fun v =>
          if v.state ≠ .free ∧ v.state ≠ .empty then { v with suspect := true } else v }))

/-! ### The Frame Memory Controller -/

/-- The arbiter's order: urgent refresh, management read, write, drain read, relaxed refresh, each only if its bank is
READY; the fairness count at 8 puts a drain read ahead of the write (R142, R144). When each claimant stands with its bank
READY; and which drain read is granted: the first in channel order after the last channel granted that is requested, not
granted, not held, and whose bank is READY (R141 to R143, R149, R152). -/
def Obligations.ArbiterOrder : Prop :=
  ∀ s : State,
    (4 ≤ s.controller.debt → refreshReady s = true → arbiterChoice s = some .refresh) ∧
    (¬(4 ≤ s.controller.debt ∧ refreshReady s = true) →
      (claimReady s .managementRead = true → arbiterChoice s = some .managementRead) ∧
      (claimReady s .managementRead = false →
        (claimReady s .write = true → s.controller.fairness ≠ 8 ∨ claimReady s .drainRead = false →
          arbiterChoice s = some .write) ∧
        (claimReady s .drainRead = true → s.controller.fairness = 8 ∨ claimReady s .write = false →
          arbiterChoice s = some .drainRead) ∧
        (claimReady s .write = false → claimReady s .drainRead = false →
          arbiterChoice s = if refreshReady s = true then some .refresh else none))) ∧
    (refreshReady s = true ↔ 1 ≤ s.controller.debt ∧ (∀ b, s.controller.banks.get b ≠ .refreshing) ∧
      s.controller.banks.get s.controller.bankPointer = .ready) ∧
    (claimReady s .managementRead = true ↔ ∃ r rest, s.controller.reads = r :: rest ∧ r.data = none ∧
      s.controller.banks.get (bankOf (r.addr / 64)) = .ready) ∧
    (claimReady s .write = true ↔
      (s.controller.state = .initializing ∧ s.controller.progress < 1048576 ∧
        s.controller.banks.get (bankOf s.controller.progress) = .ready) ∨
      (s.controller.state = .running ∧ ∃ e rest, s.controller.queue = e :: rest ∧ e.granted = false ∧
        s.controller.banks.get (bankOf e.line) = .ready)) ∧
    (claimReady s .drainRead = true ↔ ∃ c, drainChoice s = some c) ∧
    (∀ line, (bankOf line).val = line % 8) ∧
    ∀ (ready : ChanId → Prop) (c : ChanId) (last : ChanId), last = s.controller.lastGranted →
      (∀ k, ready k ↔ ∃ r, (s.channel k).read = some r ∧ r.data = none ∧ r.hold = none ∧
        s.controller.banks.get (bankOf (r.addr / 64)) = .ready) →
      (drainChoice s = some c ↔ ready c ∧ ∃ front back, [last + 1, last + 2, last + 3, last] = front ++ c :: back ∧
        ∀ k, k ∈ front → ¬ ready k)

/-- The write queue takes a write: merged into an ungranted tail entry of its line, else appended while there are fewer
than 32 entries, else not taken; and the outstanding-write count of its slab (R138 to R140). -/
def Obligations.WriteQueueTakes : Prop :=
  ∀ (w : Write) (s : State),
    (∀ (front : List WriteEntry) (e : WriteEntry) (sl : Option SlabId), s.controller.queue = front ++ [e] →
      e.line = w.addr / 64 → e.granted = false → sl = (if e.slab = none then w.slab else none) →
      enqueue w s = some (match sl with
        | some x => State.modSlab { s with controller := { s.controller with
              queue := front ++ [{ e with image := putBytes e.image (w.addr % 64) w.bytes, slab := w.slab }] } } x
            fun v => { v with outstanding := v.outstanding + 1 }
        | none => { s with controller := { s.controller with
              queue := front ++ [{ e with image := putBytes e.image (w.addr % 64) w.bytes
                                          slab := e.slab }] } })) ∧
    ((∀ e, s.controller.queue.getLast? = some e → e.line ≠ w.addr / 64 ∨ e.granted = true) →
      (32 ≤ s.controller.queue.length → enqueue w s = none) ∧
      (∀ x, x = ({ s with controller := { s.controller with
            nextNumber := s.controller.nextNumber + 1
            queue := s.controller.queue ++ [{ number := s.controller.nextNumber, line := w.addr / 64
                                              image := putBytes (Table.replicate 64 none) (w.addr % 64) w.bytes
                                              slab := w.slab, granted := false }] } } : State) →
        s.controller.queue.length < 32 →
        (w.slab = none → enqueue w s = some x) ∧
        ∀ sl, w.slab = some sl → enqueue w s = some (x.modSlab sl fun v => { v with outstanding := v.outstanding + 1 }))) ∧
    ∀ (image : Table 64 (Option Byte)) (off : Nat) (bytes : List Byte) (k : Fin 64),
      (putBytes image off bytes).get k =
        if off ≤ k.val ∧ k.val < off + bytes.length then bytes[k.val - off]? else image.get k

/-- The grants: the bank of the line is BUSY; the fairness count follows a write, and a drain read sets it to 0; a read
has the bytes of memory as they stand (R137, R141, R143, R144, R149, R152). -/
def Obligations.AccessGrants : Prop :=
  (∀ (s : State) (f : Nat), arbiterChoice s = some .write →
    f = (if ((List.finRange 4).any fun c => (s.channel c).read.any fun r => r.data.isNone && r.hold.isNone) = true
      then min 8 (s.controller.fairness + 1) else 0) →
    (∀ e rest, s.controller.state = .running → s.controller.queue = e :: rest → e.granted = false →
      exec .grantWrite s = .next { s with controller := { s.controller with
        banks := s.controller.banks.set (bankOf e.line) .busy
        fairness := f
        queue := { e with granted := true } :: rest } }) ∧
    (s.controller.state = .initializing → s.controller.progress < 1048576 →
      exec .grantInitWrite s = .next { s with controller := { s.controller with
        banks := s.controller.banks.set (bankOf s.controller.progress) .busy
        fairness := f
        progress := s.controller.progress + 1
        initInFlight := s.controller.initInFlight ++ [s.controller.progress] } })) ∧
  (∀ s : State,
    (∀ c r, arbiterChoice s = some .drainRead → drainChoice s = some c → (s.channel c).read = some r →
      exec .grantDrainRead s = .next ({ s with controller := { s.controller with
        banks := s.controller.banks.set (bankOf (r.addr / 64)) .busy, fairness := 0, lastGranted := c } }.setChannel c
        { s.channel c with read := some { r with data := some (Memory.readBytes s.memory r.addr r.size) } })) ∧
    ∀ r rest, arbiterChoice s = some .managementRead → s.controller.reads = r :: rest →
      exec .grantManagementRead s = .next { s with controller := { s.controller with
        banks := s.controller.banks.set (bankOf (r.addr / 64)) .busy
        reads := { r with data := some (Memory.readBytes s.memory r.addr r.size) } :: rest } })

/-- The completion of the head entry's write: its masked bytes are in memory and no other byte changes, its bank is READY,
it has left the queue, its slab counts one write less, and neither a drain read nor a PEEK nor a SYNC waits for it; the
SYNCs reply DONE (R140, R141, R143, R148, R151). A SEALING slab whose last write it was, with no hole-fill item and in no
gang, is FULL with a single drain entry at the queue's tail, a FAULTED one with its CONVERSION notice (R95 to R97); the
FLUSH that waited for it alone completes with its REPLY, and one that waits for others too waits for these alone (R92).
That a FLUSH's REPLY comes before those of the SYNCs is the model's choice (log entry 6). -/
def Obligations.WriteCompletes : Prop :=
  ∀ (s : State) (e : WriteEntry) (rest : List WriteEntry), s.controller.queue = e :: rest → e.granted = true →
    ∃ t, exec .writeCompletion s = .next t ∧
      (∀ k : Fin 64, Memory.read t.memory (e.line * 64 + k.val) =
        (e.image.get k).getD (Memory.read s.memory (e.line * 64 + k.val))) ∧
      (∀ a, a / 64 ≠ e.line → Memory.read t.memory a = Memory.read s.memory a) ∧
      t.controller = { s.controller with
        queue := rest, banks := s.controller.banks.set (bankOf e.line) .ready
        reads := s.controller.reads ++ (s.controller.heldPeeks.filter fun h => h.entry == e.number).map fun h =>
          { addr := h.addr, size := h.size, owner := .tableEntry h.slot, data := none }
        heldPeeks := s.controller.heldPeeks.filter fun h => h.entry != e.number } ∧
      (∀ sl, e.slab = some sl → (t.slab sl).outstanding = (s.slab sl).outstanding - 1) ∧
      (∀ sl, e.slab ≠ some sl → (t.slab sl).outstanding = (s.slab sl).outstanding) ∧
      (∀ c, (t.channel c).read = (s.channel c).read.map fun r =>
        if r.hold = some e.number then { r with hold := none } else r) ∧
      (∀ o, o ∈ t.management.ops → o.detail ≠ .sync e.number) ∧
      t.fill = s.fill ∧ t.routes = s.routes ∧ t.now = s.now ∧ t.lastDataChannel = s.lastDataChannel ∧
      ((∀ sl i, ¬ fillsUp e sl i s) →
        t.drainQueue = s.drainQueue ∧ t.streams = s.streams ∧ ∀ p, t.port p = (syncReplies e s s).port p) ∧
      ∀ sl i c, fillsUp e sl i s → (s.stream i).gang = none → c = conversionRaised i (s.slab sl) sl s →
        t.drainQueue = s.drainQueue ++ [.single sl] ∧
        t.slab sl = { s.slab sl with state := .full, outstanding := 0, holder := some .singleEntry } ∧
        ((∀ o size waiting, streamOp i s = some o → o.detail = .flush size waiting → sl ∉ waiting) →
          t.streams = s.streams ∧ ∀ p, t.port p = (syncReplies e s c).port p) ∧
        ∀ o size waiting, streamOp i s = some o → o.detail = .flush size waiting → sl ∈ waiting →
          (∀ x, x ∈ s.management.ops → x.slot = o.slot → x = o) →
          (waiting.erase sl = [] → (t.stream i).pendingOp = none ∧ findOp o.slot t = none ∧
            ∀ p, t.port p = (syncReplies e s (if o.discard = true then c
              else pushReply o.port (replySegment o.tag 0x16 .done [BitVec.ofNat 8 size]) c)).port p) ∧
          (waiting.erase sl ≠ [] → t.stream i = s.stream i ∧
            findOp o.slot t = some { o with detail := .flush size (waiting.erase sl) } ∧
            ∀ p, t.port p = (syncReplies e s c).port p)

/-- The completion of an initialisation write: all 64 bytes of its line are zero and no other byte changes, its bank is
READY, and the controller is RUNNING after the last one (R152). -/
def Obligations.InitWriteCompletes : Prop :=
  ∀ (s : State) (b : BankId) (line : Nat), (s.controller.initInFlight.find? fun l => bankOf l == b) = some line →
    ∃ m, exec (.initWriteCompletion b) s = .next { s with
        memory := m
        controller := { s.controller with
          banks := s.controller.banks.set (bankOf line) .ready
          initInFlight := s.controller.initInFlight.filter fun l => l != line
          state := if s.controller.progress = 1048576 ∧ ∀ l, l ∈ s.controller.initInFlight → l = line then .running
            else s.controller.state } } ∧
      ∀ a, Memory.read m a = if a / 64 = line then 0 else Memory.read s.memory a

/-- The completion of a drain read on an ASSEMBLING channel: the bank is READY, and the converted sample joins the
segment, which is whole at the segment size or at the frame's end and then has its header fixed (R57, R124, R125). On an
ABORTING channel the data is dropped; with no transmission left the abort completes, the slabs the entry still holds EMPTY
and the channel IDLE (R130, R143). -/
def Obligations.DrainReadCompletes : Prop :=
  (∀ (c : ChanId) (s u : State) (r : DrainRead) (bytes : List Byte), (s.channel c).read = some r → r.data = some bytes →
    (s.channel c).state = .aborting →
    u = { s with controller := { s.controller with
      banks := s.controller.banks.set (bankOf (r.addr / 64)) .ready } } →
    ((s.channel c).inTransmission = true →
      exec (.drainReadCompletion c) s = .next (u.setChannel c { s.channel c with read := none })) ∧
    ((s.channel c).inTransmission = false →
      (∀ sl i, (s.channel c).slabs = [sl] → s.owner sl = some i →
        exec (.drainReadCompletion c) s = .next ((emptySlab i sl u).setChannel c .blank)) ∧
      ∃ t, exec (.drainReadCompletion c) s = .next t ∧ t.channel c = .blank ∧
        (∀ sl, sl ∈ (s.channel c).slabs → (t.slab sl).state = .empty ∨ (t.slab sl).state = .free) ∧
        (∀ i, (t.stream i).counters = (s.stream i).counters) ∧ t.controller = u.controller)) ∧
  ∀ (c : ChanId) (s u : State) (r : DrainRead) (bytes : List Byte) (sl : SlabId) (k : Nat) (i : StreamId)
    (d : Definition) (seg : Segment),
    (s.channel c).read = some r → r.data = some bytes → (s.channel c).state = .assembling →
    (s.channel c).currentSlab = some sl → (s.channel c).nextIndex = some k → s.owner sl = some i →
    (s.stream i).defn = some d →
    u = State.count { s with controller := { s.controller with
          banks := s.controller.banks.set (bankOf (r.addr / 64)) .ready } } i
      (fun n => { n with
        outputClips := if (outboundConvert d bytes).2 = true then satAdd n.outputClips 1 else n.outputClips }) →
    seg = { ((s.channel c).assembled.getD { kind := .data, flags := 0, stream := 0, epoch := 0
                                            first := BitVec.ofNat 16 k, tag := 0, payload := [] }) with
      payload := ((s.channel c).assembled.map Segment.payload).getD [] ++ (outboundConvert d bytes).1 } →
    (d.segmentSize ≤ seg.payload.length ∨ d.frameLength ≤ k + 1 →
      exec (.drainReadCompletion c) s = .next (u.setChannel c { s.channel c with
        read := none, state := .waitingSend, nextIndex := some (k + 1)
        assembled := some { seg with
          flags := dataFlags (decide (d.frameLength ≤ k + 1)) (s.slab sl).incomplete (s.slab sl).faulted
            (s.slab sl).suspect (s.channel c).ganged
          stream := d.outputId, epoch := (s.slab sl).epoch.getD 0 } })) ∧
    (¬(d.segmentSize ≤ seg.payload.length ∨ d.frameLength ≤ k + 1) →
      exec (.drainReadCompletion c) s = .next (requestRead c (u.setChannel c { s.channel c with
        read := none, nextIndex := some (k + 1), assembled := some seg })))

/-- The completion of a management read: the bank is READY, the read leaves the list, and the REPLY carries its bytes; a
read whose request a warm reset ended has its data discarded (R148, R149). -/
def Obligations.ManagementReadCompletes : Prop :=
  ∀ (s u : State) (r : MgmtRead) (rest : List MgmtRead) (bytes : List Byte),
    s.controller.reads = r :: rest → r.data = some bytes →
    u = { s with controller := { s.controller with
      banks := s.controller.banks.set (bankOf (r.addr / 64)) .ready, reads := rest } } →
    (r.owner = .discarded → exec .managementReadCompletion s = .next u) ∧
    (∀ p tag, r.owner = .direct → s.management.wait = .peek p tag false → exec .managementReadCompletion s =
      .next (pushReply p (replySegment tag 0x28 .done bytes)
        { u with management := { s.management with wait := .nothing } })) ∧
    ∀ slot o, r.owner = .tableEntry slot → findOp slot s = some o → o.discard = false →
      exec .managementReadCompletion s = .next (pushReply o.port (replySegment o.tag 0x28 .done bytes)
        { u with management := { s.management with ops := s.management.ops.filter fun x => x.slot != slot } })

/-- A refresh: granted, the pointer's bank is REFRESHING; complete, it is READY, the debt is one less and the pointer is
one on, from 7 to 0 (R137, R146). -/
def Obligations.RefreshRuns : Prop :=
  ∀ s : State,
    (arbiterChoice s = some .refresh → exec .grantRefresh s = .next { s with controller := { s.controller with
      banks := s.controller.banks.set s.controller.bankPointer .refreshing } }) ∧
    (s.controller.banks.get s.controller.bankPointer ≠ .ready → exec .grantRefresh s = .next s) ∧
    (s.controller.banks.get s.controller.bankPointer = .refreshing →
      exec .refreshCompletion s = .next { s with controller := { s.controller with
        banks := s.controller.banks.set s.controller.bankPointer .ready
        debt := s.controller.debt - 1
        bankPointer := s.controller.bankPointer + 1 } })

/-! ### The drain channels -/

/-- The lowest-numbered IDLE channel takes the oldest entry that is eligible and behind no entry that was passed over and
shares a stream or a gang with it: the entry leaves the queue, its slabs are DRAINING and held by the channel. For a
single entry the channel requests its first read; for a gang entry it offers the MARK (R121 to R124); with no such entry
or no IDLE channel, none is taken (R121). The streams of a gang entry are its present members' (R118). The read a channel
requests: the byte address of the read walk of the slab's layout version, held by the newest entry of the write queue for
its line (R30, R53, R124, R143). -/
def Obligations.ChannelTakesEntry : Prop :=
  (∀ (c : ChanId) (e : DrainEntry) (s u : State), s.management.warmReset = none →
    ((List.finRange 4).find? fun k => (s.channel k).state == .idle) = some c →
    (∃ front back, s.drainQueue = front ++ e :: back ∧ takeable s front e = true ∧
      ∀ a f b, front = a ++ f :: b → takeable s a f = false) →
    u = e.slabs.foldl (fun acc sl => acc.modSlab sl fun v => { v with state := .draining, holder := some (.channel c) })
      { s with drainQueue := s.drainQueue.erase e } →
    (∀ sl, e = .single sl → exec .channelTakeEntry s = .next (requestRead c (u.setChannel c { s.channel c with
      state := .assembling, entry := some e, markDue := false, current := some 0, nextIndex := some 0
      assembled := none, read := none }))) ∧
    ∀ g, e = .gang g → exec .channelTakeEntry s = .next (u.setChannel c { s.channel c with
      state := .waitingSend, entry := some e, markDue := true, current := none, nextIndex := none
      assembled := some
        { kind := .mark, flags := 0, stream := g.markId, epoch := g.epoch, first := 0, tag := 0
          payload := BitVec.ofNat 8 g.members.length :: BitVec.ofNat 8 (presentMask g.present) ::
            g.members.map (·.2) }
      read := none })) ∧
  (∀ s : State, (∀ c, (s.channel c).state ≠ .idle) ∨
      (∀ a f b, s.drainQueue = a ++ f :: b → takeable s a f = false) → exec .channelTakeEntry s = .next s) ∧
  (∀ (s : State) (older : List DrainEntry) (e : DrainEntry), takeable s older e = true ↔
    ∀ f, f ∈ older ∨ (∃ c, (s.channel c).state ≠ .idle ∧ (s.channel c).entry = some f) →
      (∀ i, i ∈ e.streams s → i ∉ f.streams s) ∧ ∀ g, e.gangOf = some g → f.gangOf ≠ some g) ∧
  (∀ (s : State) (sl : SlabId) (e : GangEntry), (DrainEntry.single sl).streams s = (s.owner sl).toList ∧
    ∀ i, i ∈ (DrainEntry.gang e).streams s ↔ ∃ p o, p ∈ e.present ∧ e.members[p.1]? = some (i, o)) ∧
  (∀ (c : ChanId) (s : State) (sl : SlabId) (k : Nat) (i : StreamId) (d : Definition) (w : Walk) (a : Nat),
    (s.channel c).currentSlab = some sl → (s.channel c).nextIndex = some k → s.owner sl = some i →
    (s.stream i).defn = some d → readWalkOf s i sl = some w →
    a = sl.val * 65536 + walkAddress w k * (d.storeWidth / 8) →
    requestRead c s = s.setChannel c { s.channel c with
      read := some
        { addr := a, size := d.storeWidth / 8, data := none
          hold := ((s.controller.queue.filter fun e => e.line == a / 64).getLast?).map WriteEntry.number } })

/-! ### Walks and conversions -/

/-- A walk that LOAD WALK admits keeps every logical index of the frame within the slab: its sample addresses are not
negative and below the slab capacity, so that a sample's bytes lie in the slab's own 65,536 (R28, R29, R33 to R35, R53,
R59). -/
def Obligations.WalksStayInSlab : Prop :=
  ∀ (w : Walk) (d : Definition) (j : Nat) (sl : SlabId), walkRefusal w d = none → j < d.frameLength →
    0 ≤ (w.origin : Int) + termSum w w.levels j ∧ walkAddress w j < 65536 / (d.storeWidth / 8) ∧
    sl.val * 65536 ≤ sampleAddr sl d.storeWidth (walkAddress w j) ∧
    sampleAddr sl d.storeWidth (walkAddress w j) + d.storeWidth / 8 ≤ (sl.val + 1) * 65536

/-- The inbound conversion: a shifted value in the store's range is stored as it is; one outside counts as a fault and is
stored as the nearest value of the range, as the value of the range that differs by a multiple of 2^w, or as the fill
value. The outbound conversion under LOW clips to the output's range (R46 to R51, R55 to R57). -/
def Obligations.Conversions : Prop :=
  ∀ (d : Definition) (bytes : List Byte) (x lo hi : Int), 1 ≤ d.storeWidth →
    lo = (if d.inSign = .signed then -(2 ^ (d.storeWidth - 1) : Int) else 0) →
    hi = (if d.inSign = .signed then (2 ^ (d.storeWidth - 1) : Int) - 1 else (2 ^ d.storeWidth : Int) - 1) →
    x = fieldValue d.inSign d.inWidth (beNat bytes) / (2 ^ d.inShift : Int) →
    (lo ≤ x → x ≤ hi → inboundConvert d bytes = (x, false)) ∧
    (x < lo ∨ hi < x →
      (d.storePolicy = .saturate → inboundConvert d bytes = (if x < lo then lo else hi, true)) ∧
      (d.storePolicy = .wrap →
        ∃ v, inboundConvert d bytes = (v, true) ∧ lo ≤ v ∧ v ≤ hi ∧ (v - x) % (2 ^ d.storeWidth : Int) = 0) ∧
      (d.storePolicy = .mark → inboundConvert d bytes = (d.fillValue, true))) ∧
    ∀ y, y = fieldValue d.inSign d.storeWidth (beNat bytes) → 1 ≤ d.outWidth →
      (d.placement = .high → outboundConvert d bytes =
        (valueBytes d.outWidth (y * (2 ^ (d.outWidth - d.storeWidth) : Int)), false)) ∧
      (d.placement = .low → d.outSign = .unsigned → outboundConvert d bytes =
        (valueBytes d.outWidth (max 0 (min y ((2 ^ d.outWidth : Int) - 1))),
          decide (y < 0 ∨ (2 ^ d.outWidth : Int) - 1 < y))) ∧
      (d.placement = .low → d.outSign = .signed → outboundConvert d bytes =
        (valueBytes d.outWidth (max (-(2 ^ (d.outWidth - 1) : Int)) (min y ((2 ^ (d.outWidth - 1) : Int) - 1))),
          decide (y < -(2 ^ (d.outWidth - 1) : Int) ∨ (2 ^ (d.outWidth - 1) : Int) - 1 < y)))

/-! ### Requests -/

/-- When the Management Unit takes a request and from which port, what the taking does, and where the REPLY goes (R162 to
R164, R173, R174). A port's reply reservations are the REPLYs in its reply queue, and the requests taken from it whose REPLY
is not yet queued and not marked for discard: pending operations, the PEEK or POKE the Management Unit waits on, and the RESET
in progress (R173, R174). -/
def Obligations.RequestTaking : Prop :=
  ∀ (p : Port) (s : State),
    reservations p s = (s.port p).replies.length +
      (s.management.ops.filter fun o => decide (o.port = p ∧ o.discard = false)).length +
      (match s.management.wait with
        | .nothing => 0
        | .peek q _ discard => if q = p ∧ discard = false then 1 else 0
        | .poke q _ discard _ => if q = p ∧ discard = false then 1 else 0) +
      (match s.management.warmReset with
        | some r => if r.port = p ∧ r.discard = false then 1 else 0
        | none => 0) ∧
    (∀ r, nextRequest p s = some r → ∃ seg rest, (s.port p).slots = seg :: rest ∧ seg.kind = .control ∧
      r = { port := p, tag := seg.tag, payload := seg.payload } ∧
      takeRequest p s = { s.setPort p { s.port p with slots := rest, owedControl := (s.port p).owedControl + 1 } with
        management := { s.management with lastPort := p } }) ∧
    (s.management.wait ≠ .nothing ∨ s.management.warmReset ≠ none ∨ 8 ≤ reservations p s ∨
        (∀ seg, (s.port p).slots.head? = some seg → seg.kind ≠ .control) ∨
        (canTake p.other s = true ∧ s.management.lastPort = p) →
      nextRequest p s = none) ∧
    (∀ seg, s.management.wait = .nothing → s.management.warmReset = none → reservations p s < 8 →
      (s.port p).slots.head? = some seg → seg.kind = .control →
      canTake p.other s = false ∨ s.management.lastPort = p.other →
      nextRequest p s = some { port := p, tag := seg.tag, payload := seg.payload }) ∧
    ∀ seg, pushReply p seg s = s.setPort p
      (if (s.port p).link = .up then { s.port p with replies := (s.port p).replies ++ [seg] } else s.port p)

/-- IDENTIFY's REPLY, in every state of the part, in the layout of R187; IDENTIFY changes nothing else (R180, R187). The codes
of the controller state and of the claim holder follow the listed order (log entry 19). -/
def Obligations.IdentifyAnswers : Prop :=
  ∀ (p : Port) (s : State) (r : Request), nextRequest p s = some r → r.payload = [0x01] →
    exec (.identify p) s = .next (pushReply p
      { kind := .reply, flags := 0, stream := 0, epoch := 0, first := 0, tag := r.tag
        payload := [0x01, 0x00, 0x7A, 0x31, 0x46, 0x20, 1, 64, 16, 0x04, 0x00, 4,
          if s.controller.state = .initializing then 0 else 1,
          match s.management.holder with
            | none => 0
            | some .a => 1
            | some .b => 2,
          if p = .a then 1 else 2] }
      (takeRequest p s))

/-- The checks common to requests, in their order: no or an unknown request kind, the payload's length, the claim, and
STARTING while the controller is INITIALIZING (R171, R172). -/
def Obligations.CommonChecks : Prop :=
  ∀ (p : Port) (s : State) (r : Request), nextRequest p s = some r →
    (r.payload = [] → exec (.unknownRequest p) s =
      .next (pushReply p (replySegment r.tag 0 .unknown []) (takeRequest p s))) ∧
    (∀ b rest, r.payload = b :: rest → (∀ k, RequestKind.code k ≠ b) → exec (.unknownRequest p) s =
      .next (pushReply p (replySegment r.tag b .unknown []) (takeRequest p s))) ∧
    ∀ k, requestKind r.payload = some k →
      (r.payload.length ≠ expectedLength k r.payload → exec (k.command p) s =
        .next (pushReply p (replySegment r.tag k.code .badParam []) (takeRequest p s))) ∧
      (r.payload.length = expectedLength k r.payload → needsClaim k r.payload = true →
        s.management.holder ≠ some p → exec (k.command p) s =
          .next (pushReply p (replySegment r.tag k.code .noClaim []) (takeRequest p s))) ∧
      (r.payload.length = expectedLength k r.payload → (needsClaim k r.payload = true → s.management.holder = some p) →
        k ≠ .identify → k ≠ .peek → k ≠ .poke → s.controller.state = .initializing → exec (k.command p) s =
          .next (pushReply p (replySegment r.tag k.code .starting []) (takeRequest p s)))

/-- The three checks of a request that changes a stream, in their order: its number, its pending operation, its state
(R6, R33, R39, R42, R91). -/
def Obligations.StreamChecks : Prop :=
  ∀ (p : Port) (k : RequestKind) (l : List StreamState) (r : Request) (s : State),
    asks p k r s → k.permitted = some l →
    (63 < field r.payload 1 1 → exec (k.command p) s =
      .next (pushReply p (replySegment r.tag k.code .badParam []) (takeRequest p s))) ∧
    ∀ i : StreamId, field r.payload 1 1 = i.val →
      ((s.stream i).pendingOp ≠ none → exec (k.command p) s =
        .next (pushReply p (replySegment r.tag k.code .busy []) (takeRequest p s))) ∧
      ((s.stream i).pendingOp = none → (s.stream i).state ∉ l → exec (k.command p) s =
        .next (pushReply p (replySegment r.tag k.code .badState []) (takeRequest p s)))

/-- CLAIM, RENEW and RELEASE (R176 to R178). -/
def Obligations.ClaimRequests : Prop :=
  ∀ (p : Port) (s u : State) (r : Request) (n : Nat), u = takeRequest p s → n = field r.payload 1 2 →
    (asks p .claim r s →
      (n < 100 ∨ 60000 < n → exec (.claim p) s = .next (pushReply p (replySegment r.tag 0x02 .badParam []) u)) ∧
      (100 ≤ n → n ≤ 60000 → s.management.holder = some p.other → exec (.claim p) s =
        .next (pushReply p (replySegment r.tag 0x02 .held
          (beBytes 2 ((s.management.leaseTimer.getD s.now - s.now + 999) / 1000) ++
            beBytes 2 (s.management.lease.getD 0))) u)) ∧
      (100 ≤ n → n ≤ 60000 → s.management.holder ≠ some p.other → exec (.claim p) s =
        .next (pushReply p (replySegment r.tag 0x02 .done (beBytes 2 n))
          { u with management := { u.management with
            holder := some p, lease := some n, leaseTimer := some (s.now + n * 1000) } }))) ∧
    (asks p .renew r s →
      (s.management.holder ≠ some p →
        exec (.renew p) s = .next (pushReply p (replySegment r.tag 0x03 .noClaim []) u)) ∧
      ∀ l, s.management.holder = some p → s.management.lease = some l → exec (.renew p) s =
        .next (pushReply p (replySegment r.tag 0x03 .done (beBytes 2 l))
          { u with management := { u.management with leaseTimer := some (s.now + l * 1000) } })) ∧
    (asks p .release r s →
      (s.management.holder ≠ some p →
        exec (.release p) s = .next (pushReply p (replySegment r.tag 0x04 .noClaim []) u)) ∧
      (s.management.holder = some p → exec (.release p) s =
        .next (pushReply p (replySegment r.tag 0x04 .done [])
          { u with
            management := { u.management with holder := none, lease := none, leaseTimer := none }
            streams := s.streams.map fun e => { e with stagedWrite := none, stagedRead := none } })))

/-- SET NOTICE ROUTE, and the notices raised by the route of their kind: the kinds as R188 codes them, the routes NONE 0 to
BOTH 3, a code above 3 being refused (R181, R187 to R189). The codes of the routes follow the listed order (log entry
19). -/
def Obligations.NoticeRouteSet : Prop :=
  (∀ (p : Port) (s u : State) (r : Request), asks p .setNoticeRoute r s → u = takeRequest p s →
    (field r.payload 1 1 = 0 ∨ 8 < field r.payload 1 1 ∨ 3 < field r.payload 2 1 → exec (.setNoticeRoute p) s =
      .next (pushReply p (replySegment r.tag 0x06 .badParam []) u)) ∧
    ∀ (k : Fin 8) (route : Route), field r.payload 1 1 = k.val + 1 → field r.payload 2 1 = route.code.toNat →
      exec (.setNoticeRoute p) s = .next (pushReply p (replySegment r.tag 0x06 .done [(s.routes.get k).code])
        { u with routes := s.routes.set k route })) ∧
  (∀ (kind : NoticeKind) (k : Fin 8), routeIndex kind = some k ↔ kind.code.toNat = k.val + 1) ∧
  ∀ (n : Notice) (k : Fin 8) (s : State), routeIndex n.kind = some k →
    raise n s = match s.routes.get k with
      | .none => s
      | .a => offerNotice .a n s
      | .b => offerNotice .b n s
      | .both => offerNotice .b n (offerNotice .a n s)

/-- QUERY STREAM, QUERY SLABS and QUERY GANG answer with the record as it stands, in the layouts of R187, and change nothing.
An EMPTY stream and a FREE gang are reported with their state alone. QUERY SLABS reports the slabs of the ring from the first
position on, as many whole reports as keep the payload within 1,024 bytes (R115, R182, R183, R187). A definition takes 24
bytes, a walk of n levels 8 + 8n, a slab report with r ranges 27 + 4r and a record report of m positions 5 + 3m. -/
def Obligations.QueriesAnswer : Prop :=
  (∀ (p : Port) (s u : State) (r : Request), u = takeRequest p s →
    (asks p .queryStream r s →
      (63 < field r.payload 1 1 →
        exec (.queryStream p) s = .next (pushReply p (replySegment r.tag 0x1C .badParam []) u)) ∧
      ∀ i : StreamId, field r.payload 1 1 = i.val →
        ((s.stream i).state = .empty → (s.stream i).defn = none →
          exec (.queryStream p) s = .next (pushReply p (replySegment r.tag 0x1C .done [0]) u)) ∧
        ∀ d cur, (s.stream i).state ≠ .empty → (s.stream i).defn = some d → (s.stream i).current = some cur →
          exec (.queryStream p) s = .next (pushReply p (replySegment r.tag 0x1C .done
            (streamLayout (s.stream i) d cur
              ((s.stream i).pendingOp.bind fun k => s.management.ops.find? fun o => o.slot == k))) u)) ∧
    (asks p .querySlabs r s →
      (63 < field r.payload 1 1 ∨ 15 < field r.payload 2 1 →
        exec (.querySlabs p) s = .next (pushReply p (replySegment r.tag 0x1D .badParam []) u)) ∧
      ∀ (i : StreamId) (first k : Nat) (reports : List (List Byte)), field r.payload 1 1 = i.val →
        field r.payload 2 1 = first → first ≤ 15 →
        reports = ((s.stream i).ring.drop first).map (fun sl => slabLayout sl (s.slab sl)) →
        ((s.stream i).ring = [] → exec (.querySlabs p) s =
          .next (pushReply p (replySegment r.tag 0x1D .done [0, BitVec.ofNat 8 first, 0]) u)) ∧
        (k ≤ reports.length → (reports.take k).flatten.length ≤ 1019 →
          (k < reports.length → 1019 < (reports.take (k + 1)).flatten.length) →
          exec (.querySlabs p) s = .next (pushReply p (replySegment r.tag 0x1D .done
            ([BitVec.ofNat 8 (s.stream i).ring.length, BitVec.ofNat 8 first, BitVec.ofNat 8 k] ++
              (reports.take k).flatten)) u))) ∧
    (asks p .queryGang r s →
      (15 < field r.payload 1 1 →
        exec (.queryGang p) s = .next (pushReply p (replySegment r.tag 0x22 .badParam []) u)) ∧
      ∀ g : GangId, field r.payload 1 1 = g.val →
        ((s.gang g).state = .free →
          exec (.queryGang p) s = .next (pushReply p (replySegment r.tag 0x22 .done [0]) u)) ∧
        ((s.gang g).state = .formed → exec (.queryGang p) s =
          .next (pushReply p (replySegment r.tag 0x22 .done (gangLayout s.now (s.gang g))) u)))) ∧
  (∀ d : Definition, (definitionLayout d).length = 24) ∧
  (∀ w : Walk, (walkLayout w).length = 8 + 8 * w.levels.length) ∧
  (∀ (sl : SlabId) (v : Slab), (slabLayout sl v).length = 27 + 4 * v.coverage.length) ∧
  ∀ (now : Nat) (v : GangRecord), (recordLayout now v).length = 5 + 3 * v.slots.length

/-- READ STREAM COUNTERS and READ DEVICE COUNTERS report the counters in their order, and with the clear option set them
to 0 at that moment; the lost counts stand (R184, R192, R193). -/
def Obligations.CountersReadAndClear : Prop :=
  ∀ (p : Port) (s u : State) (r : Request), u = takeRequest p s →
    (asks p .readStreamCounters r s →
      (63 < field r.payload 1 1 ∨ 1 < field r.payload 2 1 →
        exec (.readStreamCounters p) s = .next (pushReply p (replySegment r.tag 0x1E .badParam []) u)) ∧
      ∀ (i : StreamId) (n : StreamCounters) (results : List Byte), field r.payload 1 1 = i.val →
        n = (s.stream i).counters →
        results = [n.segmentsAccepted, n.samplesAccepted, n.late, n.overflow, n.format, n.fragmented, n.notAccepting,
          n.sealedComplete, n.sealedIncomplete, n.holesFilled, n.conversionFaults, n.outputClips, n.epochLost,
          n.gangLate, n.epochsDrained].flatMap (fun c => beBytes 4 c.toNat) →
        (field r.payload 2 1 = 0 → exec (.readStreamCounters p) s =
          .next (pushReply p (replySegment r.tag 0x1E .done results) u)) ∧
        (field r.payload 2 1 = 1 → exec (.readStreamCounters p) s =
          .next (pushReply p (replySegment r.tag 0x1E .done results)
            (u.setStream i { s.stream i with counters := .zero })))) ∧
    (asks p .readDeviceCounters r s →
      (1 < field r.payload 1 1 →
        exec (.readDeviceCounters p) s = .next (pushReply p (replySegment r.tag 0x07 .badParam []) u)) ∧
      ∀ results : List Byte,
        results = [s.portA.overruns, s.portA.checkFailures, s.portA.misdirected, s.portA.unbound, s.portB.overruns,
          s.portB.checkFailures, s.portB.misdirected, s.controller.refreshMisses].flatMap (fun c => beBytes 4 c.toNat) →
        (field r.payload 1 1 = 0 → exec (.readDeviceCounters p) s =
          .next (pushReply p (replySegment r.tag 0x07 .done results) u)) ∧
        (field r.payload 1 1 = 1 → exec (.readDeviceCounters p) s =
          .next (pushReply p (replySegment r.tag 0x07 .done results)
            { u with
              portA := { u.portA with overruns := 0, checkFailures := 0, misdirected := 0, unbound := 0 }
              portB := { u.portB with overruns := 0, checkFailures := 0, misdirected := 0, unbound := 0 }
              controller := { u.controller with refreshMisses := 0 } })))

/-- DEFINE: the stream is DEFINED with the definition the request carries and the identity layout of version 0; a
definition that fails a check is refused with BAD_PARAM (R7, R8). -/
def Obligations.DefineTakesDefinition : Prop :=
  ∀ (p : Port) (s u : State) (r : Request) (i : StreamId), asksStream p .define definable i r s → u = takeRequest p s →
    (∀ d w, definitionOf r.payload = some d → definitionOk d = true →
      w = ({ origin := 0, levels := [{ count := d.frameLength, stride := 1 }], mode := .linear, window := none } : Walk) →
      exec (.define p) s = .next (pushReply p (replySegment r.tag 0x10 .done []) (u.setStream i { s.stream i with
        state := .defined, defn := some d, current := some { version := 0, writeWalk := w, readWalk := w }
        previous := none, stagedWrite := none, stagedRead := none }))) ∧
    (definitionOf r.payload = none ∨ (∃ d, definitionOf r.payload = some d ∧ definitionOk d = false) →
      exec (.define p) s = .next (pushReply p (replySegment r.tag 0x10 .badParam []) u))

/-- CLEAR: the stream is EMPTY, its definition, layouts and staged walks gone, its counters kept (R9). -/
def Obligations.ClearEmptiesStream : Prop :=
  ∀ (p : Port) (s : State) (r : Request) (i : StreamId), asksStream p .clear isDefined i r s →
    exec (.clear p) s = .next (pushReply p (replySegment r.tag 0x11 .done [])
      ((takeRequest p s).setStream i { s.stream i with
        state := .empty, defn := none, current := none, previous := none, stagedWrite := none, stagedRead := none }))

/-- BIND: the ring is the free list's first slabs, each EMPTY with its outstanding writes; too few are NO_SLABS (R11). -/
def Obligations.BindTakesSlabs : Prop :=
  ∀ (p : Port) (s u : State) (r : Request) (i : StreamId) (d : Definition),
    asksStream p .bind isDefined i r s → (s.stream i).defn = some d → u = takeRequest p s →
    (s.freeList.length < d.ringSize →
      exec (.bind p) s = .next (pushReply p (replySegment r.tag 0x12 .noSlabs []) u)) ∧
    (d.ringSize ≤ s.freeList.length →
      exec (.bind p) s = .next (pushReply p (replySegment r.tag 0x12 .done [])
        ((s.freeList.take d.ringSize).foldl
          (fun acc sl => acc.modSlab sl fun v =>
            { state := .empty, epoch := none, version := none, coverage := [], incomplete := false, faulted := false,
              suspect := false, cause := none, holeCount := none, placing := false, heldCause := none,
              outstanding := v.outstanding, fillTimer := none, holder := none })
          ({ u with freeList := s.freeList.drop d.ringSize }.setStream i { s.stream i with
            state := .active, ring := s.freeList.take d.ringSize, ringPointer := some (d.ringSize - 1)
            floor := none, lastLate := none }))))

/-- PAUSE and RESUME: the state, and with PAUSE every FILLING slab of the ring, in ring order (log entry 5): its seal is held
during a placement into it, or it is sealed PAUSED and is SEALING, FULL at once where nothing is to be waited for, or has its
holes filled where hole fill is ON, as far as the write queue takes the writes (R13, R14, R85, R89, R93 to R97). A member's
slab that is FULL at its seal, its CONVERSION notice raised first (log entry 24), arrives at the gang, as FillTimerExpires says
of the cases of R104. -/
def Obligations.PauseAndResume : Prop :=
  ∀ (p : Port) (s u : State) (r : Request) (i : StreamId),
    (asksStream p .resume isPaused i r s → exec (.resume p) s =
      .next (pushReply p (replySegment r.tag 0x14 .done [])
        ((takeRequest p s).setStream i { s.stream i with state := .active }))) ∧
    (asksStream p .pause isActive i r s →
      u = (takeRequest p s).setStream i { s.stream i with state := .paused } →
      ((∀ x, x ∈ (s.stream i).ring → (s.slab x).state ≠ .filling) → s.fill.work = [] →
        exec (.pause p) s = .next (pushReply p (replySegment r.tag 0x13 .done []) u)) ∧
      ∀ v t, (s.stream i).ring.Nodup → itemsSealed s →
        (s.stream i).gang = none ∨ (∀ x, x ∈ (s.stream i).ring → (s.slab x).state = .filling → staysOpen i x s) →
        v = ringReached i .paused s u → workDone v t →
        exec (.pause p) s = .next (pushReply p (replySegment r.tag 0x13 .done []) t)) ∧
    (asksStream p .pause isActive i r s →
      u = (takeRequest p s).setStream i { s.stream i with state := .paused } →
      ∀ front sl back g v t, (s.stream i).ring = front ++ sl :: back →
        (∀ x, x ∈ front ∨ x ∈ back → (s.slab x).state ≠ .filling) → (s.stream i).gang = some g →
        (s.slab sl).state = .filling → ¬ staysOpen i sl s → itemsSealed s → v = sealedWaiting i sl .paused u →
        workDone (arrive g i sl (conversionRaised i (s.slab sl) sl (v.setSlab sl { v.slab sl with state := .full }))) t →
        exec (.pause p) s = .next (pushReply p (replySegment r.tag 0x13 .done []) t))

/-- UNBIND: its refusals; complete at once when every slab of the ring is EMPTY; else a GRACEFUL one makes the stream
STOPPING with a table entry and a deadline, and every FILLING slab of the ring, in ring order, is sealed STOPPED or has the
seal held during a placement into it; a sealed slab is SEALING, FULL at once, or has its holes filled where hole fill is ON
(R15, R16, R18, R19, R85, R89, R93 to R97). An ABORT whose abort
makes the whole ring EMPTY at once completes with the number of slabs that were not EMPTY, and raises STREAM_STOPPED only
if one was DRAINING, with its epoch (R18 to R20, R119, R129 to R131); a DRAINING slab whose channel has a read or a
transmission left keeps it pending (R130, R131). -/
def Obligations.UnbindStarts : Prop :=
  ∀ (p : Port) (s u : State) (r : Request) (i : StreamId), asksStream p .unbind isBound i r s → u = takeRequest p s →
    ((s.stream i).gang ≠ none → exec (.unbind p) s = .next (pushReply p (replySegment r.tag 0x15 .inGang []) u)) ∧
    ((s.stream i).gang = none →
      1 < field r.payload 2 1 ∨ (field r.payload 2 1 = 0 ∧ field r.payload 3 2 = 0) ∨
        (field r.payload 2 1 = 1 ∧ field r.payload 3 2 ≠ 0) →
      exec (.unbind p) s = .next (pushReply p (replySegment r.tag 0x15 .badParam []) u)) ∧
    ((s.stream i).gang = none →
      (field r.payload 2 1 = 0 ∧ field r.payload 3 2 ≠ 0) ∨ (field r.payload 2 1 = 1 ∧ field r.payload 3 2 = 0) →
      (freeSlot s.management.ops = none →
        exec (.unbind p) s = .next (pushReply p (replySegment r.tag 0x15 .busy []) u)) ∧
      (∀ slot, freeSlot s.management.ops = some slot → field r.payload 2 1 = 1 → abortsAtOnce i s →
        ∃ t, exec (.unbind p) s = .next t ∧ unbindEnded i slot u t ∧ t.now = s.now ∧
          ∀ q, t.port q = (if (cutBy i s).isSome = true
            then raise (stoppedNotice i (cutBy i s) (discardedBy i s))
              (pushReply p (replySegment r.tag 0x15 .done (0 :: beBytes 2 (discardedBy i s))) u)
            else pushReply p (replySegment r.tag 0x15 .done (0 :: beBytes 2 (discardedBy i s))) u).port q) ∧
      (∀ slot v t, freeSlot s.management.ops = some slot → field r.payload 2 1 = 0 → (s.stream i).ring.Nodup →
        itemsSealed s → (∃ x, x ∈ (s.stream i).ring ∧ (s.slab x).state ≠ .empty) →
        v = ringReached i .stopped s
          { u.setStream i { s.stream i with state := .stopping, pendingOp := some slot } with
            management := { u.management with ops := s.management.ops ++ [
              { slot := slot, port := p, tag := r.tag, kind := .unbind, stream := some i, discard := false
                deadline := some (s.now + field r.payload 3 2 * 1000), detail := .unbind false 0 none }] } } →
        workDone v t → exec (.unbind p) s = .next t) ∧
      ∀ slot, freeSlot s.management.ops = some slot → s.fill.work = [] →
        ((∀ x, x ∈ (s.stream i).ring → (s.slab x).state = .empty) →
          exec (.unbind p) s = .next (pushReply p (replySegment r.tag 0x15 .done [0, 0, 0])
            ((s.stream i).ring.foldl
              (fun acc sl => acc.modSlab sl fun v => { Slab.blank with outstanding := v.outstanding })
              ({ u with freeList := s.freeList ++ (s.stream i).ring }.setStream i { s.stream i with
                state := .defined, previous := none, ring := [], ringPointer := none, floor := none
                lastLate := none, pendingOp := none })))) ∧
        (∀ front x back c, field r.payload 2 1 = 1 → (s.stream i).ring = front ++ x :: back →
          (∀ y, y ∈ front ∨ y ∈ back → (s.slab y).state = .empty) → (s.slab x).state = .draining →
          (s.slab x).holder = some (.channel c) → (s.channel c).abortable = true →
          (s.channel c).read ≠ none ∨ (s.channel c).inTransmission = true →
          exec (.unbind p) s = .next
            { (u.setStream i { s.stream i with state := .stopping, pendingOp := some slot }).setChannel c
                { s.channel c with state := .aborting, assembled := none } with
              management := { u.management with ops := s.management.ops ++ [
                { slot := slot, port := p, tag := r.tag, kind := .unbind, stream := some i, discard := false
                  deadline := none, detail := .unbind false 1 (s.slab x).epoch }] } }))

/-- FLUSH: refused with BUSY when the table is full; complete at once with an empty flush set; else pending on the set
it fixes, the FILLING and SEALING slabs of the ring, its FILLING slabs sealed FLUSHED, or the seal held for one being placed
into, and the holes of a sealed one filled where hole fill is ON (R85, R89, R91, R93 to R95). One whose only slab becomes FULL
at its seal completes with its REPLY (R92, R95, R97). -/
def Obligations.FlushStarts : Prop :=
  ∀ (p : Port) (s u : State) (r : Request) (i : StreamId), asksStream p .flush isBound i r s → u = takeRequest p s →
    (freeSlot s.management.ops = none → exec (.flush p) s = .next (pushReply p (replySegment r.tag 0x16 .busy []) u)) ∧
    ∀ slot, freeSlot s.management.ops = some slot →
      ((∀ x, x ∈ (s.stream i).ring → (s.slab x).state ≠ .filling ∧ (s.slab x).state ≠ .sealing) →
        exec (.flush p) s = .next (pushReply p (replySegment r.tag 0x16 .done [0]) u)) ∧
      (∀ set v t, set = (s.stream i).ring.filter (fun x => (s.slab x).state == .filling || (s.slab x).state == .sealing) →
        set ≠ [] → (s.stream i).ring.Nodup → itemsSealed s →
        (∀ x, x ∈ (s.stream i).ring → (s.slab x).state = .filling → staysOpen i x s) →
        v = ringReached i .flushed s
          { u.setStream i { s.stream i with pendingOp := some slot } with
            management := { u.management with ops := s.management.ops ++ [
              { slot := slot, port := p, tag := r.tag, kind := .flush, stream := some i, discard := false
                deadline := none, detail := .flush set.length set }] } } →
        workDone v t → exec (.flush p) s = .next t) ∧
      ∀ sl, (s.stream i).ring.filter (fun x => (s.slab x).state == .filling || (s.slab x).state == .sealing) = [sl] →
        sealsToFull i sl s →
        exec (.flush p) s = .next (pushReply p (replySegment r.tag 0x16 .done [1]) (sealedFull i sl .flushed u))

/-- LOAD WALK stages the walk under its selector, coded WRITE 0 and READ 1, or is refused by the first check that fails;
COMMIT LAYOUT makes the next version of the staged walks current (R33 to R36, R39, R40). -/
def Obligations.LayoutRequests : Prop :=
  ∀ (p : Port) (s u : State) (r : Request) (i : StreamId), u = takeRequest p s →
    (asksStream p .loadWalk hasLayout i r s → ∀ d, (s.stream i).defn = some d →
      (walkOf r.payload = none ∨ 1 < field r.payload 2 1 →
        exec (.loadWalk p) s = .next (pushReply p (replySegment r.tag 0x18 .badParam []) u)) ∧
      ∀ w, walkOf r.payload = some w →
        (∀ st, field r.payload 2 1 ≤ 1 → walkRefusal w d = some st →
          exec (.loadWalk p) s = .next (pushReply p (replySegment r.tag 0x18 st []) u)) ∧
        (field r.payload 2 1 = 0 → walkRefusal w d = none →
          exec (.loadWalk p) s = .next (pushReply p (replySegment r.tag 0x18 .done [])
            (u.setStream i { s.stream i with stagedWrite := some w }))) ∧
        (field r.payload 2 1 = 1 → walkRefusal w d = none →
          exec (.loadWalk p) s = .next (pushReply p (replySegment r.tag 0x18 .done [])
            (u.setStream i { s.stream i with stagedRead := some w })))) ∧
    (asksStream p .commitLayout hasLayout i r s → ∀ l new, (s.stream i).current = some l →
      new = ({ version := l.version + 1, writeWalk := (s.stream i).stagedWrite.getD l.writeWalk
               readWalk := (s.stream i).stagedRead.getD l.readWalk } : Layout) →
      ((s.stream i).stagedWrite = none → (s.stream i).stagedRead = none →
        exec (.commitLayout p) s = .next (pushReply p (replySegment r.tag 0x19 .badState []) u)) ∧
      ((s.stream i).stagedWrite ≠ none ∨ (s.stream i).stagedRead ≠ none →
        ((s.stream i).state ≠ .defined → (s.stream i).previous ≠ none →
          exec (.commitLayout p) s = .next (pushReply p (replySegment r.tag 0x19 .versionsFull []) u)) ∧
        ((s.stream i).state = .defined →
          exec (.commitLayout p) s = .next (pushReply p (replySegment r.tag 0x19 .done [new.version])
            (u.setStream i { s.stream i with
              current := some new, previous := none, stagedWrite := none, stagedRead := none }))) ∧
        ((s.stream i).state ≠ .defined → (s.stream i).previous = none →
          exec (.commitLayout p) s = .next (pushReply p (replySegment r.tag 0x19 .done [new.version])
            (u.setStream i { s.stream i with
              current := some new, stagedWrite := none, stagedRead := none
              previous := if ((s.stream i).ring.any fun x => (s.slab x).version == some l.version) = true then some l
                else none })))))

/-- DISCARD STAGING: nothing is staged any more, and nothing else changes; on an EMPTY stream it is BAD_STATE (R42). -/
def Obligations.DiscardStagingTaken : Prop :=
  ∀ (p : Port) (s : State) (r : Request) (i : StreamId), asks p .discardStaging r s → field r.payload 1 1 = i.val →
    (s.stream i).pendingOp = none →
    ((s.stream i).state = .defined ∨ (s.stream i).state = .active ∨ (s.stream i).state = .paused →
      exec (.discardStaging p) s = .next (pushReply p (replySegment r.tag 0x1A .done [])
        ((takeRequest p s).setStream i { s.stream i with stagedWrite := none, stagedRead := none }))) ∧
    ((s.stream i).state = .empty → exec (.discardStaging p) s =
      .next (pushReply p (replySegment r.tag 0x1A .badState []) (takeRequest p s)))

/-- FORM GANG with its checks, and DISSOLVE GANG, which releases every pending record, oldest first: each record's slabs pass
to a gang entry at the queue's tail, and a partial one raises GANG_PARTIAL (R102, R103, R110, R114). -/
def Obligations.GangRequests : Prop :=
  ∀ (p : Port) (s u : State) (r : Request), u = takeRequest p s →
    (asks p .formGang r s →
      (gangRequestOf r.payload = none →
        exec (.formGang p) s = .next (pushReply p (replySegment r.tag 0x20 .badParam []) u)) ∧
      ∀ q, gangRequestOf r.payload = some q →
        ((s.gang q.gang).state = .formed →
          exec (.formGang p) s = .next (pushReply p (replySegment r.tag 0x20 .badState []) u)) ∧
        ((s.gang q.gang).state = .free →
          (∀ i, (q.members.find? fun i => (s.stream i).state != .active && (s.stream i).state != .paused) = some i →
            exec (.formGang p) s =
              .next (pushReply p (replySegment r.tag 0x20 .badState [BitVec.ofNat 8 i.val]) u)) ∧
          ((∀ i, i ∈ q.members → (s.stream i).state = .active ∨ (s.stream i).state = .paused) →
            (∀ i, (q.members.find? fun i => (s.stream i).gang.isSome) = some i → exec (.formGang p) s =
              .next (pushReply p (replySegment r.tag 0x20 .inGang [BitVec.ofNat 8 i.val]) u)) ∧
            ((∀ i, i ∈ q.members → (s.stream i).gang = none) → exec (.formGang p) s =
              .next (pushReply p (replySegment r.tag 0x20 .done [])
                (q.members.foldl (fun acc i => acc.modStream i fun e => { e with gang := some q.gang })
                  (u.setGang q.gang { state := .formed, members := q.members, alignTimeout := some q.alignTimeout
                                      markId := some q.markId, released := none, records := [] }))))))) ∧
    (asks p .dissolveGang r s →
      (15 < field r.payload 1 1 →
        exec (.dissolveGang p) s = .next (pushReply p (replySegment r.tag 0x21 .badParam []) u)) ∧
      ∀ g : GangId, field r.payload 1 1 = g.val →
        ((s.gang g).state = .free →
          exec (.dissolveGang p) s = .next (pushReply p (replySegment r.tag 0x21 .badState []) u)) ∧
        ((s.gang g).state = .formed → ∃ t,
          exec (.dissolveGang p) s =
            .next (pushReply p (replySegment r.tag 0x21 .done [BitVec.ofNat 8 (s.gang g).records.length]) t) ∧
          t = ((s.gang g).members.foldl (fun acc i => acc.modStream i fun e => { e with gang := none })
            (releasedAll g (s.gang g).records [] u)).setGang g .blank ∧
          t.gang g = .blank ∧ (∀ k, k ≠ g → t.gang k = s.gang k) ∧
          (∀ i, t.stream i =
            if i ∈ (s.gang g).members then { s.stream i with gang := none } else s.stream i) ∧
          t.drainQueue = s.drainQueue ++ (s.gang g).records.map (fun x => .gang
            { gang := g, markId := (s.gang g).markId.getD 0
              members := (s.gang g).members.map fun i => (i, ((s.stream i).defn.map (·.outputId)).getD 0)
              epoch := x.epoch, present := x.present }) ∧
          t.memory = s.memory ∧ t.controller = s.controller ∧ t.management = u.management ∧ t.fill = s.fill))

/-- PEEK, POKE and SYNC: the checks of an address and a size in their order; a PEEK without and with a line hazard; a POKE
whose write is taken, is held, and is taken later; a SYNC on an empty queue and behind its tail (R139, R148 to R151). -/
def Obligations.MemoryRequests : Prop :=
  ∀ (p : Port) (s u : State) (r : Request) (a n : Nat), u = takeRequest p s →
    a = field r.payload 1 4 → n = field r.payload 5 1 →
    (∀ k, k = .peek ∨ k = .poke → asks p k r s →
      (n ∉ [1, 2, 4, 8] → exec (k.command p) s =
        .next (pushReply p (replySegment r.tag k.code .badParam []) u)) ∧
      (n ∈ [1, 2, 4, 8] →
        (67108864 ≤ a → exec (k.command p) s = .next (pushReply p (replySegment r.tag k.code .range []) u)) ∧
        (a < 67108864 →
          (a % n ≠ 0 → exec (k.command p) s = .next (pushReply p (replySegment r.tag k.code .misaligned []) u)) ∧
          (a % n = 0 → s.controller.state = .initializing →
            exec (k.command p) s = .next (pushReply p (replySegment r.tag k.code .starting []) u))))) ∧
    (n ∈ [1, 2, 4, 8] → a < 67108864 → a % n = 0 → s.controller.state = .running →
      (asks p .peek r s →
        ((∀ e, e ∈ s.controller.queue → e.line ≠ a / 64) → exec (.peek p) s = .next { u with
          controller := { s.controller with
            reads := s.controller.reads ++ [{ addr := a, size := n, owner := .direct, data := none }] }
          management := { u.management with wait := .peek p r.tag false } }) ∧
        ∀ e, (s.controller.queue.filter fun x => x.line == a / 64).getLast? = some e →
          (freeSlot s.management.ops = none →
            exec (.peek p) s = .next (pushReply p (replySegment r.tag 0x28 .busy []) u)) ∧
          ∀ slot, freeSlot s.management.ops = some slot → exec (.peek p) s = .next { u with
            controller := { s.controller with
              heldPeeks := s.controller.heldPeeks ++ [{ entry := e.number, slot := slot, addr := a, size := n }] }
            management := { u.management with ops := s.management.ops ++ [
              { slot := slot, port := p, tag := r.tag, kind := .peek, stream := none, discard := false
                deadline := none, detail := .peek }] } }) ∧
      (asks p .poke r s → ∀ w, w = ({ addr := a, bytes := (r.payload.drop 6).take n, slab := none } : Write) →
        (∀ v, enqueue w s = some v → exec (.poke p) s = .next (pushReply p (replySegment r.tag 0x29 .done [])
          { u with controller := v.controller })) ∧
        (enqueue w s = none → exec (.poke p) s =
          .next { u with management := { u.management with wait := .poke p r.tag false w } }))) ∧
    (asks p .sync r s →
      (freeSlot s.management.ops = none → exec (.sync p) s =
        .next (pushReply p (replySegment r.tag 0x2A .busy []) u)) ∧
      ∀ slot, freeSlot s.management.ops = some slot →
        (s.controller.queue = [] → exec (.sync p) s =
          .next (pushReply p (replySegment r.tag 0x2A .done []) u)) ∧
        ∀ e, s.controller.queue.getLast? = some e → exec (.sync p) s = .next { u with
          management := { u.management with ops := s.management.ops ++ [
            { slot := slot, port := p, tag := r.tag, kind := .sync, stream := none, discard := false
              deadline := none, detail := .sync e.number }] } }) ∧
    ∀ q tag w, s.management.wait = .poke q tag false w →
      (enqueue w s = none → exec .pokeWriteResume s = .next s) ∧
      ∀ v, enqueue w s = some v → exec .pokeWriteResume s = .next (pushReply q (replySegment tag 0x29 .done [])
        { v with management := { s.management with wait := .nothing } })

/-! ### The warm reset -/

/-- RESET: both receive lists are emptied and their credits owed, dispatch halts, fill timers, UNBIND deadlines and the
lease timer stop, every channel is aborted, the pending operations end without REPLY and the claim ends without a notice,
and the controller runs on (R170, R185). No REPLY is queued, no UNBIND and no FLUSH completes: every stream keeps its state
and its ring, a STOPPING one too, and the free list stands (R19, R92, R185; log entry 18). A channel that has a segment to give
up is ABORTING, or IDLE at once without a read and a transmission (R129, R130). With no seal work to discard no notice is
raised, and the gangs stand with their align timers stopped (R116); with some, a slab that becomes FULL by it is handed on,
and may arrive at a gang (log entries 13 and 17). -/
def Obligations.ResetStarts : Prop :=
  ∀ (p : Port) (s u : State) (r : Request), asks p .reset r s → u = takeRequest p s →
    ∃ t, exec (.reset p) s = .next t ∧
      t.management = { u.management with
        warmReset := some { port := p, tag := r.tag, discard := false }
        ops := [], holder := none, lease := none, leaseTimer := none } ∧
      (∀ q, ∃ n l, t.port q = { u.port q with
          slots := [], owedData := (u.port q).owedData + (u.port q).held true
          owedControl := (u.port q).owedControl + (u.port q).held false, notices := n, lost := l } ∧
        (s.fill.work = [] → n = (s.port q).notices ∧ l = (s.port q).lost)) ∧
      (∀ c, (s.channel c).state = .idle ∨ (s.channel c).state = .aborting → t.channel c = s.channel c) ∧
      (∀ c, (s.channel c).state = .assembling ∨ (s.channel c).state = .waitingSend →
        ((s.channel c).read = none → (s.channel c).inTransmission = false → t.channel c = .blank ∧
          ∀ sl, sl ∈ (s.channel c).slabs → (t.slab sl).state = .empty) ∧
        ((s.channel c).read ≠ none ∨ (s.channel c).inTransmission = true →
          t.channel c = { s.channel c with state := .aborting, assembled := none })) ∧
      (∀ i, t.stream i = { s.stream i with
          pendingOp := none, stagedWrite := none, stagedRead := none
          previous := (t.stream i).previous, counters := (t.stream i).counters } ∧
        (s.fill.work = [] → (t.stream i).counters = (s.stream i).counters)) ∧
      (∀ sl, (t.slab sl).fillTimer = none) ∧
      (s.fill.work = [] → t.drainQueue = s.drainQueue ∧ ∀ g, t.gang g =
        { s.gang g with records := (s.gang g).records.map fun x => { x with timer := none } }) ∧
      t.freeList = s.freeList ∧
      t.fill = { placing := s.fill.placing, held := if s.fill.placing.isNone then none else s.fill.held, work := [] } ∧
      t.controller = { s.controller with
        heldPeeks := []
        reads := s.controller.reads.map fun x =>
          { x with owner := match x.owner with
              | .tableEntry _ => .discarded
              | y => y } } ∧
      t.memory = s.memory ∧ t.routes = s.routes ∧ t.lastDataChannel = s.lastDataChannel ∧ t.now = s.now

/-- The end of a warm reset waits for the write queue, the management-read list, the Fill Engine (R63, log entry 15), and
the channels, each IDLE with every field at its cold-reset value (R120, R132, log entry 8); then everything of R186 is
cleared at once, dispatch resumes, and the REPLY is queued unless its port went DOWN (R186). -/
def Obligations.WarmResetClears : Prop :=
  ∀ (s : State) (x : WarmReset), s.management.warmReset = some x →
    (s.controller.queue ≠ [] ∨ s.controller.reads ≠ [] ∨ (∃ c, s.channel c ≠ .blank) ∨
        s.fill ≠ { placing := none, held := none, work := [] } → exec .warmResetClear s = .next s) ∧
    (∀ t : State, s.controller.queue = [] → s.controller.reads = [] → (∀ c, s.channel c = .blank) →
      s.fill = { placing := none, held := none, work := [] } →
      t = { s with
          portA := { s.portA with overruns := 0, checkFailures := 0, misdirected := 0, unbound := 0, notices := []
                                  lost := 0 }
          portB := { s.portB with overruns := 0, checkFailures := 0, misdirected := 0, unbound := 0, notices := []
                                  lost := 0 }
          streams := Table.replicate 64 .blank, slabs := Table.replicate 1024 .blank
          freeList := List.finRange 1024, gangs := Table.replicate 16 .blank, drainQueue := []
          channels := Table.replicate 4 .blank
          controller := { s.controller with refreshMisses := 0 }
          routes := Table.replicate 8 .a
          management := { s.management with warmReset := none } } →
      exec .warmResetClear s =
        .next (if x.discard = true then t else pushReply x.port (replySegment x.tag 0x05 .done []) t))
end

