-- ==== Sys2Proof/Laws/State.lean ====
section
/-! SUPPORT. What each update of a record leaves and what it makes: one lemma per field, true by computation. -/

namespace Sys2Proof

namespace Table

variable {n : Nat} {α β : Type}

@[ext] theorem ext_get {t u : Table n α} (h : ∀ i, t.get i = u.get i) : t = u := by
  obtain ⟨l, hl⟩ := t
  obtain ⟨m, hm⟩ := u
  have : l = m := List.ext_getElem (by rw [hl, hm]) fun k h₁ _ => h ⟨k, by omega⟩
  subst this
  rfl

@[simp] theorem get_set_self (t : Table n α) (i : Fin n) (v : α) : (t.set i v).get i = v := by
  simp [get, set]

theorem get_set (t : Table n α) (i j : Fin n) (v : α) : (t.set i v).get j = if i = j then v else t.get j := by
  by_cases h : i = j
  · subst h; simp
  · have : i.val ≠ j.val := fun hv => h (Fin.ext hv)
    simp [get, set, h, this]

theorem get_set_ne (t : Table n α) {i j : Fin n} (h : i ≠ j) (v : α) : (t.set i v).get j = t.get j := by
  rw [get_set, if_neg h]

@[simp] theorem set_set (t : Table n α) (i : Fin n) (v w : α) : (t.set i v).set i w = t.set i w := by
  simp [set]

@[simp] theorem set_get (t : Table n α) (i : Fin n) : t.set i (t.get i) = t := by
  simp [set, get]

@[simp] theorem get_replicate (v : α) (i : Fin n) : (replicate n v).get i = v := by
  simp [get, replicate]

@[simp] theorem get_map (f : α → β) (t : Table n α) (i : Fin n) : (t.map f).get i = f (t.get i) := by
  simp [get, map]

end Table

namespace Machine.State

variable (s : State) (p : Port) (i : StreamId) (sl : SlabId) (g : GangId) (c : ChanId)
@[simp] theorem setStream_now (v : Stream) : (s.setStream i v).now = s.now := rfl
@[simp] theorem setStream_portA (v : Stream) : (s.setStream i v).portA = s.portA := rfl
@[simp] theorem setStream_portB (v : Stream) : (s.setStream i v).portB = s.portB := rfl
@[simp] theorem setStream_lastDataChannel (v : Stream) : (s.setStream i v).lastDataChannel = s.lastDataChannel := rfl
@[simp] theorem setStream_slabs (v : Stream) : (s.setStream i v).slabs = s.slabs := rfl
@[simp] theorem setStream_freeList (v : Stream) : (s.setStream i v).freeList = s.freeList := rfl
@[simp] theorem setStream_fill (v : Stream) : (s.setStream i v).fill = s.fill := rfl
@[simp] theorem setStream_gangs (v : Stream) : (s.setStream i v).gangs = s.gangs := rfl
@[simp] theorem setStream_drainQueue (v : Stream) : (s.setStream i v).drainQueue = s.drainQueue := rfl
@[simp] theorem setStream_channels (v : Stream) : (s.setStream i v).channels = s.channels := rfl
@[simp] theorem setStream_controller (v : Stream) : (s.setStream i v).controller = s.controller := rfl
@[simp] theorem setStream_memory (v : Stream) : (s.setStream i v).memory = s.memory := rfl
@[simp] theorem setStream_management (v : Stream) : (s.setStream i v).management = s.management := rfl
@[simp] theorem setStream_routes (v : Stream) : (s.setStream i v).routes = s.routes := rfl
@[simp] theorem setStream_pending (v : Stream) : (s.setStream i v).pending = s.pending := rfl

@[simp] theorem setSlab_now (v : Slab) : (s.setSlab sl v).now = s.now := rfl
@[simp] theorem setSlab_portA (v : Slab) : (s.setSlab sl v).portA = s.portA := rfl
@[simp] theorem setSlab_portB (v : Slab) : (s.setSlab sl v).portB = s.portB := rfl
@[simp] theorem setSlab_lastDataChannel (v : Slab) : (s.setSlab sl v).lastDataChannel = s.lastDataChannel := rfl
@[simp] theorem setSlab_streams (v : Slab) : (s.setSlab sl v).streams = s.streams := rfl
@[simp] theorem setSlab_freeList (v : Slab) : (s.setSlab sl v).freeList = s.freeList := rfl
@[simp] theorem setSlab_fill (v : Slab) : (s.setSlab sl v).fill = s.fill := rfl
@[simp] theorem setSlab_gangs (v : Slab) : (s.setSlab sl v).gangs = s.gangs := rfl
@[simp] theorem setSlab_drainQueue (v : Slab) : (s.setSlab sl v).drainQueue = s.drainQueue := rfl
@[simp] theorem setSlab_channels (v : Slab) : (s.setSlab sl v).channels = s.channels := rfl
@[simp] theorem setSlab_controller (v : Slab) : (s.setSlab sl v).controller = s.controller := rfl
@[simp] theorem setSlab_memory (v : Slab) : (s.setSlab sl v).memory = s.memory := rfl
@[simp] theorem setSlab_management (v : Slab) : (s.setSlab sl v).management = s.management := rfl
@[simp] theorem setSlab_routes (v : Slab) : (s.setSlab sl v).routes = s.routes := rfl
@[simp] theorem setSlab_pending (v : Slab) : (s.setSlab sl v).pending = s.pending := rfl

@[simp] theorem setGang_now (v : Gang) : (s.setGang g v).now = s.now := rfl
@[simp] theorem setGang_portA (v : Gang) : (s.setGang g v).portA = s.portA := rfl
@[simp] theorem setGang_portB (v : Gang) : (s.setGang g v).portB = s.portB := rfl
@[simp] theorem setGang_lastDataChannel (v : Gang) : (s.setGang g v).lastDataChannel = s.lastDataChannel := rfl
@[simp] theorem setGang_streams (v : Gang) : (s.setGang g v).streams = s.streams := rfl
@[simp] theorem setGang_slabs (v : Gang) : (s.setGang g v).slabs = s.slabs := rfl
@[simp] theorem setGang_freeList (v : Gang) : (s.setGang g v).freeList = s.freeList := rfl
@[simp] theorem setGang_fill (v : Gang) : (s.setGang g v).fill = s.fill := rfl
@[simp] theorem setGang_drainQueue (v : Gang) : (s.setGang g v).drainQueue = s.drainQueue := rfl
@[simp] theorem setGang_channels (v : Gang) : (s.setGang g v).channels = s.channels := rfl
@[simp] theorem setGang_controller (v : Gang) : (s.setGang g v).controller = s.controller := rfl
@[simp] theorem setGang_memory (v : Gang) : (s.setGang g v).memory = s.memory := rfl
@[simp] theorem setGang_management (v : Gang) : (s.setGang g v).management = s.management := rfl
@[simp] theorem setGang_routes (v : Gang) : (s.setGang g v).routes = s.routes := rfl
@[simp] theorem setGang_pending (v : Gang) : (s.setGang g v).pending = s.pending := rfl

@[simp] theorem setChannel_now (v : Channel) : (s.setChannel c v).now = s.now := rfl
@[simp] theorem setChannel_portA (v : Channel) : (s.setChannel c v).portA = s.portA := rfl
@[simp] theorem setChannel_portB (v : Channel) : (s.setChannel c v).portB = s.portB := rfl
@[simp] theorem setChannel_lastDataChannel (v : Channel) : (s.setChannel c v).lastDataChannel = s.lastDataChannel := rfl
@[simp] theorem setChannel_streams (v : Channel) : (s.setChannel c v).streams = s.streams := rfl
@[simp] theorem setChannel_slabs (v : Channel) : (s.setChannel c v).slabs = s.slabs := rfl
@[simp] theorem setChannel_freeList (v : Channel) : (s.setChannel c v).freeList = s.freeList := rfl
@[simp] theorem setChannel_fill (v : Channel) : (s.setChannel c v).fill = s.fill := rfl
@[simp] theorem setChannel_gangs (v : Channel) : (s.setChannel c v).gangs = s.gangs := rfl
@[simp] theorem setChannel_drainQueue (v : Channel) : (s.setChannel c v).drainQueue = s.drainQueue := rfl
@[simp] theorem setChannel_controller (v : Channel) : (s.setChannel c v).controller = s.controller := rfl
@[simp] theorem setChannel_memory (v : Channel) : (s.setChannel c v).memory = s.memory := rfl
@[simp] theorem setChannel_management (v : Channel) : (s.setChannel c v).management = s.management := rfl
@[simp] theorem setChannel_routes (v : Channel) : (s.setChannel c v).routes = s.routes := rfl
@[simp] theorem setChannel_pending (v : Channel) : (s.setChannel c v).pending = s.pending := rfl

@[simp] theorem setPort_now (v : PortState) : (s.setPort p v).now = s.now := by cases p <;> rfl
@[simp] theorem setPort_lastDataChannel (v : PortState) : (s.setPort p v).lastDataChannel = s.lastDataChannel := by cases p <;> rfl
@[simp] theorem setPort_streams (v : PortState) : (s.setPort p v).streams = s.streams := by cases p <;> rfl
@[simp] theorem setPort_slabs (v : PortState) : (s.setPort p v).slabs = s.slabs := by cases p <;> rfl
@[simp] theorem setPort_freeList (v : PortState) : (s.setPort p v).freeList = s.freeList := by cases p <;> rfl
@[simp] theorem setPort_fill (v : PortState) : (s.setPort p v).fill = s.fill := by cases p <;> rfl
@[simp] theorem setPort_gangs (v : PortState) : (s.setPort p v).gangs = s.gangs := by cases p <;> rfl
@[simp] theorem setPort_drainQueue (v : PortState) : (s.setPort p v).drainQueue = s.drainQueue := by cases p <;> rfl
@[simp] theorem setPort_channels (v : PortState) : (s.setPort p v).channels = s.channels := by cases p <;> rfl
@[simp] theorem setPort_controller (v : PortState) : (s.setPort p v).controller = s.controller := by cases p <;> rfl
@[simp] theorem setPort_memory (v : PortState) : (s.setPort p v).memory = s.memory := by cases p <;> rfl
@[simp] theorem setPort_management (v : PortState) : (s.setPort p v).management = s.management := by cases p <;> rfl
@[simp] theorem setPort_routes (v : PortState) : (s.setPort p v).routes = s.routes := by cases p <;> rfl
@[simp] theorem setPort_pending (v : PortState) : (s.setPort p v).pending = s.pending := by cases p <;> rfl

@[simp] theorem modStream_now (f : Stream → Stream) : (s.modStream i f).now = s.now := rfl
@[simp] theorem modStream_portA (f : Stream → Stream) : (s.modStream i f).portA = s.portA := rfl
@[simp] theorem modStream_portB (f : Stream → Stream) : (s.modStream i f).portB = s.portB := rfl
@[simp] theorem modStream_lastDataChannel (f : Stream → Stream) : (s.modStream i f).lastDataChannel = s.lastDataChannel := rfl
@[simp] theorem modStream_slabs (f : Stream → Stream) : (s.modStream i f).slabs = s.slabs := rfl
@[simp] theorem modStream_freeList (f : Stream → Stream) : (s.modStream i f).freeList = s.freeList := rfl
@[simp] theorem modStream_fill (f : Stream → Stream) : (s.modStream i f).fill = s.fill := rfl
@[simp] theorem modStream_gangs (f : Stream → Stream) : (s.modStream i f).gangs = s.gangs := rfl
@[simp] theorem modStream_drainQueue (f : Stream → Stream) : (s.modStream i f).drainQueue = s.drainQueue := rfl
@[simp] theorem modStream_channels (f : Stream → Stream) : (s.modStream i f).channels = s.channels := rfl
@[simp] theorem modStream_controller (f : Stream → Stream) : (s.modStream i f).controller = s.controller := rfl
@[simp] theorem modStream_memory (f : Stream → Stream) : (s.modStream i f).memory = s.memory := rfl
@[simp] theorem modStream_management (f : Stream → Stream) : (s.modStream i f).management = s.management := rfl
@[simp] theorem modStream_routes (f : Stream → Stream) : (s.modStream i f).routes = s.routes := rfl
@[simp] theorem modStream_pending (f : Stream → Stream) : (s.modStream i f).pending = s.pending := rfl

@[simp] theorem modSlab_now (f : Slab → Slab) : (s.modSlab sl f).now = s.now := rfl
@[simp] theorem modSlab_portA (f : Slab → Slab) : (s.modSlab sl f).portA = s.portA := rfl
@[simp] theorem modSlab_portB (f : Slab → Slab) : (s.modSlab sl f).portB = s.portB := rfl
@[simp] theorem modSlab_lastDataChannel (f : Slab → Slab) : (s.modSlab sl f).lastDataChannel = s.lastDataChannel := rfl
@[simp] theorem modSlab_streams (f : Slab → Slab) : (s.modSlab sl f).streams = s.streams := rfl
@[simp] theorem modSlab_freeList (f : Slab → Slab) : (s.modSlab sl f).freeList = s.freeList := rfl
@[simp] theorem modSlab_fill (f : Slab → Slab) : (s.modSlab sl f).fill = s.fill := rfl
@[simp] theorem modSlab_gangs (f : Slab → Slab) : (s.modSlab sl f).gangs = s.gangs := rfl
@[simp] theorem modSlab_drainQueue (f : Slab → Slab) : (s.modSlab sl f).drainQueue = s.drainQueue := rfl
@[simp] theorem modSlab_channels (f : Slab → Slab) : (s.modSlab sl f).channels = s.channels := rfl
@[simp] theorem modSlab_controller (f : Slab → Slab) : (s.modSlab sl f).controller = s.controller := rfl
@[simp] theorem modSlab_memory (f : Slab → Slab) : (s.modSlab sl f).memory = s.memory := rfl
@[simp] theorem modSlab_management (f : Slab → Slab) : (s.modSlab sl f).management = s.management := rfl
@[simp] theorem modSlab_routes (f : Slab → Slab) : (s.modSlab sl f).routes = s.routes := rfl
@[simp] theorem modSlab_pending (f : Slab → Slab) : (s.modSlab sl f).pending = s.pending := rfl

@[simp] theorem modChannel_now (f : Channel → Channel) : (s.modChannel c f).now = s.now := rfl
@[simp] theorem modChannel_portA (f : Channel → Channel) : (s.modChannel c f).portA = s.portA := rfl
@[simp] theorem modChannel_portB (f : Channel → Channel) : (s.modChannel c f).portB = s.portB := rfl
@[simp] theorem modChannel_lastDataChannel (f : Channel → Channel) : (s.modChannel c f).lastDataChannel = s.lastDataChannel := rfl
@[simp] theorem modChannel_streams (f : Channel → Channel) : (s.modChannel c f).streams = s.streams := rfl
@[simp] theorem modChannel_slabs (f : Channel → Channel) : (s.modChannel c f).slabs = s.slabs := rfl
@[simp] theorem modChannel_freeList (f : Channel → Channel) : (s.modChannel c f).freeList = s.freeList := rfl
@[simp] theorem modChannel_fill (f : Channel → Channel) : (s.modChannel c f).fill = s.fill := rfl
@[simp] theorem modChannel_gangs (f : Channel → Channel) : (s.modChannel c f).gangs = s.gangs := rfl
@[simp] theorem modChannel_drainQueue (f : Channel → Channel) : (s.modChannel c f).drainQueue = s.drainQueue := rfl
@[simp] theorem modChannel_controller (f : Channel → Channel) : (s.modChannel c f).controller = s.controller := rfl
@[simp] theorem modChannel_memory (f : Channel → Channel) : (s.modChannel c f).memory = s.memory := rfl
@[simp] theorem modChannel_management (f : Channel → Channel) : (s.modChannel c f).management = s.management := rfl
@[simp] theorem modChannel_routes (f : Channel → Channel) : (s.modChannel c f).routes = s.routes := rfl
@[simp] theorem modChannel_pending (f : Channel → Channel) : (s.modChannel c f).pending = s.pending := rfl

@[simp] theorem modPort_now (f : PortState → PortState) : (s.modPort p f).now = s.now := by cases p <;> rfl
@[simp] theorem modPort_lastDataChannel (f : PortState → PortState) : (s.modPort p f).lastDataChannel = s.lastDataChannel := by cases p <;> rfl
@[simp] theorem modPort_streams (f : PortState → PortState) : (s.modPort p f).streams = s.streams := by cases p <;> rfl
@[simp] theorem modPort_slabs (f : PortState → PortState) : (s.modPort p f).slabs = s.slabs := by cases p <;> rfl
@[simp] theorem modPort_freeList (f : PortState → PortState) : (s.modPort p f).freeList = s.freeList := by cases p <;> rfl
@[simp] theorem modPort_fill (f : PortState → PortState) : (s.modPort p f).fill = s.fill := by cases p <;> rfl
@[simp] theorem modPort_gangs (f : PortState → PortState) : (s.modPort p f).gangs = s.gangs := by cases p <;> rfl
@[simp] theorem modPort_drainQueue (f : PortState → PortState) : (s.modPort p f).drainQueue = s.drainQueue := by cases p <;> rfl
@[simp] theorem modPort_channels (f : PortState → PortState) : (s.modPort p f).channels = s.channels := by cases p <;> rfl
@[simp] theorem modPort_controller (f : PortState → PortState) : (s.modPort p f).controller = s.controller := by cases p <;> rfl
@[simp] theorem modPort_memory (f : PortState → PortState) : (s.modPort p f).memory = s.memory := by cases p <;> rfl
@[simp] theorem modPort_management (f : PortState → PortState) : (s.modPort p f).management = s.management := by cases p <;> rfl
@[simp] theorem modPort_routes (f : PortState → PortState) : (s.modPort p f).routes = s.routes := by cases p <;> rfl
@[simp] theorem modPort_pending (f : PortState → PortState) : (s.modPort p f).pending = s.pending := by cases p <;> rfl

@[simp] theorem modController_now (f : Controller → Controller) : (s.modController f).now = s.now := rfl
@[simp] theorem modController_portA (f : Controller → Controller) : (s.modController f).portA = s.portA := rfl
@[simp] theorem modController_portB (f : Controller → Controller) : (s.modController f).portB = s.portB := rfl
@[simp] theorem modController_lastDataChannel (f : Controller → Controller) : (s.modController f).lastDataChannel = s.lastDataChannel := rfl
@[simp] theorem modController_streams (f : Controller → Controller) : (s.modController f).streams = s.streams := rfl
@[simp] theorem modController_slabs (f : Controller → Controller) : (s.modController f).slabs = s.slabs := rfl
@[simp] theorem modController_freeList (f : Controller → Controller) : (s.modController f).freeList = s.freeList := rfl
@[simp] theorem modController_fill (f : Controller → Controller) : (s.modController f).fill = s.fill := rfl
@[simp] theorem modController_gangs (f : Controller → Controller) : (s.modController f).gangs = s.gangs := rfl
@[simp] theorem modController_drainQueue (f : Controller → Controller) : (s.modController f).drainQueue = s.drainQueue := rfl
@[simp] theorem modController_channels (f : Controller → Controller) : (s.modController f).channels = s.channels := rfl
@[simp] theorem modController_memory (f : Controller → Controller) : (s.modController f).memory = s.memory := rfl
@[simp] theorem modController_management (f : Controller → Controller) : (s.modController f).management = s.management := rfl
@[simp] theorem modController_routes (f : Controller → Controller) : (s.modController f).routes = s.routes := rfl
@[simp] theorem modController_pending (f : Controller → Controller) : (s.modController f).pending = s.pending := rfl

@[simp] theorem modManagement_now (f : Management → Management) : (s.modManagement f).now = s.now := rfl
@[simp] theorem modManagement_portA (f : Management → Management) : (s.modManagement f).portA = s.portA := rfl
@[simp] theorem modManagement_portB (f : Management → Management) : (s.modManagement f).portB = s.portB := rfl
@[simp] theorem modManagement_lastDataChannel (f : Management → Management) : (s.modManagement f).lastDataChannel = s.lastDataChannel := rfl
@[simp] theorem modManagement_streams (f : Management → Management) : (s.modManagement f).streams = s.streams := rfl
@[simp] theorem modManagement_slabs (f : Management → Management) : (s.modManagement f).slabs = s.slabs := rfl
@[simp] theorem modManagement_freeList (f : Management → Management) : (s.modManagement f).freeList = s.freeList := rfl
@[simp] theorem modManagement_fill (f : Management → Management) : (s.modManagement f).fill = s.fill := rfl
@[simp] theorem modManagement_gangs (f : Management → Management) : (s.modManagement f).gangs = s.gangs := rfl
@[simp] theorem modManagement_drainQueue (f : Management → Management) : (s.modManagement f).drainQueue = s.drainQueue := rfl
@[simp] theorem modManagement_channels (f : Management → Management) : (s.modManagement f).channels = s.channels := rfl
@[simp] theorem modManagement_controller (f : Management → Management) : (s.modManagement f).controller = s.controller := rfl
@[simp] theorem modManagement_memory (f : Management → Management) : (s.modManagement f).memory = s.memory := rfl
@[simp] theorem modManagement_routes (f : Management → Management) : (s.modManagement f).routes = s.routes := rfl
@[simp] theorem modManagement_pending (f : Management → Management) : (s.modManagement f).pending = s.pending := rfl

@[simp] theorem count_now (f : StreamCounters → StreamCounters) : (s.count i f).now = s.now := rfl
@[simp] theorem count_portA (f : StreamCounters → StreamCounters) : (s.count i f).portA = s.portA := rfl
@[simp] theorem count_portB (f : StreamCounters → StreamCounters) : (s.count i f).portB = s.portB := rfl
@[simp] theorem count_lastDataChannel (f : StreamCounters → StreamCounters) : (s.count i f).lastDataChannel = s.lastDataChannel := rfl
@[simp] theorem count_slabs (f : StreamCounters → StreamCounters) : (s.count i f).slabs = s.slabs := rfl
@[simp] theorem count_freeList (f : StreamCounters → StreamCounters) : (s.count i f).freeList = s.freeList := rfl
@[simp] theorem count_fill (f : StreamCounters → StreamCounters) : (s.count i f).fill = s.fill := rfl
@[simp] theorem count_gangs (f : StreamCounters → StreamCounters) : (s.count i f).gangs = s.gangs := rfl
@[simp] theorem count_drainQueue (f : StreamCounters → StreamCounters) : (s.count i f).drainQueue = s.drainQueue := rfl
@[simp] theorem count_channels (f : StreamCounters → StreamCounters) : (s.count i f).channels = s.channels := rfl
@[simp] theorem count_controller (f : StreamCounters → StreamCounters) : (s.count i f).controller = s.controller := rfl
@[simp] theorem count_memory (f : StreamCounters → StreamCounters) : (s.count i f).memory = s.memory := rfl
@[simp] theorem count_management (f : StreamCounters → StreamCounters) : (s.count i f).management = s.management := rfl
@[simp] theorem count_routes (f : StreamCounters → StreamCounters) : (s.count i f).routes = s.routes := rfl
@[simp] theorem count_pending (f : StreamCounters → StreamCounters) : (s.count i f).pending = s.pending := rfl

@[simp] theorem reach_portA (d : Nat) : (s.reach d).portA = s.portA := rfl
@[simp] theorem reach_portB (d : Nat) : (s.reach d).portB = s.portB := rfl
@[simp] theorem reach_lastDataChannel (d : Nat) : (s.reach d).lastDataChannel = s.lastDataChannel := rfl
@[simp] theorem reach_streams (d : Nat) : (s.reach d).streams = s.streams := rfl
@[simp] theorem reach_slabs (d : Nat) : (s.reach d).slabs = s.slabs := rfl
@[simp] theorem reach_freeList (d : Nat) : (s.reach d).freeList = s.freeList := rfl
@[simp] theorem reach_fill (d : Nat) : (s.reach d).fill = s.fill := rfl
@[simp] theorem reach_gangs (d : Nat) : (s.reach d).gangs = s.gangs := rfl
@[simp] theorem reach_drainQueue (d : Nat) : (s.reach d).drainQueue = s.drainQueue := rfl
@[simp] theorem reach_channels (d : Nat) : (s.reach d).channels = s.channels := rfl
@[simp] theorem reach_controller (d : Nat) : (s.reach d).controller = s.controller := rfl
@[simp] theorem reach_memory (d : Nat) : (s.reach d).memory = s.memory := rfl
@[simp] theorem reach_management (d : Nat) : (s.reach d).management = s.management := rfl
@[simp] theorem reach_routes (d : Nat) : (s.reach d).routes = s.routes := rfl
@[simp] theorem reach_pending (d : Nat) : (s.reach d).pending = s.pending := rfl

@[simp] theorem modController_controller (f : Controller → Controller) :
    (s.modController f).controller = f s.controller := rfl
@[simp] theorem modManagement_management (f : Management → Management) :
    (s.modManagement f).management = f s.management := rfl

@[simp] theorem setStream_stream (v : Stream) : (s.setStream i v).stream i = v := Table.get_set_self ..
@[simp] theorem setSlab_slab (v : Slab) : (s.setSlab sl v).slab sl = v := Table.get_set_self ..
@[simp] theorem setGang_gang (v : Gang) : (s.setGang g v).gang g = v := Table.get_set_self ..
@[simp] theorem setChannel_channel (v : Channel) : (s.setChannel c v).channel c = v := Table.get_set_self ..
@[simp] theorem setPort_port (v : PortState) : (s.setPort p v).port p = v := by cases p <;> rfl
@[simp] theorem setPort_other (v : PortState) : (s.setPort p v).port p.other = s.port p.other := by cases p <;> rfl
@[simp] theorem modPort_port (f : PortState → PortState) : (s.modPort p f).port p = f (s.port p) := by cases p <;> rfl
@[simp] theorem modPort_other (f : PortState → PortState) : (s.modPort p f).port p.other = s.port p.other := by
  cases p <;> rfl

@[simp] theorem setStream_setStream (v w : Stream) : (s.setStream i v).setStream i w = s.setStream i w := by
  simp [setStream]
@[simp] theorem setSlab_setSlab (v w : Slab) : (s.setSlab sl v).setSlab sl w = s.setSlab sl w := by simp [setSlab]
@[simp] theorem setGang_setGang (v w : Gang) : (s.setGang g v).setGang g w = s.setGang g w := by simp [setGang]
@[simp] theorem setChannel_setChannel (v w : Channel) : (s.setChannel c v).setChannel c w = s.setChannel c w := by
  simp [setChannel]
@[simp] theorem setPort_setPort (v w : PortState) : (s.setPort p v).setPort p w = s.setPort p w := by cases p <;> rfl

theorem setStream_stream_ne {j : StreamId} (h : i ≠ j) (v : Stream) : (s.setStream i v).stream j = s.stream j :=
  Table.get_set_ne _ h v
theorem setSlab_slab_ne {b : SlabId} (h : sl ≠ b) (v : Slab) : (s.setSlab sl v).slab b = s.slab b :=
  Table.get_set_ne _ h v
theorem setGang_gang_ne {g' : GangId} (h : g ≠ g') (v : Gang) : (s.setGang g v).gang g' = s.gang g' :=
  Table.get_set_ne _ h v
theorem setChannel_channel_ne {c' : ChanId} (h : c ≠ c') (v : Channel) :
    (s.setChannel c v).channel c' = s.channel c' := Table.get_set_ne _ h v

@[simp] theorem setStream_slab_of (v : Stream) (k : SlabId) : (s.setStream i v).slab k = s.slab k := rfl
@[simp] theorem setStream_gang_of (v : Stream) (k : GangId) : (s.setStream i v).gang k = s.gang k := rfl
@[simp] theorem setStream_channel_of (v : Stream) (k : ChanId) : (s.setStream i v).channel k = s.channel k := rfl
@[simp] theorem setStream_port_of (v : Stream) (k : Port) : (s.setStream i v).port k = s.port k := by cases k <;> rfl
@[simp] theorem setSlab_stream_of (v : Slab) (k : StreamId) : (s.setSlab sl v).stream k = s.stream k := rfl
@[simp] theorem setSlab_gang_of (v : Slab) (k : GangId) : (s.setSlab sl v).gang k = s.gang k := rfl
@[simp] theorem setSlab_channel_of (v : Slab) (k : ChanId) : (s.setSlab sl v).channel k = s.channel k := rfl
@[simp] theorem setSlab_port_of (v : Slab) (k : Port) : (s.setSlab sl v).port k = s.port k := by cases k <;> rfl
@[simp] theorem setGang_stream_of (v : Gang) (k : StreamId) : (s.setGang g v).stream k = s.stream k := rfl
@[simp] theorem setGang_slab_of (v : Gang) (k : SlabId) : (s.setGang g v).slab k = s.slab k := rfl
@[simp] theorem setGang_channel_of (v : Gang) (k : ChanId) : (s.setGang g v).channel k = s.channel k := rfl
@[simp] theorem setGang_port_of (v : Gang) (k : Port) : (s.setGang g v).port k = s.port k := by cases k <;> rfl
@[simp] theorem setChannel_stream_of (v : Channel) (k : StreamId) : (s.setChannel c v).stream k = s.stream k := rfl
@[simp] theorem setChannel_slab_of (v : Channel) (k : SlabId) : (s.setChannel c v).slab k = s.slab k := rfl
@[simp] theorem setChannel_gang_of (v : Channel) (k : GangId) : (s.setChannel c v).gang k = s.gang k := rfl
@[simp] theorem setChannel_port_of (v : Channel) (k : Port) : (s.setChannel c v).port k = s.port k := by cases k <;> rfl
@[simp] theorem setPort_stream_of (v : PortState) (k : StreamId) : (s.setPort p v).stream k = s.stream k := by cases p <;> rfl
@[simp] theorem setPort_slab_of (v : PortState) (k : SlabId) : (s.setPort p v).slab k = s.slab k := by cases p <;> rfl
@[simp] theorem setPort_gang_of (v : PortState) (k : GangId) : (s.setPort p v).gang k = s.gang k := by cases p <;> rfl
@[simp] theorem setPort_channel_of (v : PortState) (k : ChanId) : (s.setPort p v).channel k = s.channel k := by cases p <;> rfl

end Machine.State

end Sys2Proof
end

