-- ==== Sys2Proof/Laws/Closed.lean ====
section
/-! SUPPORT. What the shared operations can do to a state, said once. A property that the few primitive updates keep is
kept by every operation built from them; `Closed` names those updates, and each operation has one lemma. A frame
("this field is unchanged") and an invariant are both such properties. -/

namespace Sys2Proof.Machine

/-- `P` is kept by the updates that the operations without a write to the write queue are made of. -/
structure Closed (P : State → Prop) : Prop where
  offer : ∀ {p n s}, P s → P (offerNotice p n s)
  reply : ∀ {p seg s}, P s → P (pushReply p seg s)
  stream : ∀ {i v s}, v.ring = (s.stream i).ring → holdsRing v.state = holdsRing (s.stream i).state →
    P s → P (s.setStream i v)
  slab : ∀ {sl v s}, P s → P (s.setSlab sl v)
  channel : ∀ {c v s}, P s → P (s.setChannel c v)
  gang : ∀ {g v s}, v.records.length ≤ (s.gang g).records.length → P s → P (s.setGang g v)
  create : ∀ {g k sl e s}, P s → P (createRecord g k sl e s)
  unbind : ∀ {i o f d c s}, P s → P (completeUnbind i o f d c s)
  drain : ∀ {q s}, P s → P { s with drainQueue := q }
  fill : ∀ {v s}, P s → P { s with fill := v }
  ops : ∀ {f s}, P s → P { s with management := { s.management with ops := f } }

/-- `P` is kept by those updates without any condition: enough for `Closed`. -/
structure Simple (P : State → Prop) : Prop where
  offer : ∀ {p n s}, P s → P (offerNotice p n s)
  reply : ∀ {p seg s}, P s → P (pushReply p seg s)
  stream : ∀ {i v s}, P s → P (s.setStream i v)
  slab : ∀ {sl v s}, P s → P (s.setSlab sl v)
  channel : ∀ {c v s}, P s → P (s.setChannel c v)
  gang : ∀ {g v s}, P s → P (s.setGang g v)
  free : ∀ {l s}, P s → P { s with freeList := l }
  drain : ∀ {q s}, P s → P { s with drainQueue := q }
  fill : ∀ {v s}, P s → P { s with fill := v }
  ops : ∀ {f s}, P s → P { s with management := { s.management with ops := f } }

variable {P : State → Prop}

theorem fold_keeps {α : Type} {f : State → α → State} (h : ∀ s a, P s → P (f s a)) :
    ∀ (l : List α) {s : State}, P s → P (l.foldl f s)
  | [], _, hs => hs
  | a :: l, _, hs => fold_keeps h l (h _ a hs)

/-! ### From `Simple` to `Closed` -/

theorem offerRoute_keeps (offer : ∀ {p n s}, P s → P (offerNotice p n s)) {r n s} (hs : P s) : P (offerRoute r n s) := by
  cases r
  · exact hs
  · exact offer hs
  · exact offer hs
  · exact offer (offer hs)

theorem raise_keeps (offer : ∀ {p n s}, P s → P (offerNotice p n s)) {n s} (hs : P s) : P (raise n s) := by
  unfold raise
  split
  · exact offerRoute_keeps offer hs
  · exact hs

theorem modSlabs_keeps (slab : ∀ {sl v s}, P s → P (s.setSlab sl v)) {f ring s} (hs : P s) : P (modSlabs f ring s) :=
  fold_keeps (fun _ _ h => slab h) ring hs

theorem lateReply_keeps (reply : ∀ {p seg s}, P s → P (pushReply p seg s)) {p d seg s} (hs : P s) :
    P (lateReply p d seg s) := by
  unfold lateReply
  split
  · exact hs
  · exact reply hs

theorem releaseOldest_keeps (offer : ∀ {p n s}, P s → P (offerNotice p n s)) (slab : ∀ {sl v s}, P s → P (s.setSlab sl v))
    (gang : ∀ {g v s}, v.records.length ≤ (s.gang g).records.length → P s → P (s.setGang g v))
    (drain : ∀ {q s}, P s → P { s with drainQueue := q }) {g s} (hs : P s) : P (releaseOldest g s) := by
  unfold releaseOldest
  split
  · exact hs
  · rename_i r rest he
    have hg : ∀ t : State, t.gangs = s.gangs → rest.length ≤ (t.gang g).records.length := by
      intro t ht
      have : t.gang g = s.gang g := by rw [State.gang, ht]; rfl
      rw [this, he]; simp
    have hgangs : ∀ (f : Slab → Slab) (l : List SlabId) (t : State), (modSlabs f l t).gangs = t.gangs := by
      intro f l
      induction l with
      | nil => intro t; rfl
      | cons a l ih => intro t; exact (ih _).trans rfl
    have key : ∀ (f : Slab → Slab) (l : List SlabId) (q : List DrainEntry) (v : Gang), v.records = rest →
        P ((modSlabs f l { s with drainQueue := q }).setGang g v) := fun f l q v hv =>
      gang (by rw [hv]; exact hg _ (hgangs f l _)) (modSlabs_keeps slab (drain hs))
    dsimp only
    split
    · exact key _ _ _ _ rfl
    · exact raise_keeps offer (key _ _ _ _ rfl)

theorem completionLoop_keeps (release : ∀ {g s}, P s → P (releaseOldest g s)) {g} :
    ∀ n {s}, P s → P (completionLoop g n s)
  | 0, _, hs => hs
  | n + 1, s, hs => by
    unfold completionLoop
    split
    · split
      · exact completionLoop_keeps release n (release hs)
      · exact hs
    · exact hs

theorem Simple.closed (h : Simple P) : Closed P where
  offer := h.offer
  reply := h.reply
  stream _ _ hs := h.stream hs
  slab := h.slab
  channel := h.channel
  gang _ hs := h.gang hs
  create hs := by
    have rel : ∀ {g s}, P s → P (releaseOldest g s) := fun hs =>
      releaseOldest_keeps h.offer h.slab (fun _ hs => h.gang hs) h.drain hs
    unfold createRecord
    dsimp only
    split
    · exact completionLoop_keeps rel _ (rel (h.gang (h.slab hs)))
    · exact h.gang (h.slab hs)
  unbind hs := by
    unfold completeUnbind
    dsimp only
    split
    · exact raise_keeps h.offer (lateReply_keeps h.reply (h.ops (h.stream (h.free (modSlabs_keeps h.slab hs)))))
    · exact lateReply_keeps h.reply (h.ops (h.stream (h.free (modSlabs_keeps h.slab hs))))
  drain := h.drain
  fill := h.fill
  ops := h.ops

namespace Closed

variable (h : Closed P)
include h

/-! ### Ops -/

theorem raise {n s} (hs : P s) : P (raise n s) := raise_keeps h.offer hs

theorem late {p d seg s} (hs : P s) : P (lateReply p d seg s) := lateReply_keeps h.reply hs

theorem raiseLink {k p s} (hs : P s) : P (raiseLink k p s) := h.offer hs

theorem modStream {i f s} (hr : (f (s.stream i)).ring = (s.stream i).ring)
    (hb : holdsRing (f (s.stream i)).state = holdsRing (s.stream i).state) (hs : P s) : P (s.modStream i f) :=
  h.stream hr hb hs

theorem count {i f s} (hs : P s) : P (s.count i f) := h.stream rfl rfl hs

theorem modSlab {sl f s} (hs : P s) : P (s.modSlab sl f) := h.slab hs

theorem modChannel {c f s} (hs : P s) : P (s.modChannel c f) := h.channel hs

theorem modSlabs {f ring s} (hs : P s) : P (modSlabs f ring s) := modSlabs_keeps h.slab hs

theorem addOp {o s} (hs : P s) : P (addOp o s) := h.ops hs

theorem modOp {k f s} (hs : P s) : P (modOp k f s) := h.ops hs

theorem releaseOp {k s} (hs : P s) : P (releaseOp k s) := h.ops hs

/-! ### Slabs -/

theorem unbindTest {i s} (hs : P s) : P (unbindTest i s) := by
  unfold Machine.unbindTest
  split
  · split
    · split
      · exact h.unbind hs
      · exact hs
    · exact hs
  · exact hs

theorem dropPrevious {i s} (hs : P s) : P (dropPrevious i s) := by
  unfold Machine.dropPrevious
  split
  · split
    · exact hs
    · exact h.modStream rfl rfl hs
  · exact hs

theorem emptySlab {i sl s} (hs : P s) : P (emptySlab i sl s) := h.unbindTest (h.dropPrevious (h.modSlab hs))

theorem emptyOwned {sl s} (hs : P s) : P (emptyOwned sl s) := by
  unfold Machine.emptyOwned
  split
  · exact h.emptySlab hs
  · exact h.modSlab hs

theorem detachEntry {sl s} (hs : P s) : P (detachEntry sl s) := h.drain hs

/-! ### Gangs -/

theorem releaseOldest {g s} (hs : P s) : P (releaseOldest g s) := releaseOldest_keeps h.offer h.slab h.gang h.drain hs

theorem releaseMany {g} : ∀ n {s}, P s → P (releaseMany g n s)
  | 0, _, hs => hs
  | n + 1, _, hs => releaseMany n (h.releaseOldest hs)

theorem completionTest {g s} (hs : P s) : P (completionTest g s) :=
  completionLoop_keeps (fun hs => h.releaseOldest hs) _ hs

theorem gangLate {g i sl e s} (hs : P s) : P (gangLate g i sl e s) := by
  unfold Machine.gangLate
  exact h.raise (h.count (h.emptySlab hs))

theorem joinRecord {g k sl e s} (hs : P s) : P (joinRecord g k sl e s) := by
  unfold Machine.joinRecord
  dsimp only
  split
  · exact h.completionTest (h.gang (by simp) (h.modSlab hs))
  · exact h.gang (by simp) (h.modSlab hs)

theorem arrive {g i sl s} (hs : P s) : P (arrive g i sl s) := by
  unfold Machine.arrive
  dsimp only
  split
  · exact h.gangLate hs
  split
  · exact h.joinRecord hs
  split
  · exact h.gangLate hs
  · exact h.create hs

theorem detachRecord {g e sl s} (hs : P s) : P (detachRecord g e sl s) := by
  unfold Machine.detachRecord
  dsimp only
  split
  · exact h.completionTest (h.gang (le_trans (List.length_filter_le _ _) (by simp)) hs)
  · exact h.gang (le_trans (List.length_filter_le _ _) (by simp)) hs

/-! ### Sealing -/

theorem completeFlush {i o n s} (hs : P s) : P (completeFlush i o n s) :=
  h.late (h.releaseOp (h.modStream rfl rfl hs))

theorem flushProgress {i sl s} (hs : P s) : P (flushProgress i sl s) := by
  unfold Machine.flushProgress
  split
  · split
    · split
      · split
        · exact h.completeFlush hs
        · exact h.modOp hs
      · exact hs
    · exact hs
  · exact hs

theorem handOn {i sl s} (hs : P s) : P (handOn i sl s) := by
  unfold Machine.handOn
  split
  · exact h.arrive hs
  · exact h.modSlab (h.drain hs)

theorem becomeFull {i sl s} (hs : P s) : P (becomeFull i sl s) := by
  unfold Machine.becomeFull
  dsimp only
  split
  · exact h.flushProgress (h.handOn (h.raise (h.modSlab hs)))
  · exact h.flushProgress (h.handOn (h.modSlab hs))

theorem testFull {i sl s} (hs : P s) : P (testFull i sl s) := by
  unfold Machine.testFull
  split
  · exact h.becomeFull hs
  · exact hs

theorem testFullOwned {sl s} (hs : P s) : P (testFullOwned sl s) := by
  unfold Machine.testFullOwned
  split
  · exact h.testFull hs
  · exact hs

theorem raiseFloor {i e s} (hs : P s) : P (raiseFloor i e s) := h.modStream rfl rfl hs

theorem sealSlab {i sl c s} (hs : P s) : P (sealSlab i sl c s) := by
  unfold Machine.sealSlab
  dsimp only
  split
  · exact h.testFull (h.fill (h.raiseFloor (h.count (h.slab hs))))
  · exact h.testFull (h.raiseFloor (h.count (h.slab hs)))

theorem reachSlab {i c sl s} (hs : P s) : P (reachSlab i c sl s) := by
  unfold Machine.reachSlab
  split
  · split
    · exact h.modSlab hs
    · exact h.sealSlab hs
  · exact hs

theorem reachRing {i c s} (hs : P s) : P (reachRing i c s) := fold_keeps (fun _ _ hs => h.reachSlab hs) _ hs

theorem countHole {i s} (hs : P s) : P (countHole i s) := h.count hs

/-! ### Draining -/

theorem requestRead {c s} (hs : P s) : P (requestRead c s) := by
  unfold Machine.requestRead
  split
  · exact h.modChannel hs
  · exact hs

theorem takeEntry {c e s} (hs : P s) : P (takeEntry c e s) := h.requestRead (h.modChannel (h.modSlabs (h.drain hs)))

theorem completeAbort {c s} (hs : P s) : P (completeAbort c s) :=
  h.channel (fold_keeps (fun _ _ hs => h.emptyOwned hs) _ hs)

theorem testAbort {c s} (hs : P s) : P (testAbort c s) := by
  unfold Machine.testAbort
  split
  · exact h.completeAbort hs
  · exact hs

theorem abortChannel {c s} (hs : P s) : P (abortChannel c s) := by
  unfold Machine.abortChannel
  split
  · exact h.testAbort (h.modChannel hs)
  · exact hs

theorem countClip {i b s} (hs : P s) : P (countClip i b s) := by
  unfold Machine.countClip
  split
  · exact h.count hs
  · exact hs

theorem appendSample {c i d sl k bytes s} (hs : P s) : P (appendSample c i d sl k bytes s) := by
  unfold Machine.appendSample
  dsimp only
  split
  · exact h.modChannel (h.countClip hs)
  · exact h.requestRead (h.modChannel (h.countClip hs))

theorem receiveRead {c bytes s} (hs : P s) : P (receiveRead c bytes s) := by
  unfold Machine.receiveRead
  split
  · split
    · split
      · exact h.appendSample hs
      · exact hs
    · exact hs
  · exact hs

theorem readReturned {c bytes s} (hs : P s) : P (readReturned c bytes s) := by
  unfold Machine.readReturned
  split
  · exact h.receiveRead hs
  · exact h.testAbort hs
  · exact hs

theorem beginSlab {c k s} (hs : P s) : P (beginSlab c k s) := h.requestRead (h.modChannel hs)

theorem countDrained {sl s} (hs : P s) : P (countDrained sl s) := by
  unfold Machine.countDrained
  split
  · exact h.count hs
  · exact hs

theorem finishSlab {c s} (hs : P s) : P (finishSlab c s) := by
  unfold Machine.finishSlab
  dsimp only
  split
  · split <;> split <;>
      first
      | exact h.beginSlab (h.emptyOwned (h.countDrained hs))
      | exact h.channel (h.emptyOwned (h.countDrained hs))
      | exact h.beginSlab hs
      | exact h.channel hs
  · exact hs

theorem segmentTaken {c seg s} (hs : P s) : P (segmentTaken c seg s) := by
  unfold Machine.segmentTaken
  dsimp only
  split
  · exact h.beginSlab (h.modChannel hs)
  split
  · exact h.finishSlab (h.modChannel hs)
  · exact h.requestRead (h.modChannel (h.modChannel hs))

theorem transmissionEnded {o s} (hs : P s) : P (transmissionEnded o s) := by
  unfold Machine.transmissionEnded
  split
  · exact h.testAbort (h.modChannel hs)
  · exact hs

/-! ### The Fill Engine, but for its writes -/

theorem discardLate {i e n s} (hs : P s) : P (discardLate i e n s) := by
  unfold Machine.discardLate
  dsimp only
  split
  · exact h.count hs
  · exact h.raise (h.modStream rfl rfl (h.count hs))

theorem endPlacement {pl s} (hs : P s) : P (endPlacement pl s) := by
  unfold Machine.endPlacement
  dsimp only
  split
  · exact h.emptySlab (h.modSlab (h.fill hs))
  split
  · exact h.sealSlab (h.modSlab (h.fill hs))
  split
  · exact h.sealSlab (h.modSlab (h.fill hs))
  · exact h.modSlab (h.modSlab (h.fill hs))

theorem countFault {i sl b s} (hs : P s) : P (countFault i sl b s) := by
  unfold Machine.countFault
  split
  · exact h.modSlab (h.count hs)
  · exact hs

theorem countAccepted {i sl cov s} (hs : P s) : P (countAccepted i sl cov s) := by
  unfold Machine.countAccepted
  exact h.count (h.modSlab hs)

theorem openSlab {i d sl e s} (hs : P s) : P (openSlab i d sl e s) := by
  unfold Machine.openSlab
  exact h.modStream rfl rfl (h.modSlab hs)

theorem detachHolder {sl s} (hs : P s) : P (detachHolder sl s) := by
  unfold Machine.detachHolder
  split
  · exact h.detachRecord hs
  · exact h.detachEntry hs

theorem reclaim {i sl e s} (hs : P s) : P (reclaim i sl e s) := by
  unfold Machine.reclaim
  exact h.raise (h.count (h.emptySlab (h.detachHolder hs)))

theorem markStream {i e s} (hs : P s) : P (markStream i e s) :=
  h.raiseFloor (fold_keeps (fun _ _ hs => h.sealSlab hs) _ hs)

/-! ### The abort of an UNBIND, but for the work it leaves to do -/

theorem dropItem {sl s} (hs : P s) : P (dropItem sl s) := h.fill hs

theorem abortPlacing {sl s} (hs : P s) : P (abortPlacing sl s) := by
  unfold Machine.abortPlacing
  exact h.modSlab (h.fill hs)

theorem abortSlab {i sl s} (hs : P s) : P (abortSlab i sl s) := by
  unfold Machine.abortSlab
  split
  · exact hs
  · exact hs
  · split
    · exact h.abortPlacing hs
    · exact h.emptySlab hs
  · exact h.emptySlab (h.dropItem hs)
  · exact h.emptySlab (h.detachEntry hs)
  · split
    · exact h.abortChannel hs
    · exact hs

/-! ### The departure of an entry of the write queue, but for the controller -/

theorem departSlab {o s} (hs : P s) : P (departSlab o s) := by
  unfold Machine.departSlab
  split
  · exact h.testFullOwned (h.modSlab hs)
  · exact hs

theorem completeSyncs {n s} (hs : P s) : P (completeSyncs n s) :=
  fold_keeps (fun _ _ hs => h.late (h.releaseOp hs)) _ hs

end Closed

/-- `P` is kept by the writes that the write queue takes as well. -/
structure ClosedWrites (P : State → Prop) : Prop extends Closed P where
  enqueue : ∀ {w s s'}, enqueue w s = some s' → P s → P s'

namespace ClosedWrites

variable (h : ClosedWrites P)
include h

theorem fillHoles {i sl d w} : ∀ n {k s}, P s → P (fillHoles i sl d w n k s).1
  | 0, _, _, hs => hs
  | n + 1, k, s, hs => by
    unfold Machine.fillHoles
    split
    · exact hs
    · split
      · rename_i he
        exact fillHoles n (h.countHole (h.enqueue he hs))
      · exact hs

theorem performItem {it s} (hs : P s) : P (performItem it s).1 := by
  unfold Machine.performItem
  split
  · exact hs
  · split
    · exact h.fillHoles _ hs
    · exact hs

theorem runItems : ∀ l {s}, P s → P (runItems l s)
  | [], _, hs => h.fill hs
  | it :: rest, s, hs => by
    have h1 := h.performItem (it := it) hs
    unfold Machine.runItems
    split
    · rename_i he
      rw [he] at h1
      exact h.fill h1
    · rename_i he
      rw [he] at h1
      exact runItems rest (h.testFullOwned (h.fill h1))

theorem runWork {s} (hs : P s) : P (runWork s) := by
  unfold Machine.runWork
  split
  · exact h.runItems _ hs
  · exact hs

theorem placeSamples {pl d w} : ∀ l {j s}, P s → P (placeSamples pl d w l j s)
  | [], _, _, hs => h.endPlacement hs
  | b :: rest, j, s, hs => by
    unfold Machine.placeSamples
    dsimp only
    split
    · rename_i he
      exact placeSamples rest (h.enqueue he (h.countFault hs))
    · exact h.fill (h.countFault hs)

theorem continuePlacing {pl s} (hs : P s) : P (continuePlacing pl s) := by
  unfold Machine.continuePlacing
  split
  · exact h.placeSamples _ hs
  · exact h.endPlacement hs

theorem mergeAndPlace {i d sl seg s} (hs : P s) : P (mergeAndPlace i d sl seg s) := by
  unfold Machine.mergeAndPlace
  dsimp only
  split
  · exact h.count hs
  · exact h.continuePlacing (h.countAccepted hs)

theorem chooseSlab {i d seg o s} (hs : P s) : P (chooseSlab i d seg o s) := by
  unfold Machine.chooseSlab
  dsimp only
  split
  · exact h.mergeAndPlace (h.openSlab hs)
  split
  · exact h.count hs
  split
  · exact h.mergeAndPlace (h.openSlab (h.reclaim hs))
  · exact h.count hs

theorem openForEpoch {i d seg s} (hs : P s) : P (openForEpoch i d seg s) := by
  unfold Machine.openForEpoch
  dsimp only
  split
  · exact h.discardLate hs
  split
  · split
    · exact h.chooseSlab (h.sealSlab hs)
    · exact h.discardLate hs
  · exact h.chooseSlab hs

theorem placeData {i d seg s} (hs : P s) : P (placeData i d seg s) := by
  unfold Machine.placeData
  split
  · exact h.mergeAndPlace hs
  · exact h.openForEpoch hs

theorem activeData {i seg s} (hs : P s) : P (activeData i seg s) := by
  unfold Machine.activeData
  split
  · split
    · exact h.count hs
    · unfold Machine.floorTest
      split
      · split
        · exact h.placeData hs
        · exact h.discardLate hs
      · exact h.placeData hs
  · exact hs

/-- Every DATA segment that is not counted as UNBOUND. -/
theorem fillData {seg s} (hu : P (countUnbound s)) (hs : P s) : P (fillData seg s) := by
  unfold Machine.fillData
  split
  · exact hu
  split
  · exact hu
  · exact hu
  · exact h.count hs
  · exact h.count hs
  · exact h.activeData hs

theorem fillMark {seg s} (hu : P (countUnbound s)) (hs : P s) : P (fillMark seg s) := by
  unfold Machine.fillMark
  split
  · exact hu
  split
  · exact h.markStream hs
  · exact h.count hs

theorem countHeldHole {s} (hs : P s) : P (countHeldHole s) := by
  unfold Machine.countHeldHole
  split
  · exact h.countHole hs
  · exact hs

theorem afterHeld {s} (hs : P s) : P (afterHeld s) := by
  unfold Machine.afterHeld
  dsimp only
  split
  · exact h.runWork (h.continuePlacing (h.fill hs))
  · exact h.runWork (h.countHeldHole (h.fill hs))

theorem applyAbort {i k f s} (hs : P s) : P (applyAbort i k f s) :=
  h.runWork (h.unbindTest (fold_keeps (fun _ _ hs => h.abortSlab hs) _ (h.modOp hs)))

end ClosedWrites

end Sys2Proof.Machine
end

