-- ==== Sys2Proof/Laws/Commands.lean ====
section
/-! SUPPORT. What each command can do to a state, said once: a property that the updates named in `Kept` keep is kept by
every command, and so by every step. -/

namespace Sys2Proof.Machine

/-- The credits of a class that a port accounts for: held, advertised and owed (R162). -/
def PortState.balance (q : PortState) (dataClass : Bool) : Nat := q.held dataClass + q.advertised dataClass + q.owed dataClass

/-- A port's record is changed without its link, without losing or making a credit, and without more notices than fit. -/
structure PortState.Steady (q v : PortState) : Prop where
  link : v.link = q.link
  balance : ∀ dataClass, v.balance dataClass = q.balance dataClass
  notices : v.notices.length ≤ q.notices.length

/-- `P` is kept by the updates that the commands are made of; writes to frame memory stand apart. -/
structure Kept (P : State → Prop) : Prop extends ClosedWrites P where
  time : ∀ {n s}, P s → P { s with now := n }
  port : ∀ {p v s}, (s.port p).Steady v → P s → P (s.setPort p v)
  up : ∀ {p s}, (s.port p).link = .down → P s → P (s.setPort p ((s.port p).raised p))
  down : ∀ {p s}, (s.port p).link = .up → P s → P (goDown p s)
  mgmt : ∀ {m s}, m.holder = none ∨ m.holder = s.management.holder → P s → P { s with management := m }
  hold : ∀ {p n s}, (controlHead p s).isSome → P s → P (holdClaim p n (takeRequest p s))
  streams : ∀ {f s}, (∀ e : Stream, (f e).ring = e.ring ∧ (f e).state = e.state) → P s →
    P { s with streams := s.streams.map f }
  slabs : ∀ {v s}, P s → P { s with slabs := v }
  gangs : ∀ {f s}, (∀ v : Gang, (f v).records.length = v.records.length) → P s → P { s with gangs := s.gangs.map f }
  channels : ∀ {v s}, P s → P { s with channels := v }
  routes : ∀ {v s}, P s → P { s with routes := v }
  turn : ∀ {c s}, P s → P { s with lastDataChannel := c }
  control : ∀ {c s}, c.queue.length ≤ s.controller.queue.length → c.debt ≤ max s.controller.debt Config.debtBound →
    c.fairness ≤ max s.controller.fairness Config.debtBound → P s → P { s with controller := c }
  bind : ∀ {i n s}, holdsRing (s.stream i).state = false → n ≤ s.freeList.length → P s → P (bindRing i n s)
  clear : ∀ {s}, P s → P (clearAll s)
  cold : ∀ {s}, P s → P { State.reset with memory := s.memory, pending := s.pending }

/-! ### Ports whose credits balance -/

namespace PortState

theorem Steady.refl (q : PortState) : q.Steady q := ⟨rfl, fun _ => rfl, le_rfl⟩

theorem held_cons (q : PortState) (seg : Segment) (rest : List Segment) (b : Bool) :
    ({ q with slots := seg :: rest } : PortState).held b =
      ({ q with slots := rest } : PortState).held b + if seg.kind.dataClass = b then 1 else 0 := by
  simp [held, List.countP_cons]

theorem owe_balance (q : PortState) (b c : Bool) : (q.owe b).balance c = q.balance c + if b = c then 1 else 0 := by
  cases b <;> cases c <;> simp [owe, balance, held, advertised, owed] <;> omega

theorem owe_link (q : PortState) (b : Bool) : (q.owe b).link = q.link := by cases b <;> rfl

theorem owe_notices (q : PortState) (b : Bool) : (q.owe b).notices = q.notices := by cases b <;> rfl

theorem dropHead_steady (q : PortState) : q.Steady q.dropHead := by
  unfold dropHead
  split
  · rename_i seg rest he
    refine ⟨owe_link .., fun c => ?_, by rw [owe_notices]⟩
    rw [owe_balance]
    have : q.balance c = ({ q with slots := seg :: rest } : PortState).balance c := by rw [← he]
    rw [this]
    simp only [balance, held_cons, advertised, owed]
    omega
  · exact Steady.refl q

theorem emptySlots_steady (q : PortState) : q.Steady q.emptySlots := by
  refine ⟨rfl, fun c => ?_, le_rfl⟩
  cases c
  · simp [emptySlots, balance, held, advertised, owed]; omega
  · simp [emptySlots, balance, held, advertised, owed]; omega

theorem consume_balance (q : PortState) (b c : Bool) (h : 0 < q.advertised b) :
    (q.consume b).balance c + (if b = c then 1 else 0) = q.balance c := by
  cases b <;> cases c <;> simp [consume, balance, held, advertised, owed] at h ⊢ <;> omega

theorem consume_link (q : PortState) (b : Bool) : (q.consume b).link = q.link := by cases b <;> rfl

theorem consume_notices (q : PortState) (b : Bool) : (q.consume b).notices = q.notices := by cases b <;> rfl

theorem hold_balance (q : PortState) (seg : Segment) (good c : Bool) :
    (q.hold seg good).balance c = q.balance c + if seg.kind.dataClass = c then 1 else 0 := by
  unfold hold
  split
  · simp [balance, held, advertised, owed, List.countP_append, List.countP_cons]; omega
  · rw [owe_balance]; rfl

theorem hold_link (q : PortState) (seg : Segment) (good : Bool) : (q.hold seg good).link = q.link := by
  unfold hold
  split
  · rfl
  · rw [owe_link]

theorem hold_notices (q : PortState) (seg : Segment) (good : Bool) : (q.hold seg good).notices = q.notices := by
  unfold hold
  split
  · rfl
  · rw [owe_notices]

theorem testCredit_steady (q : PortState) (seg : Segment) (good : Bool) : q.Steady (q.testCredit seg good) := by
  unfold testCredit
  split
  · rename_i h
    refine ⟨by rw [hold_link, consume_link], fun c => ?_, by rw [hold_notices, consume_notices]⟩
    rw [hold_balance, consume_balance q _ c h]
  · exact ⟨rfl, fun _ => rfl, le_rfl⟩

theorem misdirect_steady (q : PortState) (k : Option SegKind) : q.Steady (q.misdirect k) := by
  unfold misdirect
  dsimp only
  split
  · rename_i h
    refine ⟨rfl, fun c => ?_, le_rfl⟩
    cases c <;> simp [balance, held, advertised, owed] at h ⊢
    omega
  · exact ⟨rfl, fun _ => rfl, le_rfl⟩

theorem receive_steady (q : PortState) (p : Port) (bytes : List Byte) : q.Steady (q.receive p bytes) := by
  unfold receive
  split
  · exact ⟨rfl, fun _ => rfl, le_rfl⟩
  · exact testCredit_steady ..
  · exact misdirect_steady ..

theorem sendCredit_steady (q : PortState) (n : Nat) (h : n ≤ q.owedData) : q.Steady (q.sendCredit n) := by
  refine ⟨rfl, fun c => ?_, le_rfl⟩
  cases c <;> simp [sendCredit, balance, held, advertised, owed] <;> omega

theorem sendReply_steady (q : PortState) : q.Steady q.sendReply := by
  unfold sendReply
  split
  · exact ⟨rfl, fun _ => rfl, le_rfl⟩
  · exact Steady.refl q

theorem sendNotice_steady (q : PortState) : q.Steady q.sendNotice := by
  unfold sendNotice
  split
  · rename_i he
    exact ⟨rfl, fun _ => rfl, by rw [he]; simp⟩
  · exact Steady.refl q

end PortState

/-! ### The commands -/

namespace Kept

variable {P : State → Prop} (h : Kept P)
include h

theorem modPort {p f s} (hf : (s.port p).Steady (f (s.port p))) (hs : P s) : P (s.modPort p f) := h.port hf hs

theorem reach {d s} (hs : P s) : P (s.reach d) := h.time hs

theorem takeHead {p s} (hs : P s) : P (takeHead p s) := h.modPort (PortState.dropHead_steady _) hs

theorem takeRequest {p s} (hs : P s) : P (takeRequest p s) := h.mgmt (Or.inr rfl) (h.takeHead hs)

theorem unbound {s} (hs : P s) : P (countUnbound s) := h.modPort ⟨rfl, fun _ => rfl, le_rfl⟩ hs

theorem modController {f s} (hq : (f s.controller).queue.length ≤ s.controller.queue.length)
    (hd : (f s.controller).debt ≤ max s.controller.debt Config.debtBound)
    (hf : (f s.controller).fairness ≤ max s.controller.fairness Config.debtBound) (hs : P s) : P (s.modController f) :=
  h.control hq hd hf hs

theorem setBank {b v s} (hs : P s) : P (setBank b v s) :=
  h.modController le_rfl (le_max_left _ _) (le_max_left _ _) hs

theorem endClaim {s} (hs : P s) : P (endClaim s) :=
  h.streams (f := Stream.unstaged) (fun _ => ⟨rfl, rfl⟩)
    (h.mgmt (m := { s.management with holder := none, lease := none, leaseTimer := none }) (Or.inl rfl) hs)

theorem answer {r k st res s} (hs : P s) : P (answer r k st res s) := h.reply hs

/-- A request that is carried out: its own rule sees the state with the request taken, from a port that held it. -/
theorem serve {k own p s} (hown : ∀ r, r.port = p → (controlHead p s).isSome → P (own r (Machine.takeRequest p s)))
    (hs : P s) : P (serve k own p s) := by
  unfold Machine.serve
  split
  · rename_i r hr
    have hn : nextRequest p s = some r := (Option.filter_eq_some_iff.1 hr).1
    unfold nextRequest at hn
    split at hn
    · obtain ⟨seg, hseg, rfl⟩ := Option.map_eq_some_iff.1 hn
      split
      · exact h.answer (h.takeRequest hs)
      · exact hown _ rfl (by rw [hseg]; rfl)
    · cases hn
  · exact hs

theorem onStream {k permitted own r s}
    (hown : ∀ i, permitted (s.stream i).state = true → P (own i r s)) (hs : P s) :
    P (onStream k permitted own r s) := by
  unfold Machine.onStream
  split
  · exact h.answer hs
  · split
    · exact h.answer hs
    · split
      · exact hown _ (by assumption)
      · exact h.answer hs

theorem askStream {k own r s} (hown : ∀ i, P (own i r s)) (hs : P s) : P (askStream k own r s) := by
  unfold Machine.askStream
  split
  · exact h.answer hs
  · exact hown _

theorem onGang {k own r s} (hown : ∀ i, P (own i r s)) (hs : P s) : P (onGang k own r s) := by
  unfold Machine.onGang
  split
  · exact h.answer hs
  · exact hown _

theorem setGangField {g} : ∀ l {s}, P s → P (setGangField g l s) := fun l _ hs =>
  fold_keeps (fun _ _ hs => h.modStream rfl rfl hs) l hs

end Kept

/-- An outcome that is a next state is one with `P`. -/
def Yields (P : State → Prop) (o : Host.Outcome State Fault Refusal) : Prop := ∀ t, o = .next t → P t

theorem yields_next {P : State → Prop} {t : State} (ht : P t) : Yields P (.next t) := by
  intro u hu
  cases hu
  exact ht

namespace Kept

variable {P : State → Prop} (h : Kept P)
include h

/-! ### Events -/

theorem execUpEvent {p s} (hs : P s) : Yields P (execUpEvent p s) := by
  unfold Machine.execUpEvent
  split
  · exact yields_next (h.raiseLink (h.up (by assumption) hs))
  · exact yields_next hs

theorem execDownEvent {p s} (hs : P s) : Yields P (execDownEvent p s) := by
  unfold Machine.execDownEvent
  split
  · exact yields_next (h.down (by assumption) hs)
  · exact yields_next hs

theorem execReceiveSegment {p bytes s} (hs : P s) : Yields P (execReceiveSegment p bytes s) := by
  unfold Machine.execReceiveSegment
  split
  · refine yields_next ?_
    unfold judge
    split
    · exact hs
    split
    · exact h.down (by assumption) hs
    split
    · exact h.modPort (PortState.receive_steady ..) hs
    · exact hs
  · exact yields_next hs

/-! ### The Fill Engine and the timers -/

theorem execFillTakeData {s} (hs : P s) : Yields P (execFillTakeData s) := by
  unfold Machine.execFillTakeData
  split
  · exact yields_next (h.runWork (h.fillData (h.unbound (h.takeHead hs)) (h.takeHead hs)))
  · exact yields_next hs

theorem execFillTakeMark {s} (hs : P s) : Yields P (execFillTakeMark s) := by
  unfold Machine.execFillTakeMark
  split
  · exact yields_next (h.runWork (h.fillMark (h.unbound (h.takeHead hs)) (h.takeHead hs)))
  · exact yields_next hs

theorem execFillWriteResume {s} (hs : P s) : Yields P (execFillWriteResume s) := by
  unfold Machine.execFillWriteResume
  split
  · rename_i he
    obtain ⟨w, _, hw⟩ := Option.bind_eq_some_iff.1 he
    exact yields_next (h.afterHeld (h.enqueue hw hs))
  · exact yields_next hs

theorem execFillTimerExpiry {sl s} (hs : P s) : Yields P (execFillTimerExpiry sl s) := by
  unfold Machine.execFillTimerExpiry
  split
  · refine yields_next ?_
    split
    · exact hs
    · exact h.runWork (h.reachSlab (h.modSlab (h.reach hs)))
  · exact yields_next hs

theorem execAlignTimerExpiry {g e s} (hs : P s) : Yields P (execAlignTimerExpiry g e s) := by
  unfold Machine.execAlignTimerExpiry
  split
  · refine yields_next ?_
    split
    · exact hs
    · exact h.completionTest (h.releaseMany _ (h.reach hs))
  · exact yields_next hs

theorem execUnbindDeadlineExpiry {i s} (hs : P s) : Yields P (execUnbindDeadlineExpiry i s) := by
  unfold Machine.execUnbindDeadlineExpiry
  split
  · refine yields_next ?_
    split
    · exact hs
    · exact h.applyAbort (h.reach hs)
  · exact yields_next hs

theorem execLeaseExpiry {s} (hs : P s) : Yields P (execLeaseExpiry s) := by
  unfold Machine.execLeaseExpiry
  split
  · exact yields_next (h.raise (h.endClaim (h.reach hs)))
  · exact yields_next hs

theorem restartRefresh {s} (hs : P s) : P (restartRefresh s) := by
  unfold Machine.restartRefresh
  exact h.modController le_rfl (le_max_left _ _) (le_max_left _ _) (h.reach hs)

theorem execRefreshIntervalExpiry {s} (hs : P s) : Yields P (execRefreshIntervalExpiry s) := by
  unfold Machine.execRefreshIntervalExpiry
  dsimp only
  split
  · rename_i hd
    refine yields_next (h.modController le_rfl (le_max_of_le_right ?_) (le_max_left _ _) (h.restartRefresh hs))
    exact hd
  · refine yields_next ?_
    unfold refreshMiss
    exact h.raise (h.slabs (h.modController le_rfl (le_max_left _ _) (le_max_left _ _) (h.restartRefresh hs)))

/-! ### The Frame Memory Controller -/

theorem grantLine {line s} (hs : P s) : P (grantLine line s) := by
  unfold Machine.grantLine
  refine h.setBank (h.modController le_rfl (le_max_left _ _) (le_max_of_le_right ?_) hs)
  unfold fairnessAfterWrite
  split
  · exact min_le_left _ _
  · exact Nat.zero_le _

theorem execGrantWrite {s} (hs : P s) : Yields P (execGrantWrite s) := by
  unfold Machine.execGrantWrite
  split
  · refine yields_next (h.modController ?_ (le_max_left _ _) (le_max_left _ _) (h.grantLine hs))
    unfold grantHead
    split <;> simp_all
  · exact yields_next hs

theorem execGrantInitWrite {s} (hs : P s) : Yields P (execGrantInitWrite s) := by
  unfold Machine.execGrantInitWrite
  split
  · exact yields_next (h.modController le_rfl (le_max_left _ _) (le_max_left _ _) (h.grantLine hs))
  · exact yields_next hs

theorem execGrantDrainRead {s} (hs : P s) : Yields P (execGrantDrainRead s) := by
  unfold Machine.execGrantDrainRead
  split
  · split
    · refine yields_next ?_
      unfold grantDrain
      exact h.modChannel (h.modController le_rfl (le_max_left _ _) (Nat.zero_le _) (h.setBank hs))
    · exact yields_next hs
  · exact yields_next hs

theorem execGrantManagementRead {s} (hs : P s) : Yields P (execGrantManagementRead s) := by
  unfold Machine.execGrantManagementRead
  split
  · exact yields_next (h.modController le_rfl (le_max_left _ _) (le_max_left _ _) (h.setBank hs))
  · exact yields_next hs

theorem execGrantRefresh {s} (hs : P s) : Yields P (execGrantRefresh s) := by
  unfold Machine.execGrantRefresh
  split
  · exact yields_next (h.setBank hs)
  · exact yields_next hs

theorem depart {e s} (hs : P s) : P (depart e s) := by
  unfold Machine.depart
  refine h.completeSyncs ?_
  exact h.modController le_rfl (le_max_left _ _) (le_max_left _ _) (h.channels (h.departSlab hs))

theorem execWriteCompletion {s}
    (line : ∀ {l m s}, P s → P { s with memory := Memory.writeLine s.memory l m }) (hs : P s) :
    Yields P (execWriteCompletion s) := by
  unfold Machine.execWriteCompletion
  split
  · refine yields_next (h.depart ?_)
    unfold retireHead
    exact h.modController (by simp) (le_max_left _ _) (le_max_left _ _) (h.setBank (line hs))
  · exact yields_next hs

theorem execInitWriteCompletion {b s}
    (zero : ∀ {l s}, P s → P { s with memory := Memory.zeroLine s.memory l }) (hs : P s) :
    Yields P (execInitWriteCompletion b s) := by
  unfold Machine.execInitWriteCompletion
  split
  · refine yields_next ?_
    unfold completeInit
    refine h.modController ?_ ?_ ?_ (h.setBank (zero hs)) <;>
      · unfold Controller.testRunning
        split <;> first | exact le_rfl | exact le_max_left _ _
  · exact yields_next hs

theorem execDrainReadCompletion {c s} (hs : P s) : Yields P (execDrainReadCompletion c s) := by
  unfold Machine.execDrainReadCompletion
  split
  · exact yields_next (h.readReturned (h.modChannel (h.setBank hs)))
  · exact yields_next hs

theorem finishRead {o bytes s} (hs : P s) : P (finishRead o bytes s) := by
  unfold Machine.finishRead finishDirect finishEntry
  split
  · split
    · exact h.late (h.mgmt (Or.inr rfl) hs)
    · exact hs
  · split
    · exact h.late (h.releaseOp hs)
    · exact hs
  · exact hs

theorem execManagementReadCompletion {s} (hs : P s) : Yields P (execManagementReadCompletion s) := by
  unfold Machine.execManagementReadCompletion
  split
  · exact yields_next (h.finishRead (h.modController le_rfl (le_max_left _ _) (le_max_left _ _) (h.setBank hs)))
  · exact yields_next hs

theorem execRefreshCompletion {s} (hs : P s) : Yields P (execRefreshCompletion s) := by
  unfold Machine.execRefreshCompletion
  split
  · exact yields_next (h.modController le_rfl (le_max_of_le_left (Nat.sub_le _ _)) (le_max_left _ _) (h.setBank hs))
  · exact yields_next hs

/-! ### Draining and sending -/

theorem execChannelTakeEntry {s} (hs : P s) : Yields P (execChannelTakeEntry s) := by
  unfold Machine.execChannelTakeEntry
  split
  · refine yields_next ?_
    split
    · exact hs
    · exact h.takeEntry hs
  · exact yields_next hs

theorem execSendCredit {p s} (hs : P s) : Yields P (execSendCredit p s) := by
  unfold Machine.execSendCredit
  split
  · refine yields_next (h.modPort (PortState.sendCredit_steady _ _ ?_) hs)
    unfold dataIncrement
    split
    · exact Nat.zero_le _
    · exact le_rfl
  · exact yields_next hs

theorem execSendReply {p s} (hs : P s) : Yields P (execSendReply p s) := by
  unfold Machine.execSendReply
  split
  · exact yields_next (h.modPort (PortState.sendReply_steady _) hs)
  · exact yields_next hs

theorem execSendNotice {p s} (hs : P s) : Yields P (execSendNotice p s) := by
  unfold Machine.execSendNotice
  split
  · exact yields_next (h.modPort (PortState.sendNotice_steady _) hs)
  · exact yields_next hs

theorem execSendDrainSegment {s} (hs : P s) : Yields P (execSendDrainSegment s) := by
  unfold Machine.execSendDrainSegment
  split
  · split
    · exact yields_next (h.segmentTaken (h.turn (h.port (p := .b) (v := s.portB.sendData _ _) ⟨rfl, fun _ => rfl, le_rfl⟩ hs)))
    · exact yields_next hs
  · exact yields_next hs

theorem execSendCompletion {p s} (hs : P s) : Yields P (execSendCompletion p s) := by
  unfold Machine.execSendCompletion
  split
  · exact yields_next (h.transmissionEnded (h.modPort ⟨rfl, fun _ => rfl, le_rfl⟩ hs))
  · exact yields_next hs

theorem execPokeWriteResume {s} (hs : P s) : Yields P (execPokeWriteResume s) := by
  unfold Machine.execPokeWriteResume
  split
  · split
    · rename_i he
      exact yields_next (h.late (h.mgmt (Or.inr rfl) (h.enqueue he hs)))
    · exact yields_next hs
  · exact yields_next hs

theorem execWarmResetClear {s} (hs : P s) : Yields P (execWarmResetClear s) := by
  unfold Machine.execWarmResetClear
  split
  · split
    · exact yields_next (h.late (h.mgmt (Or.inr rfl) (h.clear hs)))
    · exact yields_next hs
  · exact yields_next hs

/-! ### The requests -/

theorem execUnknownRequest {p s} (hs : P s) : Yields P (execUnknownRequest p s) := by
  unfold Machine.execUnknownRequest
  split
  · exact yields_next (h.reply (h.takeRequest hs))
  · exact yields_next hs

theorem execIdentify {p s} (hs : P s) : Yields P (execIdentify p s) :=
  yields_next (h.serve (fun _ _ _ => h.answer (h.takeRequest hs)) hs)

theorem execClaim {p s} (hs : P s) : Yields P (execClaim p s) := by
  refine yields_next (h.serve (fun r hr hc => ?_) hs)
  subst hr
  unfold claim grantClaim
  dsimp only
  split
  · split
    · exact h.answer (h.takeRequest hs)
    · exact h.answer (h.hold hc hs)
  · exact h.answer (h.takeRequest hs)

theorem execRenew {p s} (hs : P s) : Yields P (execRenew p s) := by
  refine yields_next (h.serve (fun r hr hc => ?_) hs)
  subst hr
  unfold renew
  split
  · exact h.answer (h.hold hc hs)
  · exact h.answer (h.takeRequest hs)

theorem execRelease {p s} (hs : P s) : Yields P (execRelease p s) := by
  refine yields_next (h.serve (fun r _ _ => ?_) hs)
  unfold release
  split
  · exact h.answer (h.endClaim (h.takeRequest hs))
  · exact h.answer (h.takeRequest hs)

theorem execSetNoticeRoute {p s} (hs : P s) : Yields P (execSetNoticeRoute p s) := by
  refine yields_next (h.serve (fun r _ _ => ?_) hs)
  unfold setNoticeRoute
  split
  · exact h.answer (h.routes (h.takeRequest hs))
  · exact h.answer (h.takeRequest hs)

theorem clearDeviceCounters {s} (hs : P s) : P (clearDeviceCounters s) :=
  h.control (s := (s.setPort .a s.portA.clearCounters).setPort .b s.portB.clearCounters) le_rfl (le_max_left _ _)
    (le_max_left _ _)
    (h.port (p := .b) ⟨rfl, fun _ => rfl, le_rfl⟩ (h.port (p := .a) ⟨rfl, fun _ => rfl, le_rfl⟩ hs))

theorem execReadDeviceCounters {p s} (hs : P s) : Yields P (execReadDeviceCounters p s) := by
  refine yields_next (h.serve (fun r _ _ => ?_) hs)
  unfold readDeviceCounters
  split
  · exact h.answer (h.takeRequest hs)
  · exact h.answer (h.clearDeviceCounters (h.takeRequest hs))
  · exact h.answer (h.takeRequest hs)

theorem execDefine {p s} (hs : P s) : Yields P (execDefine p s) := by
  refine yields_next (h.serve (fun r _ _ => h.onStream (fun i hi => ?_) (h.takeRequest hs)) hs)
  unfold defineStream
  split
  · refine h.answer (h.modStream rfl ?_ (h.takeRequest hs))
    revert hi
    cases ((Machine.takeRequest p s).stream i).state <;> simp [definable, holdsRing, Stream.defining]
  · exact h.answer (h.takeRequest hs)

theorem execClear {p s} (hs : P s) : Yields P (execClear p s) := by
  refine yields_next (h.serve (fun r _ _ => h.onStream (fun i hi => ?_) (h.takeRequest hs)) hs)
  refine h.answer (h.modStream rfl ?_ (h.takeRequest hs))
  revert hi
  cases ((Machine.takeRequest p s).stream i).state <;> simp [isDefined, holdsRing, Stream.cleared]

theorem execBind {p s} (hs : P s) : Yields P (execBind p s) := by
  refine yields_next (h.serve (fun r _ _ => h.onStream (fun i hi => ?_) (h.takeRequest hs)) hs)
  unfold bindStream
  dsimp only
  split
  · exact h.answer (h.takeRequest hs)
  · refine h.answer (h.bind ?_ (by omega) (h.takeRequest hs))
    revert hi
    cases ((Machine.takeRequest p s).stream i).state <;> simp [isDefined, holdsRing]

theorem setStreamState {i v s} (hv : holdsRing v = holdsRing (s.stream i).state) (hs : P s) :
    P (setStreamState i v s) := h.modStream rfl hv hs

theorem execPause {p s} (hs : P s) : Yields P (execPause p s) := by
  refine yields_next (h.serve (fun r _ _ => h.onStream (fun i hi => ?_) (h.takeRequest hs)) hs)
  refine h.answer (h.runWork (h.reachRing (h.setStreamState ?_ (h.takeRequest hs))))
  revert hi
  cases ((Machine.takeRequest p s).stream i).state <;> simp [isActive, holdsRing]

theorem execResume {p s} (hs : P s) : Yields P (execResume p s) := by
  refine yields_next (h.serve (fun r _ _ => h.onStream (fun i hi => ?_) (h.takeRequest hs)) hs)
  refine h.answer (h.setStreamState ?_ (h.takeRequest hs))
  revert hi
  cases ((Machine.takeRequest p s).stream i).state <;> simp [isPaused, holdsRing]

theorem stopStream {i o s} (hb : isBound (s.stream i).state = true) (hs : P s) : P (stopStream i o s) := by
  refine h.addOp (h.modStream rfl ?_ hs)
  revert hb
  cases (s.stream i).state <;> simp [isBound, holdsRing]

theorem execUnbind {p s} (hs : P s) : Yields P (execUnbind p s) := by
  refine yields_next (h.serve (fun r _ _ => h.onStream (fun i hi => ?_) (h.takeRequest hs)) hs)
  unfold unbindStream
  split
  · exact h.answer (h.takeRequest hs)
  split
  · exact h.answer (h.takeRequest hs)
  split
  · exact h.answer (h.takeRequest hs)
  · unfold startUnbind
    split
    · exact h.runWork (h.unbindTest (h.reachRing (h.stopStream hi (h.takeRequest hs))))
    · exact h.applyAbort (h.stopStream hi (h.takeRequest hs))

theorem execFlush {p s} (hs : P s) : Yields P (execFlush p s) := by
  refine yields_next (h.serve (fun r _ _ => h.onStream (fun i _ => ?_) (h.takeRequest hs)) hs)
  unfold flushStream
  split
  · exact h.answer (h.takeRequest hs)
  · unfold startFlush
    dsimp only
    split
    · exact h.answer (h.takeRequest hs)
    · exact h.runWork (h.reachRing (h.addOp (h.modStream rfl rfl (h.takeRequest hs))))

omit h in
theorem stageWalk_place {n w e e'} (he : stageWalk n w e = some e') : e'.ring = e.ring ∧ e'.state = e.state := by
  unfold stageWalk at he
  split at he <;> cases he <;> exact ⟨rfl, rfl⟩

theorem execLoadWalk {p s} (hs : P s) : Yields P (execLoadWalk p s) := by
  refine yields_next (h.serve (fun r _ _ => h.onStream (fun i _ => ?_) (h.takeRequest hs)) hs)
  unfold loadWalk
  split
  · unfold loadForm
    split
    · exact h.answer (h.takeRequest hs)
    · exact h.answer (h.takeRequest hs)
    · rename_i he _
      obtain ⟨h1, h2⟩ := stageWalk_place he
      exact h.answer (h.stream h1 (by rw [h2]) (h.takeRequest hs))
  · exact h.answer (h.takeRequest hs)

theorem execCommitLayout {p s} (hs : P s) : Yields P (execCommitLayout p s) := by
  refine yields_next (h.serve (fun r _ _ => h.onStream (fun i _ => ?_) (h.takeRequest hs)) hs)
  unfold commitStream
  dsimp only
  split
  · exact h.answer (h.takeRequest hs)
  split
  · exact h.answer (h.takeRequest hs)
  split
  · exact h.answer (h.takeRequest hs)
  · exact h.answer (h.modStream rfl rfl (h.takeRequest hs))

theorem execDiscardStaging {p s} (hs : P s) : Yields P (execDiscardStaging p s) :=
  yields_next (h.serve (fun _ _ _ => h.onStream (fun _ _ => h.answer (h.modStream rfl rfl (h.takeRequest hs)))
    (h.takeRequest hs)) hs)

theorem execQueryStream {p s} (hs : P s) : Yields P (execQueryStream p s) :=
  yields_next (h.serve (fun _ _ _ => h.askStream (fun _ => h.answer (h.takeRequest hs)) (h.takeRequest hs)) hs)

theorem execQuerySlabs {p s} (hs : P s) : Yields P (execQuerySlabs p s) := by
  refine yields_next (h.serve (fun r _ _ => h.askStream (fun i => ?_) (h.takeRequest hs)) hs)
  unfold querySlabs
  dsimp only
  split <;> exact h.answer (h.takeRequest hs)

theorem execReadStreamCounters {p s} (hs : P s) : Yields P (execReadStreamCounters p s) := by
  refine yields_next (h.serve (fun r _ _ => h.askStream (fun i => ?_) (h.takeRequest hs)) hs)
  unfold readStreamCounters
  dsimp only
  split
  · exact h.answer (h.takeRequest hs)
  · exact h.answer (h.count (h.takeRequest hs))
  · exact h.answer (h.takeRequest hs)

theorem execFormGang {p s} (hs : P s) : Yields P (execFormGang p s) := by
  refine yields_next (h.serve (fun r _ _ => ?_) hs)
  unfold formGang
  split
  · exact h.answer (h.takeRequest hs)
  split
  · exact h.answer (h.takeRequest hs)
  · unfold formChecked
    split
    · exact h.answer (h.takeRequest hs)
    · exact h.answer (h.takeRequest hs)
    · exact h.answer (h.setGangField _ (h.gang (Nat.zero_le _) (h.takeRequest hs)))

theorem execDissolveGang {p s} (hs : P s) : Yields P (execDissolveGang p s) := by
  refine yields_next (h.serve (fun r _ _ => h.onGang (fun g => ?_) (h.takeRequest hs)) hs)
  unfold dissolveGang
  split
  · exact h.answer (h.gang (Nat.zero_le _) (h.setGangField _ (h.releaseMany _ (h.takeRequest hs))))
  · exact h.answer (h.takeRequest hs)

theorem execQueryGang {p s} (hs : P s) : Yields P (execQueryGang p s) :=
  yields_next (h.serve (fun _ _ _ => h.onGang (fun _ => h.answer (h.takeRequest hs)) (h.takeRequest hs)) hs)

theorem execPeek {p s} (hs : P s) : Yields P (execPeek p s) := by
  refine yields_next (h.serve (fun r _ _ => ?_) hs)
  unfold peek
  dsimp only
  split
  · exact h.answer (h.takeRequest hs)
  · unfold heldPeek
    split
    · exact h.answer (h.takeRequest hs)
    · exact h.addOp (h.modController le_rfl (le_max_left _ _) (le_max_left _ _) (h.takeRequest hs))
  · exact h.mgmt (Or.inr rfl) (h.modController le_rfl (le_max_left _ _) (le_max_left _ _) (h.takeRequest hs))

theorem execPoke {p s} (hs : P s) : Yields P (execPoke p s) := by
  refine yields_next (h.serve (fun r _ _ => ?_) hs)
  unfold poke
  split
  · exact h.answer (h.takeRequest hs)
  · unfold handPoke
    split
    · rename_i he
      exact h.answer (h.enqueue he (h.takeRequest hs))
    · exact h.mgmt (Or.inr rfl) (h.takeRequest hs)

theorem execSync {p s} (hs : P s) : Yields P (execSync p s) := by
  refine yields_next (h.serve (fun r _ _ => ?_) hs)
  unfold sync
  split
  · exact h.answer (h.takeRequest hs)
  · unfold startSync
    split
    · exact h.answer (h.takeRequest hs)
    · exact h.addOp (h.takeRequest hs)

theorem stopTimers {s} (hs : P s) : P (stopTimers s) := by
  have h1 : P { s with slabs := s.slabs.map Slab.untimed } := h.slabs hs
  have h2 : P { s with slabs := s.slabs.map Slab.untimed, gangs := s.gangs.map Gang.untimed } :=
    h.gangs (s := { s with slabs := s.slabs.map Slab.untimed }) (fun v => by simp [Gang.untimed]) h1
  exact h.mgmt (s := { s with slabs := s.slabs.map Slab.untimed, gangs := s.gangs.map Gang.untimed }) (Or.inr rfl) h2

theorem discardWork {s} (hs : P s) : P (discardWork s) :=
  fold_keeps (fun _ _ hs => h.testFullOwned hs) _ (h.fill hs)

theorem abortChannels {s} (hs : P s) : P (abortChannels s) := fold_keeps (fun _ _ hs => h.abortChannel hs) _ hs

theorem endOperations {s} (hs : P s) : P (endOperations s) := by
  have h1 : P { s with management := { s.management with ops := [] } } := h.ops hs
  have h2 : P { s with management := { s.management with ops := [] }, streams := s.streams.map Stream.unpended } :=
    h.streams (f := Stream.unpended) (s := { s with management := { s.management with ops := [] } })
      (fun _ => ⟨rfl, rfl⟩) h1
  exact h.control
    (s := { s with management := { s.management with ops := [] }, streams := s.streams.map Stream.unpended })
    le_rfl (le_max_left _ _) (le_max_left _ _) h2

theorem execReset {p s} (hs : P s) : Yields P (execReset p s) := by
  refine yields_next (h.serve (fun r _ _ => ?_) hs)
  unfold reset
  dsimp only
  exact h.endClaim (h.abortChannels (h.discardWork (h.endOperations (h.stopTimers (h.mgmt (Or.inr rfl)
    (h.modPort (PortState.emptySlots_steady _) (h.modPort (PortState.emptySlots_steady _) (h.takeRequest hs))))))))

/-! ### Every command -/

/-- A command's next state has `P` when the state before it has; a write of frame memory is asked about where one is
made. -/
theorem exec {c s} (line : c = .writeCompletion → ∀ {l m s}, P s → P { s with memory := Memory.writeLine s.memory l m })
    (zero : (∃ b, c = .initWriteCompletion b) → ∀ {l s}, P s → P { s with memory := Memory.zeroLine s.memory l })
    (hs : P s) : Yields P (exec c s) := by
  cases c
  case coldReset => exact yields_next (h.cold hs)
  case writeCompletion => exact h.execWriteCompletion (line rfl) hs
  case initWriteCompletion b => exact h.execInitWriteCompletion (zero ⟨b, rfl⟩) hs
  case upEvent => exact h.execUpEvent hs
  case downEvent => exact h.execDownEvent hs
  case receiveSegment => exact h.execReceiveSegment hs
  case fillTakeData => exact h.execFillTakeData hs
  case fillTakeMark => exact h.execFillTakeMark hs
  case fillWriteResume => exact h.execFillWriteResume hs
  case fillTimerExpiry => exact h.execFillTimerExpiry hs
  case alignTimerExpiry => exact h.execAlignTimerExpiry hs
  case unbindDeadlineExpiry => exact h.execUnbindDeadlineExpiry hs
  case leaseExpiry => exact h.execLeaseExpiry hs
  case refreshIntervalExpiry => exact h.execRefreshIntervalExpiry hs
  case grantWrite => exact h.execGrantWrite hs
  case grantInitWrite => exact h.execGrantInitWrite hs
  case grantDrainRead => exact h.execGrantDrainRead hs
  case drainReadCompletion => exact h.execDrainReadCompletion hs
  case grantManagementRead => exact h.execGrantManagementRead hs
  case managementReadCompletion => exact h.execManagementReadCompletion hs
  case grantRefresh => exact h.execGrantRefresh hs
  case refreshCompletion => exact h.execRefreshCompletion hs
  case channelTakeEntry => exact h.execChannelTakeEntry hs
  case sendCredit => exact h.execSendCredit hs
  case sendReply => exact h.execSendReply hs
  case sendNotice => exact h.execSendNotice hs
  case sendDrainSegment => exact h.execSendDrainSegment hs
  case sendCompletion => exact h.execSendCompletion hs
  case pokeWriteResume => exact h.execPokeWriteResume hs
  case warmResetClear => exact h.execWarmResetClear hs
  case identify => exact h.execIdentify hs
  case claim => exact h.execClaim hs
  case renew => exact h.execRenew hs
  case release => exact h.execRelease hs
  case reset => exact h.execReset hs
  case setNoticeRoute => exact h.execSetNoticeRoute hs
  case readDeviceCounters => exact h.execReadDeviceCounters hs
  case define => exact h.execDefine hs
  case clear => exact h.execClear hs
  case bind => exact h.execBind hs
  case pause => exact h.execPause hs
  case resume => exact h.execResume hs
  case unbind => exact h.execUnbind hs
  case flush => exact h.execFlush hs
  case loadWalk => exact h.execLoadWalk hs
  case commitLayout => exact h.execCommitLayout hs
  case discardStaging => exact h.execDiscardStaging hs
  case queryStream => exact h.execQueryStream hs
  case querySlabs => exact h.execQuerySlabs hs
  case readStreamCounters => exact h.execReadStreamCounters hs
  case formGang => exact h.execFormGang hs
  case dissolveGang => exact h.execDissolveGang hs
  case queryGang => exact h.execQueryGang hs
  case peek => exact h.execPeek hs
  case poke => exact h.execPoke hs
  case sync => exact h.execSync hs
  case unknownRequest => exact h.execUnknownRequest hs

/-- A step's next state has `P` when the state before it has. -/
theorem step {s} (line : ∀ {l m s}, P s → P { s with memory := Memory.writeLine s.memory l m })
    (zero : ∀ {l s}, P s → P { s with memory := Memory.zeroLine s.memory l })
    (queue : ∀ {l s}, P s → P { s with pending := l }) (hs : P s) : Yields P (step s) := by
  unfold Machine.step
  split
  · exact yields_next (h.time hs)
  · exact h.exec (fun _ => line) (fun _ => zero) (queue hs)

end Kept

end Sys2Proof.Machine
end

