-- ==== Sys2Proof/Laws/Operations.lean ====
section
/-! SUPPORT. What the operations at the boundary of `Closed` do: a notice offered, a REPLY queued, a write taken by the
write queue. -/

namespace Sys2Proof.Machine

@[simp] theorem offerNotice_now (p : Port) (n : Notice) (s : State) : (offerNotice p n s).now = s.now := by
  cases p <;> rfl

@[simp] theorem pushReply_now (p : Port) (r : Segment) (s : State) : (pushReply p r s).now = s.now := by
  cases p <;> rfl

@[simp] theorem offerNotice_lastDataChannel (p : Port) (n : Notice) (s : State) : (offerNotice p n s).lastDataChannel = s.lastDataChannel := by
  cases p <;> rfl

@[simp] theorem pushReply_lastDataChannel (p : Port) (r : Segment) (s : State) : (pushReply p r s).lastDataChannel = s.lastDataChannel := by
  cases p <;> rfl

@[simp] theorem offerNotice_streams (p : Port) (n : Notice) (s : State) : (offerNotice p n s).streams = s.streams := by
  cases p <;> rfl

@[simp] theorem pushReply_streams (p : Port) (r : Segment) (s : State) : (pushReply p r s).streams = s.streams := by
  cases p <;> rfl

@[simp] theorem offerNotice_slabs (p : Port) (n : Notice) (s : State) : (offerNotice p n s).slabs = s.slabs := by
  cases p <;> rfl

@[simp] theorem pushReply_slabs (p : Port) (r : Segment) (s : State) : (pushReply p r s).slabs = s.slabs := by
  cases p <;> rfl

@[simp] theorem offerNotice_freeList (p : Port) (n : Notice) (s : State) : (offerNotice p n s).freeList = s.freeList := by
  cases p <;> rfl

@[simp] theorem pushReply_freeList (p : Port) (r : Segment) (s : State) : (pushReply p r s).freeList = s.freeList := by
  cases p <;> rfl

@[simp] theorem offerNotice_fill (p : Port) (n : Notice) (s : State) : (offerNotice p n s).fill = s.fill := by
  cases p <;> rfl

@[simp] theorem pushReply_fill (p : Port) (r : Segment) (s : State) : (pushReply p r s).fill = s.fill := by
  cases p <;> rfl

@[simp] theorem offerNotice_gangs (p : Port) (n : Notice) (s : State) : (offerNotice p n s).gangs = s.gangs := by
  cases p <;> rfl

@[simp] theorem pushReply_gangs (p : Port) (r : Segment) (s : State) : (pushReply p r s).gangs = s.gangs := by
  cases p <;> rfl

@[simp] theorem offerNotice_drainQueue (p : Port) (n : Notice) (s : State) : (offerNotice p n s).drainQueue = s.drainQueue := by
  cases p <;> rfl

@[simp] theorem pushReply_drainQueue (p : Port) (r : Segment) (s : State) : (pushReply p r s).drainQueue = s.drainQueue := by
  cases p <;> rfl

@[simp] theorem offerNotice_channels (p : Port) (n : Notice) (s : State) : (offerNotice p n s).channels = s.channels := by
  cases p <;> rfl

@[simp] theorem pushReply_channels (p : Port) (r : Segment) (s : State) : (pushReply p r s).channels = s.channels := by
  cases p <;> rfl

@[simp] theorem offerNotice_controller (p : Port) (n : Notice) (s : State) : (offerNotice p n s).controller = s.controller := by
  cases p <;> rfl

@[simp] theorem pushReply_controller (p : Port) (r : Segment) (s : State) : (pushReply p r s).controller = s.controller := by
  cases p <;> rfl

@[simp] theorem offerNotice_memory (p : Port) (n : Notice) (s : State) : (offerNotice p n s).memory = s.memory := by
  cases p <;> rfl

@[simp] theorem pushReply_memory (p : Port) (r : Segment) (s : State) : (pushReply p r s).memory = s.memory := by
  cases p <;> rfl

@[simp] theorem offerNotice_management (p : Port) (n : Notice) (s : State) : (offerNotice p n s).management = s.management := by
  cases p <;> rfl

@[simp] theorem pushReply_management (p : Port) (r : Segment) (s : State) : (pushReply p r s).management = s.management := by
  cases p <;> rfl

@[simp] theorem offerNotice_routes (p : Port) (n : Notice) (s : State) : (offerNotice p n s).routes = s.routes := by
  cases p <;> rfl

@[simp] theorem pushReply_routes (p : Port) (r : Segment) (s : State) : (pushReply p r s).routes = s.routes := by
  cases p <;> rfl

@[simp] theorem offerNotice_pending (p : Port) (n : Notice) (s : State) : (offerNotice p n s).pending = s.pending := by
  cases p <;> rfl

@[simp] theorem pushReply_pending (p : Port) (r : Segment) (s : State) : (pushReply p r s).pending = s.pending := by
  cases p <;> rfl

/-- An offered notice changes the notices and the lost count of its port, nothing else (R190). -/
theorem offerNotice_port (p : Port) (n : Notice) (s : State) (q : Port) :
    ∃ l c, (offerNotice p n s).port q = { s.port q with notices := l, lost := c } ∧
      l.length ≤ max (s.port q).notices.length Config.noticeDepth := by
  by_cases h : q = p
  · subst h
    rw [offerNotice, State.modPort_port]
    split
    · exact ⟨_, (s.port q).lost, rfl, by simp; omega⟩
    · exact ⟨(s.port q).notices, _, rfl, le_max_left _ _⟩
  · refine ⟨(s.port q).notices, (s.port q).lost, ?_, le_max_left _ _⟩
    cases p <;> cases q <;> first | rfl | exact absurd rfl h

/-- A queued REPLY changes the reply queue of its port, nothing else (R173). -/
theorem pushReply_port (p : Port) (r : Segment) (s : State) (q : Port) :
    ∃ l, (pushReply p r s).port q = { s.port q with replies := l } := by
  by_cases h : q = p
  · subst h
    rw [pushReply, State.modPort_port]
    split
    · exact ⟨_, rfl⟩
    · exact ⟨(s.port q).replies, rfl⟩
  · refine ⟨(s.port q).replies, ?_⟩
    cases p <;> cases q <;> first | rfl | exact absurd rfl h

/-- A write that is taken merges into the tail entry, or is appended to a queue with room (R139). -/
theorem enqueue_cases {w : Write} {s s' : State} (h : enqueue w s = some s') :
    (∃ t, s' = mergeWrite t w s ∧ mergeTarget s.controller.queue w = some t) ∨
      (s' = appendWrite w s ∧ s.controller.queue.length < Config.writeQueueDepth) := by
  unfold enqueue at h
  split at h
  · cases h
    exact Or.inl ⟨_, rfl, by assumption⟩
  · split at h
    · cases h
      exact Or.inr ⟨rfl, by assumption⟩
    · cases h

theorem countWrite_keeps {P : State → Prop} (slab : ∀ {sl v s}, P s → P (s.setSlab sl v)) {o s} (hs : P s) :
    P (countWrite o s) := by
  unfold countWrite
  split
  · exact slab hs
  · exact hs

/-- A write that is taken changes the write queue, which stays within 32 entries, and the outstanding-write count of a
slab, nothing else (R138, R139, R140). -/
theorem enqueue_keeps {P : State → Prop} (slab : ∀ {sl v s}, P s → P (s.setSlab sl v))
    (queue : ∀ {s q n}, q.length ≤ max s.controller.queue.length Config.writeQueueDepth → P s →
      P { s with controller := { s.controller with queue := q, nextNumber := n } })
    {w s s'} (h : enqueue w s = some s') (hs : P s) : P s' := by
  rcases enqueue_cases h with ⟨t, rfl, ht⟩ | ⟨rfl, hl⟩
  · have hne : s.controller.queue ≠ [] := by
      intro h0
      rw [h0] at ht
      simp [mergeTarget] at ht
    have hlen := List.length_pos_iff.2 hne
    have hq := queue (q := s.controller.queue.dropLast ++ [t.merge w]) (n := s.controller.nextNumber)
      (by simp; omega) hs
    unfold mergeWrite
    dsimp only
    split
    · exact countWrite_keeps slab hq
    · exact hq
  · exact countWrite_keeps slab (queue (by simp; omega) hs)

/-- The entry that can be taken next, by its place in the list: it can be taken, and no entry before it can (R121). -/
theorem oldestTakeable_eq_some {s : State} {e : DrainEntry} : ∀ {l older : List DrainEntry},
    oldestTakeable s older l = some e ↔
      ∃ front back, l = front ++ e :: back ∧ takeable s (older ++ front) e = true ∧
        ∀ a f b, front = a ++ f :: b → takeable s (older ++ a) f = false := by
  intro l
  induction l with
  | nil => intro older; simp [oldestTakeable]
  | cons x l ih =>
    intro older
    unfold oldestTakeable
    by_cases hx : takeable s older x = true
    · rw [if_pos hx]
      constructor
      · rintro ⟨rfl⟩
        exact ⟨[], l, rfl, by simpa using hx, fun a f b h => by simp at h⟩
      · rintro ⟨front, back, hl, -, hf⟩
        cases front with
        | nil => cases hl; rfl
        | cons y front =>
          cases hl
          have := hf [] x front rfl
          rw [List.append_nil, hx] at this
          cases this
    · rw [if_neg hx, ih]
      constructor
      · rintro ⟨front, back, rfl, he, hf⟩
        refine ⟨x :: front, back, rfl, by simpa using he, fun a f b h => ?_⟩
        cases a with
        | nil => cases h; simpa using hx
        | cons y a => cases h; simpa using hf a f b rfl
      · rintro ⟨front, back, hl, he, hf⟩
        cases front with
        | nil => cases hl; exact absurd (by simpa using he) hx
        | cons y front =>
          cases hl
          exact ⟨front, back, rfl, by simpa using he, fun a f b h => by simpa using hf (x :: a) f b (by rw [h]; rfl)⟩

end Sys2Proof.Machine
end

