-- ==== Sys2Proof/Laws/Requests.lean ====
section
/-! SUPPORT. What the taking of a request and the common checks do, said once for the provers of statements about
requests. -/

namespace Sys2Proof.Machine

/-- A request taken leaves everything but its port's slots and owed count, and the Management Unit's last port. -/
theorem takeRequest_stream (p : Port) (s : State) (i : StreamId) : (takeRequest p s).stream i = s.stream i := by
  cases p <;> rfl

theorem takeRequest_slab (p : Port) (s : State) (sl : SlabId) : (takeRequest p s).slab sl = s.slab sl := by
  cases p <;> rfl

theorem takeRequest_gang (p : Port) (s : State) (g : GangId) : (takeRequest p s).gang g = s.gang g := by
  cases p <;> rfl

theorem takeRequest_controller (p : Port) (s : State) : (takeRequest p s).controller = s.controller := by
  cases p <;> rfl

theorem takeRequest_freeList (p : Port) (s : State) : (takeRequest p s).freeList = s.freeList := by
  cases p <;> rfl

theorem takeRequest_fill (p : Port) (s : State) : (takeRequest p s).fill = s.fill := by
  cases p <;> rfl

theorem takeRequest_routes (p : Port) (s : State) : (takeRequest p s).routes = s.routes := by
  cases p <;> rfl

theorem takeRequest_streams (p : Port) (s : State) : (takeRequest p s).streams = s.streams := by
  cases p <;> rfl

theorem takeRequest_now (p : Port) (s : State) : (takeRequest p s).now = s.now := by
  cases p <;> rfl

theorem takeRequest_management (p : Port) (s : State) :
    (takeRequest p s).management = { s.management with lastPort := p } := by
  cases p <;> rfl

/-- The common checks do not depend on the taking of the request. -/
theorem commonRefusal_takeRequest (k : RequestKind) (r : Request) (p : Port) (s : State) :
    commonRefusal k r (takeRequest p s) = commonRefusal k r s := by
  cases p <;> rfl

/-- A request taken next is taken from its own port. -/
theorem nextRequest_port {p : Port} {s : State} {r : Request} (h : nextRequest p s = some r) : r.port = p := by
  unfold nextRequest at h
  split at h
  · obtain ⟨seg, -, rfl⟩ := Option.map_eq_some_iff.mp h
    rfl
  · exact absurd h (by simp)

/-- A request that passes the common checks is executed by its own rule. -/
theorem serve_asks {k : RequestKind} {own : Request → State → State} {p : Port} {r : Request} {s : State}
    (h : asks p k r s) : serve k own p s = own r (takeRequest p s) := by
  obtain ⟨h₁, h₂, h₃⟩ := h
  unfold serve
  rw [h₁, Option.filter_some, if_pos (by simp [h₂])]
  dsimp only
  rw [commonRefusal_takeRequest, h₃]

/-- A request that fails a common check is refused with its status. -/
theorem serve_refused {k : RequestKind} {own : Request → State → State} {p : Port} {r : Request} {s : State}
    {st : Status} (h₁ : nextRequest p s = some r) (h₂ : requestKind r.payload = some k)
    (h₃ : commonRefusal k r s = some st) : serve k own p s = refuse r k st (takeRequest p s) := by
  unfold serve
  rw [h₁, Option.filter_some, if_pos (by simp [h₂])]
  dsimp only
  rw [commonRefusal_takeRequest, h₃]

/-- A request command does nothing when the Management Unit does not take a request of its kind next (log entry 1). -/
theorem serve_idle {k : RequestKind} {own : Request → State → State} {p : Port} {s : State}
    (h : ∀ r, nextRequest p s = some r → requestKind r.payload ≠ some k) : serve k own p s = s := by
  unfold serve
  have : ((nextRequest p s).filter fun r => requestKind r.payload == some k) = none := by
    cases hr : nextRequest p s with
    | none => rfl
    | some r => rw [Option.filter_some, if_neg (by simpa using h r hr)]
  rw [this]

/-- A byte value of at most 63 names a stream. -/
theorem streamOf_val (i : StreamId) : streamOf i.val = some i := by
  unfold streamOf
  rw [dif_pos i.isLt]

theorem streamOf_eq {n : Nat} {i : StreamId} (h : n = i.val) : streamOf n = some i := h ▸ streamOf_val i

theorem streamOf_none {n : Nat} (h : 63 < n) : streamOf n = none := by
  unfold streamOf
  rw [dif_neg (by omega)]

/-- A byte value of at most 15 names a gang. -/
theorem gangOfNat_eq {n : Nat} {g : GangId} (h : n = g.val) : gangOfNat n = some g := by
  subst h
  unfold gangOfNat
  rw [dif_pos g.isLt]

theorem gangOfNat_none {n : Nat} (h : 15 < n) : gangOfNat n = none := by
  unfold gangOfNat
  rw [dif_neg (by omega)]

/-- A request on a stream that passes the checks of R6 is executed by its own rule. -/
theorem serve_asksStream {k : RequestKind} {permitted : StreamState → Bool} {own : StreamId → Request → State → State}
    {p : Port} {i : StreamId} {r : Request} {s : State} (h : asksStream p k permitted i r s) :
    serve k (onStream k permitted own) p s = own i r (takeRequest p s) := by
  obtain ⟨h₁, h₂, h₃, h₄⟩ := h
  rw [serve_asks h₁]
  unfold onStream
  rw [streamOf_eq h₂]
  dsimp only
  rw [takeRequest_stream, h₃, h₄]
  rfl

end Sys2Proof.Machine
end

