-- ==== Sys2Proof/Laws/Sealing.lean ====
section
/-! SUPPORT. What a seal cause does to a slab and to a ring, said once (R85, R89, R94). -/

namespace Sys2Proof.Machine

/-- An empty seal-work list leaves the Fill Engine nothing to perform (R94). -/
theorem runWork_nil {s : State} (h : s.fill.work = []) : runWork s = s := by
  unfold runWork; rw [h]; split
  · unfold runItems; rw [← h]
  · rfl

/-- The records of a slab and its stream after steps 1 to 5 of a seal (R85, R86). -/
theorem sealRecords (i : StreamId) (sl : SlabId) (cause : SealCause) (s : State) :
    raiseFloor i ((s.slab sl).epoch.getD 0) (State.count (s.setSlab sl ((s.slab sl).sealed cause (holesOf i sl s))) i
      (countSeal (holesOf i sl s))) = sealedWaiting i sl cause s := by
  have a : ∀ v : Slab, (s.setSlab sl v).stream i = s.stream i := fun _ => rfl
  simp only [sealedWaiting, raiseFloor, State.count, State.modStream, State.setStream_stream,
    State.setStream_setStream, sealedStream, countSeal, holesOf, a]
  by_cases h0 : 0 < s.frameLength i - coveredCount (s.slab sl).coverage <;> simp only [h0, if_true, if_false] <;> rfl

/-- A seal, by its records: a hole-fill item where there is a hole and hole fill is ON, and the test of R95 (R85). -/
theorem sealSlab_eq (i : StreamId) (sl : SlabId) (cause : SealCause) (s : State) :
    sealSlab i sl cause s = testFull i sl
      (if 0 < holesOf i sl s ∧ holeFillOn (sealedWaiting i sl cause s) i = true then
        { sealedWaiting i sl cause s with
          fill := { s.fill with work := s.fill.work ++ [{ slab := sl, next := 0 }] } }
      else sealedWaiting i sl cause s) := by
  rw [← sealRecords]
  rfl

/-- A seal leaves its stream's definition, layouts and ring (R85). -/
theorem sealedWaiting_stream (i : StreamId) (sl : SlabId) (cause : SealCause) (s : State) :
    (sealedWaiting i sl cause s).stream i = sealedStream (s.stream i) ((s.slab sl).epoch.getD 0) (holesOf i sl s) :=
  State.setStream_stream ..

/-- A seal with no hole to fill: the records of the slab and its stream, and then the test of R95 (R85). -/
theorem sealSlab_noHoles {i : StreamId} {sl : SlabId} {cause : SealCause} {s : State}
    (h : holesOf i sl s = 0 ∨ holeFillOn s i = false) :
    sealSlab i sl cause s = testFull i sl (sealedWaiting i sl cause s) := by
  rw [sealSlab_eq, if_neg]
  rintro ⟨h1, h2⟩
  rcases h with h | h
  · omega
  · unfold holeFillOn at h2
    rw [sealedWaiting_stream] at h2
    exact Bool.false_ne_true (h.symm.trans h2)

/-- A seal that has a write to wait for and no hole to fill leaves its slab SEALING (R85, R95). -/
theorem sealSlab_waiting {i : StreamId} {sl : SlabId} {cause : SealCause} {s : State} (h : 0 < (s.slab sl).outstanding)
    (hh : holesOf i sl s = 0 ∨ holeFillOn s i = false) : sealSlab i sl cause s = sealedWaiting i sl cause s := by
  rw [sealSlab_noHoles hh, testFull, if_neg]
  rintro ⟨_, _, h2⟩
  rw [sealedWaiting, State.setStream_slab_of, State.setSlab_slab] at h2
  exact absurd h2 (Nat.pos_iff_ne_zero.1 h)

/-- A seal that leaves its slab SEALING, written out (R85). -/
theorem sealSlab_quietly {i sl cause} {s : State} (h : sealsQuietly i sl s) :
    sealSlab i sl cause s = sealedWaiting i sl cause s :=
  sealSlab_waiting h.2.2.1 (Or.inr h.2.2.2.1)

/-- A notice and a slab record are apart (R190). -/
theorem raise_setSlab (n : Notice) (sl : SlabId) (v : Slab) (s : State) :
    raise n (s.setSlab sl v) = (raise n s).setSlab sl v := by
  unfold raise
  split
  · rw [show (s.setSlab sl v).routes = s.routes from rfl]
    unfold offerRoute
    split <;> rfl
  · rfl

/-- A notice and the Drain Queue are apart (R190). -/
theorem raise_drainQueue (n : Notice) (q : List DrainEntry) (s : State) :
    raise n { s with drainQueue := q } = { raise n s with drainQueue := q } := by
  unfold raise
  split
  · dsimp only
    unfold offerRoute
    split <;> rfl
  · rfl

/-- A CONVERSION notice and the Drain Queue are apart (R96). -/
theorem conversionRaised_drainQueue (i : StreamId) (v : Slab) (sl : SlabId) (q : List DrainEntry) (s : State) :
    conversionRaised i v sl { s with drainQueue := q } = { conversionRaised i v sl s with drainQueue := q } := by
  unfold conversionRaised
  split
  · exact raise_drainQueue ..
  · rfl

theorem conversionRaised_setSlab (i : StreamId) (v : Slab) (sl x : SlabId) (u : Slab) (s : State) :
    conversionRaised i v sl (s.setSlab x u) = (conversionRaised i v sl s).setSlab x u := by
  unfold conversionRaised
  split
  · exact raise_setSlab ..
  · rfl

/-- A CONVERSION notice changes the ports alone (R190). -/
theorem conversionRaised_same (i : StreamId) (v : Slab) (sl : SlabId) (s : State) :
    (conversionRaised i v sl s).streams = s.streams ∧ (conversionRaised i v sl s).slabs = s.slabs ∧
      (conversionRaised i v sl s).drainQueue = s.drainQueue ∧ (conversionRaised i v sl s).fill = s.fill ∧
      (conversionRaised i v sl s).management = s.management := by
  unfold conversionRaised
  split
  · unfold raise
    split
    · unfold offerRoute
      split <;> simp
    · exact ⟨rfl, rfl, rfl, rfl, rfl⟩
  · exact ⟨rfl, rfl, rfl, rfl, rfl⟩

/-- The pending operation of a stream, if any, is no FLUSH. -/
def noFlush (i : StreamId) (s : State) : Prop := ∀ o n l, streamOp i s = some o → o.detail ≠ .flush n l

theorem noFlush_of_none {i : StreamId} {s : State} (h : (s.stream i).pendingOp = none) : noFlush i s := by
  intro o n l ho
  rw [streamOp, h] at ho
  cases ho

/-- It depends on the stream's field and the table alone. -/
theorem noFlush_congr {i : StreamId} {s t : State} (h : noFlush i s)
    (h1 : (t.stream i).pendingOp = (s.stream i).pendingOp) (h2 : t.management = s.management) : noFlush i t := by
  have e : streamOp i t = streamOp i s := by unfold streamOp findOp; rw [h1, h2]
  exact fun o n l ho => h o n l (e ▸ ho)

/-- A slab that becomes FULL makes no FLUSH progress where none is pending (R92). -/
theorem flushProgress_noFlush {i : StreamId} {sl : SlabId} {s : State} (h : noFlush i s) : flushProgress i sl s = s := by
  unfold flushProgress
  split
  · rename_i o ho
    split
    · rename_i n l hd
      exact absurd hd (h o n l ho)
    · rfl
  · rfl

/-- A slab of a stream in no gang and without a pending FLUSH becomes FULL: a single drain entry at the queue's tail, and a
CONVERSION notice where due (R96, R97). -/
theorem becomeFull_eq {i : StreamId} {sl : SlabId} {s : State} (hg : (s.stream i).gang = none) (hp : noFlush i s) :
    becomeFull i sl s = conversionRaised i (s.slab sl) sl
      { s.setSlab sl { s.slab sl with state := .full, holder := some .singleEntry } with
        drainQueue := s.drainQueue ++ [.single sl] } := by
  obtain ⟨c1, -, c3, -, c5⟩ := conversionRaised_same i (s.slab sl) sl s
  have b : becomeFull i sl s = flushProgress i sl (handOn i sl
      ((conversionRaised i (s.slab sl) sl s).setSlab sl { s.slab sl with state := .full })) := by
    rw [← conversionRaised_setSlab]
    rfl
  have g : (((conversionRaised i (s.slab sl) sl s).setSlab sl { s.slab sl with state := .full }).stream i) = s.stream i := by
    rw [State.setSlab_stream_of, State.stream, c1]
    rfl
  have h : ∀ y : State, (y.stream i).gang = none → noFlush i y →
      flushProgress i sl (handOn i sl y) = { y.setSlab sl { y.slab sl with holder := some .singleEntry } with
        drainQueue := y.drainQueue ++ [.single sl] } := by
    intro y h1 h2
    have e : handOn i sl y = { y.setSlab sl { y.slab sl with holder := some .singleEntry } with
        drainQueue := y.drainQueue ++ [.single sl] } := by
      unfold handOn
      rw [h1]
      rfl
    rw [e]
    exact flushProgress_noFlush (noFlush_congr h2 rfl rfl)
  rw [b, h _ (by rw [g, hg]) (noFlush_congr hp (congrArg Stream.pendingOp g) c5), State.setSlab_setSlab, State.setSlab_slab]
  refine Eq.trans ?_ (conversionRaised_drainQueue ..).symm
  rw [conversionRaised_setSlab, show (State.setSlab _ sl _).drainQueue = s.drainQueue from c3]

/-- A seal that makes its slab FULL at once, written out (R85, R95 to R97). -/
theorem sealSlab_becomesFull {i : StreamId} {sl : SlabId} {cause : SealCause} {s : State}
    (h3 : (s.slab sl).outstanding = 0) (h4 : holesOf i sl s = 0 ∨ holeFillOn s i = false) (h5 : hasItem s sl = false)
    (h6 : (s.stream i).gang = none) (h7 : noFlush i s) : sealSlab i sl cause s = sealedFull i sl cause s := by
  have e := sealedWaiting_stream i sl cause s
  rw [sealSlab_noHoles h4, testFull, if_pos, becomeFull_eq]
  · unfold sealedFull conversionRaised
    simp [sealedWaiting, sealedRecord]
  · rw [e]
    exact h6
  · exact noFlush_congr h7 (by rw [e]; rfl) rfl
  · exact ⟨by simp [sealedWaiting, sealedRecord], h5, by simpa [sealedWaiting, sealedRecord] using h3⟩

theorem sealSlab_full {i : StreamId} {sl : SlabId} {cause : SealCause} {s : State} (h : sealsToFull i sl s) :
    sealSlab i sl cause s = sealedFull i sl cause s := by
  obtain ⟨-, -, h3, h4, h5, h6, h7⟩ := h
  exact sealSlab_becomesFull h3 (Or.inr h4) (by unfold hasItem; rw [h5]; rfl) h6 (noFlush_of_none h7)

/-- A seal cause has no effect on slabs that are not FILLING (R85). -/
theorem reachRing_notFilling {i cause} : ∀ (l : List SlabId) (s : State), (∀ x ∈ l, (s.slab x).state ≠ .filling) →
    l.foldl (fun acc sl => reachSlab i cause sl acc) s = s := by
  intro l; induction l with
  | nil => intros; rfl
  | cons a l ih =>
    intro s h
    rw [List.foldl_cons]
    have : reachSlab i cause a s = s := by unfold reachSlab; rw [if_neg (h a (by simp))]
    rw [this]; exact ih s fun x hx => h x (by simp [hx])

/-- A seal cause that reaches a ring with one FILLING slab acts on that slab alone (R85). -/
theorem reachRing_one {i cause front sl back} {s t : State} (hr : (s.stream i).ring = front ++ sl :: back)
    (h : ∀ x, x ∈ front ∨ x ∈ back → (s.slab x).state ≠ .filling) (e : reachSlab i cause sl s = t)
    (ht : ∀ x, x ≠ sl → t.slab x = s.slab x) (hs : (s.slab sl).state = .filling) : reachRing i cause s = t := by
  unfold reachRing
  rw [hr, List.foldl_append, reachRing_notFilling front s fun x hx => h x (Or.inl hx), List.foldl_cons, e]
  refine reachRing_notFilling back t fun x hx => ?_
  have : x ≠ sl := by rintro rfl; exact h x (Or.inr hx) hs
  rw [ht x this]; exact h x (Or.inr hx)

/-- The seal of one slab leaves the other slabs. -/
theorem sealedWaiting_slab {i sl cause x} {s : State} (h : x ≠ sl) : (sealedWaiting i sl cause s).slab x = s.slab x := by
  unfold sealedWaiting
  rw [State.setStream_slab_of, State.setSlab_slab_ne _ _ (Ne.symm h)]

/-- A seal cause that reaches a FILLING slab seals it at once (R85). -/
theorem reachSlab_quietly {i sl cause} {s : State} (h : sealsQuietly i sl s) : reachSlab i cause sl s = sealedWaiting i sl cause s := by
  unfold reachSlab; rw [if_pos h.1, if_neg (by rw [h.2.1]; decide), sealSlab_quietly h]

/-- The condition of a quiet seal depends on the slab, the stream's definition and the Fill Engine alone. -/
theorem sealsQuietly_congr {i sl} {s t : State} (h : sealsQuietly i sl s) (h1 : t.slab sl = s.slab sl) (h2 : (t.stream i).defn = (s.stream i).defn) (h3 : t.fill = s.fill) : sealsQuietly i sl t := by
  unfold sealsQuietly holeFillOn at *
  rw [h1, h2, h3]; exact h

end Sys2Proof.Machine
end

