-- ==== Sys2Proof/Laws/HoleFill.lean ====
section
/-! SUPPORT. Writes taken one after another, and what the seal-work list does with one item, said once (R94, R95). -/

namespace Sys2Proof.Machine

/-! ### Counts -/

/-- A count raised twice is raised by the sum (R3). -/
theorem satAdd_satAdd {w : Nat} (c : BitVec w) (m n : Nat) : satAdd (satAdd c m) n = satAdd c (m + n) := by
  have h := c.isLt
  apply BitVec.eq_of_toNat_eq
  unfold satAdd
  split
  · rename_i h1
    have e : (BitVec.ofNat w (c.toNat + m)).toNat = c.toNat + m := by
      rw [BitVec.toNat_ofNat, Nat.mod_eq_of_lt h1]
    rw [e]
    simp only [Nat.add_assoc]
  · rename_i h1
    rw [if_neg (by omega : ¬ c.toNat + (m + n) < 2 ^ w)]
    split
    · rename_i h2
      rw [BitVec.toNat_allOnes] at h2 ⊢
      rw [BitVec.toNat_ofNat, Nat.mod_eq_of_lt h2]
      omega
    · rfl

@[simp] theorem satAdd_zero {w : Nat} (c : BitVec w) : satAdd c 0 = c := by
  unfold satAdd
  rw [if_pos (by simpa using c.isLt), Nat.add_zero, BitVec.ofNat_toNat, BitVec.setWidth_eq]

/-- A count that changes nothing leaves the state. -/
theorem count_id (i : StreamId) (s : State) : s.count i (fun c => c) = s := by
  unfold State.count State.modStream State.setStream State.stream
  rw [Table.set_get]

/-! ### Writes one after another -/

theorem enqueueAll_nil (s : State) : enqueueAll [] s = some s := rfl

theorem enqueueAll_cons (w : Write) (l : List Write) (s : State) :
    enqueueAll (w :: l) s = (enqueue w s).bind (enqueueAll l) := by
  unfold enqueueAll
  rw [List.foldlM_cons]
  rfl

/-- A write that is taken changes neither the streams nor the Fill Engine nor a slab's coverage (R138 to R140). -/
theorem enqueue_same {w : Write} {s v : State} (h : enqueue w s = some v) :
    v.streams = s.streams ∧ v.fill = s.fill ∧ ∀ sl, (v.slab sl).coverage = (s.slab sl).coverage := by
  have c : ∀ (o : Option SlabId) (x : State), (countWrite o x).streams = x.streams ∧ (countWrite o x).fill = x.fill ∧
      ∀ sl, ((countWrite o x).slab sl).coverage = (x.slab sl).coverage := by
    intro o x
    cases o with
    | none => exact ⟨rfl, rfl, fun _ => rfl⟩
    | some y =>
      refine ⟨rfl, rfl, fun sl => ?_⟩
      by_cases e : y = sl
      · subst e
        have h : (countWrite (some y) x).slab y = { x.slab y with outstanding := (x.slab y).outstanding + 1 } :=
          State.setSlab_slab ..
        rw [h]
      · exact congrArg Slab.coverage (State.setSlab_slab_ne _ _ e _)
  rcases enqueue_cases h with ⟨t, rfl, -⟩ | ⟨rfl, -⟩
  · unfold mergeWrite
    dsimp only
    split
    · exact c ..
    · exact ⟨rfl, rfl, fun _ => rfl⟩
  · exact c ..

theorem enqueueAll_same : ∀ {l : List Write} {s v : State}, enqueueAll l s = some v →
    v.streams = s.streams ∧ v.fill = s.fill ∧ ∀ sl, (v.slab sl).coverage = (s.slab sl).coverage
  | [], _, _, h => by cases h; exact ⟨rfl, rfl, fun _ => rfl⟩
  | w :: l, s, v, h => by
    rw [enqueueAll_cons] at h
    obtain ⟨x, hx, h⟩ := Option.bind_eq_some_iff.1 h
    have h1 := enqueue_same hx
    have h2 := enqueueAll_same h
    exact ⟨h2.1.trans h1.1, h2.2.1.trans h1.2.1, fun sl => (h2.2.2 sl).trans (h1.2.2 sl)⟩

/-- A write is taken alike before and after a stream's count (R139, R192). -/
theorem enqueue_count (w : Write) (i : StreamId) (f : StreamCounters → StreamCounters) (s : State) :
    enqueue w (s.count i f) = (enqueue w s).map fun v => v.count i f := by
  unfold enqueue
  rw [State.count_controller]
  split
  · unfold mergeWrite
    dsimp only
    split
    · cases w.slab <;> rfl
    · rfl
  · split
    · unfold appendWrite
      cases w.slab <;> rfl
    · rfl

theorem enqueueAll_count (i : StreamId) (f : StreamCounters → StreamCounters) : ∀ (l : List Write) (s : State),
    enqueueAll l (s.count i f) = (enqueueAll l s).map fun v => v.count i f
  | [], _ => rfl
  | w :: l, s => by
    rw [enqueueAll_cons, enqueueAll_cons, enqueue_count]
    cases enqueue w s with
    | none => rfl
    | some v => exact enqueueAll_count i f l v

/-! ### The holes of a slab -/

/-- The next hole is at or after the index, and within the frame (R94). -/
theorem nextHole_bounds {cov : List IndexRange} {frameLength k j : Nat} (h : nextHole cov frameLength k = some j) :
    k ≤ j ∧ j < frameLength := by
  have m : ∀ (l : List IndexRange) (n : Nat), n ≤ l.foldl (fun k r => if r.start ≤ k ∧ k < r.stop then r.stop else k) n := by
    intro l
    induction l with
    | nil => intro n; exact le_rfl
    | cons r l ih =>
      intro n
      refine le_trans ?_ (ih _)
      dsimp only
      split
      · omega
      · exact le_rfl
  unfold nextHole at h
  dsimp only at h
  split at h
  · rename_i h1
    cases h
    exact ⟨m .., h1⟩
  · cases h

/-- There are no more holes than indices left. -/
theorem holesAre_length {cov : List IndexRange} {frameLength : Nat} : ∀ {l : List Nat} {k : Nat},
    holesAre cov frameLength l k → l.length ≤ frameLength - k
  | [], _, _ => by simp
  | j :: l, k, h => by
    have h1 := nextHole_bounds h.1
    have h2 := holesAre_length h.2
    rw [List.length_cons]
    omega

theorem countHole_countHole (i : StreamId) (n : Nat) (s : State) :
    (countHole i s).count i (fun c => { c with holesFilled := satAdd c.holesFilled n }) =
      s.count i (fun c => { c with holesFilled := satAdd c.holesFilled (n + 1) }) := by
  unfold countHole State.count State.modStream
  rw [State.setStream_stream, State.setStream_setStream]
  dsimp only
  rw [satAdd_satAdd, Nat.add_comm]

/-- Every hole's write is taken (R94). -/
theorem fillHoles_taken {i : StreamId} {sl : SlabId} {d : Definition} {w : Walk} :
    ∀ {l : List Nat} {k n : Nat} {s v : State}, holesAre (s.slab sl).coverage d.frameLength l k → l.length < n →
      enqueueAll (l.map (fillOf d w sl)) s = some v →
      fillHoles i sl d w n k s =
        (v.count i fun c => { c with holesFilled := satAdd c.holesFilled l.length }, none)
  | _, _, 0, _, _, _, hn, _ => absurd hn (by simp)
  | [], k, n + 1, s, v, h, _, hv => by
    cases hv
    have h' : nextHole (s.slab sl).coverage d.frameLength k = none := h
    unfold fillHoles
    rw [h', List.length_nil]
    simp only [satAdd_zero]
    rw [count_id]
  | j :: l, k, n + 1, s, v, h, hn, hv => by
    rw [List.map_cons, enqueueAll_cons] at hv
    obtain ⟨x, hx, hv⟩ := Option.bind_eq_some_iff.1 hv
    have hx' : enqueue (holeWrite sl d w j) s = some x := hx
    unfold fillHoles
    rw [h.1]
    dsimp only
    rw [hx']
    dsimp only
    have hc : ((countHole i x).slab sl).coverage = (s.slab sl).coverage := (enqueue_same hx).2.2 sl
    rw [fillHoles_taken (l := l) (v := countHole i v) (by rw [hc]; exact h.2) (by simpa using hn)
      (by rw [countHole, enqueueAll_count, hv]; rfl), countHole_countHole, List.length_cons]

/-- The writes of the holes `front` are taken, and the one of hole `j` is not (R94). -/
theorem fillHoles_held {i : StreamId} {sl : SlabId} {d : Definition} {w : Walk} {j : Nat} {back : List Nat} :
    ∀ {front : List Nat} {k n : Nat} {s v : State}, holesAre (s.slab sl).coverage d.frameLength (front ++ j :: back) k →
      front.length < n → enqueueAll (front.map (fillOf d w sl)) s = some v → enqueue (fillOf d w sl j) v = none →
      fillHoles i sl d w n k s =
        (v.count i fun c => { c with holesFilled := satAdd c.holesFilled front.length }, some (j + 1, fillOf d w sl j))
  | _, _, 0, _, _, _, hn, _, _ => absurd hn (by simp)
  | [], k, n + 1, s, v, h, _, hv, hj => by
    cases hv
    have h' : nextHole (s.slab sl).coverage d.frameLength k = some j := h.1
    have hj' : enqueue (holeWrite sl d w j) s = none := hj
    unfold fillHoles
    rw [h', List.length_nil]
    simp only [satAdd_zero]
    rw [count_id, hj']
    rfl
  | a :: front, k, n + 1, s, v, h, hn, hv, hj => by
    rw [List.map_cons, enqueueAll_cons] at hv
    obtain ⟨x, hx, hv⟩ := Option.bind_eq_some_iff.1 hv
    have hx' : enqueue (holeWrite sl d w a) s = some x := hx
    unfold fillHoles
    rw [h.1]
    dsimp only
    rw [hx']
    dsimp only
    have hc : ((countHole i x).slab sl).coverage = (s.slab sl).coverage := (enqueue_same hx).2.2 sl
    rw [fillHoles_held (front := front) (v := countHole i v) (by rw [hc]; exact h.2) (by simpa using hn)
      (by rw [countHole, enqueueAll_count, hv]; rfl) (by rw [countHole, enqueue_count, hj]; rfl), countHole_countHole,
      List.length_cons]

/-- A slab with a write outstanding stays as it is (R95). -/
theorem testFullOwned_waiting {sl : SlabId} {s : State} (h : 0 < (s.slab sl).outstanding) : testFullOwned sl s = s := by
  unfold testFullOwned
  split
  · unfold testFull
    rw [if_neg]
    rintro ⟨-, -, h2⟩
    omega
  · rfl

/-- The seal-work list with one item does what `fillsHoles` says (R94, R95). -/
theorem runWork_item {i : StreamId} {sl : SlabId} {d : Definition} {w : Walk} {k : Nat} {u t : State}
    (hf : u.fill = { placing := none, held := none, work := [{ slab := sl, next := k }] }) (ho : u.owner sl = some i)
    (hd : (u.stream i).defn = some d) (hw : writeWalkOf u i sl = some w) (h : fillsHoles i sl d w k u t) :
    runWork u = t := by
  have p : performItem { slab := sl, next := k } u = fillHoles i sl d w (d.frameLength + 1) k u := by
    unfold performItem
    dsimp only
    rw [ho]
    dsimp only
    rw [hd, hw]
  have r : runWork u = runItems [{ slab := sl, next := k }] u := by
    unfold runWork fillFree
    rw [hf]
    rfl
  rw [r, runItems, p]
  rcases h with ⟨l, v, h1, h2, h3, rfl⟩ | ⟨front, j, back, v, h1, h2, h3, rfl⟩
  · have hl := holesAre_length h1
    rw [fillHoles_taken h1 (by omega) h2]
    dsimp only
    have e : v.fill = { placing := none, held := none, work := [{ slab := sl, next := k }] } :=
      (enqueueAll_same h2).2.1.trans hf
    rw [State.count_fill, e, testFullOwned_waiting (by exact h3)]
    rfl
  · have hl := holesAre_length h1
    rw [List.length_append, List.length_cons] at hl
    rw [fillHoles_held h1 (by omega) h2 h3]
    dsimp only
    have e : v.fill = { placing := none, held := none, work := [{ slab := sl, next := k }] } :=
      (enqueueAll_same h2).2.1.trans hf
    rw [State.count_fill, e]
    rfl

/-- What is filled does not depend on what the Fill Engine holds. -/
theorem fillsHoles_fill {i : StreamId} {sl : SlabId} {d : Definition} {w : Walk} {k : Nat} {u t : State} (f : FillEngine)
    (h : fillsHoles i sl d w k u t) : fillsHoles i sl d w k { u with fill := f } t := by
  have q : ∀ (x : Write) (s : State), enqueue x { s with fill := f } = (enqueue x s).map fun v => { v with fill := f } := by
    intro x s
    unfold enqueue
    dsimp only
    split
    · unfold mergeWrite
      dsimp only
      split
      · cases x.slab <;> rfl
      · rfl
    · split
      · unfold appendWrite
        cases x.slab <;> rfl
      · rfl
  have qa : ∀ (l : List Write) (s : State),
      enqueueAll l { s with fill := f } = (enqueueAll l s).map fun v => { v with fill := f } := by
    intro l
    induction l with
    | nil => intro s; rfl
    | cons x l ih =>
      intro s
      rw [enqueueAll_cons, enqueueAll_cons, q]
      cases enqueue x s with
      | none => rfl
      | some v => exact ih v
  rcases h with ⟨l, v, h1, h2, h3, rfl⟩ | ⟨front, j, back, v, h1, h2, h3, rfl⟩
  · exact Or.inl ⟨l, { v with fill := f }, h1, by rw [qa, h2]; rfl, h3, rfl⟩
  · exact Or.inr ⟨front, j, back, { v with fill := f }, h1, by rw [qa, h2]; rfl, by rw [q, h3]; rfl, rfl⟩

/-- The seal of a slab with holes where hole fill is ON, and the hole fill that follows it (R85, R94). -/
theorem sealSlab_holes {i : StreamId} {sl : SlabId} {cause : SealCause} {d : Definition} {w : Walk} {s t : State}
    (hf : s.fill = { placing := none, held := none, work := [] }) (ho : s.owner sl = some i)
    (hd : (s.stream i).defn = some d) (hh : d.holeFill = true) (hw : writeWalkOf s i sl = some w)
    (h0 : 0 < holesOf i sl s) (h : fillsHoles i sl d w 0 (sealedWaiting i sl cause s) t) :
    runWork (sealSlab i sl cause s) = t := by
  have hv : (sealedWaiting i sl cause s).slab sl = sealedRecord (s.slab sl) cause (holesOf i sl s) := by
    unfold sealedWaiting
    rw [State.setStream_slab_of, State.setSlab_slab]
  have e : sealSlab i sl cause s = { sealedWaiting i sl cause s with
      fill := { placing := none, held := none, work := [{ slab := sl, next := 0 }] } } := by
    rw [sealSlab_eq, if_pos, hf, testFull, if_neg]
    · rfl
    · rintro ⟨-, h2, -⟩
      simp [hasItem] at h2
    · refine ⟨h0, ?_⟩
      unfold holeFillOn
      rw [sealedWaiting_stream]
      exact (congrArg (fun o => (o.map Definition.holeFill).getD false) hd).trans hh
  rw [e]
  have ho' : (sealedWaiting i sl cause s).owner sl = some i := by
    rw [← ho]
    unfold State.owner
    congr 1
    funext k
    by_cases hk : i = k
    · subst hk
      rw [sealedWaiting_stream]
      rfl
    · unfold sealedWaiting
      rw [State.setStream_stream_ne _ _ hk]
      rfl
  have hd' : ((sealedWaiting i sl cause s).stream i).defn = some d := by
    rw [sealedWaiting_stream]
    exact hd
  have hw' : writeWalkOf (sealedWaiting i sl cause s) i sl = some w := by
    unfold writeWalkOf
    rw [sealedWaiting_stream, hv]
    exact hw
  exact runWork_item rfl ho' hd' hw' (fillsHoles_fill _ h)

end Sys2Proof.Machine
end

