-- ==== Sys2Proof/Laws/Placement.lean ====
section
/-! SUPPORT. What a placement does, said once: the writes of its samples taken one after another, and its end (R81 to
R83). -/

namespace Sys2Proof.Machine

/-! ### Conversion faults and the write queue -/

/-- Changes of two slab records that commute on one record commute (R52, R140). -/
theorem modSlab_comm {s : State} {a b : SlabId} {f g : Slab → Slab} (h : ∀ v, f (g v) = g (f v)) :
    (s.modSlab a f).modSlab b g = (s.modSlab b g).modSlab a f := by
  have key : ((s.slabs.set a (f (s.slabs.get a))).set b (g ((s.slabs.set a (f (s.slabs.get a))).get b))) =
      ((s.slabs.set b (g (s.slabs.get b))).set a (f ((s.slabs.set b (g (s.slabs.get b))).get a))) := by
    ext k
    simp only [Table.get_set]
    by_cases h1 : a = b
    · subst h1
      by_cases h2 : a = k <;> simp [h2, h]
    · have h3 : b ≠ a := Ne.symm h1
      by_cases h2 : a = k
      · subst h2; simp [h3]
      · by_cases h4 : b = k <;> simp [h2, h4]
  unfold State.modSlab State.setSlab State.slab
  dsimp only
  rw [key]

/-- The counting of a conversion fault and the counting of an outstanding write commute (R52, R140). -/
theorem countWrite_countFault (i : StreamId) (sl : SlabId) (b : Bool) (o : Option SlabId) (s : State) :
    countWrite o (countFault i sl b s) = countFault i sl b (countWrite o s) := by
  cases b with
  | false => rfl
  | true =>
    cases o with
    | none => rfl
    | some x =>
      exact modSlab_comm (s := s.count i fun c => { c with conversionFaults := satAdd c.conversionFaults 1 }) (a := sl)
        (b := x) (f := fun v => { v with faulted := true })
        (g := fun v => { v with outstanding := v.outstanding + 1 }) fun _ => rfl

/-- The counting of a conversion fault and a change of the controller commute. -/
theorem modController_countFault (i : StreamId) (sl : SlabId) (b : Bool) (f : Controller → Controller) (s : State) :
    (countFault i sl b s).modController f = countFault i sl b (s.modController f) := by
  cases b <;> rfl

theorem countFault_controller (i : StreamId) (sl : SlabId) (b : Bool) (s : State) :
    (countFault i sl b s).controller = s.controller := by
  cases b <;> rfl

/-- A write is taken alike before and after a conversion fault is counted (R52, R139). -/
theorem enqueue_countFault (i : StreamId) (sl : SlabId) (b : Bool) (w : Write) (s : State) :
    enqueue w (countFault i sl b s) = (enqueue w s).map (countFault i sl b) := by
  unfold enqueue
  rw [countFault_controller]
  split
  · unfold mergeWrite
    rw [modController_countFault]
    dsimp only
    split
    · rw [countWrite_countFault, Option.map_some]
    · rfl
  · split
    · unfold appendWrite
      rw [modController_countFault, countWrite_countFault, Option.map_some]
    · rfl

/-- The writes are taken alike before and after a conversion fault is counted (R52, R139). -/
theorem enqueueAll_countFault (i : StreamId) (sl : SlabId) (b : Bool) : ∀ (l : List Write) (s : State),
    enqueueAll l (countFault i sl b s) = (enqueueAll l s).map (countFault i sl b)
  | [], _ => rfl
  | w :: l, s => by
    unfold enqueueAll
    rw [List.foldlM_cons, List.foldlM_cons, enqueue_countFault]
    cases enqueue w s with
    | none => rfl
    | some v => exact enqueueAll_countFault i sl b l v

/-- A slab record with `f` more fields found faulty. -/
def Slab.faultedBy (v : Slab) (f : Bool) : Slab := { v with faulted := v.faulted || f }

/-- A stream's entry with `n` more conversion faults counted. -/
def Stream.faultsBy (v : Stream) (n : Nat) : Stream :=
  { v with counters := { v.counters with conversionFaults := satAdd v.counters.conversionFaults n } }

theorem Slab.faultedBy_false (v : Slab) : v.faultedBy false = v := by
  unfold Slab.faultedBy; rw [Bool.or_false]

theorem Stream.faultsBy_zero (v : Stream) : v.faultsBy 0 = v := by
  unfold Stream.faultsBy; rw [satAdd_zero]

theorem Stream.faultsBy_faultsBy (v : Stream) (m n : Nat) : (v.faultsBy m).faultsBy n = v.faultsBy (m + n) := by
  unfold Stream.faultsBy; rw [satAdd_satAdd]

/-- The faults of fields, as one change of the slab's record and one of the stream's entry. -/
theorem faultsCounted_eq (i : StreamId) (sl : SlabId) (d : Definition) (l : List (List Byte)) (s : State) :
    faultsCounted i sl d l s =
      { s with
        slabs := s.slabs.set sl ((s.slab sl).faultedBy (l.any fun b => (inboundConvert d b).2))
        streams := s.streams.set i ((s.stream i).faultsBy (l.countP fun b => (inboundConvert d b).2)) } := rfl

/-- No fault counted leaves the state (R52). -/
theorem faultsCounted_nil (i : StreamId) (sl : SlabId) (d : Definition) (s : State) : faultsCounted i sl d [] s = s := by
  rw [faultsCounted_eq, List.any_nil, List.countP_nil, Slab.faultedBy_false, Stream.faultsBy_zero]
  unfold State.slab State.stream
  rw [Table.set_get, Table.set_get]

/-- The faults of a list are those of its first field and then those of the others (R52). -/
theorem faultsCounted_cons (i : StreamId) (sl : SlabId) (d : Definition) (b : List Byte) (l : List (List Byte))
    (s : State) :
    faultsCounted i sl d (b :: l) s = faultsCounted i sl d l (countFault i sl (inboundConvert d b).2 s) := by
  rw [faultsCounted_eq, faultsCounted_eq, List.any_cons, List.countP_cons]
  cases (inboundConvert d b).2 with
  | false => rfl
  | true =>
    have e : countFault i sl true s = { s with
        slabs := s.slabs.set sl ((s.slab sl).faultedBy true), streams := s.streams.set i ((s.stream i).faultsBy 1) } := by
      unfold Slab.faultedBy
      rw [Bool.or_true]
      rfl
    rw [e]
    unfold State.slab State.stream
    dsimp only
    rw [Table.get_set_self, Table.get_set_self, Table.set_set, Table.set_set, Stream.faultsBy_faultsBy, if_pos rfl,
      Nat.add_comm 1]
    unfold Slab.faultedBy
    rw [Bool.true_or, Bool.or_true, Bool.true_or]

theorem faultsCounted_append (i : StreamId) (sl : SlabId) (d : Definition) (m : List (List Byte)) :
    ∀ (l : List (List Byte)) (s : State),
      faultsCounted i sl d (l ++ m) s = faultsCounted i sl d m (faultsCounted i sl d l s)
  | [], s => by rw [List.nil_append, faultsCounted_nil]
  | b :: l, s => by rw [List.cons_append, faultsCounted_cons, faultsCounted_cons, faultsCounted_append]

theorem faultsCounted_one (i : StreamId) (sl : SlabId) (d : Definition) (b : List Byte) (s : State) :
    faultsCounted i sl d [b] s = countFault i sl (inboundConvert d b).2 s := by
  rw [faultsCounted_cons, faultsCounted_nil]

/-- A write is taken alike before and after the faults of fields are counted (R52, R139). -/
theorem enqueue_faultsCounted (i : StreamId) (sl : SlabId) (d : Definition) (w : Write) :
    ∀ (l : List (List Byte)) (s : State),
      enqueue w (faultsCounted i sl d l s) = (enqueue w s).map (faultsCounted i sl d l)
  | [], s => by
    rw [faultsCounted_nil]
    cases enqueue w s <;> simp [faultsCounted_nil]
  | b :: l, s => by
    rw [faultsCounted_cons, enqueue_faultsCounted i sl d w l, enqueue_countFault]
    cases enqueue w s <;> simp [faultsCounted_cons]

/-! ### The samples of a placement -/

theorem writesOf_nil (d : Definition) (w : Walk) (sl : SlabId) (j : Nat) : writesOf d w sl j [] = [] := rfl

theorem writesOf_cons (d : Definition) (w : Walk) (sl : SlabId) (j : Nat) (b : List Byte) (l : List (List Byte)) :
    writesOf d w sl j (b :: l) = writeOf d w sl j b :: writesOf d w sl (j + 1) l := by
  simp [writesOf, List.mapIdx_cons, Nat.add_comm, Nat.add_left_comm]

/-- The sample fields of a segment, as a placement carries them (R46). -/
theorem sampleFields_eq (d : Definition) (seg : Segment) :
    sampleFields (d.inWidth / 8) (seg.payload.length / (d.inWidth / 8)) seg.payload = fieldsOf d seg := by
  have key : ∀ (n k : Nat) (l : List Byte), sampleFields n k l = (List.range k).map fun j => slice l (j * n) n := by
    intro n k
    induction k with
    | zero => intro l; rfl
    | succ k ih =>
      intro l
      rw [sampleFields, ih, List.range_succ_eq_map, List.map_cons, List.map_map]
      simp only [slice, Nat.zero_mul, List.drop_zero, List.drop_drop, Function.comp_def, Nat.succ_mul, Nat.add_comm]
  exact key _ _ _

/-- The write queue takes every write of a placement: the faults are counted, and the placement ends (R81, R83). -/
theorem placeSamples_taken {pl : Placing} {d : Definition} {w : Walk} : ∀ {l : List (List Byte)} {j : Nat} {s v : State},
    enqueueAll (writesOf d w pl.slab j l) s = some v →
      placeSamples pl d w l j s = endPlacement pl (faultsCounted pl.stream pl.slab d l v)
  | [], j, s, v, h => by
    cases h
    rw [faultsCounted_nil]
    rfl
  | b :: l, j, s, v, h => by
    rw [writesOf_cons] at h
    unfold enqueueAll at h
    rw [List.foldlM_cons] at h
    obtain ⟨x, hx, h⟩ := Option.bind_eq_some_iff.1 h
    have hx' : enqueue (sampleWrite pl.slab d w j (inboundConvert d b).1) s = some x := hx
    unfold placeSamples
    dsimp only
    rw [enqueue_countFault, hx', Option.map_some]
    dsimp only
    have h' := enqueueAll_countFault pl.stream pl.slab (inboundConvert d b).2 (writesOf d w pl.slab (j + 1) l) x
    rw [show enqueueAll (writesOf d w pl.slab (j + 1) l) x = some v from h, Option.map_some] at h'
    rw [placeSamples_taken h', faultsCounted_cons]

/-- The write queue takes the writes of `front` and then finds itself full: that write is held, with the samples behind it
(R82). -/
theorem placeSamples_held {pl : Placing} {d : Definition} {w : Walk} {b : List Byte} {back : List (List Byte)} :
    ∀ {front : List (List Byte)} {j : Nat} {s v : State},
      enqueueAll (writesOf d w pl.slab j front) s = some v → enqueue (writeOf d w pl.slab (j + front.length) b) v = none →
      placeSamples pl d w (front ++ b :: back) j s =
        { faultsCounted pl.stream pl.slab d (front ++ [b]) v with
          fill := { v.fill with
            placing := some { pl with next := j + front.length + 1, rest := back }
            held := some (writeOf d w pl.slab (j + front.length) b) } }
  | [], j, s, v, h, h2 => by
    cases h
    rw [List.nil_append, List.nil_append, faultsCounted_one]
    have h2' : enqueue (sampleWrite pl.slab d w j (inboundConvert d b).1) s = none := h2
    unfold placeSamples
    dsimp only
    rw [enqueue_countFault, h2', Option.map_none]
    cases (inboundConvert d b).2 <;> rfl
  | a :: front, j, s, v, h, h2 => by
    rw [writesOf_cons] at h
    unfold enqueueAll at h
    rw [List.foldlM_cons] at h
    obtain ⟨x, hx, h⟩ := Option.bind_eq_some_iff.1 h
    have hx' : enqueue (sampleWrite pl.slab d w j (inboundConvert d a).1) s = some x := hx
    rw [List.cons_append]
    unfold placeSamples
    dsimp only
    rw [enqueue_countFault, hx', Option.map_some]
    dsimp only
    have h' := enqueueAll_countFault pl.stream pl.slab (inboundConvert d a).2 (writesOf d w pl.slab (j + 1) front) x
    rw [show enqueueAll (writesOf d w pl.slab (j + 1) front) x = some v from h, Option.map_some] at h'
    have e : j + 1 + front.length = j + (a :: front).length := by simp; omega
    rw [placeSamples_held h' (by
        rw [e, enqueue_countFault, h2]
        rfl), e, List.cons_append, faultsCounted_cons]
    cases (inboundConvert d a).2 <;> rfl

/-! ### The end of a placement -/

/-- A slab at rest and the previous layout that no other slab carries dropped (R41, R60). -/
theorem dropPrevious_atRest (i : StreamId) (sl : SlabId) (x : State) :
    dropPrevious i (x.setSlab sl (x.slab sl).atRest) =
      (x.setSlab sl (x.slab sl).atRest).setStream i { x.stream i with previous := previousWithout i sl x } := by
  have hc : ∀ n, carriesVersion (x.setSlab sl (x.slab sl).atRest) (x.stream i).ring n =
      (x.stream i).ring.any fun y => y != sl && (x.slab y).version == some n := by
    intro n
    unfold carriesVersion
    congr 1
    funext y
    by_cases e : y = sl
    · subst e
      simp [Slab.atRest]
    · rw [State.setSlab_slab_ne _ _ (Ne.symm e)]
      simp [e]
  have h0 : ∀ e : Stream, x.stream i = e →
      (x.setSlab sl (x.slab sl).atRest).setStream i e = x.setSlab sl (x.slab sl).atRest := by
    rintro e rfl
    unfold State.setStream State.setSlab State.stream
    rw [Table.set_get]
  unfold dropPrevious previousWithout
  rw [State.setSlab_stream_of]
  cases hp : (x.stream i).previous with
  | none =>
    rw [Option.filter_none]
    exact (h0 _ (by rw [← hp])).symm
  | some l =>
    dsimp only
    rw [hc, Option.filter_some]
    split
    · exact (h0 _ (by rw [← hp])).symm
    · rfl

/-- Slabs changed one by one, as one change of the slab records. -/
theorem modSlabs_eq (f : Slab → Slab) : ∀ (l : List SlabId) (s : State),
    l.foldl (fun acc x => acc.modSlab x f) s =
      { s with slabs := l.foldl (fun v x => v.set x (f (v.get x))) s.slabs }
  | [], _ => rfl
  | x :: l, s => by rw [List.foldl_cons, List.foldl_cons, modSlabs_eq f l]; rfl

/-- The completion of an UNBIND, written out; a previous layout dropped before it makes no difference (R19, R20). -/
theorem completeUnbind_eq (i : StreamId) (o : PendingOp) (forced : Bool) (n : Nat) (cut : Option Epoch) (l : Option Layout)
    (y : State) : completeUnbind i o forced n cut (y.setStream i { y.stream i with previous := l }) =
      unbindDone i o forced n cut y := by
  let ring := (y.stream i).ring
  have e : releaseOp o.slot (State.modStream
        { modSlabs Slab.freed ring (y.setStream i { y.stream i with previous := l }) with freeList := y.freeList ++ ring } i
        Stream.unbound) =
      ring.foldl (fun acc x => acc.modSlab x Slab.freed)
        ({ y with
          freeList := y.freeList ++ ring
          management := { y.management with ops := y.management.ops.filter fun x => x.slot != o.slot } }.setStream i
          (y.stream i).unbound) := by
    rw [modSlabs, modSlabs_eq, modSlabs_eq]
    unfold releaseOp State.modManagement State.modStream State.setStream State.stream Stream.unbound
    dsimp only
    rw [Table.get_set_self, Table.set_set]
  have f : completeUnbind i o forced n cut (y.setStream i { y.stream i with previous := l }) =
      let v := lateReply o.port o.discard (unbindReply o forced n) (releaseOp o.slot (State.modStream
        { modSlabs Slab.freed ring (y.setStream i { y.stream i with previous := l }) with freeList := y.freeList ++ ring } i
        Stream.unbound))
      if (forced || cut.isSome) = true then raise (streamNotice .streamStopped i cut n) v else v := by
    have h1 : ∀ g : Slab → Slab, (modSlabs g ring (y.setStream i { y.stream i with previous := l })).freeList =
        y.freeList := fun g => by rw [modSlabs, modSlabs_eq]; rfl
    unfold completeUnbind
    rw [State.setStream_stream]
    dsimp only
    rw [h1]
  rw [f, e]
  have c : (forced || cut.isSome) = true ↔ forced = true ∨ cut ≠ none := by cases forced <;> cases cut <;> simp
  exact if_congr c rfl rfl

/-- A slab becomes EMPTY, and the UNBIND that waits for it and for no other completes (R18, R19, R41, R60). -/
theorem emptySlab_ends {i : StreamId} {sl : SlabId} {x t : State} (h : abortedEnd i sl x t) : emptySlab i sl x = t := by
  have hs : ∀ y, y ≠ sl → (x.setSlab sl (x.slab sl).atRest).slab y = x.slab y := fun y e =>
    State.setSlab_slab_ne _ _ (Ne.symm e) _
  unfold emptySlab
  rw [State.modSlab, dropPrevious_atRest]
  unfold unbindTest
  rw [State.setStream_stream]
  dsimp only
  rcases h with ⟨h, rfl⟩ | ⟨h1, h2, o, forced, n, cut, h3, h4, rfl⟩
  · rw [if_neg]
    rintro ⟨h5, h6⟩
    rcases h with h | ⟨y, h7, h8, h9⟩
    · exact h h5
    · unfold allEmpty at h6
      have := List.all_eq_true.1 h6 y h7
      rw [State.setStream_slab_of, hs y h8] at this
      exact h9 (by simpa using this)
  · rw [if_pos]
    · have h5 : streamOp i ((x.setSlab sl (x.slab sl).atRest).setStream i
          { x.stream i with previous := previousWithout i sl x }) = some o := by
        unfold streamOp at h3 ⊢
        rw [State.setStream_stream]
        exact h3
      rw [h5]
      dsimp only
      rw [h4]
      exact completeUnbind_eq ..
    · refine ⟨h1, List.all_eq_true.2 fun y h7 => ?_⟩
      rw [State.setStream_slab_of]
      by_cases e : y = sl
      · subst e
        simp [Slab.atRest]
      · rw [hs y e]
        simpa using h2 y h7 e

/-- The end of a placement, written out (R83). -/
theorem endPlacement_eq (pl : Placing) (d : Definition) (v : State) :
    endPlacement pl (faultsCounted pl.stream pl.slab d pl.rest v) =
      if pl.aborted then emptySlab pl.stream pl.slab (handedOver pl d v)
      else if isComplete (handedOver pl d v) pl.stream pl.slab then
        sealSlab pl.stream pl.slab .complete (handedOver pl d v)
      else
        match ((handedOver pl d v).slab pl.slab).heldCause with
        | some cause => sealSlab pl.stream pl.slab cause (handedOver pl d v)
        | none => restartFillTimer pl.stream pl.slab (handedOver pl d v) := rfl

/-- The frame length of a stream with a definition (R4). -/
theorem frameLength_eq {s : State} {i : StreamId} {d : Definition} (h : (s.stream i).defn = some d) :
    s.frameLength i = d.frameLength := by
  unfold State.frameLength
  rw [h]
  rfl

/-- A completed UNBIND leaves the Fill Engine as it is. -/
theorem unbindDone_fill (i : StreamId) (o : PendingOp) (forced : Bool) (n : Nat) (cut : Option Epoch) (s : State) :
    (unbindDone i o forced n cut s).fill = s.fill := by
  unfold unbindDone
  dsimp only
  rw [modSlabs_eq]
  have r : ∀ (x : Notice) (y : State), (raise x y).fill = y.fill := fun x y => by
    unfold raise
    split
    · unfold offerRoute
      split <;> simp
    · rfl
  split <;> split <;> simp only [r, pushReply_fill] <;> rfl

/-- The end of a placement that no abort has marked, and the hole fill that follows it (R83, R94). -/
theorem placementEnd_unaborted {pl : Placing} {d : Definition} {v t : State} (hp : pl.aborted = false)
    (hf : (handedOver pl d v).fill = { placing := none, held := none, work := [] })
    (hd : ((handedOver pl d v).stream pl.stream).defn = some d)
    (h : placementEnd pl.stream pl.slab d (handedOver pl d v) t) :
    runWork (endPlacement pl (faultsCounted pl.stream pl.slab d pl.rest v)) = t := by
  have hl : (handedOver pl d v).frameLength pl.stream = d.frameLength := frameLength_eq hd
  have hc : isComplete (handedOver pl d v) pl.stream pl.slab = true ↔
      ((handedOver pl d v).slab pl.slab).coverage = [{ start := 0, stop := d.frameLength }] := by
    unfold isComplete
    rw [hl]
    exact beq_iff_eq
  have hw : (handedOver pl d v).fill.work = [] := by rw [hf]
  rw [endPlacement_eq, hp, if_neg Bool.false_ne_true]
  rcases h with ⟨h1, h2, rfl⟩ | ⟨h1, cause, h4, ⟨h3, h2, rfl⟩ | ⟨h3, h2, ho, w, h5, h6⟩⟩ | ⟨h1, h2, rfl⟩
  · rw [if_pos (hc.2 h1), sealSlab_waiting h2 (Or.inl (by
      unfold holesOf
      rw [hl, h1]
      simp [coveredCount]))]
    exact runWork_nil hw
  · rw [if_neg fun h => h1 (hc.1 h), h4]
    dsimp only
    rw [sealSlab_waiting h2 (Or.inr (by
      unfold holeFillOn
      rw [hd]
      exact h3))]
    exact runWork_nil hw
  · rw [if_neg fun h => h1 (hc.1 h), h4]
    dsimp only
    exact sealSlab_holes hf ho hd h3 h5 h2 h6
  · rw [if_neg fun h => h1 (hc.1 h), h2]
    dsimp only
    unfold restartFillTimer
    rw [hd]
    exact runWork_nil hw

/-- What a placement does, and the seal work that follows it: `places` says it (R81 to R83, R94). -/
theorem placeSamples_eq {pl : Placing} {d : Definition} {w : Walk} {u t : State} (hd : (u.stream pl.stream).defn = some d)
    (hh : u.fill.held = none) (hw : u.fill.work = []) (h : places pl d w u t) :
    runWork (placeSamples pl d w pl.rest pl.next u) = t := by
  rcases h with ⟨v, h1, h2, h3⟩ | ⟨front, b, back, v, h1, h2, h3, rfl⟩
  · obtain ⟨hs, hf, -⟩ := enqueueAll_same h1
    rw [placeSamples_taken h1]
    cases hp : pl.aborted with
    | false =>
      refine placementEnd_unaborted hp ?_ ?_ (h2 hp)
      · unfold handedOver
        dsimp only
        rw [hf, hh, hw]
      · have : (v.stream pl.stream).defn = some d := by
          unfold State.stream
          rw [hs]
          exact hd
        unfold handedOver
        rw [faultsCounted_eq]
        unfold State.stream State.setSlab
        dsimp only
        rw [Table.get_set_self]
        exact this
    | true =>
      rw [endPlacement_eq, hp, if_pos rfl, emptySlab_ends (h3 hp)]
      refine runWork_nil ?_
      have hv : v.fill.work = [] := by rw [hf, hw]
      rcases h3 hp with ⟨-, rfl⟩ | ⟨-, -, _, _, _, _, -, -, rfl⟩
      · exact hv
      · rw [unbindDone_fill]
        exact hv
  · rw [h1, placeSamples_held h2 h3]
    refine runWork_nil ?_
    have hv : v.fill.work = [] := by rw [(enqueueAll_same h2).2.1, hw]
    exact hv

/-- A placement begun or continued does what `places` says (R81 to R83, R94). -/
theorem continuePlacing_eq {pl : Placing} {d : Definition} {w : Walk} {u t : State} (hd : (u.stream pl.stream).defn = some d)
    (hw : writeWalkOf u pl.stream pl.slab = some w) (hh : u.fill.held = none) (h0 : u.fill.work = [])
    (h : places pl d w u t) : runWork (continuePlacing pl u) = t := by
  unfold continuePlacing
  rw [hd, hw]
  exact placeSamples_eq hd hh h0 h

end Sys2Proof.Machine
end

