-- ==== Sys2Proof/Laws/Gangs.lean ====
section
/-! SUPPORT. What the release of a gang's records does, said once (R108 to R110, R114). -/

namespace Sys2Proof.Machine

/-- The slabs of a record's present slots, in the order of their members (R100). -/
theorem present_slabs (r : GangRecord) : r.present.map (·.2) = r.slots.filterMap id := by
  have key : ∀ (l : List (Option SlabId)) (n : Nat),
      ((l.zipIdx n).filterMap fun p => p.1.map fun sl => (p.2, sl)).map (·.2) = l.filterMap id := by
    intro l
    induction l with
    | nil => intro n; rfl
    | cons o l ih =>
      intro n
      cases o with
      | none => simpa using ih (n + 1)
      | some sl => simpa using ih (n + 1)
  exact key _ _

/-- The release of the oldest record, written out (R110). -/
theorem releaseOldest_eq {g : GangId} {r : GangRecord} {rest : List GangRecord} {s : State}
    (h : (s.gang g).records = r :: rest) : releaseOldest g s = recordReleased g r rest s := by
  unfold releaseOldest recordReleased
  rw [h]
  dsimp only
  rw [modSlabs, present_slabs, modSlabs_eq, modSlabs_eq]
  rfl

/-- The gang after a release (R110). -/
theorem recordReleased_gang (g : GangId) (r : GangRecord) (rest : List GangRecord) (s : State) :
    (recordReleased g r rest s).gang g = { s.gang g with released := some r.epoch, records := rest } := by
  have h : ∀ x : State, ∀ n : Notice, (raise n x).gang g = x.gang g := by
    intro x n
    unfold raise
    split
    · unfold offerRoute State.gang
      split <;> simp
    · rfl
  unfold recordReleased
  dsimp only
  rw [modSlabs_eq]
  split
  · unfold State.gang; exact Table.get_set_self ..
  · rw [h]; unfold State.gang; exact Table.get_set_self ..

/-- The records of `l` released one by one, oldest first (R109, R114). -/
theorem releaseMany_eq {g : GangId} {later : List GangRecord} : ∀ {l : List GangRecord} {s : State},
    (s.gang g).records = l ++ later → releaseMany g l.length s = releasedAll g l later s
  | [], _, _ => rfl
  | r :: l, s, h => by
    rw [List.length_cons, releaseMany, releaseOldest_eq h, releasedAll]
    exact releaseMany_eq (congrArg Gang.records (recordReleased_gang ..))

/-- The completion test releases the complete records at the front (R108). -/
theorem completionLoop_eq {g : GangId} {later : List GangRecord} : ∀ {done : List GangRecord} {n : Nat} {s : State},
    (s.gang g).records = done ++ later → completesThrough done later → done.length ≤ n →
    completionLoop g n s = releasedAll g done later s
  | [], 0, _, _, _, _ => rfl
  | [], n + 1, s, h, hc, _ => by
    unfold completionLoop
    rw [h, List.nil_append]
    cases later with
    | nil => rfl
    | cons r l =>
      dsimp only
      rw [if_neg]
      · rfl
      · unfold GangRecord.complete
        rw [hc.2 r rfl]
        exact Bool.false_ne_true
  | r :: done, 0, _, _, _, hn => absurd hn (by simp)
  | r :: done, n + 1, s, h, hc, hn => by
    unfold completionLoop
    rw [h, List.cons_append]
    dsimp only
    have hr : r.complete = true := hc.1 r (by simp)
    rw [if_pos hr, releaseOldest_eq h, releasedAll]
    exact completionLoop_eq (congrArg Gang.records (recordReleased_gang ..)) ⟨fun x hx => hc.1 x (by simp [hx]), hc.2⟩
      (by simpa using hn)

/-- The completion test, written out (R108). -/
theorem completionTest_eq {g : GangId} {done later : List GangRecord} {s : State}
    (h : (s.gang g).records = done ++ later) (hc : completesThrough done later) :
    completionTest g s = releasedAll g done later s :=
  completionLoop_eq h hc (by rw [h]; simp)

end Sys2Proof.Machine
end

