-- ==== Sys2Proof/Laws/Layouts.lean ====
section
/-! SUPPORT. The results of the queries are the layouts of R187 written out, and the lengths of those layouts. -/

namespace Sys2Proof.Machine

/-! ### Fields -/

theorem beBytes_two (n : Nat) : beBytes 2 n = bytes2 n := by simp [beBytes, bytes2]

theorem beBytes_four (n : Nat) : beBytes 4 n = bytes4 n := by simp [beBytes, bytes4]

theorem valueBytes_four (v : Int) : valueBytes 32 v = bytes4 (v % 4294967296).toNat := beBytes_four _

theorem optBytes_one (o : Option Nat) : optBytes 1 o = withPresence 1 (o.map fun n => [BitVec.ofNat 8 n]) := by
  cases o <;> simp [optBytes, withPresence, beBytes]

theorem optBytes_two (o : Option Nat) : optBytes 2 o = withPresence 2 (o.map bytes2) := by
  cases o <;> simp [optBytes, withPresence, beBytes_two] <;> rfl

theorem optBytes_four (o : Option Nat) : optBytes 4 o = withPresence 4 (o.map bytes4) := by
  cases o <;> simp [optBytes, withPresence, beBytes_four] <;> rfl

@[simp] theorem bytes2_length (n : Nat) : (bytes2 n).length = 2 := rfl

@[simp] theorem bytes4_length (n : Nat) : (bytes4 n).length = 4 := rfl

theorem withPresence_length {n : Nat} {o : Option (List Byte)} (h : ∀ b, o = some b → b.length = n) :
    (withPresence n o).length = n + 1 := by
  cases o with
  | none => simp [withPresence]
  | some b => simp [withPresence, h b rfl]

/-! ### Definitions and walks -/

theorem definitionBytes_eq (d : Definition) : definitionBytes d = definitionLayout d := by
  unfold definitionBytes definitionLayout
  rw [beBytes_four, beBytes_two, beBytes_two, valueBytes_four]
  cases d.inSign <;> cases d.outSign <;> cases d.storePolicy <;> cases d.placement <;> cases d.overflow <;>
    cases d.holeFill <;> rfl

theorem definitionLayout_length (d : Definition) : (definitionLayout d).length = 24 := rfl

theorem walkBytes_eq (w : Walk) : walkBytes w = walkLayout w := by
  unfold walkBytes walkLayout
  simp only [beBytes_two, beBytes_four, valueBytes_four]
  cases w.mode <;> rfl

theorem walkLayout_length (w : Walk) : (walkLayout w).length = 8 + 8 * w.levels.length := by
  have h : ∀ l : List Level,
      (l.flatMap fun l => bytes4 l.count ++ bytes4 (l.stride % 4294967296).toNat).length = 8 * l.length := by
    intro l
    induction l with
    | nil => rfl
    | cons a l ih => simp only [List.flatMap_cons, List.length_append, ih, List.length_cons, bytes4_length]; omega
  unfold walkLayout
  simp only [List.length_append, h, bytes2_length, bytes4_length, List.length_cons, List.length_nil]

/-! ### QUERY STREAM -/

/-- The results for a stream that is not EMPTY (R182). -/
theorem queryStreamResults_eq {s : State} {i : StreamId} {d : Definition} {cur : Layout}
    (hd : (s.stream i).defn = some d) (hc : (s.stream i).current = some cur) :
    queryStreamResults s i = streamLayout (s.stream i) d cur (streamOp i s) := by
  have h1 : ∀ o : Option Epoch, epochBytes o = withPresence 2 (o.map fun f => bytes2 f.toNat) := fun o => by
    cases o <;> simp [epochBytes, optBytes_two]
  have h2 : ∀ o : Option Walk, yesNo o.isSome = if o = none then 0 else 1 := fun o => by cases o <;> rfl
  have h3 : ((streamOp i s).map fun o => o.kind.code.toNat).map (fun n => [BitVec.ofNat 8 n]) =
      (streamOp i s).map fun x => [pendingByte x.kind] := by
    cases streamOp i s with
    | none => rfl
    | some o => cases h : o.kind <;> simp [h, pendingByte, RequestKind.code]
  unfold queryStreamResults streamLayout
  dsimp only
  rw [hd, hc]
  dsimp only
  unfold layoutBytes ringBytes
  rw [definitionBytes_eq, walkBytes_eq, walkBytes_eq, h1, h1, h2, h2, optBytes_one, optBytes_one, optBytes_one, h3]
  cases (s.stream i).state <;> simp [StreamState.code, Option.map_map, Function.comp_def]

/-! ### QUERY SLABS -/

theorem slabReport_eq (s : State) (sl : SlabId) : slabReport s sl = slabLayout sl (s.slab sl) := by
  have h1 : ∀ o : Option Epoch, epochBytes o = withPresence 2 (o.map fun f => bytes2 f.toNat) := fun o => by
    cases o <;> simp [epochBytes, optBytes_two]
  have h2 : ∀ o : Option SealCause, yesNo o.isSome = if o = none then 0 else 1 := fun o => by cases o <;> rfl
  have h3 : ∀ o : Timer, yesNo o.isSome = if o = none then 0 else 1 := fun o => by cases o <;> rfl
  have h4 : ∀ o : Option SealCause, optBytes 1 (o.map fun c => c.code.toNat) = withPresence 1 (o.map fun c => [causeByte c]) :=
    fun o => by
      rw [optBytes_one]
      cases o with
      | none => rfl
      | some c => cases c <;> rfl
  have h5 : holderBytes (s.slab sl) = holderLayout (s.slab sl) := by
    unfold holderBytes holderLayout
    cases (s.slab sl).holder with
    | none => rfl
    | some h => cases h <;> simp [beBytes_two]
  have h6 : slabFlags (s.slab sl) = (if (s.slab sl).incomplete = true then 1 else 0) +
      (if (s.slab sl).faulted = true then 2 else 0) + (if (s.slab sl).suspect = true then 4 else 0) := by
    unfold slabFlags
    cases (s.slab sl).incomplete <;> cases (s.slab sl).faulted <;> cases (s.slab sl).suspect <;> rfl
  have h7 : rangeBytes = fun c : IndexRange => bytes2 c.start ++ bytes2 (c.stop - 1) := by
    funext c
    simp [rangeBytes, beBytes_two]
  unfold slabReport slabLayout
  dsimp only
  rw [beBytes_two, h1, h2, h3, h4, h4, h5, h6, h7, optBytes_one, optBytes_four]
  cases (s.slab sl).state <;> cases (s.slab sl).placing <;>
    simp [SlabState.code, Option.map_map, Function.comp_def, yesNo]

theorem slabLayout_length (sl : SlabId) (v : Slab) : (slabLayout sl v).length = 27 + 4 * v.coverage.length := by
  have h : ∀ l : List IndexRange, (l.flatMap fun c => bytes2 c.start ++ bytes2 (c.stop - 1)).length = 4 * l.length := by
    intro l
    induction l with
    | nil => rfl
    | cons a l ih => simp only [List.flatMap_cons, List.length_append, ih, List.length_cons, bytes2_length]; omega
  have h2 : (holderLayout v).length = 4 := by
    unfold holderLayout
    cases v.holder with
    | none => rfl
    | some h => cases h <;> rfl
  unfold slabLayout
  simp only [List.length_append, h, h2]
  rw [withPresence_length (n := 2), withPresence_length (n := 1), withPresence_length (n := 1), withPresence_length (n := 4),
    withPresence_length (n := 1)]
  · simp only [bytes2_length, List.length_cons, List.length_nil]
    omega
  all_goals
    intro b hb
    obtain ⟨x, -, rfl⟩ := Option.map_eq_some_iff.1 hb
    rfl

/-- The first reports that fit whole: as many as stay within the room, and no more would (R183). -/
theorem reportsWithin_eq : ∀ {l : List (List Byte)} {room k : Nat}, k ≤ l.length → (l.take k).flatten.length ≤ room →
    (k < l.length → room < (l.take (k + 1)).flatten.length) → reportsWithin room l = l.take k
  | [], room, k, _, _, _ => by simp [reportsWithin]
  | x :: xs, room, 0, _, _, h => by
    have := h (by simp)
    rw [reportsWithin, if_neg (by simpa using this)]
    rfl
  | x :: xs, room, k + 1, hk, h1, h2 => by
    rw [List.take_succ_cons, List.flatten_cons, List.length_append] at h1
    rw [reportsWithin, if_pos (by omega), List.take_succ_cons]
    rw [reportsWithin_eq (k := k) (by simpa using hk) (by omega) fun hlt => ?_]
    have := h2 (by simpa using hlt)
    rw [List.take_succ_cons, List.flatten_cons, List.length_append] at this
    omega

/-! ### QUERY GANG -/

theorem recordReport_eq (now : Nat) (r : GangRecord) : recordReport now r = recordLayout now r := by
  have h1 : ∀ l : List (Option SlabId × Nat), presentMask (l.filterMap fun p => p.1.map fun sl => (p.2, sl)) =
      (l.map fun p => if p.1 = none then 0 else 2 ^ p.2).sum := by
    intro l
    induction l with
    | nil => rfl
    | cons a l ih =>
      unfold presentMask at ih ⊢
      obtain ⟨o, k⟩ := a
      cases o <;> simp [ih]
  have h2 : (fun o : Option SlabId => optBytes 2 (o.map (·.val))) = fun o => withPresence 2 (o.map fun sl => bytes2 sl.val) := by
    funext o
    cases o <;> simp [optBytes_two]
  have h3 : remaining now r.timer = (r.timer.map fun d => d - now).getD 0 := by
    cases r.timer <;> simp [remaining]
  unfold recordReport recordLayout GangRecord.present
  rw [h1, h2, h3, beBytes_two, beBytes_two]

theorem recordLayout_length (now : Nat) (r : GangRecord) : (recordLayout now r).length = 5 + 3 * r.slots.length := by
  have h : ∀ l : List (Option SlabId),
      (l.flatMap fun o => withPresence 2 (o.map fun sl => bytes2 sl.val)).length = 3 * l.length := by
    intro l
    induction l with
    | nil => rfl
    | cons a l ih =>
      rw [List.flatMap_cons, List.length_append, ih, withPresence_length (n := 2)]
      · simp only [List.length_cons]
        omega
      · intro b hb
        obtain ⟨x, -, rfl⟩ := Option.map_eq_some_iff.1 hb
        rfl
  unfold recordLayout
  simp only [List.length_append, h, bytes2_length, List.length_cons, List.length_nil]
  omega

/-- The results for a FORMED gang (R115). -/
theorem queryGangResults_eq {s : State} {g : GangId} (h : (s.gang g).state = .formed) :
    queryGangResults s g = gangLayout s.now (s.gang g) := by
  have h1 : ∀ o : Option Epoch, epochBytes o = withPresence 2 (o.map fun f => bytes2 f.toNat) := fun o => by
    cases o <;> simp [epochBytes, optBytes_two]
  have h2 : recordReport s.now = recordLayout s.now := funext (recordReport_eq s.now)
  unfold queryGangResults gangLayout
  dsimp only
  rw [h]
  dsimp only
  rw [h1, h2, beBytes_two]
  simp [GangState.code]

end Sys2Proof.Machine
end

