-- ==== Sys2Proof/Laws/Memory.lean ====
section
/-! SUPPORT. Frame memory: every operation keeps the canonical form, and what each leaves readable. -/

namespace Sys2Proof.Machine.Memory

/-! ### The canonical form -/

theorem wf_nil : wf [] := ⟨List.Pairwise.nil, fun _ h => absurd h List.not_mem_nil⟩

theorem wf_filter {m : List Host.Cell} (h : wf m) (f : Host.Cell → Bool) : wf (m.filter f) :=
  ⟨h.1.filter f, fun c hc => h.2 c (List.mem_filter.1 hc).1⟩

theorem wf_erase {m : List Host.Cell} (h : wf m) (a : Nat) : wf (erase m a) := wf_filter h _

theorem wf_zeroLine {m : List Host.Cell} (h : wf m) (line : Nat) : wf (zeroLine m line) := wf_filter h _

theorem mem_insert {c : Host.Cell} {a : Nat} {b : Byte} : ∀ {m : List Host.Cell}, c ∈ insert m a b → c = (a, b) ∨ c ∈ m
  | [], h => by simpa [insert] using h
  | d :: m, h => by
    unfold insert at h
    split at h
    · simpa using h
    split at h
    · rcases List.mem_cons.1 h with h | h
      · exact Or.inl h
      · exact Or.inr (List.mem_cons_of_mem _ h)
    · rcases List.mem_cons.1 h with h | h
      · exact Or.inr (h ▸ List.mem_cons_self)
      · exact (mem_insert h).imp id (List.mem_cons_of_mem _)

theorem pairwise_insert {a : Nat} {b : Byte} : ∀ {m : List Host.Cell}, m.Pairwise (fun c d => c.1 < d.1) →
    (insert m a b).Pairwise (fun c d => c.1 < d.1)
  | [], _ => by simp [insert]
  | d :: m, h => by
    obtain ⟨h1, h2⟩ := List.pairwise_cons.1 h
    unfold insert
    split
    · rename_i hd
      refine List.pairwise_cons.2 ⟨fun c hc => ?_, h⟩
      rcases List.mem_cons.1 hc with hc | hc
      · exact hc ▸ hd
      · exact lt_trans hd (h1 c hc)
    split
    · rename_i hd
      exact List.pairwise_cons.2 ⟨fun c hc => by simpa [hd] using h1 c hc, h2⟩
    · rename_i h3 h4
      refine List.pairwise_cons.2 ⟨fun c hc => ?_, pairwise_insert h2⟩
      rcases mem_insert hc with hc | hc
      · subst hc; simp; omega
      · exact h1 c hc

theorem wf_write {m : List Host.Cell} (h : wf m) (a : Nat) (b : Byte) : wf (write m a b) := by
  unfold write
  split
  · exact wf_erase h a
  · rename_i hb
    refine ⟨pairwise_insert h.1, fun c hc => ?_⟩
    rcases mem_insert hc with hc | hc
    · exact hc ▸ hb
    · exact h.2 c hc

theorem wf_fold {α : Type} {f : List Host.Cell → α → List Host.Cell} (hf : ∀ m k, wf m → wf (f m k)) :
    ∀ (l : List α) {m}, wf m → wf (l.foldl f m)
  | [], _, h => h
  | k :: l, _, h => wf_fold hf l (hf _ k h)

theorem wf_writeLine {m : List Host.Cell} (h : wf m) (line : Nat) (image : Table 64 (Option Byte)) :
    wf (writeLine m line image) := by
  refine wf_fold (fun m k hm => ?_) _ h
  split
  · exact wf_write hm _ _
  · exact hm

/-! ### Reading -/

theorem read_cons (c : Host.Cell) (m : List Host.Cell) (x : Nat) :
    read (c :: m) x = if c.1 = x then c.2 else read m x := by
  by_cases h : c.1 = x <;> simp [read, h]

theorem read_filter (f : Nat → Bool) (a : Nat) : ∀ m : List Host.Cell,
    read (m.filter fun c => f c.1) a = if f a then read m a else unlisted
  | [] => by simp [read]
  | c :: m => by
    rw [List.filter_cons, read_cons]
    by_cases hc : c.1 = a
    · subst hc
      by_cases hf : f c.1 = true
      · simp [hf, read_cons]
      · simp [hf, read_filter f c.1 m]
    · by_cases hf : f c.1 = true
      · simp [hf, hc, read_cons, read_filter f a m]
      · simp [hf, hc, read_filter f a m]

theorem read_erase (m : List Host.Cell) (a x : Nat) : read (erase m a) x = if x = a then unlisted else read m x := by
  rw [erase, read_filter (fun n => n != a) x]
  by_cases h : x = a <;> simp [h]

theorem read_zeroLine (m : List Host.Cell) (line x : Nat) :
    read (zeroLine m line) x = if x / Config.lineBytes = line then unlisted else read m x := by
  rw [zeroLine, read_filter (fun n => n / Config.lineBytes != line) x]
  by_cases h : x / Config.lineBytes = line <;> simp [h]

theorem read_insert (a : Nat) (b : Byte) (x : Nat) : ∀ m : List Host.Cell,
    read (insert m a b) x = if x = a then b else read m x
  | [] => by
    rw [insert, read_cons]
    by_cases h : x = a <;> simp [h, Ne.symm]
  | c :: m => by
    unfold insert
    split
    · rw [read_cons]
      by_cases h : x = a <;> simp [h, Ne.symm]
    split
    · rename_i hc
      rw [read_cons, read_cons, ← hc]
      by_cases h : x = a
      · simp [h]
      · have : a ≠ x := fun e => h e.symm
        simp [h, this]
    · rename_i h1 h2
      rw [read_cons, read_cons, read_insert a b x m]
      by_cases h : x = a
      · subst h
        have : c.1 ≠ x := fun e => h2 e.symm
        simp [this]
      · simp [h]

/-- What reading one byte after writing one gives. -/
theorem read_write (m : List Host.Cell) (a x : Nat) (b : Byte) :
    read (write m a b) x = if x = a then b else read m x := by
  unfold write
  split
  · rename_i hb
    rw [read_erase, hb]
  · exact read_insert a b x m

end Sys2Proof.Machine.Memory
end

