-- ==== Sys2Proof/Laws/Rings.lean ====
section
/-! SUPPORT. What a seal cause does to a whole ring, and what the seal-work list does with all its items, said once (R85,
R89, R94). -/

namespace Sys2Proof.Machine

/-! ### One slab of the ring -/

/-- Hole fill ON, as the statements say it. -/
theorem holeFillOn_eq (s : State) (i : StreamId) : holeFillOn s i = (s.stream i).defn.any fun d => d.holeFill := by
  unfold holeFillOn
  cases (s.stream i).defn <;> rfl

theorem sealedFull_same (i : StreamId) (sl : SlabId) (cause : SealCause) (s : State) :
    (∀ y, y ≠ sl → (sealedFull i sl cause s).slab y = s.slab y) ∧
      (sealedFull i sl cause s).stream i = (sealedWaiting i sl cause s).stream i ∧
      (sealedFull i sl cause s).management = s.management ∧ (sealedFull i sl cause s).fill = s.fill := by
  unfold sealedFull
  dsimp only
  obtain ⟨c1, c2, -, c4, c5⟩ := conversionRaised_same i (s.slab sl) sl
    { (sealedWaiting i sl cause s).setSlab sl { (sealedWaiting i sl cause s).slab sl with
        state := .full, holder := some .singleEntry } with drainQueue := s.drainQueue ++ [.single sl] }
  exact ⟨fun y hy => (congrArg (fun t => Table.get t y) c2).trans
      ((State.setSlab_slab_ne _ _ (Ne.symm hy) _).trans (sealedWaiting_slab hy)),
    congrArg (fun t => Table.get t i) c1, c5, c4⟩

/-- A seal cause that reaches one slab leaves the other slabs, what decides on their seals, and the pending operations. -/
theorem sealReaches_same (i : StreamId) (cause : SealCause) (s acc : State) (x : SlabId) :
    (∀ y, y ≠ x → (sealReaches i cause s acc x).slab y = acc.slab y) ∧
      ((sealReaches i cause s acc x).stream i).defn = (acc.stream i).defn ∧
      ((sealReaches i cause s acc x).stream i).gang = (acc.stream i).gang ∧
      ((sealReaches i cause s acc x).stream i).pendingOp = (acc.stream i).pendingOp ∧
      (sealReaches i cause s acc x).management = acc.management ∧
      ∀ y, y ≠ x → hasItem (sealReaches i cause s acc x) y = hasItem acc y := by
  have e := sealedWaiting_stream i x cause acc
  have e1 : ((sealedWaiting i x cause acc).stream i).defn = (acc.stream i).defn := by rw [e]; rfl
  have e2 : ((sealedWaiting i x cause acc).stream i).gang = (acc.stream i).gang := by rw [e]; rfl
  have e3 : ((sealedWaiting i x cause acc).stream i).pendingOp = (acc.stream i).pendingOp := by rw [e]; rfl
  unfold sealReaches
  split
  · exact ⟨fun y hy => State.setSlab_slab_ne _ _ (Ne.symm hy) _, rfl, rfl, rfl, rfl, fun _ _ => rfl⟩
  split
  · refine ⟨fun y hy => sealedWaiting_slab hy, e1, e2, e3, rfl, fun y hy => ?_⟩
    unfold hasItem
    simp [Ne.symm hy]
  split
  · obtain ⟨h1, h2, h3, h4⟩ := sealedFull_same i x cause acc
    rw [h2]
    refine ⟨h1, e1, e2, e3, h3, fun y _ => ?_⟩
    unfold hasItem
    rw [h4]
  · exact ⟨fun y hy => sealedWaiting_slab hy, e1, e2, e3, rfl, fun _ _ => rfl⟩

/-- A seal cause that reaches a FILLING slab does what `sealReaches` says (R85, R89). -/
theorem reachSlab_eq {i : StreamId} {cause : SealCause} {s acc : State} {x : SlabId} (hx : acc.slab x = s.slab x)
    (hf : (s.slab x).state = .filling) (hd : (acc.stream i).defn = (s.stream i).defn) (hi : hasItem acc x = false)
    (h : staysOpen i x s ∨ ((acc.stream i).gang = none ∧ noFlush i acc)) :
    reachSlab i cause x acc = sealReaches i cause s acc x := by
  have hh : holesOf i x acc = holesOf i x s := by
    unfold holesOf State.frameLength
    rw [hx, hd]
  have ho : holeFillOn acc i = (s.stream i).defn.any fun d => d.holeFill := by rw [holeFillOn_eq, hd]
  unfold reachSlab sealReaches
  rw [if_pos (by rw [hx]; exact hf), hx]
  by_cases hp : (s.slab x).placing = true
  · rw [if_pos hp, if_pos hp, State.modSlab, hx]
  rw [if_neg hp, if_neg hp]
  by_cases h0 : 0 < holesOf i x s ∧ ((s.stream i).defn.any fun d => d.holeFill) = true
  · rw [if_pos h0, sealSlab_eq, if_pos, testFull, if_neg]
    · rintro ⟨-, h2, -⟩
      simp [hasItem] at h2
    · refine ⟨hh ▸ h0.1, ?_⟩
      unfold holeFillOn
      rw [sealedWaiting_stream]
      exact ho.trans h0.2
  rw [if_neg h0]
  have hn : holesOf i x acc = 0 ∨ holeFillOn acc i = false := by
    rw [hh, ho]
    by_cases hz : holesOf i x s = 0
    · exact Or.inl hz
    · exact Or.inr (by simpa using fun he => h0 ⟨Nat.pos_of_ne_zero hz, he⟩)
  by_cases hz : (s.slab x).outstanding = 0
  · rw [if_pos hz]
    have hc : (acc.stream i).gang = none ∧ noFlush i acc := by
      rcases h with (h | h | h) | h
      · exact absurd h hp
      · exact absurd h h0
      · omega
      · exact h
    exact sealSlab_becomesFull (by rw [hx]; exact hz) hn hi hc.1 hc.2
  · rw [if_neg hz]
    exact sealSlab_waiting (by rw [hx]; omega) hn

/-! ### The ring -/

theorem reachSlabs_eq {i : StreamId} {cause : SealCause} {s : State} : ∀ (l : List SlabId) (acc : State), l.Nodup →
    (∀ x ∈ l, acc.slab x = s.slab x) → (acc.stream i).defn = (s.stream i).defn →
    (∀ x ∈ l, (s.slab x).state = .filling → hasItem acc x = false) →
    ((∀ x ∈ l, (s.slab x).state = .filling → staysOpen i x s) ∨ ((acc.stream i).gang = none ∧ noFlush i acc)) →
    l.foldl (fun acc x => reachSlab i cause x acc) acc =
      (l.filter fun x => (s.slab x).state == .filling).foldl (sealReaches i cause s) acc
  | [], _, _, _, _, _, _ => rfl
  | x :: l, acc, hn, hx, hd, hi, h => by
    rw [List.nodup_cons] at hn
    rw [List.foldl_cons]
    by_cases hf : (s.slab x).state = .filling
    · rw [List.filter_cons_of_pos (by simpa using hf), List.foldl_cons]
      have hx0 := hx x (by simp)
      rw [reachSlab_eq hx0 hf hd (hi x (by simp) hf) (h.imp (fun h => h x (by simp) hf) id)]
      obtain ⟨a1, a2, a3, a4, a5, a6⟩ := sealReaches_same i cause s acc x
      have ne : ∀ y ∈ l, y ≠ x := fun y hy e => hn.1 (e ▸ hy)
      refine reachSlabs_eq l _ hn.2 (fun y hy => (a1 y (ne y hy)).trans (hx y (by simp [hy]))) (a2.trans hd)
        (fun y hy hyf => (a6 y (ne y hy)).trans (hi y (by simp [hy]) hyf)) ?_
      exact h.imp (fun h y hy => h y (by simp [hy])) fun h => ⟨a3.trans h.1, noFlush_congr h.2 a4 a5⟩
    · rw [List.filter_cons_of_neg (by simpa using hf)]
      have : reachSlab i cause x acc = acc := by
        unfold reachSlab
        rw [if_neg (by rw [hx x (by simp)]; exact hf)]
      rw [this]
      exact reachSlabs_eq l acc hn.2 (fun y hy => hx y (by simp [hy])) hd (fun y hy => hi y (by simp [hy]))
        (h.imp (fun h y hy => h y (by simp [hy])) id)

/-- A seal cause that reaches the ring of a stream, from a state `u` with the slabs, the definition and the Fill Engine of
`s`, does what `ringReached` says: no FILLING slab becomes FULL, or the stream is in no gang and no FLUSH is pending on it
(R13, R16, R85, R89). -/
theorem reachRing_eq {i : StreamId} {cause : SealCause} {s u : State} (hr : (u.stream i).ring = (s.stream i).ring)
    (hn : (s.stream i).ring.Nodup) (hs : u.slabs = s.slabs) (hd : (u.stream i).defn = (s.stream i).defn)
    (hf : u.fill = s.fill) (hi : itemsSealed s)
    (h : (∀ x ∈ (s.stream i).ring, (s.slab x).state = .filling → staysOpen i x s) ∨
      ((u.stream i).gang = none ∧ noFlush i u)) : reachRing i cause u = ringReached i cause s u := by
  unfold reachRing ringReached
  rw [hr]
  refine reachSlabs_eq _ u hn (fun x _ => by unfold State.slab; rw [hs]) hd (fun x _ hx => ?_) h
  unfold hasItem
  rw [hf, List.any_eq_false]
  intro it hit e
  rw [beq_iff_eq] at e
  exact hi it hit (e ▸ hx)

/-- A seal cause leaves the ring (R12). -/
theorem ringReached_ring (i : StreamId) (cause : SealCause) (s u : State) :
    ((ringReached i cause s u).stream i).ring = (u.stream i).ring := by
  have one : ∀ (acc : State) (x : SlabId), ((sealReaches i cause s acc x).stream i).ring = (acc.stream i).ring := by
    intro acc x
    have e : ((sealedWaiting i x cause acc).stream i).ring = (acc.stream i).ring := by
      rw [sealedWaiting_stream]
      rfl
    unfold sealReaches
    split
    · rfl
    split
    · exact e
    split
    · rw [(sealedFull_same i x cause acc).2.1, e]
    · exact e
  unfold ringReached
  generalize (s.stream i).ring.filter _ = l
  induction l generalizing u with
  | nil => rfl
  | cons x l ih => exact (ih (sealReaches i cause s u x)).trans (one u x)

/-- A seal cause makes no slab EMPTY (R85). -/
theorem ringReached_notEmpty {i : StreamId} {cause : SealCause} {s : State} (y : SlabId) {u : State}
    (h : (u.slab y).state ≠ .empty) : ((ringReached i cause s u).slab y).state ≠ .empty := by
  have one : ∀ (acc : State) (x : SlabId), (s.slab x).state = .filling → (acc.slab y).state ≠ .empty →
      ((sealReaches i cause s acc x).slab y).state ≠ .empty := by
    intro acc x hx hy
    by_cases e : y = x
    · subst e
      have w : ((sealedWaiting i y cause acc).slab y).state = .sealing := by
        unfold sealedWaiting
        rw [State.setStream_slab_of, State.setSlab_slab]
        rfl
      unfold sealReaches
      split
      · rw [State.setSlab_slab]
        exact fun e => by simp [hx] at e
      split
      · exact fun e => by
          have := w.symm.trans e
          cases this
      split
      · have f : ((sealedFull i y cause acc).slab y).state = .full := by
          unfold sealedFull
          dsimp only
          obtain ⟨-, c2, -⟩ := conversionRaised_same i (acc.slab y) y
            { (sealedWaiting i y cause acc).setSlab y { (sealedWaiting i y cause acc).slab y with
                state := .full, holder := some .singleEntry } with drainQueue := acc.drainQueue ++ [.single y] }
          exact congrArg Slab.state ((congrArg (fun t => Table.get t y) c2).trans (State.setSlab_slab ..))
        rw [f]
        decide
      · rw [w]
        decide
    · rw [(sealReaches_same i cause s acc x).1 y e]
      exact hy
  have all : ∀ (l : List SlabId) (acc : State), (∀ x ∈ l, (s.slab x).state = .filling) → (acc.slab y).state ≠ .empty →
      ((l.foldl (sealReaches i cause s) acc).slab y).state ≠ .empty := by
    intro l
    induction l with
    | nil => exact fun _ _ h => h
    | cons x l ih =>
      intro acc hl hy
      exact ih _ (fun z hz => hl z (by simp [hz])) (one acc x (hl x (by simp)) hy)
  exact all _ u (fun x hx => by simpa using (List.mem_filter.1 hx).2) h

/-! ### The seal-work list -/

/-- The items of the seal-work list come to what `itemsDone` says (R94, R95). -/
theorem runItems_eq : ∀ {l : List HoleItem} {u t : State}, itemsDone l u t → runItems l u = t
  | [], _, _, h => h.symm
  | it :: rest, u, t, h => by
    obtain ⟨i, d, w, ho, hd, hw, h⟩ := h
    have p : performItem it u = fillHoles i it.slab d w (d.frameLength + 1) it.next u := by
      unfold performItem
      rw [ho]
      dsimp only
      rw [hd, hw]
    rw [runItems, p]
    rcases h with ⟨l, v, h1, h2, h3, h4⟩ | ⟨front, j, back, v, h1, h2, h3, rfl⟩
    · have hl := holesAre_length h1
      rw [fillHoles_taken h1 (by omega) h2]
      dsimp only
      rw [testFullOwned_waiting (by exact h3)]
      exact runItems_eq h4
    · have hl := holesAre_length h1
      rw [List.length_append, List.length_cons] at hl
      rw [fillHoles_held h1 (by omega) h2 h3]
      rfl

/-- The Fill Engine does with its seal-work list what `workDone` says (R63, R94). -/
theorem runWork_eq {v t : State} (h : workDone v t) : runWork v = t := by
  unfold workDone at h
  unfold runWork fillFree
  by_cases hf : v.fill.placing = none ∧ v.fill.held = none
  · rw [if_pos hf] at h
    rw [if_pos (by simp [hf]), runItems_eq h]
  · rw [if_neg hf] at h
    rw [if_neg (by simpa using hf), h]

end Sys2Proof.Machine
end

