-- ==== Sys2Proof/Tests/Slice0.lean ====
section
/-! SUPPORT. The model's own tests: the checks of WellFormed refuse, examples of the spec come out as it says, and for
every statement with hypotheses there is a state that meets them (`test_<statement>_applies`). -/

namespace Sys2Proof.Tests

set_option Elab.async false

open Sys2Proof Sys2Proof.Machine

/-! ### Small states -/

/-- The next state of an outcome. -/
def nextOf : Host.Outcome State Fault Refusal → Option State
  | .next s => some s
  | .fault _ => none
  | .refused _ => none

/-- The state a command leaves. -/
def after (c : Instr) (s : State) : State := (nextOf (exec c s)).getD s

/-- The controller RUNNING, both ports UP, every credit advertised. -/
def ready : State :=
  { State.reset with
    controller := { Controller.start with state := .running, progress := 1048576 }
    portA := { PortState.blank with link := .up, advertisedData := 24, advertisedControl := 8 }
    portB := { PortState.blank with link := .up, advertisedControl := 8 } }

/-- Port A holds the claim. -/
def claimed (s : State) : State :=
  { s with management := { s.management with holder := some .a, lease := some 1000, leaseTimer := some 1000000 } }

/-- A frame of 8 signed 16-bit samples, stored and sent as they are. -/
def frame : Definition :=
  { frameLength := 8, inWidth := 16, inSign := .signed, inShift := 0, storeWidth := 16, storePolicy := .saturate,
    fillValue := 0, outWidth := 16, outSign := .signed, placement := .low, outputId := 9, segmentSize := 64,
    ringSize := 2, overflow := .dropNew, fillTimeout := 100, holeFill := false }

/-- Stream 3 DEFINED. -/
def defined : State :=
  ready.setStream 3 { Stream.blank with state := .defined, defn := some frame, current := some (identityLayout 8) }

/-- Stream 3 ACTIVE with the EMPTY slabs 0 and 1. -/
def active : State :=
  (({ defined with freeList := defined.freeList.drop 2 }.setStream 3
    { defined.stream 3 with state := .active, ring := [0, 1], ringPointer := some 1 }).setSlab 0
    { Slab.blank with state := .empty }).setSlab 1 { Slab.blank with state := .empty }

/-- Slab 0 FILLING for epoch 5, its first sample placed and its write outstanding. -/
def filling : State :=
  (active.setStream 3 { active.stream 3 with ringPointer := some 0 }).setSlab 0
    { Slab.blank with state := .filling, epoch := some 5, version := some 0
                      coverage := [{ start := 0, stop := 1 }], outstanding := 1, fillTimer := some 100 }

/-- A segment of epoch 5 for stream 3. -/
def inbound (kind : SegKind) (stream : Byte) (first : BitVec 16) (payload : List Byte) : Segment :=
  { kind := kind, flags := 0, stream := stream, epoch := 5, first := first, tag := 0, payload := payload }

/-- One sample, for index 1. -/
def sample : Segment := inbound .data 3 1 [0x12, 0x34]

/-- A segment in the only slot in use of Port A. -/
def holding (seg : Segment) (s : State) : State := { s with portA := { s.portA with slots := [seg] } }

/-- A CONTROL segment. -/
def control (payload : List Byte) : Segment :=
  { kind := .control, flags := 0, stream := 0, epoch := 0, first := 0, tag := 7, payload := payload }

/-- A request that waits on Port A, the claim held there. -/
def asking (payload : List Byte) (s : State) : State := holding (control payload) (claimed s)

/-- The request the Management Unit then takes. -/
def request (payload : List Byte) : Request := { port := .a, tag := 7, payload := payload }

/-- A write-queue entry for line 0. -/
def entry (granted : Bool) : WriteEntry :=
  { number := 0, line := 0, image := (Table.replicate 64 none).set 0 (some 1), slab := some 0, granted := granted }

/-- The write of one byte. -/
def write (addr : Nat) : Write := { addr := addr, bytes := [1], slab := none }

/-- The write queue holds these entries. -/
def queued (q : List WriteEntry) (s : State) : State := { s with controller := { s.controller with queue := q } }

/-- 32 entries that no write to line 1 merges into. -/
def fullQueue : List WriteEntry := List.replicate 32 (entry false)

/-- A DRAINING slab 0 of stream 3 in channel 1, at its output index. -/
def draining (ch : Channel) : State :=
  (filling.setSlab 0 { filling.slab 0 with state := .draining, holder := some (.channel 1), fillTimer := none }).setChannel 1
    { ch with entry := some (.single 0), current := some 0 }

/-- A drain read of byte 0, granted or not. -/
def drainRead (data : Option (List Byte)) : DrainRead := { addr := 0, size := 2, hold := none, data := data }

/-- A management read of byte 0. -/
def mgmtRead (owner : ReadOwner) (data : Option (List Byte)) : MgmtRead :=
  { addr := 0, size := 1, owner := owner, data := data }

/-- An entry of the pending-operation table. -/
def op (kind : RequestKind) (detail : OpDetail) : PendingOp :=
  { slot := 0, port := .a, tag := 7, kind := kind, stream := some 3, discard := false, deadline := some 500
    detail := detail }

/-- Stream 3 STOPPING with an UNBIND pending. -/
def stopping : State :=
  (addOp (op .unbind (.unbind false 0 none)) filling).setStream 3
    { filling.stream 3 with state := .stopping, pendingOp := some 0 }

/-- Gang 2 of streams 3 and 4, formed, with these pending records. -/
def ganged (records : List GangRecord) : State :=
  (filling.setGang 2
    { state := .formed, members := [3, 4], alignTimeout := some 50, markId := some 200, released := none
      records := records }).setStream 3 { filling.stream 3 with gang := some 2 }

/-- A record that lacks stream 4's slab. -/
def partialRecord : GangRecord := { epoch := 5, slots := [some 0, none], timer := some 50 }

/-- A warm reset in progress. -/
def resetting (s : State) : State :=
  { s with management := { s.management with warmReset := some { port := .a, tag := 7, discard := false } } }

/-! ### The well-formed commands -/

theorem test_short_segment_refused : Instr.wellFormed (.receiveSegment .a (List.replicate 11 0)) = false := by decide

theorem test_short_segment_lacks_header : holdsHeader (List.replicate 11 0) = false := by decide

theorem test_long_segment_refused :
    Instr.wellFormed (.receiveSegment .a (List.replicate 1041 0)) = false ∧ fitsSegment (List.replicate 1041 0) = false := by
  decide +kernel

theorem test_segments_accepted :
    Instr.wellFormed (.receiveSegment .a (List.replicate 12 0)) = true ∧
      Instr.wellFormed (.receiveSegment .b (List.replicate 1040 0)) = true := by
  decide +kernel

/-! ### Examples of the spec -/

/-- The two walks that R29 gives as examples. -/
theorem test_modulo_walks :
    ((List.range 8).map fun j => walkAddress
        { origin := 0, levels := [{ count := 8, stride := 3 }], mode := .modulo, window := some 8 } j) =
      [0, 3, 6, 1, 4, 7, 2, 5] ∧
    ((List.range 8).map fun j => walkAddress
        { origin := 0, levels := [{ count := 8, stride := -3 }], mode := .modulo, window := some 8 } j) =
      [0, 5, 2, 7, 4, 1, 6, 3] := by
  decide +kernel

/-- The three walks that R35 gives as examples. -/
theorem test_walk_ranges :
    (walkInRange { origin := 32760, levels := [{ count := 16, stride := 1 }], mode := .linear, window := none } 32768,
      walkInRange { origin := 32752, levels := [{ count := 16, stride := 1 }], mode := .linear, window := none } 32768,
      walkInRange { origin := 31, levels := [{ count := 32, stride := -1 }], mode := .linear, window := none } 32768) =
      (false, true, true) := by
  decide +kernel

/-- The conversions of chapter 3: signed 24 to 16 with shift 7 under each policy, and the WRAP of a container. -/
theorem test_conversions :
    ([(StorePolicy.saturate, [0x7F, 0x12, 0x34]), (.wrap, [0x7F, 0x12, 0x34]), (.mark, [0x7F, 0x12, 0x34]),
        (.wrap, [0x80, 0x00, 0x00]), (.mark, [0x0F, 0xFF, 0xFF]), (.saturate, [0xFF, 0xFF, 0x7F])].map fun x =>
      inboundConvert { frame with inWidth := 24, inShift := 7, storePolicy := x.1, fillValue := -32768 } x.2) =
      [(32767, true), (-476, true), (-32768, true), (0, true), (8191, false), (-2, false)] ∧
    inboundConvert { frame with inSign := .unsigned, inShift := 4, storeWidth := 8, storePolicy := .wrap } [0x8A, 0xBC] =
      (171, true) := by
  decide +kernel

/-- The outputs of chapter 3: HIGH and LOW of a wider output, and the clips of LOW. -/
theorem test_outputs :
    outboundConvert { frame with outWidth := 32, placement := .high } [0x7F, 0x12] = ([0x7F, 0x12, 0, 0], false) ∧
    outboundConvert { frame with outWidth := 32 } [0x80, 0x00] = ([0xFF, 0xFF, 0x80, 0x00], false) ∧
    outboundConvert { frame with outWidth := 8, outSign := .unsigned } [0x7F, 0x12] = ([0xFF], true) ∧
    outboundConvert { frame with inSign := .unsigned } [0x9C, 0x40] = ([0x7F, 0xFF], true) ∧
    outboundConvert { frame with storeWidth := 32, outWidth := 24 } [0xFF, 0x7F, 0xFF, 0xFF] =
      ([0x80, 0x00, 0x00], true) := by
  decide +kernel

/-! ### The statements apply: the device as a whole -/

theorem test_StepRunsFrontCommand_applies : State.reset.pending = [] := rfl

theorem test_CommandsAnswerNext_applies : ∀ r, nextRequest .a State.reset = some r → requestKind r.payload ≠ some .identify := by
  intro r h
  have : nextRequest .a State.reset = none := by decide +kernel
  rw [this] at h
  cases h

theorem test_MemoryWrittenAtCompletion_applies :
    (∃ t, exec (.upEvent .a) State.reset = .next t) ∧ Instr.upEvent .a ≠ .writeCompletion ∧
      ∀ b, Instr.upEvent .a ≠ .initWriteCompletion b :=
  ⟨⟨_, rfl⟩, by decide, fun _ h => by cases h⟩

/-- A state in which the credit law and the tenth law hold, and whose step takes a request. -/
theorem test_LinkLawsKept_applies :
    creditLaw (claimed ready) ∧ claimLaw (claimed ready) ∧ ∃ t, step (claimed ready) = .next t := by
  refine ⟨?_, ?_, _, rfl⟩
  · intro p c
    cases p <;> cases c <;> rfl
  · intro p h
    cases p
    · rfl
    · cases h

theorem test_DeviceBoundsKept_applies :
    (∃ t, step State.reset = .next t) ∧ debtLaw .reset ∧ queueLaw .reset ∧ noticeLaw .reset ∧ memoryLaw .reset :=
  ⟨⟨_, rfl⟩, by unfold debtLaw; decide, by unfold queueLaw; decide, fun p => by cases p <;> decide, by
    unfold memoryLaw; decide⟩

theorem test_RecordLawKept_applies : recordLaw (ganged [partialRecord]) ∧ ∃ t, step (ganged [partialRecord]) = .next t :=
  ⟨by unfold recordLaw; decide +kernel, _, rfl⟩

theorem test_SlabLawKept_applies : slabLaw active ∧ ringLaw active ∧ ∃ t, step active = .next t :=
  ⟨by unfold slabLaw; decide +kernel, by unfold ringLaw; decide +kernel, _, rfl⟩

/-- At the ends of the range: 1 and 32,767 newer, 32,768 neither way, 0 not; and without a floor. -/
theorem test_EpochsAndCounters_applies :
    newer 6 5 = true ∧ newer (5 + 32767) 5 = true ∧ newer 5 5 = false ∧ newer (5 + 32768) 5 = false ∧
      ((5 + 32768 : Epoch).toNat + 65536 - (5 : Epoch).toNat) % 65536 = 32768 ∧ raiseEpoch (some 6) 5 = 6 := by
  decide

/-! ### The ports -/

theorem test_UpEvent_applies :
    (ready.port .a).link = .up ∧ (State.reset.port .a).link = .down ∧ (State.reset.port .b).link = .down ∧
      (ready.port .b).link = .up := by
  decide

/-- Port B sends channel 1's segment. -/
def sendingDrain : State :=
  { draining { Channel.blank with state := .assembling, nextIndex := some 0, inTransmission := true } with
    portB := { ready.portB with sending := some { bytes := [], source := some 1 } } }

theorem test_DownEvent_applies :
    (State.reset.port .b).link = .down ∧ (sendingDrain.port .b).link = .up ∧
      (sendingDrain.port .b).sending.bind (·.source) = some 1 ∧ (claimed ready).management.holder = some .a ∧
      (ready.port .a).sending.bind (·.source) = none ∧ ready.management.holder ≠ some .a := by
  decide

/-- The bytes of a segment without payload whose header names `n` payload bytes. -/
def header (n : Nat) : List Byte :=
  let back : List Byte := [0, 0, 0, 0] ++ beBytes 2 n ++ [0, 0]
  [1, 0, 3] ++ headerCheck ([1, 0, 3] ++ back) :: back

/-- A wrong check byte, and 1,025 payload bytes named with a right one; 1,024 are no ground. -/
theorem test_ReceiveRefusals_applies :
    (State.reset.port .a).link = .down ∧ (ready.port .a).link = .up ∧ 12 ≤ (List.replicate 12 (0 : Byte)).length ∧
      headerCheck (slice (List.replicate 12 0) 0 3 ++ slice (List.replicate 12 0) 4 8) ≠
        (List.replicate 12 (0 : Byte)).getD 3 0 ∧
      (header 1025).length = 12 ∧ 1024 < field (header 1025) 8 2 ∧ rxHeaderGood (header 1025) = true ∧
      framingLoss (header 1024) = false := by
  decide +kernel

theorem test_ReceiveRefusals_misdirected_applies :
    arrives .a (inbound .reply 0 0 []).wire ready ∧
      (∀ k, SegKind.ofCode (rxKind (inbound .reply 0 0 []).wire) = some k → accepts .a k = false) ∧
      0 < (ready.port .a).advertisedControl ∧ arrives .b sample.wire ready ∧
      ∀ k, SegKind.ofCode (rxKind sample.wire) = some k → accepts .b k = false := by
  refine ⟨by unfold arrives; decide +kernel, ?_, by decide, by unfold arrives; decide +kernel, ?_⟩ <;>
  · intro k
    cases k <;> decide +kernel

/-- A segment's bytes with the last one of its payload check changed. -/
def spoilt (seg : Segment) : List Byte := seg.wire.dropLast ++ [seg.wire.getLast?.getD 0 ^^^ 1]

theorem test_CreditTest_applies :
    arrives .a (control [1]).wire ready ∧ SegKind.ofCode (rxKind (control [1]).wire) = some .control ∧
      0 < (ready.port .a).advertisedControl ∧ rxPayloadGood (control [1]).wire = true ∧
      arrives .a (spoilt (control [1])) ready ∧ rxPayloadGood (spoilt (control [1])) = false ∧
      arrives .a sample.wire ready ∧ SegKind.ofCode (rxKind sample.wire) = some .data ∧ 0 < ready.portA.advertisedData ∧
      rxPayloadGood sample.wire = true ∧ arrives .a (spoilt sample) ready ∧ rxPayloadGood (spoilt sample) = false ∧
      rxLength (inbound .mark 3 0 []).wire = 0 := by
  unfold arrives
  decide +kernel

/-- Without advertised credits. -/
theorem test_CreditTest_overrun_applies :
    arrives .a (control [1]).wire (after (.upEvent .a) .reset) ∧
      ((after (.upEvent .a) .reset).port .a).advertisedControl = 0 ∧ arrives .a sample.wire (after (.upEvent .a) .reset) ∧
      (after (.upEvent .a) .reset).portA.advertisedData = 0 := by
  unfold arrives
  decide +kernel

theorem test_ReceivedCredit_applies :
    arrives .b (creditSegment 4 2).wire ready ∧ SegKind.ofCode (rxKind (creditSegment 4 2).wire) = some .credit := by
  unfold arrives
  decide +kernel

/-- Port A during initialisation, and Port B. -/
theorem test_SendCredit_applies :
    ∀ p : Port, p = .a ∨ p = .b → ((after (.upEvent p) .reset).port p).link = .up ∧
      ((after (.upEvent p) .reset).port p).sending = none ∧ 0 < ((after (.upEvent p) .reset).port p).owedControl := by
  intro p h
  cases p <;> decide +kernel

/-- A notice. -/
def notice : Notice := { kind := .late, subject := some 3, epoch := some 5, detail := 6 }

theorem test_SendReplyAndNotice_applies :
    (ready.port .a).link = .up ∧ (ready.port .a).sending = none ∧
      creditDue .a { ready with portA := { ready.portA with partnerControl := 1, replies := [control []] } } = false ∧
      ({ ready with portA := { ready.portA with partnerControl := 1, notices := [notice] } } : State).portA.notices =
        [notice] ∧
      creditDue .a { ready with portA := { ready.portA with partnerControl := 1, notices := [notice] } } = false := by
  decide

/-- Channel 1 offers a segment, and Port B holds one data credit. -/
def offering (seg : Segment) (markDue : Bool) : State :=
  { draining { Channel.blank with state := .waitingSend, assembled := some seg, markDue := markDue, nextIndex := some 1 }
      with portB := { ready.portB with partnerData := 1 } }

/-- A segment with LAST and one without it, and a MARK. -/
theorem test_SendDrainSegment_applies :
    ∀ seg ∈ [sample, { sample with flags := 1 }], ∀ m ∈ [true, false],
      (offering seg m).portB.link = .up ∧ (offering seg m).portB.sending = none ∧ creditDue .b (offering seg m) = false ∧
      (offering seg m).portB.partnerControl = 0 ∧ 0 < (offering seg m).portB.partnerData ∧
      sendChannel (offering seg m) = some 1 ∧ ((offering seg m).channel 1).assembled = some seg ∧
      ((offering seg m).channel 1).markDue = m ∧ ((offering seg m).channel 1).entry = some (.single 0) ∧
      ((offering seg m).channel 1).current = some 0 ∧ (offering seg m).owner 0 = some 3 := by
  decide +kernel

/-- The LAST segment of the first slab of a gang entry, the second one waiting. -/
def offeringGanged : State :=
  let s := offering { sample with flags := 1 } false
  (s.setSlab 1 { s.slab 0 with epoch := some 5 }).setChannel 1
    { s.channel 1 with entry := some (.gang { gang := 2, markId := 200, members := [(3, 9), (4, 10)], epoch := 5
                                              present := [(0, 0), (1, 1)] }) }

theorem test_SendDrainSegment_ganged_applies :
    let s := offeringGanged
    s.portB.link = .up ∧ s.portB.sending = none ∧ creditDue .b s = false ∧ s.portB.partnerControl = 0 ∧
      0 < s.portB.partnerData ∧ sendChannel s = some 1 ∧ (s.channel 1).markDue = false ∧
      ((s.channel 1).entry.map DrainEntry.slabs) = some [0, 1] ∧ (s.channel 1).current = some 0 ∧ s.owner 0 = some 3 := by
  decide +kernel

theorem test_SendCompletion_applies :
    sendingDrain.portB.sending = some { bytes := [], source := some 1 } ∧
      (sendingDrain.channel 1).state ≠ .aborting ∧
      ((sendingDrain.setChannel 1 { sendingDrain.channel 1 with state := .aborting }).channel 1).state = .aborting ∧
      ((sendingDrain.setChannel 1 { sendingDrain.channel 1 with state := .aborting }).channel 1).read = none ∧
      (after (.sendCredit .a) (after (.upEvent .a) .reset)).portA.sending.map (·.source) = some none := by
  decide +kernel

/-! ### The Fill Engine -/

theorem test_DataDiscards_applies :
    (∀ x ∈ [(inbound .data 64 0 [], active), (sample, ready), (sample, defined),
        (sample, active.setStream 3 { active.stream 3 with state := .paused }), (sample, stopping),
        (inbound .data 3 7 [0, 0, 0, 0], active), (inbound .data 3 0 [], active)],
      offersFill x.1 [] (holding x.1 x.2)) ∧
    63 < (inbound .data 64 0 []).stream.toNat ∧ (ready.stream 3).state = .empty ∧ (defined.stream 3).state = .defined ∧
    (stopping.stream 3).state = .stopping ∧ (active.stream 3).defn = some frame ∧
    frame.frameLength < (inbound .data 3 7 [0, 0, 0, 0]).first.toNat + 4 / (frame.inWidth / 8) := by
  unfold offersFill
  decide +kernel

/-- Stream 3 with its floor at 5 and this last-late epoch. -/
def floored (lastLate : Option Epoch) : State :=
  holding sample (active.setStream 3 { active.stream 3 with floor := some 5, lastLate := lastLate })

/-- Late, with and without a notice; and OVERFLOW. -/
theorem test_DataDiscards_late_applies :
    offersFill sample [] (floored none) ∧ ((floored none).stream 3).floor = some 5 ∧ newer sample.epoch 5 = false ∧
      ((floored none).stream 3).lastLate ≠ some sample.epoch ∧
      ((floored (some 5)).stream 3).lastLate = some sample.epoch ∧
      sample.payload.length % (frame.inWidth / 8) = 0 ∧
      sample.first.toNat + sample.payload.length / (frame.inWidth / 8) ≤ frame.frameLength := by
  unfold offersFill
  decide +kernel

/-- Both slabs of stream 3 FULL. -/
def occupied : State :=
  holding sample ((active.setSlab 0 { Slab.blank with state := .full }).setSlab 1 { Slab.blank with state := .full })

theorem test_DataDiscards_overflow_applies :
    offersFill sample [] occupied ∧ onTime 3 frame sample occupied ∧ choosesIn 3 sample [] occupied (afterTake [] occupied) ∧
      (∀ x ∈ (occupied.stream 3).ring, (occupied.slab x).state ≠ .empty) ∧ frame.overflow = .dropNew ∧
      candidates 3 occupied = [] := by
  refine ⟨by unfold offersFill; decide +kernel, by unfold onTime; decide +kernel,
    ⟨by decide +kernel, Or.inl ⟨by decide +kernel, rfl⟩⟩, by decide +kernel, rfl, by decide +kernel⟩

/-- Both slabs of stream 3 FILLING, for these epochs, each with a write outstanding. -/
def twoOpen (e f : Epoch) : State :=
  holding sample
    ((filling.setSlab 0 { filling.slab 0 with epoch := some e }).setSlab 1 { filling.slab 0 with epoch := some f })

/-- An overtaking segment that finds no EMPTY slab; one late against the older of two slabs, and one against an epoch
32,768 away. -/
theorem test_DataDiscards_open_applies :
    offersFill sample [] (twoOpen 4 3) ∧ onTime 3 frame sample (twoOpen 4 3) ∧
      choosesIn 3 sample [] (twoOpen 4 3) (sealedWaiting 3 1 .overtaken (afterTake [] (twoOpen 4 3))) ∧
      (∀ x ∈ ((twoOpen 4 3).stream 3).ring, ((twoOpen 4 3).slab x).state ≠ .empty) ∧
      openSlabs (twoOpen 7 6) 3 = [0, 1] ∧ newer (slabEpoch (twoOpen 7 6) 0) (slabEpoch (twoOpen 7 6) 1) = true ∧
      (∀ x ∈ openSlabs (twoOpen 7 6) 3, ((twoOpen 7 6).slab x).epoch ≠ some sample.epoch ∧
        (sample.epoch - slabEpoch (twoOpen 7 6) x).toNat ≠ 32768) ∧
      newer sample.epoch (slabEpoch (twoOpen 7 6) 1) = false ∧
      (openSlabs (twoOpen 4 32773) 3).find?
        (fun x => (sample.epoch - slabEpoch (twoOpen 4 32773) x).toNat == 32768) = some 1 := by
  refine ⟨by unfold offersFill; decide +kernel, by unfold onTime; decide +kernel, ⟨by decide +kernel,
    Or.inr ⟨1, 0, Or.inr (by decide +kernel), by decide +kernel, by decide +kernel, by unfold sealsQuietly; decide +kernel,
      rfl⟩⟩, by decide +kernel⟩

/-- Slab 0 FILLING for epoch 5 of a frame of 64 samples, with 16 islands of one sample. -/
def islands : State :=
  holding { sample with first := 40 } ((filling.setStream 3 { filling.stream 3 with
    defn := some { frame with frameLength := 64 } }).setSlab 0
    { filling.slab 0 with coverage := (List.range 16).map fun k => { start := 2 * k, stop := 2 * k + 1 } })

theorem test_DataDiscards_fragmented_applies :
    offersFill { sample with first := 40 } [] islands ∧
      onTime 3 { frame with frameLength := 64 } { sample with first := 40 } islands ∧
      (openSlabs islands 3).find? (fun x => (islands.slab x).epoch == some 5) = some 0 ∧
      (mergeRange (islands.slab 0).coverage 40 1).length = 17 := by
  unfold offersFill onTime
  decide +kernel

/-- The state after the writes of a placement were taken. -/
def taken (pl : Placing) (d : Definition) (w : Walk) (s : State) : State :=
  (enqueueAll (writesOf d w pl.slab pl.next pl.rest) s).getD s

/-- A placement whose writes are taken, and whose end is `t`. -/
theorem places_taken {pl : Placing} {d : Definition} {w : Walk} {s t : State}
    (h : (enqueueAll (writesOf d w pl.slab pl.next pl.rest) s).isSome = true)
    (h1 : pl.aborted = false → placementEnd pl.stream pl.slab d (handedOver pl d (taken pl d w s)) t)
    (h2 : pl.aborted = true → abortedEnd pl.stream pl.slab (handedOver pl d (taken pl d w s)) t) : places pl d w s t := by
  refine Or.inl ⟨_, ?_, h1, h2⟩
  obtain ⟨v, hv⟩ := Option.isSome_iff_exists.1 h
  unfold taken
  rw [hv]
  rfl

/-- A placement whose samples after `front` wait behind one that the write queue does not take. -/
theorem places_held {pl : Placing} {d : Definition} {w : Walk} {s : State} (front : List (List Byte)) (b : List Byte)
    (back : List (List Byte)) (hr : pl.rest = front ++ b :: back)
    (h : (enqueueAll (writesOf d w pl.slab pl.next front) s).isSome = true)
    (h2 : enqueue (writeOf d w pl.slab (pl.next + front.length) b) (taken { pl with rest := front } d w s) = none) :
    ∃ t, places pl d w s t := by
  refine ⟨_, Or.inr ⟨front, b, back, _, hr, ?_, h2, rfl⟩⟩
  obtain ⟨v, hv⟩ := Option.isSome_iff_exists.1 h
  unfold taken
  dsimp only
  rw [hv]
  rfl

/-- Slab 0 of `s` about to be placed into from the segment, counted accepted. -/
def joining (d : Definition) (seg : Segment) (s : State) : State :=
  let cov := mergeRange (s.slab 0).coverage seg.first.toNat (seg.payload.length / (d.inWidth / 8))
  State.count ((afterTake [] s).setSlab 0 { s.slab 0 with coverage := cov, placing := true }) 3 (fun n =>
    { n with
      segmentsAccepted := satAdd n.segmentsAccepted 1
      samplesAccepted := satAdd n.samplesAccepted (coveredCount cov - coveredCount (s.slab 0).coverage) })

/-- A segment's placement into slab 0. -/
def placement (d : Definition) (seg : Segment) : Placing :=
  { stream := 3, slab := 0, next := seg.first.toNat, rest := fieldsOf d seg, aborted := false }

/-- The seven samples that a frame of 8 lacks. -/
def seven : Segment := { sample with payload := List.replicate 14 0x12 }

/-- Slab 0 FILLING, a seal of this cause held. -/
def sealHeld (cause : SealCause) : State := filling.setSlab 0 { filling.slab 0 with heldCause := some cause }

/-- One sample and seven; the timer restarted, a held cause applied, and COMPLETE before a held cause. -/
theorem test_DataJoinsSlab_applies :
    (∀ x ∈ [(sample, filling), (sample, sealHeld .paused), (seven, sealHeld .timeout)],
      offersFill x.1 [] (holding x.1 x.2) ∧ onTime 3 frame x.1 (holding x.1 x.2) ∧
      (openSlabs (holding x.1 x.2) 3).find? (fun y => ((holding x.1 x.2).slab y).epoch == some x.1.epoch) = some 0 ∧
      writeWalkOf (holding x.1 x.2) 3 0 = some (identityWalk 8) ∧
      (mergeRange ((holding x.1 x.2).slab 0).coverage x.1.first.toNat (x.1.payload.length / 2)).length ≤ 16) ∧
    (∃ t, places (placement frame sample) frame (identityWalk 8) (joining frame sample (holding sample filling)) t) ∧
    (∃ t, places (placement frame sample) frame (identityWalk 8)
      (joining frame sample (holding sample (sealHeld .paused))) t) ∧
    ∃ t, places (placement frame seven) frame (identityWalk 8) (joining frame seven (holding seven (sealHeld .timeout))) t := by
  refine ⟨by unfold offersFill onTime; decide +kernel, ⟨_, places_taken (by decide +kernel) (fun _ => Or.inr (Or.inr
    ⟨by decide +kernel, by decide +kernel, rfl⟩)) fun h => absurd h (by decide)⟩, ⟨_, places_taken (by decide +kernel)
    (fun _ => Or.inr (Or.inl ⟨by decide +kernel, .paused, by decide +kernel, Or.inl ⟨by decide, by decide +kernel, rfl⟩⟩))
      fun h => absurd h (by decide)⟩, _, places_taken (by decide +kernel) (fun _ => Or.inl ⟨by decide +kernel, by decide +kernel,
    rfl⟩) fun h => absurd h (by decide)⟩

/-- A frame of 64 samples, two lines of the slab. -/
def frame64 : Definition := { frame with frameLength := 64 }

/-- Slab 0 FILLING for such a frame, and this many entries for another line in the write queue. -/
def wide (n : Nat) : State :=
  queued (List.replicate n { entry false with line := 9 }) (filling.setStream 3
    { filling.stream 3 with defn := some frame64, current := some (identityLayout 64) })

/-- The samples of indices 31 and 32, in different lines. -/
def across : Segment := { sample with first := 31, payload := [1, 2, 3, 4] }

/-- The first write is not taken; and the first is, the second not. -/
theorem test_DataJoinsSlab_held_applies :
    (∀ n ∈ [31, 32], offersFill across [] (holding across (wide n)) ∧ onTime 3 frame64 across (holding across (wide n)) ∧
      writeWalkOf (holding across (wide n)) 3 0 = some (identityWalk 64)) ∧
    (∃ t, places (placement frame64 across) frame64 (identityWalk 64) (joining frame64 across (holding across (wide 32))) t) ∧
    ∃ t, places (placement frame64 across) frame64 (identityWalk 64) (joining frame64 across (holding across (wide 31))) t := by
  refine ⟨by unfold offersFill onTime; decide +kernel, places_held [] [1, 2] [[3, 4]] (by decide +kernel)
    (by decide +kernel) (by decide +kernel), places_held [[1, 2]] [3, 4] [] (by decide +kernel) (by decide +kernel)
    (by decide +kernel)⟩

/-- Ranges at the ends of a frame, and a segment that joins both. -/
theorem test_DataJoinsSlab_ranges_applies :
    rangesOk 8 [{ start := 0, stop := 1 }, { start := 4, stop := 8 }] ∧ 1 + 3 ≤ 8 ∧
      mergeRange [{ start := 0, stop := 1 }, { start := 4, stop := 8 }] 1 3 = [{ start := 0, stop := 8 }] := by
  refine ⟨⟨by decide, fun r h => ?_⟩, by decide, by decide⟩
  rcases List.mem_cons.1 h with rfl | h
  · decide
  · rw [List.mem_singleton.1 h]
    decide

/-- A segment of the whole frame. -/
def whole : Segment := { sample with first := 0, payload := List.replicate 16 0x12 }

/-- Slab 0 opened for a segment, in the state `u`. -/
def opening (d : Definition) (seg : Segment) (u : State) : State := openedFor 3 d seg 0 (identityLayout 8) u

/-- One sample, and a whole frame, which is sealed COMPLETE. -/
theorem test_DataOpensSlab_applies :
    (∀ x ∈ [sample, whole], offersFill x [] (holding x active) ∧ onTime 3 frame x (holding x active) ∧
      ((holding x active).stream 3).current = some (identityLayout 8) ∧
      (searchOrder ((holding x active).stream 3)).find? (fun y => ((holding x active).slab y).state == .empty) = some 0) ∧
    choosesIn 3 sample [] (holding sample active) (afterTake [] (holding sample active)) ∧
    (∃ t, places (placement frame sample) frame (identityWalk 8) (opening frame sample (afterTake [] (holding sample active)))
      t) ∧
    ∃ t, places (placement frame whole) frame (identityWalk 8) (opening frame whole (afterTake [] (holding whole active))) t := by
  refine ⟨by unfold offersFill onTime; decide +kernel, ⟨by decide +kernel, Or.inl ⟨by decide +kernel, rfl⟩⟩, ⟨_, places_taken
    (by decide +kernel) (fun _ => Or.inr (Or.inr ⟨by decide +kernel, by decide +kernel, rfl⟩)) fun h =>
      absurd h (by decide)⟩, _, places_taken (by decide +kernel) (fun _ => Or.inl ⟨by decide +kernel, by decide +kernel,
    rfl⟩) fun h => absurd h (by decide)⟩

/-- Two open slabs and an EMPTY third. -/
def thirdEmpty : State :=
  ((twoOpen 4 3).setStream 3 { (twoOpen 4 3).stream 3 with ring := [0, 1, 2] }).setSlab 2
    { Slab.blank with state := .empty }

theorem test_DataOpensSlab_overtaken_applies :
    choosesIn 3 sample [] thirdEmpty (sealedWaiting 3 1 .overtaken (afterTake [] thirdEmpty)) ∧
      (searchOrder (thirdEmpty.stream 3)).find? (fun x => (thirdEmpty.slab x).state == .empty) = some 2 ∧
      ∃ t, places { placement frame sample with slab := 2 } frame (identityWalk 8)
        (openedFor 3 frame sample 2 (identityLayout 8) (sealedWaiting 3 1 .overtaken (afterTake [] thirdEmpty))) t := by
  refine ⟨⟨by decide +kernel, Or.inr ⟨1, 0, Or.inr (by decide +kernel), by decide +kernel, by decide +kernel,
    by unfold sealsQuietly; decide +kernel, rfl⟩⟩, by decide +kernel, _, places_taken (by decide +kernel) (fun _ =>
      Or.inr (Or.inr ⟨by decide +kernel, by decide +kernel, rfl⟩)) fun h => absurd h (by decide)⟩

/-- Stream 3 under RECLAIM with two FULL slabs, of epochs 3 and 4: slab 1 in a single entry, slab 0 held so. -/
def finished (h : Holder) : State :=
  let s := occupied.setStream 3 { occupied.stream 3 with defn := some { frame with overflow := .reclaim } }
  { (s.setSlab 0 { Slab.blank with state := .full, epoch := some 3, holder := some h }).setSlab 1
      { Slab.blank with state := .full, epoch := some 4, holder := some .singleEntry } with
    drainQueue := [.single 1, match h with
      | .gangEntry g e => .gang { gang := g, markId := 200, members := [(3, 9), (4, 10)], epoch := e, present := [(0, 0)] }
      | _ => .single 0]
    gangs := (occupied.gangs.set 2 { Gang.blank with records := [{ epoch := 3, slots := [some 0, some 5], timer := none }] }) }

/-- Each kind of holder. -/
theorem test_DataOpensSlab_reclaim_applies :
    (∀ h ∈ [Holder.singleEntry, .gangEntry 2 3, .gangRecord 2 3],
      offersFill sample [] (finished h) ∧ onTime 3 { frame with overflow := .reclaim } sample (finished h) ∧
      (∀ x ∈ ((finished h).stream 3).ring, ((finished h).slab x).state ≠ .empty) ∧
      openSlabs (finished h) 3 = [] ∧ candidates 3 (finished h) = [0, 1] ∧
      newer (slabEpoch (finished h) 1) (slabEpoch (finished h) 0) = true ∧ ((finished h).slab 0).holder = some h ∧
      (enqueueAll (writesOf frame (identityWalk 8) 0 1 (fieldsOf frame sample)) (finished h)).isSome = true) ∧
    detachedFrom 0 (afterTake [] (finished .singleEntry))
      { afterTake [] (finished .singleEntry) with drainQueue := [.single 1] } ∧
    (recordsWithout 0 3 ((finished (.gangRecord 2 3)).gang 2).records).head? =
      some { epoch := 3, slots := [none, some 5], timer := none } := by
  refine ⟨by unfold offersFill onTime; decide +kernel, Or.inl ⟨Or.inl rfl, rfl⟩, by decide +kernel⟩

/-- The placement into a slab reclaimed from a single entry. -/
theorem test_DataOpensSlab_reclaim_places :
    ∃ t, places (placement { frame with overflow := .reclaim } sample) { frame with overflow := .reclaim } (identityWalk 8)
      (opening { frame with overflow := .reclaim } sample
        (raise { kind := .epochLost, subject := some 3, epoch := some 3, detail := 5 }
          { afterTake [] (finished .singleEntry) with drainQueue := [.single 1] })) t :=
  ⟨_, places_taken (by decide +kernel) (fun _ => Or.inr (Or.inr ⟨by decide +kernel, by decide +kernel, rfl⟩)) fun h =>
    absurd h (by decide)⟩

/-- A MARK for stream 3. -/
def mark : Segment := inbound .mark 3 0 []

theorem test_MarkActs_applies :
    offersFill (inbound .mark 64 0 []) [] (holding (inbound .mark 64 0 []) active) ∧
      offersFill mark [] (holding mark defined) ∧ ((holding mark defined).stream 3).state ≠ .active ∧
      offersFill mark [] (holding mark active) ∧ ((holding mark active).stream 3).state = .active ∧
      (∀ x ∈ (active.stream 3).ring, ((holding mark active).slab x).state ≠ .filling) ∧
      offersFill mark [] (holding mark filling) ∧ openSlabs (holding mark filling) 3 = [0] ∧
      newer (((holding mark filling).slab 0).epoch.getD 0) mark.epoch = false ∧
      sealsQuietly 3 0 (holding mark filling) ∧
      newer (((holding mark filling).slab 0).epoch.getD 0) { mark with epoch := 4 }.epoch = true := by
  unfold offersFill sealsQuietly
  decide +kernel

/-- A MARK finds two FILLING slabs, of this epoch and of epoch 3, the older second in the ring. -/
def marking (e : Epoch) : State := holding mark (twoOpen e 3)

/-- Both slabs reached; the older alone. -/
theorem test_MarkActs_two_applies :
    offersFill mark [] (marking 4) ∧ openSlabs (marking 4) 3 = [0, 1] ∧
      newer (slabEpoch (marking 4) 0) (slabEpoch (marking 4) 1) = true ∧ newer 4 mark.epoch = false ∧
      openSlabs (marking 6) 3 = [0, 1] ∧ newer (slabEpoch (marking 6) 0) (slabEpoch (marking 6) 1) = true ∧
      newer 6 mark.epoch = true := by
  unfold offersFill
  decide +kernel

theorem test_MarkActs_two_seal : sealsQuietly 3 0 (marking 4) ∧ sealsQuietly 3 1 (marking 4) := by
  unfold sealsQuietly
  decide +kernel

/-- The same slabs without an outstanding write. -/
def twoSettled : State :=
  holding mark (((twoOpen 4 3).setSlab 0 { (twoOpen 4 3).slab 0 with outstanding := 0 }).setSlab 1
    { (twoOpen 4 3).slab 1 with outstanding := 0 })

theorem test_MarkActs_full_applies : sealsToFull 3 0 twoSettled ∧ sealsToFull 3 1 twoSettled := by
  unfold sealsToFull
  decide +kernel

/-- A write to line 1 is held for a placement into slab 0 that has nothing more to convert. -/
def held (s : State) : State :=
  { s with fill :=
      { placing := some { stream := 3, slab := 0, next := 2, rest := [], aborted := false }
        held := some (write 64), work := [] } }

theorem test_HeldWriteResumes_applies :
    (held (queued fullQueue filling)).fill.held = some (write 64) ∧
      enqueue (write 64) (held (queued fullQueue filling)) = none ∧
      (enqueue (write 64) (held filling)).isSome = true ∧
      (held filling).fill.placing = some { stream := 3, slab := 0, next := 2, rest := [], aborted := false } ∧
      (held filling).fill.work = [] ∧ ((held filling).slab 0).heldCause = none ∧
      ((held filling).slab 0).coverage ≠ [{ start := 0, stop := (held filling).frameLength 3 }] := by
  decide +kernel

/-- A placement into slab 0 resumes with these samples left, marked by an abort or not. -/
def resumed (rest : List (List Byte)) (aborted : Bool) (s : State) : State :=
  { s with fill := { placing := some { stream := 3, slab := 0, next := 2, rest := rest, aborted := aborted }
                     held := some (write 64), work := [] } }

/-- The state when the held write has been taken. -/
def unheld (s : State) : State :=
  let v := (enqueue (write 64) s).getD s
  { v with fill := { v.fill with held := none } }

/-- Slab 0 FILLING with this coverage and this held cause. -/
def placedInto (stop : Nat) (cause : Option SealCause) : State :=
  filling.setSlab 0 { filling.slab 0 with
    coverage := [{ start := 0, stop := stop }], heldCause := cause, placing := true, fillTimer := none }

/-- Samples left: all taken, COMPLETE before a held cause; all taken, the held cause; and one that must wait. -/
theorem test_HeldWriteResumes_places :
    (∀ x ∈ [placedInto 8 (some .timeout), placedInto 4 (some .flushed), wide 30], (x.stream 3).defn.isSome = true ∧
      (enqueue (write 64) x).isSome = true ∧ (writeWalkOf x 3 0).isSome = true) ∧
    (∃ t, places { stream := 3, slab := 0, next := 2, rest := [[1, 2], [3, 4]], aborted := false } frame (identityWalk 8)
      (unheld (resumed [[1, 2], [3, 4]] false (placedInto 8 (some .timeout)))) t) ∧
    (∃ t, places { stream := 3, slab := 0, next := 2, rest := [[1, 2], [3, 4]], aborted := false } frame (identityWalk 8)
      (unheld (resumed [[1, 2], [3, 4]] false (placedInto 4 (some .flushed)))) t) ∧
    ∃ t, places { stream := 3, slab := 0, next := 31, rest := [[1, 2], [3, 4]], aborted := false } frame64 (identityWalk 64)
      (unheld (resumed [[1, 2], [3, 4]] false (wide 30))) t := by
  refine ⟨by decide +kernel, ⟨_, places_taken (by decide +kernel) (fun _ => Or.inl ⟨by decide +kernel, by decide +kernel,
    rfl⟩) fun h => absurd h (by decide)⟩, ⟨_, places_taken (by decide +kernel) (fun _ => Or.inr (Or.inl ⟨by decide +kernel,
    .flushed, by decide +kernel, Or.inl ⟨by decide, by decide +kernel, rfl⟩⟩)) fun h => absurd h (by decide)⟩,
    places_held [[1, 2]] [3, 4] [] (by decide +kernel) (by decide +kernel) (by decide +kernel)⟩

/-- An abort has marked the placement: another slab of the ring keeps the UNBIND pending; and none, so that it completes. -/
theorem test_HeldWriteResumes_aborted_applies :
    (∃ t, places { stream := 3, slab := 0, next := 2, rest := [[1, 2]], aborted := true } frame (identityWalk 8)
      (unheld (resumed [[1, 2]] true (stopping.setSlab 1 { stopping.slab 0 with state := .draining }))) t) ∧
    ∃ t, places { stream := 3, slab := 0, next := 2, rest := [[1, 2]], aborted := true } frame (identityWalk 8)
      (unheld (resumed [[1, 2]] true stopping)) t :=
  ⟨⟨_, places_taken (by decide +kernel) (fun h => absurd h (by decide)) fun _ => Or.inl ⟨Or.inr ⟨1, by decide +kernel,
    by decide, by decide +kernel⟩, rfl⟩⟩, _, places_taken (by decide +kernel) (fun h => absurd h (by decide)) fun _ =>
      Or.inr ⟨by decide +kernel, by decide +kernel, op .unbind (.unbind false 0 none), false, 0, none, by decide +kernel,
        rfl, rfl⟩⟩

/-- The holes of a coverage list are these, as a computation. -/
def holesListed (cov : List IndexRange) (frameLength : Nat) : List Nat → Nat → Bool
  | [], k => nextHole cov frameLength k == none
  | j :: l, k => nextHole cov frameLength k == some j && holesListed cov frameLength l (j + 1)

theorem holesListed_are {cov : List IndexRange} {frameLength : Nat} : ∀ {l : List Nat} {k : Nat},
    holesListed cov frameLength l k = true → holesAre cov frameLength l k
  | [], _, h => beq_iff_eq.1 h
  | _ :: _, _, h => ⟨beq_iff_eq.1 (Bool.and_eq_true_iff.1 h).1, holesListed_are (Bool.and_eq_true_iff.1 h).2⟩

/-- A slab whose holes are `l` from index `k` on, the write queue taking all their writes. -/
theorem fillsHoles_taken {i : StreamId} {sl : SlabId} {d : Definition} {w : Walk} {k : Nat} {u : State} (l : List Nat)
    (h : holesListed (u.slab sl).coverage d.frameLength l k = true) (h1 : (enqueueAll (l.map (fillOf d w sl)) u).isSome = true)
    (h2 : 0 < (((enqueueAll (l.map (fillOf d w sl)) u).getD u).slab sl).outstanding) : ∃ t, fillsHoles i sl d w k u t := by
  obtain ⟨v, hv⟩ := Option.isSome_iff_exists.1 h1
  rw [hv] at h2
  exact ⟨_, Or.inl ⟨l, v, holesListed_are h, hv, h2, rfl⟩⟩

/-- A slab whose holes are `front`, `j` and `back`, the write queue not taking the write of hole `j`. -/
theorem fillsHoles_held {i : StreamId} {sl : SlabId} {d : Definition} {w : Walk} {k : Nat} {u : State} (front : List Nat)
    (j : Nat) (back : List Nat) (h : holesListed (u.slab sl).coverage d.frameLength (front ++ j :: back) k = true)
    (h1 : (enqueueAll (front.map (fillOf d w sl)) u).isSome = true)
    (h2 : enqueue (fillOf d w sl j) ((enqueueAll (front.map (fillOf d w sl)) u).getD u) = none) :
    ∃ t, fillsHoles i sl d w k u t := by
  obtain ⟨v, hv⟩ := Option.isSome_iff_exists.1 h1
  rw [hv] at h2
  exact ⟨_, Or.inr ⟨front, j, back, v, holesListed_are h, hv, h2, rfl⟩⟩

/-- Slab 0 FILLING of a stream of this definition, with this coverage and no outstanding write. -/
def holed (d : Definition) (cov : List IndexRange) (s : State) : State :=
  (s.setStream 3 { s.stream 3 with defn := some d, current := some (identityLayout d.frameLength) }).setSlab 0
    { s.slab 0 with coverage := cov, outstanding := 0 }

/-- The definitions of a frame of 8 and of 64 samples with hole fill ON. -/
def frameOn : Definition := { frame with holeFill := true }

def frame64On : Definition := { frame64 with holeFill := true }

/-- Holes at the indices 3, 6 and 7 of a frame of 8. -/
def threeHoles : State := holed frameOn [{ start := 0, stop := 3 }, { start := 4, stop := 6 }] filling

/-- Holes at the indices 31 and 32, in different lines, with this many entries for another line in the write queue. -/
def twoHoles (n : Nat) : State := holed frame64On [{ start := 0, stop := 31 }, { start := 33, stop := 64 }] (wide n)

/-- The slab sealed, the write of its hole 3 held. -/
def heldHole : State :=
  { threeHoles.setSlab 0 { threeHoles.slab 0 with state := .sealing } with
    fill := { placing := none, held := some { write 0 with slab := some 0 }, work := [{ slab := 0, next := 4 }] } }

/-- The state when the held write of a hole has been taken and counted. -/
def holeTaken (s : State) : State :=
  let v := (enqueue { write 0 with slab := some 0 } s).getD s
  State.count { v with fill := { placing := none, held := none, work := [] } } 3 fun n =>
    { n with holesFilled := satAdd n.holesFilled 1 }

/-- Two more holes to fill, and none. -/
theorem test_HeldWriteResumes_hole_applies :
    heldHole.owner 0 = some 3 ∧ writeWalkOf heldHole 3 0 = some (identityWalk 8) ∧
      (enqueue { write 0 with slab := some 0 } heldHole).isSome = true ∧
      (∃ t, fillsHoles 3 0 frameOn (identityWalk 8) 4 (holeTaken heldHole) t) ∧
      ∃ t, fillsHoles 3 0 frameOn (identityWalk 8) 8 (holeTaken heldHole) t :=
  ⟨by decide +kernel, by decide +kernel, by decide +kernel, fillsHoles_taken [6, 7] (by decide +kernel)
    (by decide +kernel) (by decide +kernel), fillsHoles_taken [] (by decide +kernel) (by decide +kernel)
    (by decide +kernel)⟩

/-- A held cause applied at the end of a placement, hole fill ON. -/
theorem test_DataJoinsSlab_holes_applies :
    let s := holding sample (holed frameOn [{ start := 0, stop := 1 }] (sealHeld .paused))
    offersFill sample [] s ∧ onTime 3 frameOn sample s ∧
      ∃ t, places (placement frameOn sample) frameOn (identityWalk 8) (joining frameOn sample s) t := by
  refine ⟨by unfold offersFill; decide +kernel, by unfold onTime; decide +kernel, ?_⟩
  obtain ⟨t, ht⟩ := fillsHoles_taken (i := 3) (sl := 0) (d := frameOn) (w := identityWalk 8) (k := 0)
    (u := sealedWaiting 3 0 .paused (handedOver (placement frameOn sample) frameOn (taken (placement frameOn sample) frameOn
      (identityWalk 8) (joining frameOn sample (holding sample (holed frameOn [{ start := 0, stop := 1 }] (sealHeld .paused)))))))
    [2, 3, 4, 5, 6, 7] (by decide +kernel) (by decide +kernel) (by decide +kernel)
  exact ⟨t, places_taken (by decide +kernel) (fun _ => Or.inr (Or.inl ⟨by decide +kernel, .paused, by decide +kernel,
    Or.inr ⟨by decide, by decide +kernel, by decide +kernel, _, by decide +kernel, ht⟩⟩)) fun h => absurd h (by decide)⟩

/-! ### The timers -/

/-- Slab 0 FILLING without an outstanding write. -/
def settled (v : Slab → Slab) : State := filling.setSlab 0 (v { filling.slab 0 with outstanding := 0 })

theorem test_FillTimerExpires_applies :
    (filling.slab 0).fillTimer = some 100 ∧ filling.owner 0 = some 3 ∧ (resetting filling).management.warmReset ≠ none ∧
      filling.management.warmReset = none ∧ sealsQuietly 3 0 filling ∧ filling.fill.work = [] ∧
      ((settled fun v => { v with placing := true }).slab 0).placing = true ∧
      ((settled id).slab 0).fillTimer = some 100 ∧ (settled id).owner 0 = some 3 ∧ ((settled id).slab 0).state = .filling ∧
      ((settled id).slab 0).placing = false ∧ ((settled id).slab 0).outstanding = 0 ∧ holeFillOn (settled id) 3 = false ∧
      ((settled id).stream 3).gang = none ∧ ((settled id).stream 3).pendingOp = none := by
  unfold sealsQuietly
  decide +kernel

/-- Slab 0 of a gang's member with these pending records and this released epoch, sealed at its timer's expiry. -/
def arriving (released : Option Epoch) (records : List GangRecord) : State :=
  ((ganged records).setGang 2 { (ganged records).gang 2 with released := released }).setSlab 0
    { filling.slab 0 with outstanding := 0 }

/-- A record of an epoch that holds a slab of stream 4. -/
def otherRecord (e : Epoch) : GangRecord := { epoch := e, slots := [none, some 7], timer := some 60 }

theorem test_FillTimerExpires_gang_applies :
    (∀ x ∈ [(some 5, []), (none, [otherRecord 6, otherRecord 32774]), (none, [otherRecord 5, otherRecord 6]),
        (some 4, [otherRecord 5]), (none, [otherRecord 6]), (some 0, [otherRecord 1, otherRecord 2, otherRecord 6, otherRecord 7])],
      ((arriving x.1 x.2).slab 0).fillTimer = some 100 ∧ (arriving x.1 x.2).owner 0 = some 3 ∧
      ((arriving x.1 x.2).slab 0).state = .filling ∧ ((arriving x.1 x.2).slab 0).outstanding = 0 ∧
      ((arriving x.1 x.2).stream 3).gang = some 2 ∧ ((arriving x.1 x.2).stream 3).pendingOp = none ∧
      ((arriving x.1 x.2).slab 0).epoch = some 5 ∧ ((arriving x.1 x.2).gang 2).records = x.2 ∧
      ((arriving x.1 x.2).gang 2).released = x.1 ∧ ((arriving x.1 x.2).gang 2).members.idxOf 3 = 0) ∧
    newer 5 (5 : Epoch) = false ∧ newer 5 (6 : Epoch) = false ∧ newer 32774 (5 : Epoch) = false ∧ newer 6 (5 : Epoch) = true ∧
    newer 5 (4 : Epoch) = true ∧ newer 5 (0 : Epoch) = true ∧ newer 2 (5 : Epoch) = false ∧
    ([some 0, some 7] : List (Option SlabId)) = (otherRecord 5).slots.set 0 (some 0) := by
  decide +kernel

/-- A record that holds both members' slabs. -/
def wholeRecord (e : Epoch) : GangRecord := { epoch := e, slots := [some 1, some 7], timer := some 60 }

/-- A record completed and then another that the completion test finds complete; and a fifth record, after whose forced
release two are complete. -/
theorem test_FillTimerExpires_releases_apply :
    ((arriving (some 4) [otherRecord 5, wholeRecord 6, otherRecord 7]).gang 2).records =
        [] ++ otherRecord 5 :: ([wholeRecord 6] ++ [otherRecord 7]) ∧
      completesThrough [wholeRecord 6] [otherRecord 7] ∧
      ((arriving (some 0) [otherRecord 1, wholeRecord 2, wholeRecord 3, otherRecord 4]).gang 2).records.length = 4 ∧
      completesThrough [wholeRecord 2, wholeRecord 3] [otherRecord 4, { epoch := 5, slots := [some 0, none], timer := none }] := by
  refine ⟨by decide +kernel, ?_, by decide +kernel, ?_⟩ <;>
  · unfold completesThrough oldestIncomplete
    simp [otherRecord, wholeRecord]

/-- All holes filled; the first write not taken; the first taken and the second not. -/
theorem test_FillTimerExpires_hole_applies :
    (∀ s ∈ [threeHoles, twoHoles 31, twoHoles 32], (s.slab 0).fillTimer = some 100 ∧ s.owner 0 = some 3 ∧
      (s.slab 0).state = .filling ∧ (s.slab 0).placing = false ∧ s.fill = { placing := none, held := none, work := [] } ∧
      0 < holesOf 3 0 s ∧ (writeWalkOf s 3 0).isSome = true) ∧
    (∃ t, fillsHoles 3 0 frameOn (identityWalk 8) 0 (sealedWaiting 3 0 .timeout threeHoles) t) ∧
    (∃ t, fillsHoles 3 0 frame64On (identityWalk 64) 0 (sealedWaiting 3 0 .timeout (twoHoles 32)) t) ∧
    ∃ t, fillsHoles 3 0 frame64On (identityWalk 64) 0 (sealedWaiting 3 0 .timeout (twoHoles 31)) t :=
  ⟨by decide +kernel, fillsHoles_taken [3, 6, 7] (by decide +kernel) (by decide +kernel)
    (by decide +kernel), fillsHoles_held [] 31 [32] (by decide +kernel) (by decide +kernel)
    (by decide +kernel), fillsHoles_held [31] 32 [] (by decide +kernel) (by decide +kernel)
    (by decide +kernel)⟩

/-- The holes of a coverage list with a gap and an uncovered end. -/
theorem test_FillTimerExpires_nextHole_applies :
    rangesOk 8 [{ start := 0, stop := 3 }, { start := 4, stop := 6 }] ∧
      nextHole [{ start := 0, stop := 3 }, { start := 4, stop := 6 }] 8 0 = some 3 ∧
      nextHole [{ start := 0, stop := 3 }, { start := 4, stop := 6 }] 8 4 = some 6 ∧
      nextHole [{ start := 0, stop := 3 }, { start := 4, stop := 6 }] 8 8 = none := by
  refine ⟨⟨by decide, fun r h => ?_⟩, by decide, by decide, by decide⟩
  rcases List.mem_cons.1 h with rfl | h
  · decide
  · rw [List.mem_singleton.1 h]
    decide

/-- A partial record before the one that expires, and a complete one and another after it. -/
theorem test_AlignTimerReleases_several_applies :
    ((ganged [partialRecord, otherRecord 6, wholeRecord 7, otherRecord 8]).gang 2).records =
        [partialRecord] ++ otherRecord 6 :: ([wholeRecord 7] ++ [otherRecord 8]) ∧ (otherRecord 6).timer = some 60 ∧
      (ganged [partialRecord, otherRecord 6, wholeRecord 7, otherRecord 8]).management.warmReset = none ∧
      newer partialRecord.epoch (otherRecord 6).epoch = false ∧ newer (wholeRecord 7).epoch (otherRecord 6).epoch = true ∧
      newer (otherRecord 8).epoch (otherRecord 6).epoch = true ∧ completesThrough [wholeRecord 7] [otherRecord 8] := by
  refine ⟨by decide +kernel, rfl, rfl, by decide, by decide, by decide, ?_⟩
  unfold completesThrough oldestIncomplete
  simp [otherRecord, wholeRecord]

theorem test_AlignTimerReleases_applies :
    ((ganged [partialRecord]).gang 2).records = [partialRecord] ∧ partialRecord.timer = some 50 ∧
      (ganged [partialRecord]).management.warmReset = none := by
  decide +kernel

/-- Stream 3, with these fields more, has a ring of a FILLING, a SEALING, a FULL and a DRAINING slab; channel 1 holds the
last. -/
def abandoned (ch : Channel) (s : State) : State :=
  let v := { filling.slab 0 with fillTimer := none }
  { ((((s.setStream 3 { s.stream 3 with ring := [0, 1, 2, 3] }).setSlab 1 { v with state := .sealing, epoch := some 6 }).setSlab 2
      { v with state := .full, epoch := some 7, holder := some .singleEntry }).setSlab 3
      { v with state := .draining, epoch := some 8, holder := some (.channel 1) }).setChannel 1
      { ch with entry := some (.single 3), current := some 0 } with
    drainQueue := [.single 9, .single 2], fill := { placing := none, held := some (write 64), work := [{ slab := 1, next := 4 }] } }

/-- A channel that offers a segment, none of its own being sent. -/
def offered : Channel := { Channel.blank with state := .waitingSend, assembled := some sample }

theorem test_abandoned (s : State) (h : s = stopping ∨ s = asking [0x15, 3, 1, 0, 0] filling) :
    abortsAtOnce 3 (abandoned offered s) ∧ discardedBy 3 (abandoned offered s) = 4 ∧
      cutBy 3 (abandoned offered s) = some 8 := by
  rcases h with rfl | rfl <;> (unfold abortsAtOnce; decide +kernel)

theorem test_DeadlineForcesUnbind_applies :
    ((abandoned offered stopping).stream 3).state = .stopping ∧ ((abandoned offered stopping).stream 3).pendingOp = some 0 ∧
      findOp 0 (abandoned offered stopping) = some (op .unbind (.unbind false 0 none)) ∧
      (abandoned offered stopping).management.warmReset = none := by
  decide +kernel

/-- Stream 3 with its one slab in use DRAINING in a channel whose segment is being sent, in this state of its life. -/
def draining2 (s : State) : State :=
  ((s.setSlab 0 { filling.slab 0 with state := .draining, holder := some (.channel 1), fillTimer := none }).setChannel 1
    { offered with entry := some (.single 0), current := some 0, inTransmission := true })

theorem test_DeadlineForcesUnbind_waits_applies :
    ∀ s ∈ [stopping, asking [0x15, 3, 1, 0, 0] filling], ((draining2 s).stream 3).ring = [] ++ 0 :: [1] ∧
      ((draining2 s).slab 1).state = .empty ∧ ((draining2 s).slab 0).state = .draining ∧
      ((draining2 s).slab 0).holder = some (.channel 1) ∧ ((draining2 s).channel 1).abortable = true ∧
      ((draining2 s).channel 1).inTransmission = true ∧ (draining2 s).fill.work = [] := by
  decide +kernel

/-- The GRACEFUL UNBIND of a ring without a FILLING slab, and the ABORTs. -/
theorem test_UnbindStarts_applies :
    asks .a .unbind (request [0x15, 3, 1, 0, 0]) (abandoned offered (asking [0x15, 3, 1, 0, 0] filling)) ∧
      asks .a .unbind (request [0x15, 3, 1, 0, 0]) (draining2 (asking [0x15, 3, 1, 0, 0] filling)) ∧
      asks .a .unbind (request [0x15, 3, 0, 0, 1]) (draining2 (asking [0x15, 3, 0, 0, 1] filling)) ∧
      field [0x15, 3, 1, 0, 0] 2 1 = 1 ∧ field [0x15, 3, 0, 0, 1] 2 1 = 0 ∧
      freeSlot (draining2 (asking [0x15, 3, 1, 0, 0] filling)).management.ops = some 0 := by
  unfold asks
  decide +kernel

theorem test_LeaseExpires_applies :
    (claimed ready).management.holder = some .a ∧ (claimed ready).management.leaseTimer = some 1000000 := by
  decide

/-- The debt below its bound and at it. -/
theorem test_RefreshIntervalExpires_applies :
    ready.controller.debt < 8 ∧ 8 ≤ ({ ready.controller with debt := 8 } : Controller).debt := by
  decide

/-! ### The Frame Memory Controller -/

/-- A controller with a debt and a write queue. -/
def claimants (debt fairness : Nat) (q : List WriteEntry) (ch : Channel) : State :=
  (queued q { ready with controller := { ready.controller with debt := debt, fairness := fairness } }).setChannel 1 ch

/-- A channel that waits for a read. -/
def reading : Channel := { Channel.blank with state := .assembling, read := some (drainRead none) }

theorem test_ArbiterOrder_applies :
    4 ≤ (claimants 4 0 [] .blank).controller.debt ∧ refreshReady (claimants 4 0 [] .blank) = true ∧
      claimReady { ready with controller := { ready.controller with reads := [mgmtRead .direct none] } } .managementRead =
        true ∧
      claimReady (claimants 0 0 [entry false] .blank) .managementRead = false ∧
      claimReady (claimants 0 0 [entry false] .blank) .write = true ∧
      claimReady (claimants 0 8 [entry false] reading) .drainRead = true ∧
      claimReady (claimants 1 0 [] .blank) .write = false ∧ claimReady (claimants 1 0 [] .blank) .drainRead = false := by
  decide +kernel

/-- A tail entry that is merged into, with and without a slab; an empty queue; 31 entries and 32. -/
theorem test_WriteQueueTakes_applies :
    (entry false).line = (write 5).addr / 64 ∧ (entry false).granted = false ∧ (entry false).slab ≠ none ∧
      ({ entry false with slab := none } : WriteEntry).slab = none ∧
      (∀ e, (queued [] ready).controller.queue.getLast? = some e → e.line ≠ (write 5).addr / 64 ∨ e.granted = true) ∧
      (fullQueue.drop 1).length < 32 ∧ 32 ≤ fullQueue.length ∧
      fullQueue.getLast? = some (entry false) ∧ (entry false).line ≠ (write 64).addr / 64 := by
  refine ⟨by decide, by decide, by decide, rfl, ?_, by decide, by decide, by decide, by decide⟩
  intro e h
  cases h

theorem test_AccessGrants_applies :
    arbiterChoice (claimants 0 0 [entry false] .blank) = some .write ∧
      (claimants 0 0 [entry false] .blank).controller.state = .running ∧ (entry false).granted = false ∧
      arbiterChoice State.reset = some .write ∧ State.reset.controller.state = .initializing ∧
      State.reset.controller.progress < 1048576 ∧
      arbiterChoice (claimants 0 0 [] reading) = some .drainRead ∧ drainChoice (claimants 0 0 [] reading) = some 1 ∧
      arbiterChoice { ready with controller := { ready.controller with reads := [mgmtRead .direct none] } } =
        some .managementRead := by
  decide +kernel

theorem test_WriteCompletes_applies :
    (queued [entry true] filling).controller.queue = [entry true] ∧ (entry true).granted = true ∧
      (entry true).slab = some 0 := by
  decide

/-- Slab 0 SEALING with its last write in the queue, a FLUSH waiting for these slabs, and a SYNC for the entry. -/
def lastWrite (waiting : List SlabId) : State :=
  addOp { op .sync (.sync 0) with slot := 1, stream := none } (addOp (op .flush (.flush 2 waiting))
    (queued [entry true] ((filling.setSlab 0 { filling.slab 0 with state := .sealing, faulted := true }).setStream 3
      { filling.stream 3 with pendingOp := some 0 })))

/-- The last slab of a FLUSH, one of two, and none of its set. -/
theorem test_WriteCompletes_full_applies :
    ∀ waiting ∈ [[0], [0, 1], [1]], fillsUp (entry true) 0 3 (lastWrite waiting) ∧ ((lastWrite waiting).stream 3).gang = none ∧
      streamOp 3 (lastWrite waiting) = some (op .flush (.flush 2 waiting)) ∧
      (∀ x ∈ (lastWrite waiting).management.ops, x.slot = (op .flush (.flush 2 waiting)).slot →
        x = op .flush (.flush 2 waiting)) := by
  unfold fillsUp
  decide +kernel

theorem test_WriteCompletes_stays_applies (sl : SlabId) (i : StreamId) : ¬ fillsUp (entry true) sl i (queued [entry true] filling) := by
  rintro ⟨h, h2, -⟩
  cases h
  exact absurd h2 (by decide +kernel)

theorem test_InitWriteCompletes_applies :
    ((after .grantInitWrite .reset).controller.initInFlight.find? fun l => bankOf l == 0) = some 0 := by
  decide +kernel

/-- Channel 1's granted read for output index `k`, with `n` bytes of the segment assembled. -/
def returning (k n : Nat) : State :=
  draining { Channel.blank with state := .assembling, nextIndex := some k, read := some (drainRead (some [0, 1]))
                                assembled := if n = 0 then none else some (inbound .data 0 0 (List.replicate n 0)) }

/-- The first sample, the one that fills the segment, and the frame's last. -/
theorem test_DrainReadCompletes_applies :
    ∀ x ∈ [(0, 0), (5, 62), (7, 14)],
      ((returning x.1 x.2).channel 1).read = some (drainRead (some [0, 1])) ∧
      ((returning x.1 x.2).channel 1).state = .assembling ∧ ((returning x.1 x.2).channel 1).currentSlab = some 0 ∧
      ((returning x.1 x.2).channel 1).nextIndex = some x.1 ∧ (returning x.1 x.2).owner 0 = some 3 ∧
      ((returning x.1 x.2).stream 3).defn = some frame := by
  decide +kernel

/-- An ABORTING channel whose read completes, its segment still being sent, or not. -/
theorem test_DrainReadCompletes_aborting_applies :
    ∀ x ∈ [true, false],
      let s := draining { Channel.blank with state := .aborting, nextIndex := some 0, read := some (drainRead (some [0, 1]))
                                             inTransmission := x }
      (s.channel 1).read = some (drainRead (some [0, 1])) ∧ (s.channel 1).state = .aborting ∧
        (s.channel 1).inTransmission = x ∧ (s.channel 1).slabs = [0] ∧ s.owner 0 = some 3 := by
  decide +kernel

theorem test_ManagementReadCompletes_applies :
    (mgmtRead .discarded (some [1])).data = some [1] ∧ (mgmtRead .discarded (some [1])).owner = .discarded ∧
      (mgmtRead .direct (some [1])).owner = .direct ∧
      ({ ready.management with wait := .peek .a 7 false } : Management).wait = .peek .a 7 false ∧
      (mgmtRead (.tableEntry 0) (some [1])).owner = .tableEntry 0 ∧ findOp 0 (addOp (op .peek .peek) ready) = some (op .peek .peek) ∧
      (op .peek .peek).discard = false := by
  decide

theorem test_RefreshRuns_applies :
    arbiterChoice (claimants 4 0 [] .blank) = some .refresh ∧
      (after .grantRefresh (claimants 4 0 [] .blank)).controller.banks.get 0 = .refreshing := by
  decide +kernel

/-! ### The drain channels and the walks -/

/-- The Drain Queue holds this entry. -/
def draining1 (e : DrainEntry) : State := { active with drainQueue := [e] }

/-- A gang entry of slab 0. -/
def gangEntry : GangEntry := { gang := 2, markId := 200, members := [(3, 9), (4, 10)], epoch := 5, present := [(0, 0)] }

theorem test_ChannelTakesEntry_applies :
    (∀ e ∈ [DrainEntry.single 0, .gang gangEntry],
      (draining1 e).management.warmReset = none ∧ idleChannel (draining1 e) = some 0 ∧
      (draining1 e).drainQueue = [] ++ e :: [] ∧ takeable (draining1 e) [] e = true) ∧
    ((returning 0 0).channel 1).currentSlab = some 0 ∧ readWalkOf (returning 0 0) 3 0 = some (identityWalk 8) := by
  decide +kernel

/-- Streams 3, 4 and 5 with one slab each. -/
def threeStreams : State :=
  (((ready.setStream 3 { Stream.blank with ring := [0] }).setStream 4 { Stream.blank with ring := [1] }).setStream 5
    { Stream.blank with ring := [2] })

/-- A gang entry of the members 3, 4 and 5 at these positions. -/
def entryOf (g : GangId) (present : List (Nat × SlabId)) : DrainEntry :=
  .gang { gang := g, markId := 200, members := [(3, 9), (4, 10), (5, 11)], epoch := 5, present := present }

/-- While a channel drains a slab of stream 3, a gang entry with stream 3 waits, and so does a newer one of the same gang
or of its other streams; one of another stream does not (R121). -/
theorem test_queue_order :
    let s := threeStreams.setChannel 1 { Channel.blank with state := .assembling, entry := some (.single 0), current := some 0 }
    oldestTakeable s [] [entryOf 2 [(0, 0), (1, 1)], entryOf 2 [(2, 2)], .single 1] = none ∧
      oldestTakeable s [] [entryOf 2 [(0, 0), (1, 1)], .single 1, .single 2] = some (.single 2) := by
  decide +kernel

/-- A channel that has drained stream 3's slab of its gang entry still keeps stream 3's next entry waiting (R118, R121). -/
theorem test_drained_member_blocks :
    let s := threeStreams.setChannel 1
      { Channel.blank with state := .assembling, entry := some (entryOf 2 [(0, 0), (1, 1)]), current := some 1 }
    eligible s (.single 0) = false ∧ eligible s (.single 2) = true := by
  decide +kernel

/-- At the first and the last logical index. -/
theorem test_WalksStayInSlab_applies :
    walkRefusal (identityWalk 8) frame = none ∧ 0 < frame.frameLength ∧ 7 < frame.frameLength := by
  decide

/-- In the range and on both sides of it. -/
theorem test_Conversions_applies :
    1 ≤ frame.storeWidth ∧ 1 ≤ frame.outWidth ∧
      fieldValue .signed 24 (beNat [0x7F, 0xFF, 0xFF]) / (2 ^ 8 : Int) = 2 ^ 15 - 1 ∧
      fieldValue .signed 24 (beNat [0x80, 0, 0]) / (2 ^ 8 : Int) = -(2 ^ 15) ∧
      (2 ^ 15 - 1 : Int) < fieldValue .signed 24 (beNat [0x7F, 0xFF, 0xFF]) / (2 ^ 7 : Int) ∧
      fieldValue .signed 24 (beNat [0x80, 0, 0]) / (2 ^ 7 : Int) < -(2 ^ 15 : Int) := by
  decide

/-! ### Requests -/

/-- A LOAD WALK of the identity walk for stream 3. -/
def walkPayload (selector : Byte) (count : Byte) : List Byte :=
  [0x18, 3, selector, 0, 0, 1, 0, 0, 0, 0, 0, 0, 0, 0, count, 0, 0, 0, 1]

/-- Stream 3 with a staged write walk. -/
def staged (s : State) : State := s.setStream 3 { s.stream 3 with stagedWrite := some (identityWalk 8) }

/-- Streams 3 and 4 ACTIVE. -/
def twoActive : State := active.setStream 4 { active.stream 3 with ring := [] }

/-- Requests that pass the common checks: the kind, the payload, the state, and the status of the REPLY at once. -/
def requests : List (RequestKind × List Byte × State × Option Status) :=
  [(.identify, [0x01], State.reset, some .done), (.claim, [0x02, 0, 100], ready, some .done),
   (.claim, [0x02, 0, 99], ready, some .badParam), (.claim, [0x02, 0xEA, 0x60], ready, some .done),
   (.claim, [0x02, 0xEA, 0x61], ready, some .badParam), (.renew, [0x03], ready, some .done),
   (.release, [0x04], ready, some .done), (.reset, [0x05], ready, none),
   (.setNoticeRoute, [0x06, 1, 3], ready, some .done), (.setNoticeRoute, [0x06, 8, 0], ready, some .done),
   (.setNoticeRoute, [0x06, 9, 0], ready, some .badParam), (.setNoticeRoute, [0x06, 0, 0], ready, some .badParam),
   (.setNoticeRoute, [0x06, 1, 4], ready, some .badParam), (.readDeviceCounters, [0x07, 0], ready, some .done),
   (.readDeviceCounters, [0x07, 1], ready, some .done), (.readDeviceCounters, [0x07, 2], ready, some .badParam),
   (.define, 0x10 :: 3 :: definitionBytes frame, ready, some .done),
   (.define, 0x10 :: 3 :: definitionBytes { frame with ringSize := 1 }, ready, some .badParam),
   (.define, 0x10 :: 3 :: (definitionBytes frame).dropLast ++ [2], ready, some .badParam),
   (.define, 0x10 :: 64 :: definitionBytes frame, ready, some .badParam),
   (.clear, [0x11, 3], defined, some .done), (.clear, [0x11, 3], active, some .badState),
   (.clear, [0x11, 3], stopping, some .busy), (.bind, [0x12, 3], defined, some .done),
   (.bind, [0x12, 3], { defined with freeList := [0] }, some .noSlabs),
   (.bind, [0x12, 3], { defined with freeList := [0, 1] }, some .done), (.pause, [0x13, 3], active, some .done),
   (.pause, [0x13, 3], filling, some .done), (.resume, [0x14, 3],
     active.setStream 3 { active.stream 3 with state := .paused }, some .done),
   (.unbind, [0x15, 3, 0, 0, 1], active, some .done), (.unbind, [0x15, 3, 1, 0, 0], active, some .done),
   (.unbind, [0x15, 3, 0, 0, 0], active, some .badParam), (.unbind, [0x15, 3, 1, 0, 1], active, some .badParam),
   (.unbind, [0x15, 3, 2, 0, 0], active, some .badParam), (.unbind, [0x15, 3, 0, 0, 1], filling, none),
   (.unbind, [0x15, 3, 0, 0, 1], ganged [], some .inGang), (.flush, [0x16, 3], active, some .done),
   (.flush, [0x16, 3], filling, none), (.loadWalk, walkPayload 0 8, active, some .done),
   (.loadWalk, walkPayload 1 8, defined, some .done), (.loadWalk, walkPayload 2 8, active, some .badParam),
   (.loadWalk, walkPayload 0 9, active, some .badParam), (.commitLayout, [0x19, 3], staged defined, some .done),
   (.commitLayout, [0x19, 3], staged active, some .done), (.commitLayout, [0x19, 3], active, some .badState),
   (.discardStaging, [0x1A, 3], staged active, some .done), (.discardStaging, [0x1A, 3], ready, some .badState),
   (.queryStream, [0x1C, 63], ready, some .done), (.queryStream, [0x1C, 3], stopping, some .done), (.queryStream, [0x1C, 64], ready, some .badParam),
   (.querySlabs, [0x1D, 3, 15], filling, some .done), (.querySlabs, [0x1D, 3, 0], filling, some .done), (.querySlabs, [0x1D, 3, 16], filling, some .badParam),
   (.readStreamCounters, [0x1E, 3, 0], active, some .done), (.readStreamCounters, [0x1E, 3, 1], active, some .done),
   (.readStreamCounters, [0x1E, 3, 2], active, some .badParam),
   (.formGang, [0x20, 2, 2, 3, 4, 0, 50, 200], twoActive, some .done),
   (.formGang, [0x20, 2, 2, 3, 4, 0, 50, 200], active, some .badState),
   (.formGang, [0x20, 2, 1, 3, 0, 50, 200], twoActive, some .badParam),
   (.formGang, [0x20, 2, 2, 3, 4, 0, 50, 200], ganged [], some .badState),
   (.formGang, [0x20, 1, 2, 3, 4, 0, 50, 200], twoActive.setStream 4 { twoActive.stream 4 with gang := some 2 },
     some .inGang),
   (.dissolveGang, [0x21, 2], ganged [partialRecord], some .done), (.dissolveGang, [0x21, 1], ready, some .badState),
   (.dissolveGang, [0x21, 16], ready, some .badParam), (.queryGang, [0x22, 15], ready, some .done), (.queryGang, [0x22, 2], ganged [partialRecord], some .done),
   (.queryGang, [0x22, 16], ready, some .badParam), (.peek, [0x28, 0, 0, 0, 8, 8], ready, none),
   (.peek, [0x28, 0, 0, 0, 4, 8], ready, some .misaligned), (.peek, [0x28, 0, 0, 0, 0, 3], ready, some .badParam),
   (.peek, [0x28, 4, 0, 0, 0, 1], ready, some .range), (.peek, [0x28, 3, 0xFF, 0xFF, 0xFF, 1], ready, none),
   (.peek, [0x28, 0, 0, 0, 0, 1], State.reset, some .starting), (.peek, [0x28, 0, 0, 0, 0, 1], queued [entry false] ready, none),
   (.poke, [0x29, 0, 0, 0, 0, 1, 5], ready, some .done), (.poke, [0x29, 0, 0, 0, 64, 1, 5], queued fullQueue ready, none),
   (.sync, [0x2A], ready, some .done), (.sync, [0x2A], queued [entry false] ready, none)]

/-- The status of the first REPLY queued on Port A. -/
def replied (s : State) : Option Byte := s.portA.replies.head?.bind fun seg => seg.payload[1]?

/-- The state in which a request of the list waits on Port A, its link UP. -/
def waiting (x : RequestKind × List Byte × State × Option Status) : State :=
  let s := asking x.2.1 x.2.2.1
  { s with portA := { s.portA with link := .up } }

/-- Every request of the list is taken and passes the common checks. -/
theorem test_requests_asked :
    ∀ x ∈ requests, nextRequest .a (waiting x) = some (request x.2.1) ∧ requestKind x.2.1 = some x.1 ∧
      commonRefusal x.1 (request x.2.1) (waiting x) = none := by
  decide +kernel

/-- Every request of the list is answered with its status, or has no REPLY yet. -/
theorem test_requests_answered :
    ∀ x ∈ requests, replied (after (x.1.command .a) (waiting x)) = x.2.2.2.map Status.code := by
  decide +kernel

/-- Port A asks with IDENTIFY on the state. -/
def identifying (s : State) : State := asking [0x01] s

/-- A request is next; the reasons for which none is; and a request of the other port that does not come first. -/
theorem test_RequestTaking_applies :
    nextRequest .a (identifying ready) = some (request [0x01]) ∧
      ({ ready.management with wait := .poke .a 7 false (write 0) } : Management).wait ≠ .nothing ∧
      (resetting ready).management.warmReset ≠ none ∧
      reservations .a { ready with portA := { ready.portA with replies := List.replicate 7 (control []) } } < 8 ∧
      8 ≤ reservations .a { ready with portA := { ready.portA with replies := List.replicate 8 (control []) } } ∧
      ((holding sample ready).port .a).slots.head? = some sample ∧ sample.kind ≠ .control ∧
      (identifying ready).management.lastPort = Port.other .a ∧
      canTake .b { ready with portB := { ready.portB with slots := [control [0x01]] } } = true ∧
      canTake (Port.other .a) (identifying ready) = false := by
  decide +kernel

/-- No kind, an unknown one, a wrong length, no claim, and initialisation. -/
theorem test_CommonChecks_applies :
    nextRequest .a (asking [] ready) = some (request []) ∧
      nextRequest .a (asking [0x08, 1] ready) = some (request [0x08, 1]) ∧ (∀ k, RequestKind.code k ≠ 0x08) ∧
      nextRequest .a (asking [0x02, 0] ready) = some (request [0x02, 0]) ∧
      (request [0x02, 0]).payload.length ≠ expectedLength .claim (request [0x02, 0]).payload ∧
      nextRequest .a (holding (control [0x11, 3]) ready) = some (request [0x11, 3]) ∧
      needsClaim .clear [0x11, 3] = true ∧ ready.management.holder ≠ some .a ∧
      needsClaim .sync [0x2A] = false ∧ State.reset.controller.state = .initializing ∧
      nextRequest .a (asking [0x2A] { State.reset with portA := ready.portA }) = some (request [0x2A]) := by
  refine ⟨by decide +kernel, by decide +kernel, ?_, by decide +kernel⟩
  intro k
  cases k <;> decide

/-- A stream number beyond 63, a pending operation, and a state in which the request is not taken. -/
theorem test_StreamChecks_applies :
    (∀ x ∈ [([0x11, 64], ready), ([0x11, 3], stopping), ([0x11, 3], active), ([0x11, 63], ready)],
      nextRequest .a (asking x.1 x.2) = some (request x.1) ∧ commonRefusal .clear (request x.1) (asking x.1 x.2) = none) ∧
    RequestKind.permitted .clear = some [.defined] ∧ (stopping.stream 3).pendingOp ≠ none ∧
    (active.stream 3).pendingOp = none ∧ (active.stream 3).state ∉ [StreamState.defined] := by
  decide +kernel

/-- CLAIM by the port that does not hold the claim, and its RENEW and RELEASE. -/
theorem test_ClaimRequests_applies :
    (∀ x ∈ [(RequestKind.claim, [0x02, 0, 100]), (.renew, [0x03]), (.release, [0x04])],
      nextRequest .a (holding (control x.2) ready) = some (request x.2) ∧
      commonRefusal x.1 (request x.2) (holding (control x.2) ready) = none) ∧
    (holding (control [0x02, 0, 100]) ready).management.holder ≠ some (Port.other .a) ∧
    ({ (claimed ready).management with holder := some .b } : Management).holder = some (Port.other .a) ∧
    (identifying ready).management.holder = some .a ∧ (identifying ready).management.lease = some 1000 := by
  decide +kernel

/-- The requests on stream 3 that are permitted, each in a state that permits it. -/
def streamRequests : List (RequestKind × (StreamState → Bool) × List Byte × State) :=
  [(.define, definable, 0x10 :: 3 :: definitionBytes frame, ready), (.define, definable, 0x10 :: 3 :: definitionBytes frame, defined),
   (.clear, isDefined, [0x11, 3], defined), (.bind, isDefined, [0x12, 3], defined), (.pause, isActive, [0x13, 3], filling),
   (.resume, isPaused, [0x14, 3], active.setStream 3 { active.stream 3 with state := .paused }),
   (.unbind, isBound, [0x15, 3, 0, 0, 1], active), (.unbind, isBound, [0x15, 3, 0, 0, 1], filling),
   (.unbind, isBound, [0x15, 3, 1, 0, 0], ganged []), (.flush, isBound, [0x16, 3], active), (.flush, isBound, [0x16, 3], filling),
   (.loadWalk, hasLayout, walkPayload 0 8, active), (.commitLayout, hasLayout, [0x19, 3], staged defined),
   (.commitLayout, hasLayout, [0x19, 3], staged active)]

theorem test_stream_requests_apply :
    ∀ x ∈ streamRequests, asks .a x.1 (request x.2.2.1) (asking x.2.2.1 x.2.2.2) ∧ field x.2.2.1 1 1 = (3 : StreamId).val ∧
      ((asking x.2.2.1 x.2.2.2).stream 3).pendingOp = none ∧
      x.2.1 ((asking x.2.2.1 x.2.2.2).stream 3).state = true := by
  unfold asks
  decide +kernel

theorem test_NoticeRouteSet_applies :
    field [0x06, 1, 3] 1 1 = (0 : Fin 8).val + 1 ∧ field [0x06, 8, 0] 1 1 = (7 : Fin 8).val + 1 ∧
      field [0x06, 1, 3] 2 1 = (Route.code .both).toNat ∧ routeIndex .late = some 1 := by
  decide

theorem test_DefineTakesDefinition_applies :
    definitionOf (0x10 :: 3 :: definitionBytes frame) = some frame ∧ definitionOk frame = true ∧
      definitionOk { frame with ringSize := 1 } = false ∧
      definitionOf (0x10 :: 3 :: (definitionBytes frame).dropLast ++ [2]) = none := by
  decide +kernel

theorem test_BindTakesSlabs_applies :
    (defined.stream 3).defn = some frame ∧ frame.ringSize ≤ defined.freeList.length ∧ [(0 : SlabId)].length < frame.ringSize := by
  decide +kernel

/-! ### Seals of a whole ring -/

/-- Stream 3 asks, with the slabs 0 to 3: FILLING and being placed into, FILLING with a write outstanding, FILLING with none,
and SEALING with an item on the seal-work list. -/
def ringed (payload : List Byte) : State :=
  asking payload
    { ((((filling.setStream 3 { filling.stream 3 with ring := [0, 1, 2, 3] }).setSlab 0
        { filling.slab 0 with placing := true }).setSlab 1 { filling.slab 0 with epoch := some 6 }).setSlab 2
        { filling.slab 0 with epoch := some 4, outstanding := 0 }).setSlab 3 { filling.slab 0 with state := .sealing } with
      fill := { placing := some { stream := 3, slab := 0, next := 1, rest := [], aborted := false }, held := some (write 64)
                work := [{ slab := 3, next := 0 }] } }

/-- Stream 3 asks, hole fill ON, slabs 0 and 1 FILLING with holes at the indices 3, 6 and 7. -/
def holedTwice (payload : List Byte) : State :=
  asking payload (threeHoles.setSlab 1 { threeHoles.slab 0 with epoch := some 6 })

/-- A Fill Engine that is occupied leaves its list. -/
theorem workDone_occupied {v : State} (h : v.fill.held ≠ none) : workDone v v := by
  unfold workDone
  rw [if_neg fun e => h e.2]

/-- With nothing on the list, nothing is done. -/
theorem workDone_nothing {v : State} (h : v.fill.work = []) : ∃ t, workDone v t := by
  unfold workDone
  split
  · rw [h]
    exact ⟨_, rfl⟩
  · exact ⟨v, rfl⟩

/-- One item of the list, the write queue taking the writes of all the holes `l`, and the items behind it. -/
theorem itemsDone_taken {it : HoleItem} {rest : List HoleItem} {u : State} {i : StreamId} {d : Definition} {w : Walk}
    (l : List Nat) (ho : u.owner it.slab = some i) (hd : (u.stream i).defn = some d) (hw : writeWalkOf u i it.slab = some w)
    (h : holesListed (u.slab it.slab).coverage d.frameLength l it.next = true)
    (h1 : (enqueueAll (l.map (fillOf d w it.slab)) u).isSome = true)
    (h2 : 0 < (((enqueueAll (l.map (fillOf d w it.slab)) u).getD u).slab it.slab).outstanding)
    (hr : ∀ v, enqueueAll (l.map (fillOf d w it.slab)) u = some v → ∃ t, itemsDone rest
      (State.count { v with fill := { v.fill with work := rest } } i fun n =>
        { n with holesFilled := satAdd n.holesFilled l.length }) t) : ∃ t, itemsDone (it :: rest) u t := by
  obtain ⟨v, hv⟩ := Option.isSome_iff_exists.1 h1
  rw [hv] at h2
  obtain ⟨t, ht⟩ := hr v hv
  exact ⟨t, i, d, w, ho, hd, hw, Or.inl ⟨l, v, holesListed_are h, hv, h2, ht⟩⟩

/-- The ring of `ringed` and its Fill Engine, as PAUSE, UNBIND and FLUSH find them. -/
theorem test_ring_statements_apply :
    (∀ x ∈ [[0x13, 3], [0x15, 3, 0, 0, 1], [0x16, 3]], ((ringed x).stream 3).ring = [0, 1, 2, 3] ∧
      ((ringed x).stream 3).ring.Nodup ∧ ((ringed x).stream 3).gang = none ∧ (ringed x).fill.held ≠ none ∧
      (∀ it ∈ (ringed x).fill.work, ((ringed x).slab it.slab).state ≠ .filling) ∧ ((ringed x).slab 0).placing = true ∧
      0 < ((ringed x).slab 1).outstanding ∧ ((ringed x).slab 2).outstanding = 0 ∧
      (((ringed x).stream 3).defn.any fun d => d.holeFill) = false) ∧
    asksStream .a .pause isActive 3 (request [0x13, 3]) (ringed [0x13, 3]) ∧
    asksStream .a .unbind isBound 3 (request [0x15, 3, 0, 0, 1]) (ringed [0x15, 3, 0, 0, 1]) ∧
    asksStream .a .flush isBound 3 (request [0x16, 3]) (ringed [0x16, 3]) ∧
    (∀ x ∈ (active.stream 3).ring, (active.slab x).state = .empty) ∧ active.fill.work = [] := by
  unfold asksStream asks
  decide +kernel

/-- The state PAUSE seals the ring of stream 3 in. -/
def pausedFrom (s : State) : State := (takeRequest .a s).setStream 3 { s.stream 3 with state := .paused }

/-- PAUSE seals two slabs with holes, hole fill ON, and the write queue takes the writes of both. -/
theorem test_PauseAndResume_holes_applies :
    let s := holedTwice [0x13, 3]
    asksStream .a .pause isActive 3 (request [0x13, 3]) s ∧ itemsSealed s ∧ (s.stream 3).ring.Nodup ∧
      (ringReached 3 .paused s (pausedFrom s)).fill.work = [{ slab := 0, next := 0 }, { slab := 1, next := 0 }] ∧
      ∃ t, workDone (ringReached 3 .paused s (pausedFrom s)) t := by
  refine ⟨by unfold asksStream asks; decide +kernel, by unfold itemsSealed; decide +kernel, by decide +kernel,
    by decide +kernel, ?_⟩
  have hf : (ringReached 3 .paused (holedTwice [0x13, 3]) (pausedFrom (holedTwice [0x13, 3]))).fill =
      { placing := none, held := none, work := [{ slab := 0, next := 0 }, { slab := 1, next := 0 }] } := by decide +kernel
  obtain ⟨t, ht⟩ := itemsDone_taken (i := 3) (d := frameOn) (w := identityWalk 8)
    (u := ringReached 3 .paused (holedTwice [0x13, 3]) (pausedFrom (holedTwice [0x13, 3])))
    (it := { slab := 0, next := 0 }) (rest := [{ slab := 1, next := 0 }]) [3, 6, 7] (by decide +kernel) (by decide +kernel)
    (by decide +kernel) (by decide +kernel) (by decide +kernel) (by decide +kernel) fun v hv => by
      have e : v = (enqueueAll ([3, 6, 7].map (fillOf frameOn (identityWalk 8) 0))
          (ringReached 3 .paused (holedTwice [0x13, 3]) (pausedFrom (holedTwice [0x13, 3])))).getD v := by
        rw [hv]
        rfl
      have e' : (enqueueAll ([3, 6, 7].map (fillOf frameOn (identityWalk 8) 0))
          (ringReached 3 .paused (holedTwice [0x13, 3]) (pausedFrom (holedTwice [0x13, 3])))) = some
          ((enqueueAll ([3, 6, 7].map (fillOf frameOn (identityWalk 8) 0))
            (ringReached 3 .paused (holedTwice [0x13, 3]) (pausedFrom (holedTwice [0x13, 3])))).getD ready) := by
        rw [hv]
        rfl
      obtain rfl := Option.some.inj (hv.symm.trans e')
      exact itemsDone_taken (i := 3) (d := frameOn) (w := identityWalk 8) [3, 6, 7] (by decide +kernel) (by decide +kernel)
        (by decide +kernel) (by decide +kernel) (by decide +kernel) (by decide +kernel) fun _ _ => ⟨_, rfl⟩
  refine ⟨t, ?_⟩
  unfold workDone
  rw [if_pos (by rw [hf]; exact ⟨rfl, rfl⟩), hf]
  exact ht

/-- PAUSE of a member of gang 2 whose only FILLING slab is FULL at its seal. -/
theorem test_PauseAndResume_gang_applies :
    let s := asking [0x13, 3] ((ganged []).setSlab 0 { filling.slab 0 with outstanding := 0 })
    asksStream .a .pause isActive 3 (request [0x13, 3]) s ∧ (s.stream 3).ring = [] ++ 0 :: [1] ∧
      (s.slab 1).state ≠ .filling ∧ (s.stream 3).gang = some 2 ∧ ¬ staysOpen 3 0 s ∧ itemsSealed s ∧
      ∃ t, workDone (arrive 2 3 0 (conversionRaised 3 (s.slab 0) 0 ((sealedWaiting 3 0 .paused (pausedFrom s)).setSlab 0
        { (sealedWaiting 3 0 .paused (pausedFrom s)).slab 0 with state := .full }))) t := by
  refine ⟨by unfold asksStream asks; decide +kernel, by decide +kernel, by decide +kernel, by decide +kernel,
    by unfold staysOpen; decide +kernel, by unfold itemsSealed; decide +kernel, workDone_nothing (by decide +kernel)⟩

/-- Stream 3 asks for a FLUSH of a SEALING slab, a FILLING one and a FILLING one that is being placed into. -/
def flushing : State :=
  asking [0x16, 3] ((((filling.setStream 3 { filling.stream 3 with ring := [0, 1, 2] }).setSlab 1
    { filling.slab 0 with epoch := some 6 }).setSlab 2 { filling.slab 0 with epoch := some 4, state := .sealing }).setSlab 0
      { filling.slab 0 with placing := true })

/-- Such a FLUSH, and one whose only slab becomes FULL at its seal. -/
theorem test_FlushStarts_set_applies :
    asksStream .a .flush isBound 3 (request [0x16, 3]) flushing ∧
      (flushing.stream 3).ring.filter (fun x => (flushing.slab x).state == .filling || (flushing.slab x).state == .sealing) =
        [0, 1, 2] ∧
      (flushing.stream 3).ring.Nodup ∧ itemsSealed flushing ∧ staysOpen 3 0 flushing ∧ staysOpen 3 1 flushing ∧
      (flushing.slab 2).state ≠ .filling ∧
      (let s := asking [0x16, 3] (settled id)
      (s.stream 3).ring.filter (fun x => (s.slab x).state == .filling || (s.slab x).state == .sealing) = [0] ∧
        sealsToFull 3 0 s) := by
  unfold asksStream asks sealsToFull itemsSealed staysOpen
  decide +kernel

/-! ### Queries -/

/-- Twelve slabs and more whose coverage lists hold 16 ranges: eleven reports fit, and a twelfth does not. -/
def reported : State :=
  { active.setStream 3 { active.stream 3 with ring := [0, 1, 2, 3, 4, 5, 6, 7, 8, 9, 10, 11, 12, 13, 14, 15] } with
    slabs := Table.replicate 1024 { Slab.blank with coverage := List.replicate 16 { start := 0, stop := 1 } } }

/-- An EMPTY stream, a STOPPING one with its pending operation, a ring whose reports all fit and one whose do not, a FREE gang
and a FORMED one. -/
theorem test_QueriesAnswer_applies :
    (ready.stream 63).state = .empty ∧ (ready.stream 63).defn = none ∧ (stopping.stream 3).state ≠ .empty ∧
      (stopping.stream 3).defn = some frame ∧ (stopping.stream 3).current = some (identityLayout 8) ∧
      (stopping.stream 3).pendingOp = some 0 ∧
      (let reports := ((filling.stream 3).ring.drop 0).map fun sl => slabLayout sl (filling.slab sl)
      2 ≤ reports.length ∧ (reports.take 2).flatten.length ≤ 1019 ∧ ¬ 2 < reports.length) ∧
      (let reports := ((reported.stream 3).ring.drop 0).map fun sl => slabLayout sl (reported.slab sl)
      11 < reports.length ∧ (reports.take 11).flatten.length ≤ 1019 ∧ 1019 < (reports.take 12).flatten.length) ∧
      (ready.stream 3).ring = [] ∧ (ready.gang 15).state = .free ∧ ((ganged [partialRecord]).gang 2).state = .formed := by
  decide +kernel

/-- The pending-operation table with room and full. -/
theorem test_table_statements_apply :
    freeSlot ready.management.ops = some 0 ∧
      freeSlot ((List.finRange 8).map fun k => { op .sync (.sync 0) with slot := k }) = none := by
  decide

theorem test_LayoutRequests_applies :
    walkOf (walkPayload 0 8) = some (identityWalk 8) ∧ walkRefusal (identityWalk 8) frame = none ∧
      walkOf ((walkPayload 0 8).set 6 3) = none ∧
      walkRefusal { identityWalk 8 with origin := 32768 } frame = some .range ∧
      walkRefusal { identityWalk 8 with levels := [] } frame = some .badParam ∧
      ((staged active).stream 3).current = some (identityLayout 8) ∧ ((staged active).stream 3).stagedWrite ≠ none ∧
      ((staged active).stream 3).previous = none ∧
      ({ (staged active).stream 3 with previous := some (identityLayout 8) } : Stream).previous ≠ none := by
  decide +kernel

theorem test_DiscardStagingTaken_applies :
    asks .a .discardStaging (request [0x1A, 3]) (asking [0x1A, 3] (staged active)) ∧
      field [0x1A, 3] 1 1 = (3 : StreamId).val ∧ ((staged active).stream 3).state = .active ∧
      (ready.stream 3).state = .empty := by
  unfold asks
  decide +kernel

theorem test_GangRequests_applies :
    gangRequestOf [0x20, 2, 2, 3, 4, 0, 50, 200] =
        some { gang := 2, members := [3, 4], alignTimeout := 50, markId := 200 } ∧
      gangRequestOf [0x20, 2, 1, 3, 0, 50, 200] = none ∧ (ready.gang 2).state = .free ∧
      ((ganged [partialRecord]).gang 2).state = .formed ∧
      (∀ i ∈ [(3 : StreamId), 4], (twoActive.stream i).state = .active ∧ (twoActive.stream i).gang = none) := by
  decide +kernel

/-- The addresses at the ends of memory, a hazard, and a POKE that waits. -/
theorem test_MemoryRequests_applies :
    field [0x28, 3, 0xFF, 0xFF, 0xFF, 1] 1 4 = 67108863 ∧ field [0x28, 4, 0, 0, 0, 1] 1 4 = 67108864 ∧
      (∀ e ∈ ready.controller.queue, e.line ≠ 0) ∧
      ((queued [entry false] ready).controller.queue.filter fun x => x.line == 0).getLast? = some (entry false) ∧
      (enqueue (write 0) ready).isSome = true ∧ enqueue (write 64) (queued fullQueue ready) = none ∧
      ({ ready.management with wait := .poke .a 7 false (write 64) } : Management).wait = .poke .a 7 false (write 64) := by
  decide +kernel

/-- RESET with a STOPPING stream and a channel that has a segment to give up: at rest, with its segment being sent, or with
seal work to discard. -/
theorem test_ResetStarts_applies :
    (∀ s ∈ [asking [0x05] stopping, asking [0x05] (draining2 stopping), asking [0x05] (abandoned offered stopping)],
      asks .a .reset (request [0x05]) s ∧ (s.stream 3).state = .stopping ∧ (s.stream 3).pendingOp = some 0) ∧
    (asking [0x05] stopping).fill.work = [] ∧ ((asking [0x05] stopping).channel 1).state = .idle ∧
    ((asking [0x05] (draining2 stopping)).channel 1).state = .waitingSend ∧
    ((asking [0x05] (draining2 stopping)).channel 1).inTransmission = true ∧
    ((asking [0x05] (abandoned offered stopping)).channel 1).read = none ∧
    ((asking [0x05] (abandoned offered stopping)).channel 1).inTransmission = false ∧
    (asking [0x05] (abandoned offered stopping)).fill.work ≠ [] := by
  unfold asks
  decide +kernel

/-- A RESET whose step 3 makes the last slab of a STOPPING stream's ring EMPTY ends its UNBIND without REPLY: the stream stays
STOPPING with its ring, and nothing is queued or noticed (R185). -/
theorem test_reset_ends_unbind :
    let s := asking [0x05] ((draining2 stopping).setChannel 1 { (draining2 stopping).channel 1 with inTransmission := false })
    let t := after (.reset .a) s
    (t.slab 0).state = .empty ∧ (t.channel 1).state = .idle ∧ (t.stream 3).state = .stopping ∧
      (t.stream 3).ring = [0, 1] ∧ (t.stream 3).pendingOp = none ∧ t.management.ops = [] ∧ t.portA.replies = [] ∧
      t.portA.notices = [] ∧ t.portA.lost = s.portA.lost := by
  decide +kernel

/-- A warm reset whose clearing may come, and those for which it waits: the write queue, an IDLE channel's transmission, the
Fill Engine. -/
theorem test_WarmResetClears_applies :
    (resetting ready).management.warmReset = some { port := .a, tag := 7, discard := false } ∧
      (resetting ready).controller.queue = [] ∧ (resetting ready).controller.reads = [] ∧
      (∀ c, (resetting ready).channel c = .blank) ∧
      (resetting ready).fill = { placing := none, held := none, work := [] } ∧
      (queued [entry true] (resetting ready)).controller.queue ≠ [] ∧
      ((resetting ready).setChannel 1 { Channel.blank with inTransmission := true }).channel 1 ≠ .blank ∧
      (held (resetting ready)).fill ≠ { placing := none, held := none, work := [] } := by
  decide +kernel

end Sys2Proof.Tests
end

section
/-! PROOF. The step and the queue of commands; the serial order of epochs and the saturation of counters
(00_scope.md R1 to R3, 11_notices_and_counters.md R191). -/

namespace Sys2Proof.Machine

/-! ### The step -/

/-- A step with a command at the front of the queue carries that command out. -/
@[simp] theorem step_pending_cons (c : Instr) (rest : List Instr) (s : State) :
    step { s with pending := c :: rest } = exec c { s with pending := rest } := rfl

/-- A step on an empty queue is one microsecond. -/
theorem step_of_pending_nil {s : State} (h : s.pending = []) : step s = .next s.tick := by
  rw [step, h]

/-! ### Epochs (R2) -/

/-- The difference of two epochs, as R2 computes it. -/
theorem toNat_epoch_sub (e f : Epoch) : (e - f).toNat = (e.toNat + 65536 - f.toNat) % 65536 := by
  rw [BitVec.toNat_sub]
  omega

theorem newer_iff (e f : Epoch) :
    newer e f = true ↔
      1 ≤ (e.toNat + 65536 - f.toNat) % 65536 ∧ (e.toNat + 65536 - f.toNat) % 65536 ≤ 32767 := by
  rw [newer, decide_eq_true_iff, toNat_epoch_sub]

theorem newer_eq_false_iff (e f : Epoch) :
    newer e f = false ↔
      ¬ (1 ≤ (e.toNat + 65536 - f.toNat) % 65536 ∧ (e.toNat + 65536 - f.toNat) % 65536 ≤ 32767) := by
  rw [← newer_iff, Bool.not_eq_true]

/-- The two differences of distinct epochs add up to 65,536, so they are not both at most 32,767. -/
theorem newer_asymm {e f : Epoch} (h : newer e f = true) : newer f e = false := by
  have he : e.toNat < 65536 := e.isLt
  have hf : f.toNat < 65536 := f.isLt
  rw [newer_iff] at h
  rw [newer_eq_false_iff]
  omega

/-- Of two epochs that differ by 32,768 neither is newer. -/
theorem not_newer_of_opposite {e f : Epoch} (h : (e.toNat + 65536 - f.toNat) % 65536 = 32768) :
    newer e f = false ∧ newer f e = false := by
  have he : e.toNat < 65536 := e.isLt
  have hf : f.toNat < 65536 := f.isLt
  rw [newer_eq_false_iff, newer_eq_false_iff]
  omega

@[simp] theorem raiseEpoch_none (e : Epoch) : raiseEpoch none e = e := rfl

theorem raiseEpoch_some (e f : Epoch) : raiseEpoch (some f) e = if newer e f = true then e else f := rfl

/-! ### Counters (R3, R191) -/

/-- A saturating sum stops at the largest value of its width. -/
theorem toNat_satAdd {w : Nat} (c : BitVec w) (n : Nat) :
    (satAdd c n).toNat = min (2 ^ w - 1) (c.toNat + n) := by
  rw [satAdd]
  split
  · next hfits =>
    rw [BitVec.toNat_ofNat, Nat.mod_eq_of_lt hfits]
    omega
  · next hover =>
    rw [BitVec.toNat_allOnes]
    omega

end Sys2Proof.Machine

open Sys2Proof Sys2Proof.Machine

/-- Settles O1: the definition of a step, by the two forms of the queue. -/
theorem stepRunsFrontCommand : Obligations.StepRunsFrontCommand :=
  ⟨fun c s => step_pending_cons c s.pending s, fun _ h => step_of_pending_nil h⟩

/-- Settles O10: the serial order from the difference of R2, and the saturation from that of every width. -/
theorem epochsAndCounters : Obligations.EpochsAndCounters :=
  ⟨newer_iff, fun _ _ => newer_asymm, fun _ _ => not_newer_of_opposite, raiseEpoch_none, raiseEpoch_some,
    fun c n => toNat_satAdd c n, fun c n => toNat_satAdd c n⟩
end

section
/-! PROOF. The first law and the law of unbound streams: every step keeps them, and a cold reset meets them with the other
laws of the device (01_streams_and_the_stream_table.md R4, R10, R11, R19). -/

namespace Sys2Proof.Machine

/-! ### The slabs in the rings of all streams -/

theorem ringSlabs_congr {s t : State} (h : t.streams = s.streams) : ringSlabs t = ringSlabs s := by
  rw [ringSlabs, ringSlabs, h]

/-- A stream's entry replaced takes its old ring out of the rings of all streams and puts its new one in. -/
theorem ringSlabs_setStream (s : State) (i : StreamId) (v : Stream) :
    (ringSlabs (s.setStream i v) ++ (s.stream i).ring).Perm (ringSlabs s ++ v.ring) := by
  have hi : i.val < s.streams.rows.length := by rw [s.streams.size]; exact i.isLt
  have hold : s.streams.rows = s.streams.rows.take i.val ++ s.stream i :: s.streams.rows.drop (i.val + 1) := by
    rw [State.stream, Table.get, List.getElem_cons_drop, List.take_append_drop]
  have hnew : (s.setStream i v).streams.rows = s.streams.rows.take i.val ++ v :: s.streams.rows.drop (i.val + 1) :=
    List.set_eq_take_append_cons_drop.trans (if_pos hi)
  have hflat : ∀ (a b : List SlabId) (x y : List SlabId), (a ++ (x ++ b) ++ y).Perm (a ++ (y ++ b) ++ x) := fun a b x y => by
    rw [List.perm_iff_count]
    intro z
    simp only [List.count_append]
    omega
  rw [ringSlabs, ringSlabs, hnew]
  conv_rhs => rw [hold]
  simp only [List.flatMap_append, List.flatMap_cons]
  exact hflat _ _ _ _

/-- A change of every entry that leaves the rings leaves the slabs in them. -/
theorem ringSlabs_map {s : State} {f : Stream → Stream} (h : ∀ e, (f e).ring = e.ring) :
    ringSlabs { s with streams := s.streams.map f } = ringSlabs s := by
  simp only [ringSlabs, Table.map, List.flatMap_map, h]

/-! ### The first law, with the law that it rests on -/

/-- The first law and the law of unbound streams (R4, R10). -/
def bindingLaw (s : State) : Prop := slabLaw s ∧ ringLaw s

/-- Both laws speak of the free list and the streams alone. -/
theorem bindingLaw_congr {s t : State} (hf : t.freeList = s.freeList) (hs : t.streams = s.streams) (h : bindingLaw s) :
    bindingLaw t := by
  unfold bindingLaw slabLaw ringLaw State.stream at h ⊢
  rw [hf, ringSlabs_congr hs, hs]
  exact h

/-- A stream's ring and the free list exchange slabs: the law stands when together they hold the slabs that they held. -/
theorem bindingLaw_setStream {s : State} {i : StreamId} {v : Stream} {l : List SlabId}
    (hp : (l ++ v.ring).Perm (s.freeList ++ (s.stream i).ring)) (hr : holdsRing v.state = false → v.ring = [])
    (h : bindingLaw s) : bindingLaw ({ s with freeList := l }.setStream i v) := by
  obtain ⟨hslab, hring⟩ := h
  refine ⟨?_, fun k hk => ?_⟩
  · refine List.Perm.trans ?_ hslab
    have hq := ringSlabs_setStream s i v
    show (l ++ ringSlabs (s.setStream i v)).Perm _
    rw [List.perm_iff_count] at hp hq ⊢
    intro z
    have hpz := hp z
    have hqz := hq z
    simp only [List.count_append] at hpz hqz ⊢
    omega
  · by_cases e : i = k
    · subst e
      rw [State.setStream_stream] at hk ⊢
      exact hr hk
    · rw [State.setStream_stream_ne _ _ e] at hk ⊢
      exact hring k hk

/-- The creation of a record, with its forced releases, leaves the streams and the free list (R107). -/
theorem createRecord_same (g : GangId) (k : Nat) (sl : SlabId) (e : Epoch) (s : State) :
    (createRecord g k sl e s).freeList = s.freeList ∧ (createRecord g k sl e s).streams = s.streams := by
  let Same : State → Prop := fun t => t.freeList = s.freeList ∧ t.streams = s.streams
  have release : ∀ {g t}, Same t → Same (releaseOldest g t) := fun ht =>
    releaseOldest_keeps (P := Same) (fun h => ⟨(offerNotice_freeList ..).trans h.1, (offerNotice_streams ..).trans h.2⟩)
      (fun h => h) (fun _ h => h) (fun h => h) ht
  have hs : Same s := ⟨rfl, rfl⟩
  show Same (createRecord g k sl e s)
  unfold createRecord
  dsimp only
  split
  · exact completionLoop_keeps release _ (release hs)
  · exact hs

/-- A completed UNBIND returns its ring to the free list (R19). -/
theorem completeUnbind_bindingLaw {i : StreamId} {o : PendingOp} {forced : Bool} {n : Nat} {cut : Option Epoch} {s : State}
    (h : bindingLaw s) : bindingLaw (completeUnbind i o forced n cut s) := by
  have offer : ∀ {p m t}, bindingLaw t → bindingLaw (offerNotice p m t) := fun h =>
    bindingLaw_congr (offerNotice_freeList ..) (offerNotice_streams ..) h
  have reply : ∀ {p r t}, bindingLaw t → bindingLaw (pushReply p r t) := fun h =>
    bindingLaw_congr (pushReply_freeList ..) (pushReply_streams ..) h
  have freed : bindingLaw ({ modSlabs Slab.freed (s.stream i).ring s with
      freeList := s.freeList ++ (s.stream i).ring }.setStream i (s.stream i).unbound) := by
    have hm := modSlabs_eq Slab.freed (s.stream i).ring s
    refine bindingLaw_congr (s := { s with freeList := s.freeList ++ (s.stream i).ring }.setStream i (s.stream i).unbound)
      rfl ?_ (bindingLaw_setStream (by simp [Stream.unbound]) (fun _ => rfl) h)
    rw [modSlabs, hm]
    rfl
  have released : bindingLaw (lateReply o.port o.discard (unbindReply o forced n) (releaseOp o.slot
      (State.modStream { modSlabs Slab.freed (s.stream i).ring s with
        freeList := (modSlabs Slab.freed (s.stream i).ring s).freeList ++ (s.stream i).ring } i Stream.unbound))) := by
    refine lateReply_keeps reply (bindingLaw_congr ?_ ?_ freed)
    · rw [modSlabs, modSlabs_eq]; rfl
    · rw [modSlabs, modSlabs_eq]; rfl
  unfold completeUnbind
  dsimp only
  split
  · exact raise_keeps offer released
  · exact released

/-- The shared operations keep the laws. -/
theorem bindingLaw_closed : Closed bindingLaw where
  offer h := bindingLaw_congr (offerNotice_freeList ..) (offerNotice_streams ..) h
  reply h := bindingLaw_congr (pushReply_freeList ..) (pushReply_streams ..) h
  stream {i v s} hr hb h :=
    bindingLaw_setStream (l := s.freeList) (by rw [hr]) (fun hv => hr.trans (h.2 i (hb ▸ hv))) h
  slab h := h
  channel h := h
  gang _ h := h
  create h := bindingLaw_congr (createRecord_same ..).1 (createRecord_same ..).2 h
  unbind h := completeUnbind_bindingLaw h
  drain h := h
  fill h := h
  ops h := h

theorem bindingLaw_mapStreams {f : Stream → Stream} {s : State} (hf : ∀ e, (f e).ring = e.ring ∧ (f e).state = e.state)
    (h : bindingLaw s) : bindingLaw { s with streams := s.streams.map f } := by
  refine ⟨?_, fun i hi => ?_⟩
  · unfold slabLaw
    rw [ringSlabs_map fun e => (hf e).1]
    exact h.1
  · have e : State.stream { s with streams := s.streams.map f } i = f (s.stream i) := Table.get_map ..
    rw [e, (hf _).2] at hi
    rw [e, (hf _).1]
    exact h.2 i hi

/-- A DOWN event keeps the laws: it may complete an UNBIND, and ends no binding otherwise (R156). -/
theorem goDown_bindingLaw {p : Port} {s : State} (h : bindingLaw s) : bindingLaw (goDown p s) := by
  have dropped : bindingLaw (markDiscards p (s.modPort p PortState.dropped)) :=
    bindingLaw_congr (State.modPort_freeList ..) (State.modPort_streams ..) h
  unfold goDown
  dsimp only
  refine bindingLaw_closed.raiseLink ?_
  unfold dropClaim
  split
  · refine bindingLaw_closed.raise ?_
    exact bindingLaw_mapStreams (fun _ => ⟨rfl, rfl⟩) (bindingLaw_closed.transmissionEnded dropped)
  · exact bindingLaw_closed.transmissionEnded dropped

/-- BIND moves the ring's slabs from the free list to the stream, which had no ring (R11). -/
theorem bindRing_bindingLaw {i : StreamId} {n : Nat} {s : State} (hi : holdsRing (s.stream i).state = false)
    (h : bindingLaw s) : bindingLaw (bindRing i n s) := by
  have bound : bindingLaw ({ s with freeList := s.freeList.drop n }.setStream i
      ((s.stream i).bound (s.freeList.take n))) := by
    refine bindingLaw_setStream ?_ (fun hv => ?_) h
    · rw [h.2 i hi, List.append_nil]
      exact List.perm_append_comm.trans (by rw [Stream.bound, List.take_append_drop])
    · cases hv
  exact modSlabs_keeps (fun h => h) bound

/-- Streams that are all blank hold no slab. -/
theorem bindingLaw_blank {s : State} (hf : s.freeList = allSlabs) (hs : s.streams = Table.replicate 64 .blank) :
    bindingLaw s := by
  refine ⟨?_, fun i _ => ?_⟩
  · have none : ringSlabs s = [] := by
      rw [ringSlabs, hs, List.flatMap_eq_nil_iff]
      intro e he
      rw [List.eq_of_mem_replicate he]
      rfl
    rw [slabLaw, hf, none, List.append_nil]
  · rw [State.stream, hs, Table.get_replicate]
    rfl

theorem clearAll_bindingLaw (s : State) : bindingLaw (clearAll s) := by
  refine bindingLaw_blank ?_ ?_ <;> (unfold clearAll; with_reducible rfl)

theorem reset_bindingLaw : bindingLaw State.reset := by
  refine bindingLaw_blank ?_ ?_ <;> (unfold State.reset; with_reducible rfl)

/-- Every command keeps the laws. -/
theorem bindingLaw_kept : Kept bindingLaw where
  toClosed := bindingLaw_closed
  enqueue h := enqueue_keeps (fun h => h) (fun _ h => h) h
  time h := h
  port _ h := bindingLaw_congr (State.setPort_freeList ..) (State.setPort_streams ..) h
  up _ h := bindingLaw_congr (State.setPort_freeList ..) (State.setPort_streams ..) h
  down _ h := goDown_bindingLaw h
  mgmt _ h := h
  hold {p n s} _ h := bindingLaw_congr (t := holdClaim p n (takeRequest p s)) (takeRequest_freeList p s)
    (takeRequest_streams p s) h
  streams hf h := bindingLaw_mapStreams hf h
  slabs h := h
  gangs _ h := h
  channels h := h
  routes h := h
  turn h := h
  control _ _ _ h := h
  bind hi _ h := bindRing_bindingLaw hi h
  clear _ := clearAll_bindingLaw _
  cold _ :=
    bindingLaw_congr (s := State.reset) (by with_reducible rfl) (by with_reducible rfl) reset_bindingLaw

theorem reset_port (p : Port) : State.reset.port p = .blank := by cases p <;> rfl

end Sys2Proof.Machine

open Sys2Proof Sys2Proof.Machine

/-- Settles O9: the free list and the rings exchange slabs at BIND and at the end of an UNBIND alone. -/
theorem slabLawKept : Obligations.SlabLawKept := fun _ _ hslab hring hstep =>
  bindingLaw_kept.step (fun h => h) (fun h => h) (fun h => h) ⟨hslab, hring⟩ _ hstep

/-- Settles O5: each law from the blank records of a cold reset. -/
theorem resetMeetsLaws : Obligations.ResetMeetsLaws := by
  refine ⟨fun p b => ?_, fun p hp => ?_, ⟨Nat.zero_le _, Nat.zero_le _⟩, Nat.zero_le _, fun g => ?_, fun p => ?_,
    Memory.wf_nil, reset_bindingLaw.1, reset_bindingLaw.2⟩
  · rw [reset_port]
    cases b <;> rfl
  · cases hp
  · rw [State.gang, State.reset, Table.get_replicate]
    exact Nat.zero_le _
  · rw [reset_port]
    exact Nat.zero_le _
end

section
/-! PROOF. The requests that change a stream: their three checks, DEFINE, CLEAR and BIND
(01_streams_and_the_stream_table.md R6 to R11). -/

namespace Sys2Proof.Machine

/-! ### The states in which a request is taken, as the lists of R6 -/

theorem definable_eq : definable = fun v => [.empty, .defined].contains v := by funext v; cases v <;> rfl

theorem isDefined_eq : isDefined = fun v => [.defined].contains v := by funext v; cases v <;> rfl

theorem isActive_eq : isActive = fun v => [.active].contains v := by funext v; cases v <;> rfl

theorem isPaused_eq : isPaused = fun v => [.paused].contains v := by funext v; cases v <;> rfl

theorem isBound_eq : isBound = fun v => [.active, .paused].contains v := by funext v; cases v <;> rfl

theorem hasLayout_eq : hasLayout = fun v => [.defined, .active, .paused].contains v := by funext v; cases v <;> rfl

/-- The command of a request that changes a stream is the request's own rule behind the three checks of R6. -/
theorem exec_command_onStream {k : RequestKind} {l : List StreamState} (h : k.permitted = some l) :
    ∃ own : StreamId → Request → State → State, ∀ p s,
      exec (k.command p) s = .next (serve k (onStream k (fun v => l.contains v) own) p s) := by
  cases k <;> cases h
  case define => exact ⟨defineStream, fun _ _ => by rw [← definable_eq]; rfl⟩
  case clear => exact ⟨clearStream, fun _ _ => by rw [← isDefined_eq]; rfl⟩
  case bind => exact ⟨bindStream, fun _ _ => by rw [← isDefined_eq]; rfl⟩
  case pause => exact ⟨pauseStream, fun _ _ => by rw [← isActive_eq]; rfl⟩
  case resume => exact ⟨resumeStream, fun _ _ => by rw [← isPaused_eq]; rfl⟩
  case unbind => exact ⟨unbindStream, fun _ _ => by rw [← isBound_eq]; rfl⟩
  case flush => exact ⟨flushStream, fun _ _ => by rw [← isBound_eq]; rfl⟩
  case loadWalk => exact ⟨loadWalk, fun _ _ => by rw [← hasLayout_eq]; rfl⟩
  case commitLayout => exact ⟨commitStream, fun _ _ => by rw [← hasLayout_eq]; rfl⟩
  case discardStaging => exact ⟨discardStaging, fun _ _ => by rw [← hasLayout_eq]; rfl⟩

/-! ### The three checks, one failing (R6) -/

section

variable {k : RequestKind} {permitted : StreamState → Bool} {own : StreamId → Request → State → State} {r : Request}
  {s : State} {i : StreamId}

theorem onStream_badNumber (h : 63 < field r.payload 1 1) : onStream k permitted own r s = refuse r k .badParam s := by
  rw [onStream, streamOf_none h]

theorem onStream_pending (hi : field r.payload 1 1 = i.val) (h : (s.stream i).pendingOp ≠ none) :
    onStream k permitted own r s = refuse r k .busy s := by
  rw [onStream, streamOf_eq hi]
  exact if_pos (Option.isSome_iff_ne_none.2 h)

theorem onStream_badState (hi : field r.payload 1 1 = i.val) (h : (s.stream i).pendingOp = none)
    (hs : permitted (s.stream i).state = false) : onStream k permitted own r s = refuse r k .badState s := by
  rw [onStream, streamOf_eq hi]
  dsimp only
  rw [h, hs]
  rfl

end

/-- The own rule of a request that is asked sees the request's port as its own. -/
theorem asks_port {p : Port} {k : RequestKind} {r : Request} {s : State} (h : asks p k r s) : r.port = p :=
  nextRequest_port h.1

theorem asksStream_port {p : Port} {k : RequestKind} {permitted : StreamState → Bool} {i : StreamId} {r : Request}
    {s : State} (h : asksStream p k permitted i r s) : r.port = p := asks_port h.1

/-! ### The own rules of DEFINE and BIND -/

theorem defineStream_taken {i : StreamId} {r : Request} {d : Definition} (s : State) (h : definitionOf r.payload = some d)
    (hok : definitionOk d = true) :
    defineStream i r s = answer r .define .done [] (s.modStream i fun e => e.defining d) := by
  rw [defineStream, h, Option.filter_some, if_pos hok]

theorem defineStream_refused {i : StreamId} {r : Request} (s : State)
    (h : definitionOf r.payload = none ∨ ∃ d, definitionOf r.payload = some d ∧ definitionOk d = false) :
    defineStream i r s = refuse r .define .badParam s := by
  have none : (definitionOf r.payload).filter definitionOk = none := by
    rcases h with h | ⟨d, h, hbad⟩
    · rw [h, Option.filter_none]
    · rw [h, Option.filter_some, if_neg (by rw [hbad]; exact Bool.false_ne_true)]
  rw [defineStream, none]

theorem bindStream_eq {i : StreamId} {r : Request} {s : State} {d : Definition} (h : (s.stream i).defn = some d) :
    bindStream i r s = if s.freeList.length < d.ringSize then refuse r .bind .noSlabs s
      else answer r .bind .done [] (bindRing i d.ringSize s) := by
  rw [bindStream, h]
  rfl

end Sys2Proof.Machine

open Sys2Proof Sys2Proof.Machine

/-- Settles O44: each check of R6 in its place, for the ten kinds that change a stream. -/
theorem streamChecks : Obligations.StreamChecks := by
  intro p k l r s hasks hk
  obtain ⟨own, hexec⟩ := exec_command_onStream hk
  rw [hexec, serve_asks hasks, ← asks_port hasks]
  refine ⟨fun h => ?_, fun i hi => ⟨fun h => ?_, fun h hl => ?_⟩⟩
  · rw [onStream_badNumber h]
    rfl
  · rw [onStream_pending hi (by rw [takeRequest_stream]; exact h)]
    rfl
  · rw [onStream_badState hi (by rw [takeRequest_stream]; exact h)
      (by rw [takeRequest_stream]; simpa using hl)]
    rfl

/-- Settles O49: DEFINE's own rule on a definition that passes the checks and on one that does not. -/
theorem defineTakesDefinition : Obligations.DefineTakesDefinition := by
  rintro p s u r i hasks rfl
  have hexec : exec (.define p) s = .next (defineStream i r (takeRequest p s)) :=
    congrArg Host.Outcome.next (serve_asksStream hasks)
  have hp := asksStream_port hasks
  rw [hexec]
  refine ⟨fun d w hd hok hw => ?_, fun h => ?_⟩
  · rw [defineStream_taken _ hd hok, answer, hp, hw, State.modStream, takeRequest_stream]
    rfl
  · rw [defineStream_refused _ h, refuse, answer, hp]
    rfl

/-- Settles O50: CLEAR's own rule behind the three checks. -/
theorem clearEmptiesStream : Obligations.ClearEmptiesStream := by
  intro p s r i hasks
  have hexec : exec (.clear p) s = .next (clearStream i r (takeRequest p s)) :=
    congrArg Host.Outcome.next (serve_asksStream hasks)
  rw [hexec, clearStream, answer, asksStream_port hasks, State.modStream, takeRequest_stream]
  rfl

/-- Settles O51: BIND's own rule, on either side of the free list's length. -/
theorem bindTakesSlabs : Obligations.BindTakesSlabs := by
  rintro p s u r i d hasks hd rfl
  have hexec : exec (.bind p) s = .next (bindStream i r (takeRequest p s)) :=
    congrArg Host.Outcome.next (serve_asksStream hasks)
  have hp := asksStream_port hasks
  rw [hexec, bindStream_eq (by rw [takeRequest_stream]; exact hd), takeRequest_freeList]
  refine ⟨fun h => ?_, fun h => ?_⟩
  · rw [if_pos h, refuse, answer, hp]
    rfl
  · have hlen : (s.freeList.take d.ringSize).length = d.ringSize := List.length_take_of_le h
    rw [if_neg (Nat.not_lt.2 h), answer, hp, bindRing, takeRequest_freeList, State.modStream, Stream.bound, hlen]
    have hs := takeRequest_stream p s i
    unfold State.stream at hs ⊢
    dsimp only
    rw [hs]
    rfl
end

section
/-! PROOF. A held write handed over, and the placement or the hole fill that goes on with it (R82, R83, R94). -/

namespace Sys2Proof.Machine

/-! ### What a state's streams and slabs say of a slab's owner and walk -/

/-- The owner of a slab is a matter of the rings alone. -/
theorem owner_congr {s t : State} (sl : SlabId) (h : ∀ k, (t.stream k).ring = (s.stream k).ring) :
    t.owner sl = s.owner sl := by
  unfold State.owner
  congr 1
  funext k
  rw [h]

/-- The write walk of a slab is a matter of its version and of its stream's layouts (R30). -/
theorem writeWalkOf_congr {s t : State} {i : StreamId} {sl : SlabId} (hv : (t.slab sl).version = (s.slab sl).version)
    (hc : (t.stream i).current = (s.stream i).current) (hp : (t.stream i).previous = (s.stream i).previous) :
    writeWalkOf t i sl = writeWalkOf s i sl := by
  unfold writeWalkOf layoutOf
  rw [hv, hc, hp]

/-! ### A write that is taken, record by record -/

/-- The counting of an outstanding write changes that count alone (R140). -/
theorem countWrite_slab (o : Option SlabId) (s : State) (sl : SlabId) :
    ∃ n, (countWrite o s).slab sl = { s.slab sl with outstanding := n } := by
  cases o with
  | none => exact ⟨(s.slab sl).outstanding, rfl⟩
  | some x =>
    by_cases e : x = sl
    · subst e
      exact ⟨_, State.setSlab_slab ..⟩
    · exact ⟨(s.slab sl).outstanding, State.setSlab_slab_ne _ _ e _⟩

/-- A write that is taken changes the outstanding-write counts alone of the slab records (R140). -/
theorem enqueue_slab {w : Write} {s v : State} (h : enqueue w s = some v) (sl : SlabId) :
    ∃ n, v.slab sl = { s.slab sl with outstanding := n } := by
  rcases enqueue_cases h with ⟨t, rfl, -⟩ | ⟨rfl, -⟩
  · unfold mergeWrite
    dsimp only
    split
    · exact countWrite_slab ..
    · exact ⟨(s.slab sl).outstanding, rfl⟩
  · exact countWrite_slab ..

theorem enqueue_stream {w : Write} {s v : State} (h : enqueue w s = some v) (i : StreamId) : v.stream i = s.stream i := by
  unfold State.stream
  rw [(enqueue_same h).1]

theorem enqueue_fill {w : Write} {s v : State} (h : enqueue w s = some v) : v.fill = s.fill := (enqueue_same h).2.1

theorem enqueue_version {w : Write} {s v : State} (h : enqueue w s = some v) (sl : SlabId) :
    (v.slab sl).version = (s.slab sl).version := by
  obtain ⟨n, hn⟩ := enqueue_slab h sl
  rw [hn]

theorem enqueue_writeWalkOf {w : Write} {s v : State} (h : enqueue w s = some v) (i : StreamId) (sl : SlabId) :
    writeWalkOf v i sl = writeWalkOf s i sl :=
  writeWalkOf_congr (enqueue_version h sl) (by rw [enqueue_stream h]) (by rw [enqueue_stream h])

/-! ### A stream's counters are apart from its ring and its layouts -/

theorem count_stream_self (i : StreamId) (f : StreamCounters → StreamCounters) (s : State) :
    (s.count i f).stream i = { s.stream i with counters := f (s.stream i).counters } := State.setStream_stream ..

theorem count_stream_ne {i k : StreamId} (h : i ≠ k) (f : StreamCounters → StreamCounters) (s : State) :
    (s.count i f).stream k = s.stream k := State.setStream_stream_ne _ _ h _

theorem count_owner (i : StreamId) (f : StreamCounters → StreamCounters) (s : State) (sl : SlabId) :
    (s.count i f).owner sl = s.owner sl := by
  refine owner_congr sl fun k => ?_
  by_cases e : i = k
  · subst e
    rw [count_stream_self]
  · rw [count_stream_ne e]

theorem count_writeWalkOf (i : StreamId) (f : StreamCounters → StreamCounters) (s : State) (sl : SlabId) :
    writeWalkOf (s.count i f) i sl = writeWalkOf s i sl :=
  writeWalkOf_congr rfl (by rw [count_stream_self]) (by rw [count_stream_self])

/-! ### FILL_WRITE_RESUME -/

theorem execFillWriteResume_held {s : State} {w : Write} (h : s.fill.held = some w) :
    exec .fillWriteResume s = match enqueue w s with
      | some v => .next (afterHeld v)
      | none => .next s := by
  show execFillWriteResume s = _
  rw [execFillWriteResume, h]
  rfl

/-- A held write of a placement has been handed over: the placement goes on (R82). -/
theorem afterHeld_placing {v : State} {pl : Placing} (h : v.fill.placing = some pl) :
    afterHeld v = runWork (continuePlacing pl { v with fill := { v.fill with held := none } }) := by
  unfold afterHeld
  dsimp only
  rw [h]

/-- A held write of a hole fill has been handed over: its hole is counted, and the fill goes on (R94). -/
theorem afterHeld_item {v : State} {sl : SlabId} {k : Nat} {i : StreamId} (h : v.fill.placing = none)
    (hw : v.fill.work = [{ slab := sl, next := k }]) (ho : v.owner sl = some i) :
    afterHeld v = runWork (countHole i
      { v with fill := { placing := none, held := none, work := [{ slab := sl, next := k }] } }) := by
  have howner : State.owner { v with fill := { placing := none, held := none, work := [{ slab := sl, next := k }] } } sl =
      some i := ho
  unfold afterHeld
  dsimp only
  rw [h, hw]
  dsimp only
  unfold countHeldHole
  dsimp only [List.head?_cons, Option.bind_some]
  rw [howner]

end Sys2Proof.Machine

open Sys2Proof Sys2Proof.Machine

/-- Settles O24: the placement that goes on by `continuePlacing_eq`, the hole fill by `runWork_item`. -/
theorem heldWriteResumes : Obligations.HeldWriteResumes := by
  intro s w hheld
  refine ⟨fun hfull => ?_, fun v t pl d walk htaken hpl hd hwalk hwork hplaces => ?_,
    fun v t sl k i d walk htaken hpl hwork howner hd hwalk hfills => ?_⟩
  · rw [execFillWriteResume_held hheld, hfull]
  · rw [execFillWriteResume_held hheld, htaken]
    dsimp only
    rw [afterHeld_placing (by rw [enqueue_fill htaken, hpl])]
    refine congrArg Host.Outcome.next (continuePlacing_eq (d := d) (w := walk) ?_ ?_ rfl ?_ hplaces)
    · exact (congrArg Stream.defn (enqueue_stream htaken _)).trans hd
    · exact (enqueue_writeWalkOf htaken _ _).trans hwalk
    · exact (congrArg FillEngine.work (enqueue_fill htaken)).trans hwork
  · have hov : v.owner sl = some i :=
      (owner_congr sl fun k => by rw [enqueue_stream htaken]).trans howner
    rw [execFillWriteResume_held hheld, htaken]
    dsimp only
    rw [afterHeld_item (by rw [enqueue_fill htaken, hpl]) (by rw [enqueue_fill htaken, hwork]) hov]
    refine congrArg Host.Outcome.next (runWork_item rfl ?_ ?_ ?_
      (fillsHoles_fill { placing := none, held := none, work := [{ slab := sl, next := k }] } hfills))
    · exact (count_owner ..).trans hov
    · exact (congrArg Stream.defn (count_stream_self ..)).trans
        ((congrArg Stream.defn (enqueue_stream htaken i)).trans hd)
    · exact (count_writeWalkOf ..).trans ((enqueue_writeWalkOf htaken i sl).trans hwalk)
end

section
/-! SUPPORT. What a slab that becomes EMPTY or FULL changes where no operation is pending on its stream: neither an UNBIND nor
a FLUSH completes by it, so what it leaves can be said once (R19, R41, R60, R92, R95 to R97, R104 to R110). -/

namespace Sys2Proof.Machine

/-! ### A slab that becomes EMPTY -/

/-- Without a pending operation no UNBIND completes (R19, R185). -/
theorem unbindTest_idle {i : StreamId} {s : State} (h : (s.stream i).pendingOp = none) : unbindTest i s = s := by
  have none : streamOp i s = none := by rw [streamOp, h]; rfl
  rw [unbindTest, none]
  exact ite_self s

/-- A stream that is not STOPPING has no UNBIND to complete (R19). -/
theorem unbindTest_running {i : StreamId} {s : State} (h : (s.stream i).state ≠ .stopping) : unbindTest i s = s := by
  rw [unbindTest, if_neg fun hs => h hs.1]

/-- A slab becomes EMPTY without an UNBIND to complete: its record and its stream's previous layout, nothing else (R41,
R60). -/
theorem emptySlab_idle {i : StreamId} {sl : SlabId} {s : State} (h : (s.stream i).pendingOp = none) :
    emptySlab i sl s =
      (s.setSlab sl (s.slab sl).atRest).setStream i { s.stream i with previous := previousWithout i sl s } := by
  rw [emptySlab, State.modSlab, dropPrevious_atRest, unbindTest_idle]
  rw [State.setStream_stream]
  exact h

/-! ### What hand-ons leave -/

/-- From `s` to `t` slabs were handed on where no operation was pending: the ports have notices at most, the streams their
counters and their previous layouts at most, no slab is FILLING that was not, and no fill timer runs that did not. -/
structure HandedOn (s t : State) : Prop where
  rest : t = { s with portA := t.portA, portB := t.portB, streams := t.streams, slabs := t.slabs, gangs := t.gangs
                      drainQueue := t.drainQueue }
  port : ∀ q, ∃ n l, t.port q = { s.port q with notices := n, lost := l }
  stream : ∀ k, ∃ l c, t.stream k = { s.stream k with previous := l, counters := c }
  filling : ∀ x, (t.slab x).state = .filling → (s.slab x).state = .filling
  timer : ∀ x, (s.slab x).fillTimer = none → (t.slab x).fillTimer = none

namespace HandedOn

theorem refl (s : State) : HandedOn s s :=
  ⟨rfl, fun q => ⟨(s.port q).notices, (s.port q).lost, rfl⟩,
    fun k => ⟨(s.stream k).previous, (s.stream k).counters, rfl⟩, fun _ h => h, fun _ h => h⟩

theorem trans {s t u : State} (h : HandedOn s t) (h' : HandedOn t u) : HandedOn s u where
  rest := h'.rest.trans (by rw [h.rest])
  port q := by
    obtain ⟨n, l, e⟩ := h'.port q
    obtain ⟨n', l', e'⟩ := h.port q
    exact ⟨n, l, by rw [e, e']⟩
  stream k := by
    obtain ⟨l, c, e⟩ := h'.stream k
    obtain ⟨l', c', e'⟩ := h.stream k
    exact ⟨l, c, by rw [e, e']⟩
  filling x hx := h.filling x (h'.filling x hx)
  timer x hx := h'.timer x (h.timer x hx)

theorem fold {α : Type} {f : State → α → State} (h : ∀ s a, HandedOn s (f s a)) :
    ∀ (l : List α) (s : State), HandedOn s (l.foldl f s)
  | [], s => refl s
  | a :: l, s => (h s a).trans (fold h l (f s a))

theorem now {s t : State} (h : HandedOn s t) : t.now = s.now := by rw [h.rest]

theorem lastDataChannel {s t : State} (h : HandedOn s t) : t.lastDataChannel = s.lastDataChannel := by rw [h.rest]

theorem freeList {s t : State} (h : HandedOn s t) : t.freeList = s.freeList := by rw [h.rest]

theorem fill {s t : State} (h : HandedOn s t) : t.fill = s.fill := by rw [h.rest]

theorem channels {s t : State} (h : HandedOn s t) : t.channels = s.channels := by rw [h.rest]

theorem controller {s t : State} (h : HandedOn s t) : t.controller = s.controller := by rw [h.rest]

theorem memory {s t : State} (h : HandedOn s t) : t.memory = s.memory := by rw [h.rest]

theorem management {s t : State} (h : HandedOn s t) : t.management = s.management := by rw [h.rest]

theorem routes {s t : State} (h : HandedOn s t) : t.routes = s.routes := by rw [h.rest]

theorem pendingOp {s t : State} (h : HandedOn s t) (i : StreamId) : (t.stream i).pendingOp = (s.stream i).pendingOp := by
  obtain ⟨l, c, e⟩ := h.stream i
  rw [e]

/-! ### The updates it is made of -/

theorem offerNotice (p : Port) (n : Notice) (s : State) : HandedOn s (offerNotice p n s) where
  rest := by cases p <;> rfl
  port q := by
    obtain ⟨l, c, e, -⟩ := offerNotice_port p n s q
    exact ⟨l, c, e⟩
  stream k := ⟨(s.stream k).previous, (s.stream k).counters, by cases p <;> rfl⟩
  filling x hx := by cases p <;> exact hx
  timer x hx := by cases p <;> exact hx

theorem raise (n : Notice) (s : State) : HandedOn s (raise n s) :=
  raise_keeps (P := HandedOn s) (fun h => h.trans (offerNotice ..)) (refl s)

theorem setSlab {sl : SlabId} {v : Slab} {s : State} (hs : v.state = .filling → (s.slab sl).state = .filling)
    (ht : (s.slab sl).fillTimer = none → v.fillTimer = none) : HandedOn s (s.setSlab sl v) where
  rest := rfl
  port q := ⟨(s.port q).notices, (s.port q).lost, by rw [State.setSlab_port_of]⟩
  stream k := ⟨(s.stream k).previous, (s.stream k).counters, rfl⟩
  filling x := by
    by_cases e : sl = x
    · subst e
      rw [State.setSlab_slab]
      exact hs
    · rw [State.setSlab_slab_ne _ _ e]
      exact id
  timer x := by
    by_cases e : sl = x
    · subst e
      rw [State.setSlab_slab]
      exact ht
    · rw [State.setSlab_slab_ne _ _ e]
      exact id

theorem setHolder (sl : SlabId) (o : Option Holder) (s : State) :
    HandedOn s (s.modSlab sl fun v => { v with holder := o }) := setSlab id id

theorem setStream {i : StreamId} {v : Stream} {s : State}
    (h : ∃ l c, v = { s.stream i with previous := l, counters := c }) : HandedOn s (s.setStream i v) where
  rest := rfl
  port q := ⟨(s.port q).notices, (s.port q).lost, by rw [State.setStream_port_of]⟩
  stream k := by
    by_cases e : i = k
    · subst e
      rw [State.setStream_stream]
      exact h
    · rw [State.setStream_stream_ne _ _ e]
      exact ⟨(s.stream k).previous, (s.stream k).counters, rfl⟩
  filling _ hx := hx
  timer _ hx := hx

theorem count (i : StreamId) (f : StreamCounters → StreamCounters) (s : State) : HandedOn s (s.count i f) :=
  setStream ⟨(s.stream i).previous, f (s.stream i).counters, rfl⟩

theorem setGang (g : GangId) (v : Gang) (s : State) : HandedOn s (s.setGang g v) where
  rest := rfl
  port q := ⟨(s.port q).notices, (s.port q).lost, by rw [State.setGang_port_of]⟩
  stream k := ⟨(s.stream k).previous, (s.stream k).counters, rfl⟩
  filling _ hx := hx
  timer _ hx := hx

theorem setDrainQueue (q : List DrainEntry) (s : State) : HandedOn s { s with drainQueue := q } where
  rest := rfl
  port q := ⟨(s.port q).notices, (s.port q).lost, by cases q <;> rfl⟩
  stream k := ⟨(s.stream k).previous, (s.stream k).counters, rfl⟩
  filling _ hx := hx
  timer _ hx := hx

/-! ### The Gang Aligner -/

theorem releaseOldest (g : GangId) (s : State) : HandedOn s (releaseOldest g s) := by
  unfold Machine.releaseOldest
  split
  · exact refl s
  · dsimp only
    have released : ∀ (q : List DrainEntry) (o : Option Holder) (l : List SlabId) (v : Gang),
        HandedOn s ((modSlabs (fun v => { v with holder := o }) l { s with drainQueue := q }).setGang g v) := fun q o l v =>
      ((setDrainQueue q s).trans (fold (fun t sl => setHolder sl o t) l _)).trans (setGang ..)
    split
    · exact released ..
    · exact (released ..).trans (raise ..)

theorem completionTest (g : GangId) (s : State) : HandedOn s (completionTest g s) :=
  completionLoop_keeps (P := HandedOn s) (fun h => h.trans (releaseOldest ..)) _ (refl s)

theorem gangLate {g : GangId} {i : StreamId} {sl : SlabId} {e : Epoch} {s : State}
    (hp : (s.stream i).pendingOp = none) : HandedOn s (gangLate g i sl e s) := by
  unfold Machine.gangLate
  rw [emptySlab_idle hp]
  refine HandedOn.trans ?_ ((count ..).trans (raise ..))
  exact (setSlab (fun h => by cases h) fun _ => rfl).trans (setStream ⟨_, (s.stream i).counters, rfl⟩)

theorem joinRecord (g : GangId) (k : Nat) (sl : SlabId) (e : Epoch) (s : State) : HandedOn s (joinRecord g k sl e s) := by
  unfold Machine.joinRecord
  dsimp only
  split
  · exact ((setHolder ..).trans (setGang ..)).trans (completionTest ..)
  · exact (setHolder ..).trans (setGang ..)

theorem createRecord (g : GangId) (k : Nat) (sl : SlabId) (e : Epoch) (s : State) :
    HandedOn s (createRecord g k sl e s) := by
  unfold Machine.createRecord
  dsimp only
  split
  · exact ((setHolder ..).trans (setGang ..)).trans ((releaseOldest ..).trans (completionTest ..))
  · exact (setHolder ..).trans (setGang ..)

/-- The four cases of an arrival (R104). -/
theorem arrive {g : GangId} {i : StreamId} {sl : SlabId} {s : State} (hp : (s.stream i).pendingOp = none) :
    HandedOn s (arrive g i sl s) := by
  unfold Machine.arrive
  dsimp only
  split
  · exact gangLate hp
  split
  · exact joinRecord ..
  split
  · exact gangLate hp
  · exact createRecord ..

/-! ### The passage to FULL -/

theorem handOn {i : StreamId} {sl : SlabId} {s : State} (hp : (s.stream i).pendingOp = none) :
    HandedOn s (handOn i sl s) := by
  unfold Machine.handOn
  split
  · exact arrive hp
  · exact (setDrainQueue ..).trans (setHolder ..)

theorem conversionRaised (i : StreamId) (v : Slab) (sl : SlabId) (s : State) :
    HandedOn s (conversionRaised i v sl s) := by
  unfold Machine.conversionRaised
  split
  · exact raise ..
  · exact refl s

end HandedOn

/-- A member's slab is handed on to its gang (R97). -/
theorem handOn_member {i : StreamId} {sl : SlabId} {g : GangId} {s : State} (hg : (s.stream i).gang = some g) :
    handOn i sl s = arrive g i sl s := by
  rw [handOn, hg]

/-- A slab becomes FULL where no operation is pending on its stream: its CONVERSION notice and its handing on (R96, R97). -/
theorem becomeFull_idle {i : StreamId} {sl : SlabId} {s : State} (hp : (s.stream i).pendingOp = none) :
    becomeFull i sl s =
      handOn i sl (conversionRaised i (s.slab sl) sl (s.setSlab sl { s.slab sl with state := .full })) := by
  refine flushProgress_noFlush (noFlush_of_none ?_)
  have h := HandedOn.conversionRaised i (s.slab sl) sl (s.setSlab sl { s.slab sl with state := .full })
  exact ((HandedOn.handOn ((h.pendingOp i).trans hp)).pendingOp i).trans ((h.pendingOp i).trans hp)

namespace HandedOn

/-- The slab is FULL, and its notice raised: what is handed on. -/
theorem noticed (i : StreamId) (v : Slab) (sl : SlabId) (s : State) :
    HandedOn s (Machine.conversionRaised i v sl (s.setSlab sl { s.slab sl with state := .full })) :=
  (setSlab (v := { s.slab sl with state := .full }) (fun h => by cases h) id).trans (conversionRaised ..)

theorem becomeFull {i : StreamId} {sl : SlabId} {s : State} (hp : (s.stream i).pendingOp = none) :
    HandedOn s (becomeFull i sl s) := by
  rw [becomeFull_idle hp]
  exact (noticed ..).trans (handOn (((noticed ..).pendingOp i).trans hp))

theorem testFullOwned {sl : SlabId} {s : State} (hp : ∀ i, (s.stream i).pendingOp = none) :
    HandedOn s (testFullOwned sl s) := by
  unfold Machine.testFullOwned
  split
  · unfold testFull
    split
    · exact becomeFull (hp _)
    · exact refl s
  · exact refl s

end HandedOn

end Sys2Proof.Machine
end

section
/-! PROOF. PAUSE and RESUME (01_streams_and_the_stream_table.md R13, R14, with R85, R89, R93 to R97, R104). -/

namespace Sys2Proof.Machine

/-- A seal cause that reaches a ring with one FILLING slab acts on that slab alone, when no slab behind it is FILLING
afterwards (R85). -/
theorem reachRing_single {i : StreamId} {cause : SealCause} {front back : List SlabId} {sl : SlabId} {s : State}
    (hr : (s.stream i).ring = front ++ sl :: back) (hf : ∀ x ∈ front, (s.slab x).state ≠ .filling)
    (hb : ∀ x ∈ back, ((reachSlab i cause sl s).slab x).state ≠ .filling) :
    reachRing i cause s = reachSlab i cause sl s := by
  unfold reachRing
  rw [hr, List.foldl_append, reachRing_notFilling front s hf, List.foldl_cons, reachRing_notFilling back _ hb]

/-- A FILLING slab that a seal cause makes FULL at once: it is sealed, and becomes FULL (R85, R95). -/
theorem reachSlab_becomesFull {i : StreamId} {cause : SealCause} {sl : SlabId} {s : State}
    (hs : (s.slab sl).state = .filling) (ho : ¬ staysOpen i sl s) (hi : hasItem s sl = false) :
    reachSlab i cause sl s = becomeFull i sl (sealedWaiting i sl cause s) := by
  unfold staysOpen at ho
  rw [not_or, not_or] at ho
  obtain ⟨hplacing, hholes, hout⟩ := ho
  have hno : holesOf i sl s = 0 ∨ holeFillOn s i = false := by
    rw [holeFillOn_eq]
    by_cases h : 0 < holesOf i sl s
    · exact Or.inr (by simpa using fun hd => hholes ⟨h, hd⟩)
    · exact Or.inl (by omega)
  have hsealed : (sealedWaiting i sl cause s).slab sl = sealedRecord (s.slab sl) cause (holesOf i sl s) := by
    unfold sealedWaiting
    rw [State.setStream_slab_of, State.setSlab_slab]
  rw [reachSlab, if_pos hs, if_neg hplacing, sealSlab_noHoles hno, testFull, if_pos]
  refine ⟨?_, hi, ?_⟩
  · rw [hsealed]
    rfl
  · rw [hsealed]
    exact Nat.eq_zero_of_not_pos hout

/-- A slab without FILLING items has no item while it is FILLING (R93). -/
theorem hasItem_false {s t : State} {sl : SlabId} (hi : itemsSealed s) (hs : (s.slab sl).state = .filling)
    (hf : t.fill = s.fill) : hasItem t sl = false := by
  unfold hasItem
  rw [hf, List.any_eq_false]
  intro it hit e
  rw [beq_iff_eq] at e
  exact hi it hit (e ▸ hs)

/-- A member's slab that a seal cause makes FULL, the one FILLING slab of its ring, arrives at the gang (R97, R104). -/
theorem reachRing_arrives {i : StreamId} {cause : SealCause} {front back : List SlabId} {sl : SlabId} {g : GangId}
    {s u : State} (hr : (s.stream i).ring = front ++ sl :: back)
    (hopen : ∀ x, x ∈ front ∨ x ∈ back → (s.slab x).state ≠ .filling) (hg : (u.stream i).gang = some g)
    (hs : (s.slab sl).state = .filling) (ho : ¬ staysOpen i sl s) (hi : itemsSealed s)
    (hp : (u.stream i).pendingOp = none) (hring : (u.stream i).ring = (s.stream i).ring)
    (hd : (u.stream i).defn = (s.stream i).defn) (hslabs : u.slabs = s.slabs) (hf : u.fill = s.fill) :
    reachRing i cause u =
      arrive g i sl (conversionRaised i (s.slab sl) sl ((sealedWaiting i sl cause u).setSlab sl
        { (sealedWaiting i sl cause u).slab sl with state := .full })) := by
  have hu : ∀ x, u.slab x = s.slab x := fun x => by rw [State.slab, hslabs]; rfl
  have ho' : ¬ staysOpen i sl u := by
    unfold staysOpen holesOf State.frameLength at ho ⊢
    rw [hu, hd]
    exact ho
  have hw := sealedWaiting_stream i sl cause u
  have hpw : ((sealedWaiting i sl cause u).stream i).pendingOp = none := by rw [hw]; exact hp
  have hfull := reachSlab_becomesFull (cause := cause) (by rw [hu]; exact hs) ho' (hasItem_false hi hs hf)
  have hback : ∀ x ∈ back, ((reachSlab i cause sl u).slab x).state ≠ .filling := by
    intro x hx
    have hne : x ≠ sl := fun e => hopen x (Or.inr hx) (e ▸ hs)
    rw [hfull]
    intro h
    have h := (HandedOn.becomeFull hpw).filling x h
    rw [sealedWaiting_slab hne, hu] at h
    exact hopen x (Or.inr hx) h
  have hnotice : conversionRaised i ((sealedWaiting i sl cause u).slab sl) sl = conversionRaised i (s.slab sl) sl := by
    funext c
    unfold sealedWaiting
    rw [State.setStream_slab_of, State.setSlab_slab, hu]
    rfl
  have hgang : ∀ x, HandedOn (sealedWaiting i sl cause u) x → (x.stream i).gang = some g := by
    intro x hx
    obtain ⟨l, c, e⟩ := hx.stream i
    rw [e, hw]
    exact hg
  rw [reachRing_single (hring.trans hr) (fun x hx => by rw [hu]; exact hopen x (Or.inl hx)) hback, hfull,
    becomeFull_idle hpw, hnotice]
  exact handOn_member (hgang _ (HandedOn.noticed ..))

end Sys2Proof.Machine

open Sys2Proof Sys2Proof.Machine

/-- Settles O52: RESUME's own rule; PAUSE by what its seal cause does to the ring and the Fill Engine to its list. -/
theorem pauseAndResume : Obligations.PauseAndResume := by
  intro p s u r i
  have hpause : asksStream p .pause isActive i r s →
      u = (takeRequest p s).setStream i { s.stream i with state := .paused } →
      exec (.pause p) s =
        .next (pushReply p (replySegment r.tag 0x13 .done []) (runWork (reachRing i .paused u))) := by
    rintro hasks rfl
    refine (congrArg Host.Outcome.next (serve_asksStream hasks)).trans ?_
    rw [pauseStream, answer, asksStream_port hasks, setStreamState, State.modStream, takeRequest_stream]
    rfl
  refine ⟨fun hasks => ?_, fun hasks hu => ?_, fun hasks hu front sl back g v t hr hopen hg hs ho hi hv hdone => ?_⟩
  · refine (congrArg Host.Outcome.next (serve_asksStream hasks)).trans ?_
    rw [resumeStream, answer, asksStream_port hasks, setStreamState, State.modStream, takeRequest_stream]
    rfl
  · have hstream : u.stream i = { s.stream i with state := .paused } := by rw [hu, State.setStream_stream]
    have hslabs : u.slabs = s.slabs := by rw [hu]; cases p <;> rfl
    have hfill : u.fill = s.fill := by rw [hu, State.setStream_fill, takeRequest_fill]
    have hslab : ∀ x, u.slab x = s.slab x := fun x => by rw [State.slab, hslabs]; rfl
    rw [hpause hasks hu]
    refine ⟨fun hopen hwork => ?_, fun v t hn hi hgang hv hdone => ?_⟩
    · rw [reachRing, reachRing_notFilling _ _ fun x hx => by
        rw [hslab]
        exact hopen x (by rw [hstream] at hx; exact hx), runWork_nil (by rw [hfill]; exact hwork)]
    · have hpend : (u.stream i).pendingOp = none := by rw [hstream]; exact hasks.2.2.1
      have hreach : reachRing i .paused u = ringReached i .paused s u :=
        reachRing_eq (by rw [hstream]) hn hslabs (by rw [hstream]) hfill hi
          (hgang.symm.imp id fun h => ⟨by rw [hstream]; exact h, noFlush_of_none hpend⟩)
      rw [hreach, ← hv, runWork_eq hdone]
  · have hstream : u.stream i = { s.stream i with state := .paused } := by rw [hu, State.setStream_stream]
    have hreach := reachRing_arrives (cause := .paused) (u := u) hr hopen (by rw [hstream]; exact hg) hs ho hi
      (by rw [hstream]; exact hasks.2.2.1) (by rw [hstream]) (by rw [hstream]) (by rw [hu]; cases p <;> rfl)
      (by rw [hu, State.setStream_fill, takeRequest_fill])
    rw [hpause hasks hu, hreach, ← hv, runWork_eq hdone]
end

section
/-! PROOF. The segments that the Fill Engine discards: DATA by the rules of R5, R22, R64 to R72 and R79. -/

namespace Sys2Proof.Machine

/-! ### The head of Port A's receive list taken -/

/-- The Fill Engine takes the head segment of its kind (R63, R163). -/
theorem fillHead_offers {seg : Segment} {rest : List Segment} {s : State} (h : offersFill seg rest s) :
    fillHead s seg.kind = some seg := by
  obtain ⟨hfill, hreset, hslots⟩ := h
  unfold fillHead fillReady fillFree State.halted
  rw [hfill, hreset, hslots]
  simp

/-- A DATA or MARK taken frees its slot and owes its credit (R162). -/
theorem takeHead_offers {seg : Segment} {rest : List Segment} {s : State} (h : offersFill seg rest s)
    (hk : seg.kind.dataClass = true) : takeHead .a s = afterTake rest s := by
  obtain ⟨-, -, hslots⟩ := h
  have hdrop : s.portA.dropHead = { s.portA with slots := rest, owedData := s.portA.owedData + 1 } := by
    unfold PortState.dropHead
    rw [hslots]
    dsimp only
    rw [hk]
    rfl
  unfold takeHead State.modPort State.setPort State.port afterTake
  rw [hdrop]

theorem exec_fillTakeData {seg : Segment} {rest : List Segment} {s : State} (h : offersFill seg rest s)
    (hk : seg.kind = .data) : exec .fillTakeData s = .next (runWork (fillData seg (afterTake rest s))) := by
  have hhead := fillHead_offers h
  rw [hk] at hhead
  show execFillTakeData s = _
  rw [execFillTakeData, hhead]
  dsimp only
  rw [takeHead_offers h (by rw [hk]; rfl)]

theorem exec_fillTakeMark {seg : Segment} {rest : List Segment} {s : State} (h : offersFill seg rest s)
    (hk : seg.kind = .mark) : exec .fillTakeMark s = .next (runWork (fillMark seg (afterTake rest s))) := by
  have hhead := fillHead_offers h
  rw [hk] at hhead
  show execFillTakeMark s = _
  rw [execFillTakeMark, hhead]
  dsimp only
  rw [takeHead_offers h (by rw [hk]; rfl)]

/-- A DATA whose fate leaves the seal-work list empty comes to that fate. -/
theorem exec_fillTakeData_quiet {seg : Segment} {rest : List Segment} {s t : State} (h : offersFill seg rest s)
    (hk : seg.kind = .data) (e : fillData seg (afterTake rest s) = t) (hw : t.fill.work = []) :
    exec .fillTakeData s = .next t := by
  rw [exec_fillTakeData h hk, e, runWork_nil hw]

theorem exec_fillTakeMark_quiet {seg : Segment} {rest : List Segment} {s t : State} (h : offersFill seg rest s)
    (hk : seg.kind = .mark) (e : fillMark seg (afterTake rest s) = t) (hw : t.fill.work = []) :
    exec .fillTakeMark s = .next t := by
  rw [exec_fillTakeMark h hk, e, runWork_nil hw]

/-- The Fill Engine's list is empty when it takes a segment (R63). -/
theorem offersFill_work {seg : Segment} {rest : List Segment} {s : State} (h : offersFill seg rest s) :
    s.fill.work = [] := by rw [h.1]

theorem raise_fill (n : Notice) (s : State) : (raise n s).fill = s.fill :=
  raise_keeps (P := fun t => t.fill = s.fill) (fun h => (offerNotice_fill ..).trans h) rfl

/-! ### Discards by the stream's state and by the segment's form (R5, R64, R65) -/

section

variable {seg : Segment} {s : State} {i : StreamId} {d : Definition}

theorem fillData_noStream (h : 63 < seg.stream.toNat) : fillData seg s = countUnbound s := by
  rw [fillData, streamOf_none h]

theorem fillData_unbound (hi : seg.stream.toNat = i.val) (h : (s.stream i).state = .empty ∨ (s.stream i).state = .defined) :
    fillData seg s = countUnbound s := by
  rw [fillData, streamOf_eq hi]
  dsimp only
  rcases h with h | h <;> rw [h]

theorem fillData_notAccepting (hi : seg.stream.toNat = i.val)
    (h : (s.stream i).state = .paused ∨ (s.stream i).state = .stopping) : fillData seg s = countNotAccepting i s := by
  rw [fillData, streamOf_eq hi]
  dsimp only
  rcases h with h | h <;> rw [h]

theorem fillData_active (hi : seg.stream.toNat = i.val) (h : (s.stream i).state = .active)
    (hd : (s.stream i).defn = some d) :
    fillData seg s = if badForm d seg then countFormat i s else floorTest i d seg s := by
  rw [fillData, streamOf_eq hi]
  dsimp only
  rw [h]
  dsimp only
  rw [activeData, hd]

/-- The three faults of form (R65). -/
theorem badForm_iff : badForm d seg = true ↔ seg.payload.length % (d.inWidth / 8) ≠ 0 ∨ seg.payload = [] ∨
    d.frameLength < seg.first.toNat + seg.payload.length / (d.inWidth / 8) := by
  simp [badForm, or_assoc]

theorem badForm_false (h1 : seg.payload.length % (d.inWidth / 8) = 0) (h2 : seg.payload ≠ [])
    (h3 : seg.first.toNat + seg.payload.length / (d.inWidth / 8) ≤ d.frameLength) : ¬ badForm d seg = true := by
  rw [badForm_iff]
  rintro (h | h | h)
  · exact h h1
  · exact h2 h
  · omega

/-- A LATE discard, written out (R22). -/
theorem discardLate_eq (i : StreamId) (e : Epoch) (n : Nat) (s : State) : discardLate i e n s = lateDiscarded i e n s := by
  have hl : ((s.count i fun c => { c with late := satAdd c.late 1 }).stream i).lastLate = (s.stream i).lastLate := by
    rw [State.count, State.modStream, State.setStream_stream]
  unfold discardLate lateDiscarded
  dsimp only
  rw [hl]
  rfl

theorem lateDiscarded_fill (i : StreamId) (e : Epoch) (n : Nat) (s : State) : (lateDiscarded i e n s).fill = s.fill := by
  unfold lateDiscarded
  split
  · rfl
  · rw [raise_fill]
    rfl

/-- A segment that is not newer than the floor is LATE against it (R66). -/
theorem floorTest_late {f : Epoch} (hf : (s.stream i).floor = some f) (h : newer seg.epoch f = false) :
    floorTest i d seg s = lateDiscarded i seg.epoch f.toNat s := by
  rw [floorTest, hf]
  dsimp only
  rw [h, if_neg Bool.false_ne_true, discardLate_eq]

/-! ### A segment of good form, newer than the floor, goes on to the slabs (R66, R67) -/

theorem fillData_onTime (h : onTime i d seg s) : fillData seg s = placeData i d seg s := by
  obtain ⟨-, hi, hs, hd, h1, h2, h3, hfloor⟩ := h
  rw [fillData_active hi hs hd, if_neg (badForm_false h1 h2 h3), floorTest]
  cases hf : (s.stream i).floor with
  | none => rfl
  | some f =>
    rw [hf, Option.all_some] at hfloor
    exact if_pos hfloor

theorem placeData_found {sl : SlabId} (h : (openSlabs s i).find? (fun x => (s.slab x).epoch == some seg.epoch) = some sl) :
    placeData i d seg s = mergeAndPlace i d sl seg s := by
  rw [placeData, h]

theorem placeData_notFound (h : ∀ x ∈ openSlabs s i, (s.slab x).epoch ≠ some seg.epoch) :
    placeData i d seg s = openForEpoch i d seg s := by
  have none : (openSlabs s i).find? (fun x => (s.slab x).epoch == some seg.epoch) = none :=
    List.find?_eq_none.2 fun x hx => by simpa using h x hx
  rw [placeData, none]

/-- A range that would make a seventeenth (R79). -/
theorem mergeAndPlace_fragmented {sl : SlabId}
    (h : 16 < (mergeRange (s.slab sl).coverage seg.first.toNat (seg.payload.length / (d.inWidth / 8))).length) :
    mergeAndPlace i d sl seg s = countFragmented i s := by
  unfold mergeAndPlace
  exact if_pos h

/-! ### No open slab holds the epoch (R68) -/

theorem opposite_eq (e f : Epoch) : opposite e f = ((e - f).toNat == 32768) := by
  rw [opposite, beq_eq_decide]

theorem openForEpoch_opposite {sl : SlabId}
    (h : (openSlabs s i).find? (fun x => (seg.epoch - slabEpoch s x).toNat == 32768) = some sl) :
    openForEpoch i d seg s = lateDiscarded i seg.epoch (65536 + (slabEpoch s sl).toNat) s := by
  unfold openForEpoch
  simp only [opposite_eq, h]
  exact discardLate_eq ..

/-- Two open slabs, the older first, wherever they stand in the ring (R68, R90). -/
theorem olderFirst_eq {older other : SlabId} {l : List SlabId} (h : l = [older, other] ∨ l = [other, older])
    (hn : newer (slabEpoch s other) (slabEpoch s older) = true) : olderFirst s l = [older, other] := by
  rcases h with rfl | rfl
  · have hno := newer_asymm hn
    rw [olderFirst, hno, if_neg Bool.false_ne_true]
  · rw [olderFirst, hn, if_pos rfl]

/-- Fewer than two slabs are open: one is chosen (R68, step 2). -/
theorem openForEpoch_one (ho : ∀ x ∈ openSlabs s i, (seg.epoch - slabEpoch s x).toNat ≠ 32768)
    (h : (openSlabs s i).length ≤ 1) : openForEpoch i d seg s = chooseSlab i d seg none s := by
  have none : (openSlabs s i).find? (fun x => (seg.epoch - slabEpoch s x).toNat == 32768) = none :=
    List.find?_eq_none.2 fun x hx => by simpa using ho x hx
  unfold openForEpoch
  simp only [opposite_eq, none]
  match hl : openSlabs s i with
  | [] => rfl
  | [x] => rfl
  | x :: y :: l =>
    rw [hl] at h
    simp at h

/-- Two slabs are open: the older is sealed for a newer segment, and an older segment is LATE (R68, steps 3 and 4). -/
theorem openForEpoch_two {older other : SlabId}
    (hopen : openSlabs s i = [older, other] ∨ openSlabs s i = [other, older])
    (hn : newer (slabEpoch s other) (slabEpoch s older) = true)
    (ho : ∀ x ∈ openSlabs s i, (seg.epoch - slabEpoch s x).toNat ≠ 32768) :
    openForEpoch i d seg s =
      if newer seg.epoch (slabEpoch s older) then chooseSlab i d seg (some older) (sealSlab i older .overtaken s)
      else lateDiscarded i seg.epoch (65536 + (slabEpoch s older).toNat) s := by
  have none : (openSlabs s i).find? (fun x => (seg.epoch - slabEpoch s x).toNat == 32768) = none :=
    List.find?_eq_none.2 fun x hx => by simpa using ho x hx
  unfold openForEpoch
  simp only [opposite_eq, none, olderFirst_eq hopen hn, lateAgainstOpen, discardLate_eq]

/-! ### No slab to choose (R71, R72) -/

theorem mem_searchOrder {e : Stream} {x : SlabId} (h : x ∈ searchOrder e) : x ∈ e.ring := by
  rcases List.mem_append.1 h with h | h
  · exact List.mem_of_mem_drop h
  · exact List.mem_of_mem_take h

/-- No slab of the ring is EMPTY, and none is to be reclaimed (R71, R72). -/
theorem chooseSlab_overflow {o : Option SlabId} (hempty : ∀ x ∈ (s.stream i).ring, (s.slab x).state ≠ .empty)
    (h : d.overflow = .dropNew ∨ ∀ x ∈ searchOrder (s.stream i), isCandidate s o x = false) :
    chooseSlab i d seg o s = countOverflow i s := by
  have noEmpty : (searchOrder (s.stream i)).find? (fun x => (s.slab x).state == .empty) = none :=
    List.find?_eq_none.2 fun x hx => by simpa using hempty x (mem_searchOrder hx)
  unfold chooseSlab
  dsimp only
  rw [noEmpty]
  dsimp only
  cases hov : d.overflow with
  | dropNew => rfl
  | reclaim =>
    have noCandidate : (searchOrder (s.stream i)).filter (isCandidate s o) = [] := by
      rw [List.filter_eq_nil_iff]
      intro x hx
      rcases h with h | h
      · rw [hov] at h
        cases h
      · rw [h x hx]
        exact Bool.false_ne_true
    rw [noCandidate]
    rfl

theorem not_candidate (h : candidates i s = []) {x : SlabId} (hx : x ∈ searchOrder (s.stream i)) (o : Option SlabId) :
    isCandidate s o x = false := by
  have := List.filter_eq_nil_iff.1 h x hx
  rw [isCandidate, Bool.not_eq_true _ |>.mp this, Bool.false_and]

/-- A slab sealed OVERTAKEN is not EMPTY, and the other slabs are as they were (R68, R85). -/
theorem sealedWaiting_noEmpty {older : SlabId} {cause : SealCause}
    (h : ∀ x ∈ (s.stream i).ring, (s.slab x).state ≠ .empty) :
    ∀ x ∈ ((sealedWaiting i older cause s).stream i).ring, ((sealedWaiting i older cause s).slab x).state ≠ .empty := by
  rw [sealedWaiting_stream]
  intro x hx
  by_cases e : x = older
  · subst e
    unfold sealedWaiting
    rw [State.setStream_slab_of, State.setSlab_slab]
    exact fun hs => by cases hs
  · rw [sealedWaiting_slab e]
    exact h x hx

/-- The slab sealed for the segment in hand is no candidate (R72; log entry 12), and the others are as they were. -/
theorem sealedWaiting_noCandidate {older : SlabId} {cause : SealCause} (h : candidates i s = []) {x : SlabId}
    (hx : x ∈ searchOrder ((sealedWaiting i older cause s).stream i)) :
    isCandidate (sealedWaiting i older cause s) (some older) x = false := by
  rw [sealedWaiting_stream] at hx
  by_cases e : x = older
  · subst e
    rw [isCandidate, bne_self_eq_false, Bool.and_false]
  · have hs := not_candidate h hx (some older)
    unfold isCandidate at hs ⊢
    rw [sealedWaiting_slab e]
    exact hs

end

end Sys2Proof.Machine

open Sys2Proof Sys2Proof.Machine

/-- Settles O20: each discard by its rule, up to the slab that is chosen or not. -/
theorem dataDiscards : Obligations.DataDiscards := by
  refine ⟨?_, fun i d seg rest s hoffer htime => ?_⟩
  · rintro seg rest s u hoffer hk rfl
    have hwork := offersFill_work hoffer
    refine ⟨fun h => exec_fillTakeData_quiet hoffer hk (fillData_noStream h) hwork, fun i hi => ⟨fun h => ?_, fun h => ?_,
      fun d hs hd => ⟨fun h => ?_, fun f hf hn h1 h2 h3 => ?_⟩⟩⟩
    · exact exec_fillTakeData_quiet hoffer hk (fillData_unbound hi h) hwork
    · exact exec_fillTakeData_quiet hoffer hk (fillData_notAccepting hi h) hwork
    · refine exec_fillTakeData_quiet hoffer hk ((fillData_active (s := afterTake rest s) hi hs hd).trans ?_) hwork
      exact if_pos (badForm_iff.2 h)
    · have hfate : fillData seg (afterTake rest s) = lateDiscarded i seg.epoch f.toNat (afterTake rest s) := by
        rw [fillData_active (s := afterTake rest s) hi hs hd, if_neg (badForm_false h1 h2 h3),
          floorTest_late (s := afterTake rest s) hf hn]
      have hexec := exec_fillTakeData_quiet hoffer hk hfate ((congrArg _ (lateDiscarded_fill ..)).trans hwork)
      refine ⟨fun h => ?_, fun h => ?_⟩
      · exact hexec.trans (congrArg Host.Outcome.next (if_pos h))
      · exact hexec.trans (congrArg Host.Outcome.next (if_neg h))
  · have hk := htime.1
    have hwork := offersFill_work hoffer
    have hplace : fillData seg (afterTake rest s) = placeData i d seg (afterTake rest s) := fillData_onTime htime
    refine ⟨fun u hu hempty h => ?_, fun sl hsl h => ?_,
      fun hnew => ⟨fun sl hsl => ?_, fun older other hopen hn ho h => ?_⟩⟩
    · obtain ⟨hopen, ⟨hlen, rfl⟩ | ⟨older, other, htwo, hn, hnewer, hquiet, rfl⟩⟩ := hu
      · refine exec_fillTakeData_quiet hoffer hk ?_ hwork
        rw [hplace, placeData_notFound (s := afterTake rest s) fun x hx => (hopen x hx).1,
          openForEpoch_one (s := afterTake rest s) (fun x hx => (hopen x hx).2) hlen]
        exact chooseSlab_overflow (s := afterTake rest s) hempty (h.imp id fun hc x hx => not_candidate hc hx _)
      · refine exec_fillTakeData_quiet hoffer hk ?_ hwork
        rw [hplace, placeData_notFound (s := afterTake rest s) fun x hx => (hopen x hx).1,
          openForEpoch_two (s := afterTake rest s) htwo hn fun x hx => (hopen x hx).2]
        refine (if_pos hnewer).trans ?_
        rw [sealSlab_quietly (sealsQuietly_congr (t := afterTake rest s) hquiet rfl rfl rfl)]
        exact chooseSlab_overflow (sealedWaiting_noEmpty hempty) (h.imp id fun hc x hx =>
          sealedWaiting_noCandidate hc hx)
    · refine exec_fillTakeData_quiet hoffer hk ?_ hwork
      rw [hplace, placeData_found (s := afterTake rest s) hsl]
      exact mergeAndPlace_fragmented h
    · refine exec_fillTakeData_quiet hoffer hk ?_ ((congrArg _ (lateDiscarded_fill ..)).trans hwork)
      rw [hplace, placeData_notFound (s := afterTake rest s) hnew]
      exact openForEpoch_opposite hsl
    · refine exec_fillTakeData_quiet hoffer hk ?_ ((congrArg _ (lateDiscarded_fill ..)).trans hwork)
      rw [hplace, placeData_notFound (s := afterTake rest s) hnew, openForEpoch_two (s := afterTake rest s) hopen hn ho]
      exact if_neg (by rw [show slabEpoch (afterTake rest s) older = slabEpoch s older from rfl, h]; exact Bool.false_ne_true)
end

section
/-! PROOF. The inbound MARK: its discards, the floor it raises and the slabs it seals, the older first
(01_streams_and_the_stream_table.md R5; 05_sealing.md R86, R90). -/

namespace Sys2Proof.Machine

/-- The condition of a seal that makes its slab FULL is one on the slab, the stream's definition, gang and pending operation,
and the Fill Engine. -/
theorem sealsToFull_congr {i : StreamId} {sl : SlabId} {s t : State} (h : sealsToFull i sl s) (h1 : t.slab sl = s.slab sl)
    (h2 : (t.stream i).defn = (s.stream i).defn) (h3 : (t.stream i).gang = (s.stream i).gang)
    (h4 : (t.stream i).pendingOp = (s.stream i).pendingOp) (h5 : t.fill = s.fill) : sealsToFull i sl t := by
  unfold sealsToFull holeFillOn at *
  rw [h1, h2, h3, h4, h5]
  exact h

/-- Slabs sealed one after another, each left SEALING (R85, R90). -/
theorem sealSlabs_quietly {i : StreamId} {cause : SealCause} : ∀ {l : List SlabId} {s : State}, l.Nodup →
    (∀ x ∈ l, sealsQuietly i x s) →
    l.foldl (fun acc x => sealSlab i x cause acc) s = l.foldl (fun acc x => sealedWaiting i x cause acc) s ∧
      (l.foldl (fun acc x => sealedWaiting i x cause acc) s).fill = s.fill
  | [], _, _, _ => ⟨rfl, rfl⟩
  | a :: l, s, hn, h => by
    obtain ⟨ha, hn⟩ := List.nodup_cons.1 hn
    rw [List.foldl_cons, List.foldl_cons, sealSlab_quietly (h a (by simp))]
    refine sealSlabs_quietly hn fun x hx => sealsQuietly_congr (h x (by simp [hx])) (sealedWaiting_slab ?_) ?_ rfl
    · exact fun e => ha (e ▸ hx)
    · rw [sealedWaiting_stream]
      rfl

/-- Slabs sealed one after another, each FULL at its seal (R85, R90, R97). -/
theorem sealSlabs_full {i : StreamId} {cause : SealCause} : ∀ {l : List SlabId} {s : State}, l.Nodup →
    (∀ x ∈ l, sealsToFull i x s) →
    l.foldl (fun acc x => sealSlab i x cause acc) s = l.foldl (fun acc x => sealedFull i x cause acc) s ∧
      (l.foldl (fun acc x => sealedFull i x cause acc) s).fill = s.fill
  | [], _, _, _ => ⟨rfl, rfl⟩
  | a :: l, s, hn, h => by
    obtain ⟨ha, hn⟩ := List.nodup_cons.1 hn
    obtain ⟨hslab, hstream, -, hfill⟩ := sealedFull_same i a cause s
    rw [sealedWaiting_stream] at hstream
    rw [List.foldl_cons, List.foldl_cons, sealSlab_full (h a (by simp))]
    obtain ⟨ih, ihf⟩ := sealSlabs_full (cause := cause) hn fun x hx =>
      sealsToFull_congr (h x (by simp [hx])) (hslab x fun e => ha (e ▸ hx)) (by rw [hstream]; rfl) (by rw [hstream]; rfl)
        (by rw [hstream]; rfl) hfill
    exact ⟨ih, ihf.trans hfill⟩

/-! ### The fate of a MARK (R5, R64, R90) -/

section

variable {seg : Segment} {s : State} {i : StreamId}

theorem fillMark_noStream (h : 63 < seg.stream.toNat) : fillMark seg s = countUnbound s := by
  rw [fillMark, streamOf_none h]

theorem fillMark_notAccepting (hi : seg.stream.toNat = i.val) (h : (s.stream i).state ≠ .active) :
    fillMark seg s = countNotAccepting i s := by
  rw [fillMark, streamOf_eq hi]
  exact if_neg h

/-- A MARK for an ACTIVE stream seals the open slabs that are not newer, in the order `l` of their age (R90). -/
theorem fillMark_active {l : List SlabId} (hi : seg.stream.toNat = i.val) (h : (s.stream i).state = .active)
    (hl : olderFirst s (openSlabs s i) = l) :
    fillMark seg s = raiseFloor i seg.epoch ((l.filter fun x => !newer (slabEpoch s x) seg.epoch).foldl
      (fun acc x => sealSlab i x .marked acc) s) := by
  rw [fillMark, streamOf_eq hi, ← hl]
  exact if_pos h

end

end Sys2Proof.Machine

open Sys2Proof Sys2Proof.Machine

/-- Settles O23: the open slabs in the order of their age, each sealed as the seals before it leave it. -/
theorem markActs : Obligations.MarkActs := by
  rintro seg rest s u hoffer hk rfl
  have hwork := offersFill_work hoffer
  refine ⟨fun h => exec_fillTakeMark_quiet hoffer hk (fillMark_noStream h) hwork, fun i hi => ⟨fun h => ?_,
    fun hs hnone => ?_, fun sl hs hone => ?_, fun older other hs htwo hn => ?_⟩⟩
  · exact exec_fillTakeMark_quiet hoffer hk (fillMark_notAccepting (s := afterTake rest s) hi h) hwork
  · have hopen : openSlabs (afterTake rest s) i = [] := List.filter_eq_nil_iff.2 fun x hx h => hnone x hx (beq_iff_eq.1 h)
    have hfate := fillMark_active (s := afterTake rest s) hi hs (l := []) (by rw [hopen]; rfl)
    exact exec_fillTakeMark_quiet hoffer hk hfate hwork
  · have hopen : openSlabs (afterTake rest s) i = [sl] := hone
    have hfate := fillMark_active (s := afterTake rest s) hi hs (l := [sl]) (by rw [hopen]; rfl)
    refine ⟨fun h => exec_fillTakeMark_quiet hoffer hk ?_ hwork, fun h hquiet => exec_fillTakeMark_quiet hoffer hk ?_ hwork⟩
    · have h : newer (slabEpoch (afterTake rest s) sl) seg.epoch = true := h
      rw [hfate, List.filter_cons_of_neg (by simpa using h)]
      rfl
    · have h : newer (slabEpoch (afterTake rest s) sl) seg.epoch = false := h
      have hquiet : sealsQuietly i sl (afterTake rest s) := sealsQuietly_congr hquiet rfl rfl rfl
      rw [hfate, List.filter_cons_of_pos (by simpa using h), List.filter_nil, List.foldl_cons, List.foldl_nil,
        sealSlab_quietly hquiet]
      rfl
  · have hopen : olderFirst (afterTake rest s) (openSlabs (afterTake rest s) i) = [older, other] :=
      olderFirst_eq (s := afterTake rest s) htwo hn
    have hfate := fillMark_active (s := afterTake rest s) hi hs hopen
    have hne : older ≠ other := fun e => by
      have := newer_asymm hn
      rw [e] at hn this
      exact Bool.false_ne_true (this.symm.trans hn)
    have hnodup : ([older, other].filter fun x => !newer (slabEpoch s x) seg.epoch).Nodup :=
      List.Nodup.filter _ (by simp [hne])
    have hmem : ∀ x ∈ [older, other].filter fun x => !newer (slabEpoch s x) seg.epoch, x = older ∨ x = other :=
      fun x hx => by simpa using (List.mem_filter.1 hx).1
    refine ⟨fun hquiet => ?_, fun hfull => ?_⟩
    · obtain ⟨hseal, hfill⟩ := sealSlabs_quietly (cause := .marked) (s := afterTake rest s) hnodup fun x hx =>
        sealsQuietly_congr (hquiet x (hmem x hx)) rfl rfl rfl
      exact exec_fillTakeMark_quiet hoffer hk (hfate.trans (congrArg (raiseFloor i seg.epoch) hseal))
        ((congrArg FillEngine.work hfill).trans hwork)
    · obtain ⟨hseal, hfill⟩ := sealSlabs_full (cause := .marked) (s := afterTake rest s) hnodup fun x hx =>
        sealsToFull_congr (hfull x (hmem x hx)) rfl rfl rfl rfl rfl
      exact exec_fillTakeMark_quiet hoffer hk (hfate.trans (congrArg (raiseFloor i seg.epoch) hseal))
        ((congrArg FillEngine.work hfill).trans hwork)
end

section
/-! PROOF. RESET: what steps 1 to 5 of a warm reset leave, no pending operation completing
(10_in_band_management.md R185, with R19, R92, R129, R130, R170). -/

namespace Sys2Proof.Machine

/-! ### What the abort of a channel leaves where no operation is pending (R129, R130) -/

/-- From `s` to `t` channels were aborted where no operation was pending: slabs came to rest, and streams lost a previous
layout at most. -/
structure Aborted (s t : State) : Prop where
  rest : t = { s with streams := t.streams, slabs := t.slabs, channels := t.channels }
  stream : ∀ k, ∃ l, t.stream k = { s.stream k with previous := l }
  slab : ∀ x, t.slab x = s.slab x ∨ t.slab x = (s.slab x).atRest

namespace Aborted

theorem refl (s : State) : Aborted s s := ⟨rfl, fun k => ⟨(s.stream k).previous, rfl⟩, fun _ => Or.inl rfl⟩

theorem trans {s t u : State} (h : Aborted s t) (h' : Aborted t u) : Aborted s u where
  rest := h'.rest.trans (by rw [h.rest])
  stream k := by
    obtain ⟨l, e⟩ := h'.stream k
    obtain ⟨l', e'⟩ := h.stream k
    exact ⟨l, by rw [e, e']⟩
  slab x := by
    rcases h'.slab x with e' | e' <;> rcases h.slab x with e | e <;> rw [e', e]
    · exact Or.inl rfl
    · exact Or.inr rfl
    · exact Or.inr rfl
    · exact Or.inr rfl

theorem now {s t : State} (h : Aborted s t) : t.now = s.now := by rw [h.rest]

theorem portA {s t : State} (h : Aborted s t) : t.portA = s.portA := by rw [h.rest]

theorem portB {s t : State} (h : Aborted s t) : t.portB = s.portB := by rw [h.rest]

theorem lastDataChannel {s t : State} (h : Aborted s t) : t.lastDataChannel = s.lastDataChannel := by rw [h.rest]

theorem freeList {s t : State} (h : Aborted s t) : t.freeList = s.freeList := by rw [h.rest]

theorem fill {s t : State} (h : Aborted s t) : t.fill = s.fill := by rw [h.rest]

theorem gangs {s t : State} (h : Aborted s t) : t.gangs = s.gangs := by rw [h.rest]

theorem drainQueue {s t : State} (h : Aborted s t) : t.drainQueue = s.drainQueue := by rw [h.rest]

theorem controller {s t : State} (h : Aborted s t) : t.controller = s.controller := by rw [h.rest]

theorem memory {s t : State} (h : Aborted s t) : t.memory = s.memory := by rw [h.rest]

theorem management {s t : State} (h : Aborted s t) : t.management = s.management := by rw [h.rest]

theorem routes {s t : State} (h : Aborted s t) : t.routes = s.routes := by rw [h.rest]

theorem pendingOp {s t : State} (h : Aborted s t) (i : StreamId) : (t.stream i).pendingOp = (s.stream i).pendingOp := by
  obtain ⟨l, e⟩ := h.stream i
  rw [e]

/-- A slab that is EMPTY stays EMPTY. -/
theorem empty {s t : State} (h : Aborted s t) {x : SlabId} (hx : (s.slab x).state = .empty) :
    (t.slab x).state = .empty := by
  rcases h.slab x with e | e <;> rw [e]
  · exact hx
  · rfl

theorem timer {s t : State} (h : Aborted s t) {x : SlabId} (hx : (s.slab x).fillTimer = none) :
    (t.slab x).fillTimer = none := by
  rcases h.slab x with e | e <;> rw [e]
  · exact hx
  · rfl

theorem setChannel (c : ChanId) (v : Channel) (s : State) : Aborted s (s.setChannel c v) :=
  ⟨rfl, fun k => ⟨(s.stream k).previous, rfl⟩, fun _ => Or.inl rfl⟩

theorem setSlab_atRest (sl : SlabId) (s : State) : Aborted s (s.setSlab sl (s.slab sl).atRest) where
  rest := rfl
  stream k := ⟨(s.stream k).previous, rfl⟩
  slab x := by
    by_cases e : sl = x
    · subst e
      exact Or.inr (State.setSlab_slab ..)
    · exact Or.inl (State.setSlab_slab_ne _ _ e _)

theorem setPrevious (i : StreamId) (l : Option Layout) (s : State) :
    Aborted s (s.setStream i { s.stream i with previous := l }) where
  rest := rfl
  stream k := by
    by_cases e : i = k
    · subst e
      exact ⟨l, State.setStream_stream ..⟩
    · exact ⟨(s.stream k).previous, State.setStream_stream_ne _ _ e _⟩
  slab _ := Or.inl rfl

end Aborted

/-- A slab becomes EMPTY where no operation is pending: it is at rest, and the channels stand. -/
theorem emptyOwned_idle {sl : SlabId} {s : State} (hp : ∀ i, (s.stream i).pendingOp = none) :
    Aborted s (emptyOwned sl s) ∧ (emptyOwned sl s).channels = s.channels ∧
      ((emptyOwned sl s).slab sl).state = .empty := by
  have rest : ((s.setSlab sl (s.slab sl).atRest).slab sl).state = .empty := by
    rw [State.setSlab_slab]
    rfl
  unfold emptyOwned
  split
  · rw [emptySlab_idle (hp _)]
    exact ⟨(Aborted.setSlab_atRest sl s).trans (Aborted.setPrevious ..), rfl, rest⟩
  · exact ⟨Aborted.setSlab_atRest sl s, rfl, rest⟩

/-- The slabs of an entry become EMPTY one after another (R130). -/
theorem emptyOwneds_idle : ∀ {l : List SlabId} {s : State}, (∀ i, (s.stream i).pendingOp = none) →
    Aborted s (l.foldl (fun acc sl => emptyOwned sl acc) s) ∧
      (l.foldl (fun acc sl => emptyOwned sl acc) s).channels = s.channels ∧
      ∀ x ∈ l, ((l.foldl (fun acc sl => emptyOwned sl acc) s).slab x).state = .empty
  | [], s, _ => ⟨Aborted.refl s, rfl, fun _ h => absurd h List.not_mem_nil⟩
  | sl :: l, s, hp => by
    obtain ⟨h1, h2, h3⟩ := emptyOwned_idle (sl := sl) hp
    obtain ⟨ih1, ih2, ih3⟩ := emptyOwneds_idle (l := l) (s := emptyOwned sl s) fun i => (h1.pendingOp i).trans (hp i)
    refine ⟨h1.trans ih1, ih2.trans h2, fun x hx => ?_⟩
    rcases List.mem_cons.1 hx with rfl | hx
    · exact ih1.empty h3
    · exact ih3 x hx

/-- What its abort makes of a channel: it ends at once without a read and a transmission (R129, R130). -/
def Channel.afterAbort (ch : Channel) : Channel :=
  if ch.abortable then
    if ch.read = none ∧ ch.inTransmission = false then .blank else { ch with state := .aborting, assembled := none }
  else ch

/-- The abort of one channel where no operation is pending (R129, R130). -/
theorem abortChannel_idle {c : ChanId} {s : State} (hp : ∀ i, (s.stream i).pendingOp = none) :
    Aborted s (abortChannel c s) ∧ (abortChannel c s).channel c = (s.channel c).afterAbort ∧
      (∀ k, k ≠ c → (abortChannel c s).channel k = s.channel k) ∧
      ((s.channel c).abortable = true → (s.channel c).read = none ∧ (s.channel c).inTransmission = false →
        ∀ x ∈ (s.channel c).slabs, ((abortChannel c s).slab x).state = .empty) := by
  unfold abortChannel Channel.afterAbort
  by_cases ha : (s.channel c).abortable = true
  · let s' := s.setChannel c { s.channel c with state := .aborting, assembled := none }
    have hself : s'.channel c = { s.channel c with state := .aborting, assembled := none } := State.setChannel_channel ..
    have hother : ∀ k, k ≠ c → s'.channel k = s.channel k := fun k hk => State.setChannel_channel_ne _ _ hk.symm _
    have begun : Aborted s s' := Aborted.setChannel ..
    rw [if_pos ha, if_pos ha]
    show Aborted s (testAbort c s') ∧ (testAbort c s').channel c = _ ∧ (∀ k, k ≠ c → (testAbort c s').channel k = _) ∧
      (_ → _ → ∀ x ∈ _, ((testAbort c s').slab x).state = .empty)
    unfold testAbort
    rw [hself]
    by_cases hq : (s.channel c).read = none ∧ (s.channel c).inTransmission = false
    · obtain ⟨h1, h2, h3⟩ := emptyOwneds_idle (l := (s'.channel c).slabs) fun i => (begun.pendingOp i).trans (hp i)
      rw [if_pos ⟨rfl, hq⟩, if_pos hq]
      refine ⟨begun.trans (h1.trans (Aborted.setChannel ..)), State.setChannel_channel .., fun k hk => ?_,
        fun _ _ x hx => ?_⟩
      · refine (State.setChannel_channel_ne _ _ hk.symm _).trans (Eq.trans ?_ (hother k hk))
        rw [State.channel, h2]
        rfl
      · exact h3 x (by rw [hself]; exact hx)
    · rw [if_neg fun h => hq h.2, if_neg hq]
      exact ⟨begun, hself, hother, fun _ h => absurd h hq⟩
  · rw [if_neg ha, if_neg ha]
    exact ⟨Aborted.refl s, rfl, fun _ _ => rfl, fun h => absurd h ha⟩

/-- Channels aborted one after another (R129, R132). -/
theorem abortList_idle : ∀ {l : List ChanId} {s : State}, l.Nodup → (∀ i, (s.stream i).pendingOp = none) →
    Aborted s (l.foldl (fun acc c => abortChannel c acc) s) ∧
      (∀ c ∉ l, (l.foldl (fun acc c => abortChannel c acc) s).channel c = s.channel c) ∧
      ∀ c ∈ l, (l.foldl (fun acc c => abortChannel c acc) s).channel c = (s.channel c).afterAbort ∧
        ((s.channel c).abortable = true → (s.channel c).read = none ∧ (s.channel c).inTransmission = false →
          ∀ x ∈ (s.channel c).slabs, ((l.foldl (fun acc c => abortChannel c acc) s).slab x).state = .empty)
  | [], s, _, _ => ⟨Aborted.refl s, fun _ _ => rfl, fun _ h => absurd h List.not_mem_nil⟩
  | a :: l, s, hn, hp => by
    obtain ⟨ha, hn⟩ := List.nodup_cons.1 hn
    obtain ⟨h1, h2, h3, h4⟩ := abortChannel_idle (c := a) hp
    obtain ⟨ih1, ih2, ih3⟩ := abortList_idle (s := abortChannel a s) hn fun i => (h1.pendingOp i).trans (hp i)
    refine ⟨h1.trans ih1, fun c hc => ?_, fun c hc => ?_⟩
    · rw [List.mem_cons, not_or] at hc
      exact (ih2 c hc.2).trans (h3 c hc.1)
    · rcases List.mem_cons.1 hc with rfl | hc
      · exact ⟨(ih2 c ha).trans h2, fun hb hq x hx => ih1.empty (h4 hb hq x hx)⟩
      · have hca : c ≠ a := fun e => ha (e ▸ hc)
        obtain ⟨e, hslabs⟩ := ih3 c hc
        rw [h3 c hca] at e hslabs
        exact ⟨e, hslabs⟩

/-- Step 3 of a warm reset (R129, R132, R185). -/
theorem abortChannels_idle {s : State} (hp : ∀ i, (s.stream i).pendingOp = none) :
    Aborted s (abortChannels s) ∧ ∀ c, (abortChannels s).channel c = (s.channel c).afterAbort ∧
      ((s.channel c).abortable = true → (s.channel c).read = none ∧ (s.channel c).inTransmission = false →
        ∀ x ∈ (s.channel c).slabs, ((abortChannels s).slab x).state = .empty) := by
  obtain ⟨h, -, hc⟩ := abortList_idle (List.nodup_finRange 4) hp
  exact ⟨h, fun c => hc c (List.mem_finRange c)⟩

/-! ### The steps of a RESET -/

/-- The slabs whose items were discarded are tested where no operation is pending (R95, R185). -/
theorem testFullOwneds_idle : ∀ {l : List HoleItem} {s : State}, (∀ i, (s.stream i).pendingOp = none) →
    HandedOn s (l.foldl (fun acc it => testFullOwned it.slab acc) s)
  | [], s, _ => HandedOn.refl s
  | it :: l, s, hp => by
    have h := HandedOn.testFullOwned (sl := it.slab) hp
    exact h.trans (testFullOwneds_idle fun i => (h.pendingOp i).trans (hp i))

/-- The state in which dispatch is halted, the receive lists, the timers and the seal-work list are gone and the pending
operations have ended, the slabs of the discarded items still to be tested (R185). -/
def resetStopped (r : Request) (u : State) : State :=
  clearWork (endOperations (stopTimers (halt r ((u.modPort .a PortState.emptySlots).modPort .b PortState.emptySlots))))

/-- A RESET is that state, the discarded items' slabs tested, the channels aborted and the claim ended (R185). -/
theorem reset_eq (r : Request) (u : State) :
    reset r u = endClaim (abortChannels (u.fill.work.foldl (fun acc it => testFullOwned it.slab acc) (resetStopped r u))) :=
  rfl

theorem resetStopped_stream (r : Request) (u : State) (i : StreamId) :
    (resetStopped r u).stream i = { u.stream i with pendingOp := none } := Table.get_map ..

theorem resetStopped_slab (r : Request) (u : State) (x : SlabId) :
    (resetStopped r u).slab x = { u.slab x with fillTimer := none } := Table.get_map ..

theorem resetStopped_gang (r : Request) (u : State) (g : GangId) : (resetStopped r u).gang g =
    { u.gang g with records := (u.gang g).records.map fun x => { x with timer := none } } := Table.get_map ..

theorem resetStopped_port (r : Request) (u : State) (q : Port) : (resetStopped r u).port q =
    { u.port q with slots := [], owedData := (u.port q).owedData + (u.port q).held true
                    owedControl := (u.port q).owedControl + (u.port q).held false } := by
  have h : ∀ v : PortState, v.emptySlots = { v with slots := [], owedData := v.owedData + v.held true
                                                    owedControl := v.owedControl + v.held false } := fun v => by
    simp [PortState.emptySlots, PortState.held]
  cases q
  · exact h u.portA
  · exact h u.portB

/-- A RESET goes from the stopped state to `w` by the tests of the discarded items' slabs, and to `x` by the aborts of the
channels; no operation is pending in between (R185). -/
theorem reset_leaves (r : Request) (u : State) : ∃ w x, reset r u = endClaim x ∧ HandedOn (resetStopped r u) w ∧
    (u.fill.work = [] → w = resetStopped r u) ∧ Aborted w x ∧
      ∀ c, x.channel c = (u.channel c).afterAbort ∧
        ((u.channel c).abortable = true → (u.channel c).read = none ∧ (u.channel c).inTransmission = false →
          ∀ sl ∈ (u.channel c).slabs, (x.slab sl).state = .empty) := by
  have hidle : ∀ i, ((resetStopped r u).stream i).pendingOp = none := fun i => by rw [resetStopped_stream]
  have tested := testFullOwneds_idle (l := u.fill.work) hidle
  obtain ⟨aborted, hchan⟩ := abortChannels_idle fun i => (tested.pendingOp i).trans (hidle i)
  refine ⟨_, _, reset_eq r u, tested, fun h => by rw [h]; rfl, aborted, fun c => ?_⟩
  have hc : State.channel (u.fill.work.foldl (fun acc it => testFullOwned it.slab acc) (resetStopped r u)) c = u.channel c :=
    congrArg (fun t => Table.get t c) tested.channels
  rw [← hc]
  exact hchan c

/-- The data of a table entry's read will be discarded (R149, R185). -/
theorem orphan_eq (x : MgmtRead) : x.orphan =
    { x with owner := match x.owner with
        | .tableEntry _ => .discarded
        | y => y } := by
  obtain ⟨a, n, o, d⟩ := x
  cases o <;> rfl

theorem takeRequest_channel (p : Port) (s : State) (c : ChanId) : (takeRequest p s).channel c = s.channel c := by
  cases p <;> rfl

/-- A request taken leaves the notices of the ports. -/
theorem takeRequest_notices (p : Port) (s : State) (q : Port) : ((takeRequest p s).port q).notices = (s.port q).notices ∧
    ((takeRequest p s).port q).lost = (s.port q).lost := by
  have h : ∀ v : PortState, v.dropHead.notices = v.notices ∧ v.dropHead.lost = v.lost := fun v => by
    unfold PortState.dropHead PortState.owe
    split
    · split <;> exact ⟨rfl, rfl⟩
    · exact ⟨rfl, rfl⟩
  cases p <;> cases q
  · exact h s.portA
  · exact ⟨rfl, rfl⟩
  · exact ⟨rfl, rfl⟩
  · exact h s.portB

end Sys2Proof.Machine

open Sys2Proof Sys2Proof.Machine

/-- Settles O59: the stopped state, then what the tests of the discarded items' slabs and the aborts of the channels leave. -/
theorem resetStarts : Obligations.ResetStarts := by
  rintro p s u r hasks rfl
  obtain ⟨w, x, hreset, tested, hnowork, aborted, hchan⟩ := reset_leaves r (takeRequest p s)
  rw [takeRequest_fill] at hnowork
  refine ⟨endClaim x, ?exec, ?management, fun q => ?ports, fun c hc => ?idle, fun c hc => ?busy, fun i => ?streams,
    fun sl => ?timers, fun h => ?quiet, ?freeList, ?fill, ?controller, ?memory, ?routes, ?turn, ?time⟩
  case exec =>
    exact congrArg Host.Outcome.next ((serve_asks hasks).trans hreset)
  case management =>
    have hm : x.management = (resetStopped r (takeRequest p s)).management :=
      aborted.management.trans tested.management
    show { x.management with holder := none, lease := none, leaseTimer := none } = _
    rw [hm, ← asks_port hasks]
    rfl
  case ports =>
    obtain ⟨n, l, hq⟩ := tested.port q
    have hx : (endClaim x).port q = w.port q := by
      show x.port q = _
      cases q
      · exact aborted.portA
      · exact aborted.portB
    refine ⟨n, l, ?_, fun h => ?_⟩
    · rw [hx, hq, resetStopped_port]
    · rw [hnowork h] at hq
      rw [← (takeRequest_notices p s q).1, ← (takeRequest_notices p s q).2]
      have hn := congrArg PortState.notices hq
      have hl := congrArg PortState.lost hq
      rw [resetStopped_port] at hn hl
      exact ⟨hn.symm, hl.symm⟩
  case idle =>
    refine (hchan c).1.trans ?_
    rw [takeRequest_channel, Channel.afterAbort, if_neg]
    rcases hc with hc | hc <;> simp [Channel.abortable, hc]
  case busy =>
    have hb : (s.channel c).abortable = true := by rcases hc with hc | hc <;> simp [Channel.abortable, hc]
    obtain ⟨hafter, hslabs⟩ := hchan c
    rw [takeRequest_channel] at hafter hslabs
    rw [Channel.afterAbort, if_pos hb] at hafter
    refine ⟨fun hread htx => ⟨?_, fun sl hsl => hslabs hb ⟨hread, htx⟩ sl hsl⟩, fun h => ?_⟩
    · exact hafter.trans (if_pos ⟨hread, htx⟩)
    · refine hafter.trans (if_neg ?_)
      rintro ⟨hread, htx⟩
      rcases h with h | h
      · exact h hread
      · rw [htx] at h
        cases h
  case streams =>
    obtain ⟨l, c, hw⟩ := tested.stream i
    obtain ⟨l', hx⟩ := aborted.stream i
    have ht : (endClaim x).stream i = (x.stream i).unstaged := Table.get_map ..
    rw [resetStopped_stream, takeRequest_stream] at hw
    refine ⟨?_, fun h => ?_⟩
    · rw [ht, hx, hw]
      rfl
    · rw [ht, hx]
      show (w.stream i).counters = _
      rw [hnowork h, resetStopped_stream, takeRequest_stream]
  case timers =>
    exact aborted.timer (tested.timer sl (by rw [resetStopped_slab]))
  case quiet =>
    rw [hnowork h] at aborted
    refine ⟨aborted.drainQueue.trans ?_, fun g => ?_⟩
    · cases p <;> rfl
    · refine (congrArg (fun t => Table.get t g) aborted.gangs).trans ((resetStopped_gang ..).trans ?_)
      rw [takeRequest_gang]
  case freeList =>
    exact (aborted.freeList.trans tested.freeList).trans
      (takeRequest_freeList p s)
  case fill =>
    refine (aborted.fill.trans tested.fill).trans ?_
    cases p <;> rfl
  case controller =>
    refine (aborted.controller.trans tested.controller).trans ?_
    show { (takeRequest p s).controller with
      heldPeeks := [], reads := (takeRequest p s).controller.reads.map MgmtRead.orphan } = _
    rw [takeRequest_controller]
    exact congrArg (fun l : List MgmtRead => { s.controller with heldPeeks := [], reads := l })
      (List.map_congr_left fun x _ => orphan_eq x)
  case memory =>
    refine (aborted.memory.trans tested.memory).trans ?_
    cases p <;> rfl
  case routes =>
    exact (aborted.routes.trans tested.routes).trans (takeRequest_routes p s)
  case turn =>
    refine (aborted.lastDataChannel.trans tested.lastDataChannel).trans ?_
    cases p <;> rfl
  case time =>
    exact (aborted.now.trans tested.now).trans (takeRequest_now p s)
end

section
/-! PROOF. The deadline of an UNBIND: its abort gives up the slabs of the ring one by one, and the UNBIND completes with the
last (01_streams_and_the_stream_table.md R17 to R20; 07_draining.md R119, R129 to R131). -/

namespace Sys2Proof.Machine

/-! ### The ports after a REPLY and a notice -/

theorem modPort_port_of (p q : Port) (f : PortState → PortState) (s : State) :
    (s.modPort p f).port q = if p = q then f (s.port p) else s.port q := by
  cases p <;> cases q <;> rfl

/-- What a notice makes of the ports is a matter of the ports and the routes (R189, R190). -/
theorem raise_port_congr {s t : State} (n : Notice) (hr : t.routes = s.routes) (h : ∀ q, t.port q = s.port q) (q : Port) :
    (raise n t).port q = (raise n s).port q := by
  have offer : ∀ {p : Port} {s t : State}, (∀ q, t.port q = s.port q) →
      ∀ q, (offerNotice p n t).port q = (offerNotice p n s).port q := by
    intro p s t h q
    rw [offerNotice, offerNotice, modPort_port_of, modPort_port_of, h, h]
  unfold raise
  rw [hr]
  split
  · unfold offerRoute
    split
    · exact h q
    · exact offer h q
    · exact offer h q
    · exact offer (offer h) q
  · exact h q

theorem pushReply_port_congr {s t : State} (p : Port) (seg : Segment) (h : ∀ q, t.port q = s.port q) (q : Port) :
    (pushReply p seg t).port q = (pushReply p seg s).port q := by
  rw [pushReply, pushReply, modPort_port_of, modPort_port_of, h, h]

/-! ### An entry of the pending-operation table -/

theorem findOp_slot {k : OpSlot} {s : State} {o : PendingOp} (h : findOp k s = some o) : o.slot = k := by
  have := List.find?_some h
  exact beq_iff_eq.1 this

/-- An entry changed, but for its number, is found changed (R175). -/
theorem findOp_modOp {k : OpSlot} {f : PendingOp → PendingOp} {s : State} {o : PendingOp} (hf : ∀ o, (f o).slot = o.slot)
    (h : findOp k s = some o) : findOp k (modOp k f s) = some (f o) := by
  have hsame : ((fun o : PendingOp => o.slot == k) ∘ fun o => if o.slot = k then f o else o) = fun o => o.slot == k := by
    funext o
    by_cases e : o.slot = k <;> simp [e, hf]
  have hfind : s.management.ops.find? (fun o => o.slot == k) = some o := h
  show (s.management.ops.map fun o => if o.slot = k then f o else o).find? (fun o => o.slot == k) = _
  rw [List.find?_map, hsame, hfind, Option.map_some, if_pos (findOp_slot h)]

/-- A released entry may have been changed before (R175). -/
theorem releaseOp_modOp {k : OpSlot} {f : PendingOp → PendingOp} {l : List PendingOp} (hf : ∀ o, (f o).slot = o.slot) :
    (l.map fun o => if o.slot = k then f o else o).filter (fun o => o.slot != k) = l.filter fun o => o.slot != k := by
  induction l with
  | nil => rfl
  | cons o l ih =>
    rw [List.map_cons, List.filter_cons, List.filter_cons, ih]
    by_cases h : o.slot = k
    · simp [h, hf]
    · simp [h]

/-! ### The completion of an UNBIND, record by record (R19, R20) -/

/-- Slabs changed one by one, with a change that comes to the same the second time. -/
theorem modSlabs_slab {f : Slab → Slab} (hf : ∀ v, f (f v) = f v) : ∀ (l : List SlabId) (s : State) (x : SlabId),
    (modSlabs f l s).slab x = if x ∈ l then f (s.slab x) else s.slab x
  | [], _, _ => rfl
  | a :: l, s, x => by
    show (modSlabs f l (s.modSlab a f)).slab x = _
    rw [modSlabs_slab hf l]
    by_cases e : a = x
    · subst e
      rw [State.modSlab, State.setSlab_slab, hf, ite_self, if_pos List.mem_cons_self]
    · rw [State.modSlab, State.setSlab_slab_ne _ _ e]
      simp [Ne.symm e]

/-- The records of `t` are those of `s` after the UNBIND of stream `i` with table entry `o` has completed. -/
structure Completed (i : StreamId) (o : PendingOp) (s t : State) : Prop where
  rest : t = { s with portA := t.portA, portB := t.portB, streams := t.streams, slabs := t.slabs
                      freeList := s.freeList ++ (s.stream i).ring
                      management := { s.management with ops := s.management.ops.filter fun x => x.slot != o.slot } }
  self : t.stream i = (s.stream i).unbound
  others : ∀ k, k ≠ i → t.stream k = s.stream k
  ring : ∀ x ∈ (s.stream i).ring, t.slab x = (s.slab x).freed
  slabs : ∀ x ∉ (s.stream i).ring, t.slab x = s.slab x

/-- A change of the ports alone leaves the records. -/
theorem Completed.ports {i : StreamId} {o : PendingOp} {s t : State} (h : Completed i o s t) (a b : PortState) :
    Completed i o s { t with portA := a, portB := b } where
  rest := by rw [h.rest]
  self := h.self
  others := h.others
  ring := h.ring
  slabs := h.slabs

theorem Completed.offer {i : StreamId} {o : PendingOp} {s t : State} {p : Port} {n : Notice} (h : Completed i o s t) :
    Completed i o s (offerNotice p n t) := by
  cases p <;> exact h.ports _ _

theorem Completed.reply {i : StreamId} {o : PendingOp} {s t : State} {p : Port} {seg : Segment} (h : Completed i o s t) :
    Completed i o s (pushReply p seg t) := by
  cases p <;> exact h.ports _ _

/-- The records after the ring's return, before the REPLY and the notice (R19). -/
theorem released_completed (i : StreamId) (o : PendingOp) (s : State) :
    Completed i o s (releaseOp o.slot (State.modStream { modSlabs Slab.freed (s.stream i).ring s with
      freeList := s.freeList ++ (s.stream i).ring } i Stream.unbound)) := by
  have hslab := modSlabs_slab (f := Slab.freed) (fun _ => rfl) (s.stream i).ring s
  have hm := modSlabs_eq Slab.freed (s.stream i).ring s
  rw [← modSlabs] at hm
  have hstreams : (modSlabs Slab.freed (s.stream i).ring s).streams = s.streams := by rw [hm]
  refine ⟨by rw [hm]; rfl, ?_, fun k hk => ?_, fun x hx => (hslab x).trans (if_pos hx),
    fun x hx => (hslab x).trans (if_neg hx)⟩
  · refine (State.setStream_stream ..).trans (congrArg Stream.unbound ?_)
    exact congrArg (fun t => Table.get t i) hstreams
  · refine (State.setStream_stream_ne _ _ (Ne.symm hk) _).trans ?_
    exact congrArg (fun t => Table.get t k) hstreams

/-- A forced UNBIND that completes: the records, the REPLY and the notice (R19, R20). -/
theorem completeUnbind_forced (i : StreamId) (o : PendingOp) (n : Nat) (cut : Option Epoch) (s : State) :
    Completed i o s (completeUnbind i o true n cut s) ∧
      ∀ q, (completeUnbind i o true n cut s).port q = (raise (stoppedNotice i cut n)
        (if o.discard = true then s else pushReply o.port (replySegment o.tag 0x15 .done (1 :: beBytes 2 n)) s)).port q := by
  have hfree : (modSlabs Slab.freed (s.stream i).ring s).freeList = s.freeList := by rw [modSlabs, modSlabs_eq]
  obtain ⟨c, hc⟩ : ∃ c, c = releaseOp o.slot (State.modStream { modSlabs Slab.freed (s.stream i).ring s with
      freeList := s.freeList ++ (s.stream i).ring } i Stream.unbound) := ⟨_, rfl⟩
  have hcompleted : Completed i o s c := hc ▸ released_completed i o s
  have hports : c.portA = s.portA ∧ c.portB = s.portB ∧ c.routes = s.routes := by
    rw [hc, modSlabs, modSlabs_eq]
    exact ⟨rfl, rfl, rfl⟩
  have hport : ∀ q, c.port q = s.port q
    | .a => hports.1
    | .b => hports.2.1
  have hdone : completeUnbind i o true n cut s = raise (stoppedNotice i cut n)
      (lateReply o.port o.discard (unbindReply o true n) c) := by
    unfold completeUnbind
    dsimp only
    rw [hfree, ← hc, Bool.true_or, if_pos rfl]
    rfl
  rw [hdone]
  refine ⟨raise_keeps (fun h => h.offer) (lateReply_keeps (fun h => h.reply) hcompleted), raise_port_congr _ ?_ ?_⟩
  · unfold lateReply
    split
    · exact hports.2.2
    · rw [pushReply_routes, pushReply_routes]
      exact hports.2.2
  · unfold lateReply
    split
    · exact hport
    · exact pushReply_port_congr _ _ hport

end Sys2Proof.Machine

open Sys2Proof Sys2Proof.Machine

end

section
/-! PROOF. The abort of an UNBIND, slab by slab: what the slabs given up so far leave, and the UNBIND's completion with the
last of them (R18, R19, R119, R129, R130). -/

namespace Sys2Proof.Machine

/-! ### What is left when some slabs of the ring have been given up -/

/-- The Drain Queue without the FULL slabs of `done` (R119). -/
def drainLeft (s : State) (done : List SlabId) : List DrainEntry :=
  (done.filter fun x => (s.slab x).state == .full).foldl (fun q x => q.filterMap (DrainEntry.without x)) s.drainQueue

/-- A channel, IDLE when it held a DRAINING slab of `done` (R130). -/
def channelLeft (s : State) (done : List SlabId) (c : ChanId) : Channel :=
  if done.any fun x => (s.slab x).state == .draining && (s.slab x).holder == some (.channel c) then .blank else s.channel c

/-- The Fill Engine without the items of the slabs of `done`, and without the held write of the first item when it is one of
them (R18). -/
def fillLeft (s : State) (done : List SlabId) : FillEngine :=
  { placing := s.fill.placing
    held := if s.fill.placing.isNone && s.fill.work.head?.any (fun it => done.contains it.slab) then none else s.fill.held
    work := s.fill.work.filter fun it => !done.contains it.slab }

section

variable {s : State} {done : List SlabId} {x : SlabId}

theorem drainLeft_full (h : (s.slab x).state = .full) :
    drainLeft s (done ++ [x]) = (drainLeft s done).filterMap (DrainEntry.without x) := by
  simp [drainLeft, List.filter_append, h]

theorem drainLeft_other (h : (s.slab x).state ≠ .full) : drainLeft s (done ++ [x]) = drainLeft s done := by
  simp [drainLeft, List.filter_append, h]

theorem channelLeft_draining {c : ChanId} (h : (s.slab x).state = .draining) (hc : (s.slab x).holder = some (.channel c))
    (k : ChanId) : channelLeft s (done ++ [x]) k = if c = k then .blank else channelLeft s done k := by
  by_cases e : c = k <;> simp [channelLeft, List.any_append, h, hc, e]

theorem channelLeft_other (h : (s.slab x).state ≠ .draining) (k : ChanId) :
    channelLeft s (done ++ [x]) k = channelLeft s done k := by
  simp [channelLeft, List.any_append, h]

/-- A slab without an item leaves the Fill Engine. -/
theorem fillLeft_other (h : ∀ it ∈ s.fill.work, it.slab ≠ x) : fillLeft s (done ++ [x]) = fillLeft s done := by
  have hc : ∀ it ∈ s.fill.work, (done ++ [x]).contains it.slab = done.contains it.slab := fun it hit => by
    simp [h it hit]
  have hhead : s.fill.work.head?.any (fun it => (done ++ [x]).contains it.slab) =
      s.fill.work.head?.any fun it => done.contains it.slab := by
    cases hw : s.fill.work with
    | nil => rfl
    | cons it l => exact hc it (by rw [hw]; exact List.mem_cons_self)
  unfold fillLeft
  rw [hhead, List.filter_congr fun it hit => congrArg not (hc it hit)]

/-- The removal of a slab's item, with its held write when it is in progress (R18). -/
theorem dropItem_fill {t : State} (ht : t.fill = fillLeft s done) (hx : x ∉ done) :
    (dropItem x t).fill = fillLeft s (done ++ [x]) := by
  have hwork : (fillLeft s done).work.filter (fun it => it.slab != x) = (fillLeft s (done ++ [x])).work := by
    unfold fillLeft
    rw [List.filter_filter]
    refine List.filter_congr fun it _ => ?_
    by_cases e : it.slab = x <;> simp [e]
  have hheld : (if itemInProgress t x then none else (fillLeft s done).held) = (fillLeft s (done ++ [x])).held := by
    unfold itemInProgress
    rw [ht]
    unfold fillLeft
    cases s.fill.placing with
    | some p => rfl
    | none =>
      cases s.fill.work with
      | nil => simp
      | cons it l =>
        by_cases hd : it.slab ∈ done
        · simp [hd]
        · by_cases e : it.slab = x
          · cases s.fill.held <;> simp [e, hx]
          · simp [hd, e]
  unfold dropItem
  dsimp only
  rw [ht, hheld, hwork]
  rfl

end

/-! ### The slabs given up so far -/

/-- From `s` to `t` the slabs `done` of the ring of stream `i` were given up, its UNBIND still to complete (R18). -/
structure GivenUp (i : StreamId) (s : State) (done : List SlabId) (t : State) : Prop where
  rest : t = { s with streams := t.streams, slabs := t.slabs, drainQueue := t.drainQueue, channels := t.channels
                      fill := t.fill }
  self : ∃ l, t.stream i = { s.stream i with previous := l }
  others : ∀ k, k ≠ i → t.stream k = s.stream k
  empty : ∀ x ∈ done, (t.slab x).state = .empty ∧ (t.slab x).outstanding = (s.slab x).outstanding
  slabs : ∀ x ∉ done, t.slab x = s.slab x
  drain : t.drainQueue = drainLeft s done
  channel : ∀ c, t.channel c = channelLeft s done c
  fill : t.fill = fillLeft s done

namespace GivenUp

variable {i : StreamId} {s t : State} {done : List SlabId} {x : SlabId}

theorem nil (i : StreamId) (s : State) : GivenUp i s [] s where
  rest := rfl
  self := ⟨(s.stream i).previous, rfl⟩
  others _ _ := rfl
  empty _ h := absurd h List.not_mem_nil
  slabs _ _ := rfl
  drain := rfl
  channel _ := rfl
  fill := by
    have hhead : s.fill.work.head?.any (fun it => ([] : List SlabId).contains it.slab) = false := by
      cases s.fill.work <;> rfl
    have hwork : s.fill.work.filter (fun it => !([] : List SlabId).contains it.slab) = s.fill.work :=
      List.filter_eq_self.2 fun _ _ => rfl
    unfold fillLeft
    rw [hhead, Bool.and_false, hwork]
    rfl

theorem ring (h : GivenUp i s done t) : (t.stream i).ring = (s.stream i).ring := by
  obtain ⟨l, e⟩ := h.self
  rw [e]

theorem owner (h : GivenUp i s done t) (x : SlabId) : t.owner x = s.owner x :=
  owner_congr x fun k => by
    by_cases e : k = i
    · rw [e, h.ring]
    · rw [h.others k e]

/-- An EMPTY slab needs no giving up. -/
theorem skip (h : GivenUp i s done t) (hx : x ∉ done) (he : (s.slab x).state = .empty)
    (hw : ∀ it ∈ s.fill.work, (s.slab it.slab).state = .sealing) : GivenUp i s (done ++ [x]) t where
  rest := h.rest
  self := h.self
  others := h.others
  empty y hy := by
    rcases List.mem_append.1 hy with hy | hy
    · exact h.empty y hy
    · obtain rfl := List.mem_singleton.1 hy
      rw [h.slabs y hx]
      exact ⟨he, rfl⟩
  slabs y hy := h.slabs y fun hd => hy (List.mem_append_left _ hd)
  drain := h.drain.trans (drainLeft_other (by rw [he]; decide)).symm
  channel c := (h.channel c).trans (channelLeft_other (by rw [he]; decide) c).symm
  fill := h.fill.trans (fillLeft_other fun it hit e => by
    have hs := hw it hit
    rw [e, he] at hs
    cases hs).symm

theorem skips (h : GivenUp i s done t) (hw : ∀ it ∈ s.fill.work, (s.slab it.slab).state = .sealing) :
    ∀ {l : List SlabId}, (done ++ l).Nodup → (∀ x ∈ l, (s.slab x).state = .empty) → GivenUp i s (done ++ l) t := by
  intro l
  induction l generalizing done with
  | nil => exact fun _ _ => by rwa [List.append_nil]
  | cons x l ih =>
    intro hn he
    have hx : x ∉ done := fun hd => List.disjoint_of_nodup_append hn hd List.mem_cons_self
    rw [List.append_cons] at hn ⊢
    exact ih (h.skip hx (he x List.mem_cons_self) hw) hn fun y hy => he y (List.mem_cons_of_mem _ hy)

/-- One more slab comes to rest, and leaves the Drain Queue, the channels and the Fill Engine as it must. -/
theorem step (h : GivenUp i s done t) (hx : x ∉ done) {q : List DrainEntry} {ch : Table 4 Channel} {f : FillEngine}
    {l : Option Layout} (hq : q = drainLeft s (done ++ [x])) (hc : ∀ c, ch.get c = channelLeft s (done ++ [x]) c)
    (hf : f = fillLeft s (done ++ [x])) :
    GivenUp i s (done ++ [x]) (State.setStream { t.setSlab x (t.slab x).atRest with
      drainQueue := q, channels := ch, fill := f } i { t.stream i with previous := l }) where
  rest := by
    conv_lhs => rw [h.rest]
    rfl
  self := by
    obtain ⟨l', e⟩ := h.self
    exact ⟨l, by rw [State.setStream_stream, e]⟩
  others k hk := (State.setStream_stream_ne _ _ hk.symm _).trans (h.others k hk)
  empty y hy := by
    by_cases e : x = y
    · subst e
      have hs : (t.setSlab x (t.slab x).atRest).slab x = (t.slab x).atRest := State.setSlab_slab ..
      refine ⟨congrArg Slab.state hs, (congrArg Slab.outstanding hs).trans ?_⟩
      rw [h.slabs x hx]
      rfl
    · have hs : (t.setSlab x (t.slab x).atRest).slab y = t.slab y := State.setSlab_slab_ne _ _ e _
      have hd := h.empty y ((List.mem_append.1 hy).resolve_right fun hy => e (List.mem_singleton.1 hy).symm)
      exact ⟨(congrArg Slab.state hs).trans hd.1, (congrArg Slab.outstanding hs).trans hd.2⟩
  slabs y hy := by
    rw [List.mem_append, not_or, List.mem_singleton] at hy
    exact (State.setSlab_slab_ne _ _ (Ne.symm hy.2) _).trans (h.slabs y hy.1)
  drain := hq
  channel := hc
  fill := hf

end GivenUp

/-! ### One slab of the ring -/

theorem raise_setChannel (n : Notice) (c : ChanId) (v : Channel) (s : State) :
    raise n (s.setChannel c v) = (raise n s).setChannel c v := by
  unfold raise
  split
  · unfold offerRoute
    rw [State.setChannel_routes]
    split <;> rfl
  · rfl

theorem lateReply_setChannel (p : Port) (discard : Bool) (seg : Segment) (c : ChanId) (v : Channel) (s : State) :
    lateReply p discard seg (s.setChannel c v) = (lateReply p discard seg s).setChannel c v := by
  unfold lateReply
  split
  · rfl
  · cases p <;> rfl

/-- The completion of an UNBIND and a channel's record are apart. -/
theorem completeUnbind_setChannel (i : StreamId) (o : PendingOp) (forced : Bool) (n : Nat) (cut : Option Epoch)
    (c : ChanId) (v : Channel) (s : State) :
    completeUnbind i o forced n cut (s.setChannel c v) = (completeUnbind i o forced n cut s).setChannel c v := by
  have freed : ∀ l, modSlabs Slab.freed l (s.setChannel c v) = (modSlabs Slab.freed l s).setChannel c v := fun l => by
    rw [modSlabs, modSlabs, modSlabs_eq, modSlabs_eq]
    rfl
  unfold completeUnbind
  dsimp only
  rw [State.setChannel_stream_of, freed]
  split
  · rw [← raise_setChannel, ← lateReply_setChannel]
    rfl
  · rw [← lateReply_setChannel]
    rfl

theorem unbindTest_setChannel (i : StreamId) (c : ChanId) (v : Channel) (s : State) :
    unbindTest i (s.setChannel c v) = (unbindTest i s).setChannel c v := by
  have hop : streamOp i (s.setChannel c v) = streamOp i s := rfl
  have hempty : allEmpty (s.setChannel c v) (s.stream i).ring = allEmpty s (s.stream i).ring := rfl
  unfold unbindTest
  rw [State.setChannel_stream_of, hop, hempty]
  split
  · split
    · split
      · exact completeUnbind_setChannel ..
      · rfl
    · rfl
  · rfl

/-- A slab becomes EMPTY, as its records and the completion test (R19, R41, R60). -/
theorem emptySlab_eq (i : StreamId) (sl : SlabId) (s : State) :
    emptySlab i sl s = unbindTest i
      ((s.setSlab sl (s.slab sl).atRest).setStream i { s.stream i with previous := previousWithout i sl s }) := by
  rw [emptySlab, State.modSlab, dropPrevious_atRest]

/-- The abort of a channel whose one slab it is, without a read and a transmission (R129, R130). -/
theorem abortChannel_one {i : StreamId} {x : SlabId} {c : ChanId} {s : State} (ha : (s.channel c).abortable = true)
    (hr : (s.channel c).read = none) (ht : (s.channel c).inTransmission = false) (hs : (s.channel c).slabs = [x])
    (ho : s.owner x = some i) : abortChannel c s = unbindTest i
      (((s.setSlab x (s.slab x).atRest).setStream i { s.stream i with previous := previousWithout i x s }).setChannel c
        .blank) := by
  obtain ⟨u, hu⟩ : ∃ u, u = s.setChannel c { s.channel c with state := .aborting, assembled := none } := ⟨_, rfl⟩
  have hc : u.channel c = { s.channel c with state := .aborting, assembled := none } := by
    rw [hu, State.setChannel_channel]
  have hslabs : (u.channel c).slabs = [x] := by rw [hc]; exact hs
  have howner : u.owner x = some i := by rw [hu]; exact ho
  have hbegin : abortChannel c s = testAbort c u := by rw [abortChannel, if_pos ha, hu]; rfl
  have hend : testAbort c u = (emptySlab i x u).setChannel c .blank := by
    rw [testAbort, if_pos (by rw [hc]; exact ⟨rfl, hr, ht⟩), completeAbort, hslabs, List.foldl_cons, List.foldl_nil,
      emptyOwned, howner]
  rw [hbegin, hend, emptySlab_eq, ← unbindTest_setChannel, hu]
  congr 1
  exact congrArg (fun ch => { (s.setSlab x (s.slab x).atRest).setStream i
    { s.stream i with previous := previousWithout i x s } with channels := ch }) (Table.set_set ..)

/-- The abort gives up one slab of the ring that is not EMPTY, and the UNBIND completes if it was the last (R18). -/
theorem abortSlab_givesUp {i : StreamId} {s t : State} {done : List SlabId} {x : SlabId} (hs : abortsAtOnce i s)
    (hring : x ∈ (s.stream i).ring) (hdone : ∀ y ∈ done, y ∈ (s.stream i).ring) (hx : x ∉ done)
    (he : (s.slab x).state ≠ .empty) (h : GivenUp i s done t) :
    ∃ z, GivenUp i s (done ++ [x]) z ∧ abortSlab i x t = unbindTest i z := by
  obtain ⟨-, hwork, hstates⟩ := hs
  have hslab := h.slabs x hx
  have noItem : (s.slab x).state ≠ .sealing → t.fill = fillLeft s (done ++ [x]) := fun hn =>
    h.fill.trans (fillLeft_other fun it hit e => hn (by rw [← e]; exact (hwork it hit).2)).symm
  have noEntry : (s.slab x).state ≠ .full → t.drainQueue = drainLeft s (done ++ [x]) := fun hn =>
    h.drain.trans (drainLeft_other hn).symm
  have noChannel : (s.slab x).state ≠ .draining → ∀ c, t.channels.get c = channelLeft s (done ++ [x]) c := fun hn c =>
    (h.channel c).trans (channelLeft_other hn c).symm
  rcases hstates x hring with hst | ⟨hst, hp⟩ | hst | hst | ⟨hst, ho, c, hc, ha, hr, htx, hsl⟩
  · exact absurd hst he
  · refine ⟨_, h.step (l := previousWithout i x t) hx (noEntry (by rw [hst]; decide)) (noChannel (by rw [hst]; decide))
      (noItem (by rw [hst]; decide)), ?_⟩
    rw [abortSlab, (congrArg Slab.state hslab).trans hst]
    dsimp only
    rw [(congrArg Slab.placing hslab).trans hp, if_neg Bool.false_ne_true, emptySlab_eq]
    rfl
  · refine ⟨_, h.step (l := previousWithout i x t) hx (noEntry (by rw [hst]; decide)) (noChannel (by rw [hst]; decide))
      (dropItem_fill h.fill hx), ?_⟩
    rw [abortSlab, (congrArg Slab.state hslab).trans hst]
    dsimp only
    rw [emptySlab_eq]
    rfl
  · refine ⟨_, h.step (l := previousWithout i x t) hx ((congrArg _ h.drain).trans (drainLeft_full hst).symm)
      (noChannel (by rw [hst]; decide)) (noItem (by rw [hst]; decide)), ?_⟩
    rw [abortSlab, (congrArg Slab.state hslab).trans hst]
    dsimp only
    rw [emptySlab_eq]
    rfl
  · have hother : channelLeft s done c = s.channel c := by
      refine if_neg fun hany => ?_
      obtain ⟨y, hy, hyc⟩ := List.any_eq_true.1 hany
      rw [Bool.and_eq_true, beq_iff_eq, beq_iff_eq] at hyc
      rcases hstates y (hdone y hy) with hst' | ⟨hst', -⟩ | hst' | hst' | ⟨-, -, c', hc', -, -, -, hsl'⟩
      · rw [hst'] at hyc
        cases hyc.1
      · rw [hst'] at hyc
        cases hyc.1
      · rw [hst'] at hyc
        cases hyc.1
      · rw [hst'] at hyc
        cases hyc.1
      · have hcc : c' = c := by simpa [hc'] using hyc.2
        rw [hcc, hsl] at hsl'
        exact hx (List.singleton_inj.1 hsl' ▸ hy)
    have htc : t.channel c = s.channel c := (h.channel c).trans hother
    refine ⟨_, h.step (l := previousWithout i x t) (ch := t.channels.set c .blank) hx (noEntry (by rw [hst]; decide))
      (fun k => ?_) (noItem (by rw [hst]; decide)), ?_⟩
    · rw [channelLeft_draining hst hc, Table.get_set]
      exact if_congr Iff.rfl rfl (h.channel k)
    · rw [abortSlab, (congrArg Slab.state hslab).trans hst]
      dsimp only
      rw [(congrArg Slab.holder hslab).trans hc]
      dsimp only
      rw [abortChannel_one (by rw [htc]; exact ha) (by rw [htc]; exact hr) (by rw [htc]; exact htx) (by rw [htc]; exact hsl)
        ((h.owner x).trans ho)]
      rfl

/-! ### The whole ring -/

section

variable {i : StreamId} {o : PendingOp} {n : Nat} {cut : Option Epoch} {s : State}

/-- With its last slab given up, a forced UNBIND completes (R19). -/
theorem GivenUp.completes {done : List SlabId} {t : State} (h : GivenUp i s done t) (hstate : (s.stream i).state = .stopping)
    (hop : streamOp i s = some o) (hdetail : o.detail = .unbind true n cut)
    (hempty : allEmpty t (s.stream i).ring = true) : unbindTest i t = completeUnbind i o true n cut t := by
  obtain ⟨l, hself⟩ := h.self
  have hm : t.management = s.management := by rw [h.rest]
  have htop : streamOp i t = some o := by
    rw [← hop]
    unfold streamOp findOp
    rw [hself, hm]
  rw [unbindTest, if_pos ⟨by rw [hself]; exact hstate, by rw [h.ring]; exact hempty⟩, htop]
  dsimp only
  rw [hdetail]

/-- The slabs of a ring that has been returned are FREE, and an abort has nothing more to give up (R18). -/
theorem Completed.abortSlabs {t w : State} (h : Completed i o t w) :
    ∀ {l : List SlabId}, (∀ x ∈ l, x ∈ (t.stream i).ring) →
    l.foldl (fun acc sl => abortSlab i sl acc) w = w
  | [], _ => rfl
  | x :: l, hl => by
    have hfree : (w.slab x).state = .free := congrArg Slab.state (h.ring x (hl x List.mem_cons_self))
    rw [List.foldl_cons, abortSlab, hfree]
    exact h.abortSlabs fun y hy => hl y (List.mem_cons_of_mem _ hy)

theorem Completed.unbindTest {t w : State} (h : Completed i o t w) : unbindTest i w = w :=
  unbindTest_running (by rw [h.self]; exact fun hs => by cases hs)

/-- The abort gives up the rest `l` of the ring, and the UNBIND completes as if only at the end (R18, R19). -/
theorem abortSlabs_giveUp (hs : abortsAtOnce i s) (hstate : (s.stream i).state = .stopping) (hop : streamOp i s = some o)
    (hdetail : o.detail = .unbind true n cut) : ∀ {l done : List SlabId} {t : State}, (s.stream i).ring = done ++ l →
    GivenUp i s done t → ∃ y, GivenUp i s (s.stream i).ring y ∧
      unbindTest i (l.foldl (fun acc sl => abortSlab i sl acc) t) = unbindTest i y := by
  intro l
  induction l with
  | nil =>
    intro done t hring h
    rw [List.append_nil] at hring
    exact ⟨t, hring ▸ h, rfl⟩
  | cons x l ih =>
    intro done t hring h
    have hnodup : (done ++ x :: l).Nodup := hring ▸ hs.1
    have hx : x ∉ done := fun hd => List.disjoint_of_nodup_append hnodup hd List.mem_cons_self
    have hwork : ∀ it ∈ s.fill.work, (s.slab it.slab).state = .sealing := fun it hit => (hs.2.1 it hit).2
    have hring' : (s.stream i).ring = (done ++ [x]) ++ l := by rw [hring, ← List.append_cons]
    rw [List.foldl_cons]
    by_cases he : (s.slab x).state = .empty
    · have hskip : abortSlab i x t = t := by rw [abortSlab, (congrArg Slab.state (h.slabs x hx)).trans he]
      rw [hskip]
      exact ih hring' (h.skip hx he hwork)
    · obtain ⟨z, hz, habort⟩ := abortSlab_givesUp hs (hring ▸ List.mem_append_right _ List.mem_cons_self)
        (fun y hy => hring ▸ List.mem_append_left _ hy) hx he h
      rw [habort]
      by_cases hempty : allEmpty z (s.stream i).ring = true
      · have hrest : ∀ y ∈ l, (s.slab y).state = .empty := by
          intro y hy
          have hyd : y ∉ done ++ [x] := fun hd => List.disjoint_of_nodup_append (hring' ▸ hs.1) hd hy
          rw [← hz.slabs y hyd]
          exact beq_iff_eq.1 (List.all_eq_true.1 hempty y (hring' ▸ List.mem_append_right _ hy))
        have hdone := (completeUnbind_forced i o n cut z).1
        refine ⟨z, hring' ▸ hz.skips hwork (hring' ▸ hs.1) hrest, ?_⟩
        rw [hz.completes hstate hop hdetail hempty, hdone.abortSlabs, hdone.unbindTest]
        exact fun y hy => by
          rw [hz.ring, hring']
          exact List.mem_append_right _ hy
      · have hwait : unbindTest i z = z := by
          rw [unbindTest, if_neg fun hc => hempty (by rw [← hz.ring]; exact hc.2)]
        rw [hwait]
        exact ih hring' hz

/-- An abort that makes the whole ring EMPTY completes its UNBIND: the records of the ring given up, and then returned (R18,
R19). -/
theorem abortRing_completes (hs : abortsAtOnce i s) (hstate : (s.stream i).state = .stopping) (hop : streamOp i s = some o)
    (hdetail : o.detail = .unbind true n cut) : ∃ y, GivenUp i s (s.stream i).ring y ∧
      unbindTest i ((s.stream i).ring.foldl (fun acc sl => abortSlab i sl acc) s) = completeUnbind i o true n cut y := by
  obtain ⟨y, hy, htest⟩ := abortSlabs_giveUp hs hstate hop hdetail rfl (GivenUp.nil i s)
  refine ⟨y, hy, htest.trans (hy.completes hstate hop hdetail (List.all_eq_true.2 fun x hx => ?_))⟩
  exact beq_iff_eq.2 (hy.empty x hx).1

end

end Sys2Proof.Machine
end

section
/-! PROOF. The expiry of an UNBIND's deadline (R17 to R20). -/

namespace Sys2Proof.Machine

/-! ### The abort that the deadline begins -/

/-- The table entry of an UNBIND whose abort has begun (R18). -/
def PendingOp.cutShort (n : Nat) (cut : Option Epoch) (o : PendingOp) : PendingOp :=
  { o with deadline := none, detail := .unbind true n cut }

/-- The state in which the expiry of an UNBIND's deadline acts on the slabs of the ring: the count and the cut epoch stand in
the table entry (R18). -/
def deadlinePassed (i : StreamId) (slot : OpSlot) (d : Nat) (s : State) : State :=
  modOp slot (PendingOp.cutShort (discardedBy i s) (cutBy i s)) (s.reach d)

/-- The deadline's expiry acts on each slab of the ring, and then on what the Fill Engine has left (R17, R18). -/
theorem execUnbindDeadlineExpiry_stopping {i : StreamId} {slot : OpSlot} {o : PendingOp} {s : State} {d : Nat}
    (hslot : (s.stream i).pendingOp = some slot) (hop : findOp slot s = some o) (hd : o.deadline = some d)
    (hrun : s.management.warmReset = none) : exec (.unbindDeadlineExpiry i) s = .next (runWork (unbindTest i
      ((s.stream i).ring.foldl (fun acc sl => abortSlab i sl acc) (deadlinePassed i slot d s)))) := by
  have hdeadline : deadlineOp i s = some (slot, d) := by
    rw [deadlineOp, streamOp, hslot, Option.bind_some, hop, Option.bind_some, hd, Option.map_some, findOp_slot hop]
  have hhalted : s.halted = false := by rw [State.halted, hrun]; rfl
  show execUnbindDeadlineExpiry i s = _
  rw [execUnbindDeadlineExpiry, hdeadline]
  dsimp only
  rw [hhalted, if_neg Bool.false_ne_true]
  rfl

theorem deadlinePassed_streamOp {i : StreamId} {slot : OpSlot} {o : PendingOp} {s : State} {d : Nat}
    (hslot : (s.stream i).pendingOp = some slot) (hop : findOp slot s = some o) :
    streamOp i (deadlinePassed i slot d s) = some (o.cutShort (discardedBy i s) (cutBy i s)) := by
  have hreached : findOp slot (s.reach d) = some o := hop
  have hpending : ((deadlinePassed i slot d s).stream i).pendingOp = some slot := hslot
  rw [streamOp, hpending, Option.bind_some]
  exact findOp_modOp (fun _ => rfl) hreached

/-! ### Where every slab of the ring can be given up at once -/

/-- Every item of the Fill Engine's list goes with its slab, and the held write with the item in progress (R18). -/
theorem fillLeft_ring {i : StreamId} {s : State} (h : ∀ it ∈ s.fill.work, it.slab ∈ (s.stream i).ring) :
    fillLeft s (s.stream i).ring = { placing := s.fill.placing, work := []
                                     held := if s.fill.placing = none ∧ s.fill.work ≠ [] then none else s.fill.held } := by
  have hwork : s.fill.work.filter (fun it => !(s.stream i).ring.contains it.slab) = [] :=
    List.filter_eq_nil_iff.2 fun it hit => by simp [h it hit]
  have hhead : s.fill.work.head?.any (fun it => (s.stream i).ring.contains it.slab) = true ↔ s.fill.work ≠ [] := by
    cases hw : s.fill.work with
    | nil => simp
    | cons it l => simp [h it (by rw [hw]; exact List.mem_cons_self)]
  have hheld : (s.fill.placing.isNone && s.fill.work.head?.any fun it => (s.stream i).ring.contains it.slab) = true ↔
      s.fill.placing = none ∧ s.fill.work ≠ [] := by
    rw [Bool.and_eq_true, hhead, Option.isNone_iff_eq_none]
  rw [fillLeft, hwork, if_congr hheld rfl rfl]

/-- The records of the slabs given up and of the UNBIND completed, together (R18, R19, R119, R130). -/
theorem GivenUp.ended {i : StreamId} {slot : OpSlot} {o : PendingOp} {n d : Nat} {cut : Option Epoch} {s y t : State}
    (hy : GivenUp i (modOp slot (PendingOp.cutShort n cut) (s.reach d)) (s.stream i).ring y) (ht : Completed i o y t)
    (hslot : o.slot = slot) (hwork : ∀ it ∈ s.fill.work, it.slab ∈ (s.stream i).ring) : unbindEnded i slot s t := by
  have hring : (y.stream i).ring = (s.stream i).ring := hy.ring
  obtain ⟨l, hself⟩ := hy.self
  have hchannel : ∀ c, t.channel c = channelLeft s (s.stream i).ring c := fun c => by
    rw [ht.rest]
    exact hy.channel c
  refine ⟨?_, ?_, fun k hk => (ht.others k hk).trans (hy.others k hk), fun x hx => ?_, fun x hx => ?_, ?_,
    fun x c hx hst hc => ?_, fun c hc => ?_, ?_, ?_, ?_, ?_, ?_, ?_, ?_⟩
  · rw [ht.rest, hring, hy.rest]
    rfl
  · rw [ht.self, hself]
    rfl
  · rw [ht.ring x (hring ▸ hx), Slab.freed, (hy.empty x hx).2]
    rfl
  · rw [ht.slabs x (hring ▸ hx)]
    exact hy.slabs x hx
  · rw [ht.rest]
    exact hy.drain
  · rw [hchannel c]
    exact if_pos (List.any_eq_true.2 ⟨x, hx, by rw [hst, hc, beq_self_eq_true, beq_self_eq_true]; rfl⟩)
  · rw [hchannel c]
    refine if_neg fun hany => ?_
    obtain ⟨x, hx, hxc⟩ := List.any_eq_true.1 hany
    rw [Bool.and_eq_true, beq_iff_eq, beq_iff_eq] at hxc
    exact hc x hx hxc.1 hxc.2
  · rw [ht.rest]
    exact hy.fill.trans (fillLeft_ring hwork)
  · rw [ht.rest, hslot, hy.rest]
    exact congrArg (fun ops => { s.management with ops := ops })
      (releaseOp_modOp (f := PendingOp.cutShort n cut) fun _ => rfl)
  all_goals rw [ht.rest, hy.rest]; rfl

/-- The REPLY and the notice of the UNBIND that completes are those of the state in which its deadline expired. -/
theorem GivenUp.ports {i : StreamId} {slot : OpSlot} {n d : Nat} {cut : Option Epoch} {s y : State} {l : List SlabId}
    (hy : GivenUp i (modOp slot (PendingOp.cutShort n cut) (s.reach d)) l y) (m : Notice) (p : Port) (seg : Segment)
    (discard : Bool) (q : Port) :
    (raise m (if discard = true then y else pushReply p seg y)).port q =
      (raise m (if discard = true then s else pushReply p seg s)).port q := by
  have hport : ∀ q, y.port q = s.port q := fun q => by
    rw [hy.rest]
    cases q <;> rfl
  have hroutes : y.routes = s.routes := by
    rw [hy.rest]
    rfl
  refine raise_port_congr m ?_ ?_ q
  · split
    · exact hroutes
    · rw [pushReply_routes, pushReply_routes, hroutes]
  · split
    · exact hport
    · exact pushReply_port_congr p seg hport

/-- The deadline of an UNBIND whose ring can be given up at once ends it (R17 to R20). -/
theorem deadline_ends {i : StreamId} {slot : OpSlot} {o : PendingOp} {s : State} {d : Nat} (hs : abortsAtOnce i s)
    (hstate : (s.stream i).state = .stopping) (hslot : (s.stream i).pendingOp = some slot) (hop : findOp slot s = some o)
    (hd : o.deadline = some d) (hrun : s.management.warmReset = none) :
    ∃ t, exec (.unbindDeadlineExpiry i) s = .next t ∧ unbindEnded i slot s t ∧ t.now = max s.now d ∧
      ∀ p, t.port p = (raise (stoppedNotice i (cutBy i s) (discardedBy i s)) (if o.discard = true then s
        else pushReply o.port (replySegment o.tag 0x15 .done (1 :: beBytes 2 (discardedBy i s))) s)).port p := by
  have hwork : ∀ it ∈ s.fill.work, it.slab ∈ (s.stream i).ring := fun it hit => (hs.2.1 it hit).1
  have hpassed : abortsAtOnce i (deadlinePassed i slot d s) := hs
  obtain ⟨y, hy, htest⟩ := abortRing_completes hpassed hstate (deadlinePassed_streamOp hslot hop) rfl
  obtain ⟨hdone, hports⟩ := completeUnbind_forced i (o.cutShort (discardedBy i s) (cutBy i s)) (discardedBy i s)
    (cutBy i s) y
  obtain ⟨t, ht⟩ : ∃ t, t = completeUnbind i (o.cutShort (discardedBy i s) (cutBy i s)) true (discardedBy i s)
    (cutBy i s) y := ⟨_, rfl⟩
  rw [← ht] at htest hdone hports
  have hslot' : (o.cutShort (discardedBy i s) (cutBy i s)).slot = slot := (findOp_slot hop : o.slot = slot)
  have hended : unbindEnded i slot s t := hy.ended hdone hslot' hwork
  have hidle : t.fill.work = [] := by
    obtain ⟨-, -, -, -, -, -, -, -, hfill, -⟩ := hended
    rw [hfill]
  refine ⟨t, ?_, hended, ?_, fun p => (hports p).trans (hy.ports ..)⟩
  · rw [execUnbindDeadlineExpiry_stopping hslot hop hd hrun]
    exact congrArg Host.Outcome.next ((congrArg runWork htest).trans (runWork_nil hidle))
  · rw [hdone.rest, hy.rest]
    rfl

/-! ### Where a DRAINING slab has to be waited for -/

/-- An abort leaves EMPTY slabs (R18). -/
theorem abortSlabs_empty {i : StreamId} {t : State} : ∀ {l : List SlabId}, (∀ y ∈ l, (t.slab y).state = .empty) →
    l.foldl (fun acc sl => abortSlab i sl acc) t = t
  | [], _ => rfl
  | y :: l, h => by
    rw [List.foldl_cons, abortSlab, h y List.mem_cons_self]
    exact abortSlabs_empty fun z hz => h z (List.mem_cons_of_mem _ hz)

/-- A channel that is read for or sent from is only marked: its slab stays with it (R129, R130). -/
theorem abortChannel_waits {c : ChanId} {s : State} (ha : (s.channel c).abortable = true)
    (hbusy : (s.channel c).read ≠ none ∨ (s.channel c).inTransmission = true) :
    abortChannel c s = s.setChannel c { s.channel c with state := .aborting, assembled := none } := by
  rw [abortChannel, if_pos ha, testAbort, if_neg]
  · rfl
  · rw [State.modChannel, State.setChannel_channel]
    rintro ⟨-, hread, hsent⟩
    exact hbusy.elim (fun h => h hread) fun h => Bool.false_ne_true (hsent.symm.trans h)

section

variable {i : StreamId} {s : State} {front back : List SlabId} {x : SlabId}

/-- A ring with one DRAINING slab among EMPTY ones: an abort discards one epoch. -/
theorem discardedBy_one (hring : (s.stream i).ring = front ++ x :: back)
    (hrest : ∀ y, y ∈ front ∨ y ∈ back → (s.slab y).state = .empty) (hx : (s.slab x).state = .draining) :
    discardedBy i s = 1 := by
  have hnone : ∀ l : List SlabId, (∀ y ∈ l, (s.slab y).state = .empty) →
      l.filter (fun y => (s.slab y).state != .empty) = [] := fun l hl =>
    List.filter_eq_nil_iff.2 fun y hy => by rw [hl y hy]; decide
  rw [discardedBy, hring, List.filter_append, List.filter_cons_of_pos (by rw [hx]; rfl),
    hnone front fun y hy => hrest y (.inl hy), hnone back fun y hy => hrest y (.inr hy)]
  rfl

/-- A ring with one DRAINING slab among EMPTY ones: an abort cuts that slab's epoch short. -/
theorem cutBy_one (hring : (s.stream i).ring = front ++ x :: back)
    (hrest : ∀ y, y ∈ front ∨ y ∈ back → (s.slab y).state = .empty) (hx : (s.slab x).state = .draining) :
    cutBy i s = (s.slab x).epoch := by
  have hfront : front.find? (fun y => (s.slab y).state == .draining) = none :=
    List.find?_eq_none.2 fun y hy => by rw [hrest y (.inl hy)]; decide
  rw [cutBy, hring, List.find?_append, hfront, Option.none_or, List.find?_cons_of_pos (by rw [hx]; rfl), Option.bind_some]

/-- The deadline of an UNBIND whose DRAINING slab's channel is busy marks the channel, and the UNBIND waits on (R18, R129). -/
theorem deadline_waits {slot : OpSlot} {o : PendingOp} {d : Nat} {c : ChanId}
    (hslot : (s.stream i).pendingOp = some slot) (hop : findOp slot s = some o) (hd : o.deadline = some d)
    (hrun : s.management.warmReset = none) (hring : (s.stream i).ring = front ++ x :: back)
    (hrest : ∀ y, y ∈ front ∨ y ∈ back → (s.slab y).state = .empty) (hx : (s.slab x).state = .draining)
    (hholder : (s.slab x).holder = some (.channel c)) (ha : (s.channel c).abortable = true)
    (hbusy : (s.channel c).read ≠ none ∨ (s.channel c).inTransmission = true) (hwork : s.fill.work = []) :
    exec (.unbindDeadlineExpiry i) s = .next ((deadlinePassed i slot d s).setChannel c
      { s.channel c with state := .aborting, assembled := none }) := by
  have habort : abortSlab i x (deadlinePassed i slot d s) =
      (deadlinePassed i slot d s).setChannel c { s.channel c with state := .aborting, assembled := none } := by
    have hstate : ((deadlinePassed i slot d s).slab x).state = .draining := hx
    have hheld : ((deadlinePassed i slot d s).slab x).holder = some (.channel c) := hholder
    rw [abortSlab, hstate]
    dsimp only
    rw [hheld]
    exact abortChannel_waits ha hbusy
  have hring' : (s.stream i).ring.foldl (fun acc sl => abortSlab i sl acc) (deadlinePassed i slot d s) =
      (deadlinePassed i slot d s).setChannel c { s.channel c with state := .aborting, assembled := none } := by
    rw [hring, List.foldl_append, abortSlabs_empty (t := deadlinePassed i slot d s) fun y hy => hrest y (.inl hy),
      List.foldl_cons, habort]
    exact abortSlabs_empty fun y hy => hrest y (.inr hy)
  rw [execUnbindDeadlineExpiry_stopping hslot hop hd hrun, hring', unbindTest, if_neg, runWork_nil]
  · exact hwork
  · rintro ⟨-, hempty⟩
    have hxempty : ((s.slab x).state == .empty) = true := List.all_eq_true.1 hempty x (by
      show x ∈ (s.stream i).ring
      rw [hring]
      exact List.mem_append_right _ List.mem_cons_self)
    rw [hx] at hxempty
    cases hxempty

end

end Sys2Proof.Machine

open Sys2Proof Sys2Proof.Machine

/-- Settles O27: `deadline_ends` where the whole ring is given up at once, `deadline_waits` where a channel is busy. -/
theorem deadlineForcesUnbind : Obligations.DeadlineForcesUnbind := by
  intro i slot o forced m cut s d hstate hslot hop hd _ hrun
  refine ⟨fun hs => deadline_ends hs hstate hslot hop hd hrun,
    fun front x back c hring hrest hx hholder ha hbusy hwork => ?_⟩
  rw [deadline_waits hslot hop hd hrun hring hrest hx hholder ha hbusy hwork, deadlinePassed,
    discardedBy_one hring hrest hx, cutBy_one hring hrest hx]
  rfl
end

section
/-! PROOF. The Walk Unit: the addresses of a walk that LOAD WALK admits, the staging and commit of layouts and the discarding
of what is staged (02_walks_and_layouts.md R28 to R42). -/

namespace Sys2Proof.Machine

/-! ### The terms of a walk lie between its contributions (R28, R29, R35) -/

theorem reverseBits_lt : ∀ b i : Nat, reverseBits b i < 2 ^ b
  | 0, _ => Nat.one_pos
  | b + 1, i => by
    have ih := reverseBits_lt b (i / 2)
    rw [reverseBits, pow_succ]
    rcases Nat.mod_two_eq_zero_or_one i with h | h <;> rw [h] <;> omega

section

variable {w : Walk} {l : Level}

/-- A linear term lies between the low and the high contribution of its level, at either end of the count. -/
theorem linearTerm_within {i : Nat} (hi : i < l.count) :
    (linearSpan l).1 ≤ i * l.stride ∧ i * l.stride ≤ (linearSpan l).2 := by
  have hlast : (i : Int) ≤ l.count - 1 := by omega
  have hfirst : (0 : Int) ≤ i := Int.natCast_nonneg i
  rcases le_total 0 l.stride with h | h
  · exact ⟨min_le_of_left_le (mul_nonneg hfirst h), le_max_of_le_right (mul_le_mul_of_nonneg_right hlast h)⟩
  · exact ⟨min_le_of_right_le (mul_le_mul_of_nonpos_right hlast h),
      le_max_of_le_left (mul_nonpos_of_nonneg_of_nonpos hfirst h)⟩

/-- The innermost term lies between its contributions in each inner mode: the reversed index stays below the count. -/
theorem innerTerm_within {i : Nat} (hi : i < l.count) (hwindow : w.mode = .modulo → 1 ≤ w.window.getD 1) :
    (innerSpan w l).1 ≤ innerTerm w l i ∧ innerTerm w l i ≤ (innerSpan w l).2 := by
  unfold innerSpan innerTerm
  cases hm : w.mode with
  | linear => exact linearTerm_within hi
  | modulo =>
    have hpos : (0 : Int) < (w.window.getD 1 : Nat) := by exact_mod_cast hwindow hm
    exact ⟨Int.emod_nonneg _ hpos.ne', Int.le_sub_one_of_lt (Int.emod_lt_of_pos _ hpos)⟩
  | reversed =>
    have hcount : 2 ^ Nat.log2 l.count ≤ l.count := Nat.log2_self_le (by omega)
    exact linearTerm_within ((reverseBits_lt ..).trans_le hcount)

/-- The sum of the terms lies between the sums of the contributions, whatever the logical index. -/
theorem termSum_within (hwindow : w.mode = .modulo → 1 ≤ w.window.getD 1) : ∀ {ls : List Level},
    (∀ l ∈ ls, 1 ≤ l.count) → ∀ j : Nat, (spanSum w ls).1 ≤ termSum w ls j ∧ termSum w ls j ≤ (spanSum w ls).2
  | [], _, _ => ⟨le_rfl, le_rfl⟩
  | [l], hcounts, j => innerTerm_within (Nat.mod_lt j (hcounts l List.mem_cons_self)) hwindow
  | l :: l' :: ls, hcounts, j => by
    obtain ⟨hlow, hhigh⟩ := linearTerm_within (l := l)
      (Nat.mod_lt (j / countProduct (l' :: ls)) (hcounts l List.mem_cons_self))
    obtain ⟨ihlow, ihhigh⟩ := termSum_within hwindow (ls := l' :: ls) (fun x hx => hcounts x (List.mem_cons_of_mem _ hx)) j
    exact ⟨add_le_add hlow ihlow, add_le_add hhigh ihhigh⟩

/-! ### The checks of LOAD WALK (R33 to R35) -/

/-- A walk is admitted when it passes all three checks. -/
theorem walkRefusal_eq_none {d : Definition} : walkRefusal w d = none ↔
    walkFormOk w = true ∧ walkFitsFrame w d.frameLength = true ∧ walkInRange w (slabCapacity d.storeWidth) = true := by
  simp only [walkRefusal, Bool.not_eq_eq_eq_not, Bool.not_true, ite_eq_iff, reduceCtorEq, and_false, false_or,
    Bool.not_eq_false, and_true]

/-- A walk of a permitted form has no empty level, and under MODULO a window (R33). -/
theorem walkFormOk_bounds (h : walkFormOk w = true) :
    (∀ l ∈ w.levels, 1 ≤ l.count) ∧ (w.mode = .modulo → 1 ≤ w.window.getD 1) := by
  unfold walkFormOk at h
  rw [Bool.and_eq_true, Bool.and_eq_true, List.all_eq_true] at h
  obtain ⟨⟨-, hlevels⟩, hmode⟩ := h
  refine ⟨fun l hl => (of_decide_eq_true (hlevels l hl)).1, fun hm => ?_⟩
  rw [hm] at hmode
  cases hwin : w.window with
  | none => rw [hwin] at hmode; cases hmode
  | some n => rw [hwin] at hmode; exact (of_decide_eq_true hmode).1

theorem walkInRange_iff {capacity : Nat} : walkInRange w capacity = true ↔ w.origin < capacity ∧
    0 ≤ (w.origin : Int) + (spanSum w w.levels).1 ∧ (w.origin : Int) + (spanSum w w.levels).2 < capacity := by
  simp only [walkInRange, Bool.and_eq_true, decide_eq_true_eq, and_assoc]

/-- The addresses of an admitted walk lie within the slab's capacity (R35). -/
theorem admitted_address {d : Definition} (h : walkRefusal w d = none) (j : Nat) :
    0 ≤ (w.origin : Int) + termSum w w.levels j ∧ walkAddress w j < slabCapacity d.storeWidth := by
  obtain ⟨hform, -, hrange⟩ := walkRefusal_eq_none.1 h
  obtain ⟨hcounts, hwindow⟩ := walkFormOk_bounds hform
  obtain ⟨-, hlow, hhigh⟩ := walkInRange_iff.1 hrange
  obtain ⟨hmin, hmax⟩ := termSum_within hwindow hcounts j
  unfold walkAddress
  omega

/-- A sample address below the capacity names bytes of the slab's own (R53, R59). -/
theorem sampleAddr_within {storeWidth a : Nat} (sl : SlabId) (h : a < slabCapacity storeWidth) :
    sl.val * 65536 ≤ sampleAddr sl storeWidth a ∧
      sampleAddr sl storeWidth a + storeWidth / 8 ≤ (sl.val + 1) * 65536 := by
  have hbytes : (a + 1) * (storeWidth / 8) ≤ 65536 := calc
    (a + 1) * (storeWidth / 8) ≤ 65536 / (storeWidth / 8) * (storeWidth / 8) := Nat.mul_le_mul_right _ h
    _ ≤ 65536 := Nat.div_mul_le_self ..
  rw [Nat.add_mul, Nat.one_mul] at hbytes
  unfold sampleAddr
  rw [show Config.slabBytes = 65536 from rfl]
  omega

end

/-! ### LOAD WALK, by its cases (R33 to R36) -/

section

variable {i : StreamId} {r : Request} {s : State} {d : Definition} {w : Walk}

theorem loadWalk_noForm (h : walkOf r.payload = none) : loadWalk i r s = refuse r .loadWalk .badParam s := by
  rw [loadWalk, h]

theorem loadWalk_form (hw : walkOf r.payload = some w) (hd : (s.stream i).defn = some d) :
    loadWalk i r s = loadForm i d w r s := by
  rw [loadWalk, hw, hd]

/-- The selector has the two codes WRITE 0 and READ 1 (R36). -/
theorem stageWalk_eq_none {n : Nat} {e : Stream} : stageWalk n w e = none ↔ 1 < n := by
  match n with
  | 0 => simp [stageWalk]
  | 1 => simp [stageWalk]
  | n + 2 => simp [stageWalk]

theorem loadForm_badSelector (h : 1 < field r.payload 2 1) : loadForm i d w r s = refuse r .loadWalk .badParam s := by
  rw [loadForm, stageWalk_eq_none.2 h]

theorem loadForm_refused {st : Status} (h : field r.payload 2 1 ≤ 1) (hw : walkRefusal w d = some st) :
    loadForm i d w r s = refuse r .loadWalk st s := by
  have hstage : stageWalk (field r.payload 2 1) w (s.stream i) ≠ none := fun hn => by
    have := stageWalk_eq_none.1 hn
    omega
  obtain ⟨e, he⟩ := Option.ne_none_iff_exists'.1 hstage
  rw [loadForm, he, hw]

theorem loadForm_staged {e : Stream} (h : stageWalk (field r.payload 2 1) w (s.stream i) = some e)
    (hw : walkRefusal w d = none) : loadForm i d w r s = answer r .loadWalk .done [] (s.setStream i e) := by
  rw [loadForm, h, hw]

/-! ### COMMIT LAYOUT, by its cases (R39, R40) -/

theorem commitStream_nothingStaged (hw : (s.stream i).stagedWrite = none) (hr : (s.stream i).stagedRead = none) :
    commitStream i r s = refuse r .commitLayout .badState s := by
  unfold commitStream
  dsimp only
  split
  · rfl
  · rw [if_pos ⟨hw, hr⟩]

section

variable {l : Layout} (hl : (s.stream i).current = some l)
  (hstaged : (s.stream i).stagedWrite ≠ none ∨ (s.stream i).stagedRead ≠ none)
include hl hstaged

theorem commitStream_versionsFull (hb : isBound (s.stream i).state = true) (hp : (s.stream i).previous ≠ none) :
    commitStream i r s = refuse r .commitLayout .versionsFull s := by
  unfold commitStream
  dsimp only
  rw [hl]
  dsimp only
  rw [if_neg (fun h => hstaged.elim (· h.1) (· h.2)), if_pos (by rw [hb, Option.isSome_iff_ne_none.2 hp]; rfl)]

theorem commitStream_taken (h : isBound (s.stream i).state = false ∨ (s.stream i).previous = none) :
    commitStream i r s = commitLayout i l r s := by
  unfold commitStream
  dsimp only
  rw [hl]
  dsimp only
  rw [if_neg (fun h => hstaged.elim (· h.1) (· h.2)), if_neg]
  rcases h with h | h <;> simp [h]

end

/-- A layout in use before a commit stays as the previous one of a bound stream while its ring carries it (R39, R40). -/
theorem previousAfter_bound (hb : isBound (s.stream i).state = true) (l : Layout) :
    previousAfter s i l =
      if ((s.stream i).ring.any fun x => (s.slab x).version == some l.version) = true then some l else none := by
  rw [previousAfter, hb, Bool.true_and]
  rfl

theorem previousAfter_unbound (hb : isBound (s.stream i).state = false) (l : Layout) : previousAfter s i l = none := by
  rw [previousAfter, hb, Bool.false_and]
  rfl

end

/-- A stream that has a layout is DEFINED or bound (R4). -/
theorem hasLayout_bound {v : StreamState} (h : hasLayout v = true) (hd : v ≠ .defined) : isBound v = true := by
  cases v <;> first | rfl | exact absurd rfl hd | cases h

/-- A stream changed after a request was taken, by its entry before (R162, R164). -/
theorem takeRequest_modStream (p : Port) (s : State) (i : StreamId) (f : Stream → Stream) :
    (takeRequest p s).modStream i f = (takeRequest p s).setStream i (f (s.stream i)) := by
  rw [State.modStream, takeRequest_stream]

end Sys2Proof.Machine

open Sys2Proof Sys2Proof.Machine

/-- Settles O39: each term lies between its level's contributions, which the range check sums up. -/
theorem walksStayInSlab : Obligations.WalksStayInSlab := by
  intro w d j sl hadmitted _
  obtain ⟨hnonneg, hbelow⟩ := admitted_address hadmitted j
  exact ⟨hnonneg, hbelow, sampleAddr_within sl hbelow⟩

/-- Settles O55: the own rules of LOAD WALK and COMMIT LAYOUT, case by case. -/
theorem layoutRequests : Obligations.LayoutRequests := by
  rintro p s u r i rfl
  have hstream := takeRequest_stream p s i
  refine ⟨fun hasks d hd => ?load, fun hasks l new hl hnew => ?commit⟩
  case load =>
    obtain rfl := asksStream_port hasks
    have hexec : exec (.loadWalk r.port) s = .next (loadWalk i r (takeRequest r.port s)) :=
      congrArg Host.Outcome.next (serve_asksStream hasks)
    have hd' : ((takeRequest r.port s).stream i).defn = some d := (congrArg Stream.defn hstream).trans hd
    rw [hexec]
    refine ⟨fun h => ?_, fun w hw => ?_⟩
    · cases hw : walkOf r.payload with
      | none => rw [loadWalk_noForm hw]; rfl
      | some w => rw [loadWalk_form hw hd', loadForm_badSelector (h.resolve_left (by simp [hw]))]; rfl
    rw [loadWalk_form hw hd']
    refine ⟨fun st hsel hst => ?refused, fun hsel hok => ?write, fun hsel hok => ?read⟩
    case refused => rw [loadForm_refused hsel hst]; rfl
    case write => rw [loadForm_staged (by rw [hsel]; rfl) hok, hstream]; rfl
    case read => rw [loadForm_staged (by rw [hsel]; rfl) hok, hstream]; rfl
  case commit =>
    obtain rfl := asksStream_port hasks
    have hexec : exec (.commitLayout r.port) s = .next (commitStream i r (takeRequest r.port s)) :=
      congrArg Host.Outcome.next (serve_asksStream hasks)
    obtain ⟨-, -, -, hlayout⟩ := hasks
    have hl' : ((takeRequest r.port s).stream i).current = some l := (congrArg Stream.current hstream).trans hl
    rw [hexec, hnew]
    refine ⟨fun hw hr => ?_, fun hstaged => ?_⟩
    · rw [commitStream_nothingStaged (by rw [hstream]; exact hw) (by rw [hstream]; exact hr)]
      rfl
    rw [← hstream] at hstaged hlayout
    refine ⟨fun hs hp => ?full, fun hs => ?unbound, fun hs hp => ?bound⟩
    case full =>
      rw [← hstream] at hs hp
      rw [commitStream_versionsFull hl' hstaged (hasLayout_bound hlayout hs) hp]
      rfl
    case unbound =>
      have hb : isBound ((takeRequest r.port s).stream i).state = false := by rw [hstream, hs]; rfl
      rw [commitStream_taken hl' hstaged (.inl hb), commitLayout, previousAfter_unbound hb, takeRequest_modStream, hstream]
      rfl
    case bound =>
      rw [← hstream] at hs hp
      rw [commitStream_taken hl' hstaged (.inr hp), commitLayout, previousAfter_bound (hasLayout_bound hlayout hs),
        takeRequest_modStream, hstream]
      simp only [takeRequest_slab]
      rfl

/-- Settles O56: DISCARD STAGING's own rule, and the state check on an EMPTY stream. -/
theorem discardStagingTaken : Obligations.DiscardStagingTaken := by
  intro p s r i hasks hi hpending
  refine ⟨fun hs => ?_, fun hs => ?_⟩
  · have hlayout : hasLayout (s.stream i).state = true := by rcases hs with hs | hs | hs <;> rw [hs] <;> rfl
    have htaken : exec (.discardStaging p) s = .next (discardStaging i r (takeRequest p s)) :=
      congrArg Host.Outcome.next (serve_asksStream ⟨hasks, hi, hpending, hlayout⟩)
    rw [htaken, discardStaging, takeRequest_modStream, answer, asks_port hasks]
    rfl
  · have hchecked : exec (.discardStaging p) s =
        .next (onStream .discardStaging hasLayout discardStaging r (takeRequest p s)) :=
      congrArg Host.Outcome.next (serve_asks hasks)
    rw [hchecked, onStream_badState hi (by rw [takeRequest_stream]; exact hpending)
      (by rw [takeRequest_stream, hs]; rfl), refuse, answer, asks_port hasks]
    rfl
end

section
/-! PROOF. The end of the claim by its lease or with its holder's port, and a port that goes DOWN
(02_walks_and_layouts.md R43; 07_draining.md R130, R133; 09_ports_and_segments.md R156; 10_in_band_management.md R174,
R178). -/

namespace Sys2Proof.Machine

/-! ### The numbers of the ports (R178, R188) -/

theorem portCode_setWidth (p : Port) : (Port.code p).setWidth 32 = if p = .a then 1 else 2 := by cases p <;> rfl

theorem claimEndedNotice_eq (p : Port) : claimEndedNotice p =
    { kind := .claimEnded, subject := none, epoch := none, detail := if p = .a then 1 else 2 } := by
  rw [claimEndedNotice, portCode_setWidth]

theorem raiseLink_eq (k : NoticeKind) (p : Port) (s : State) : raiseLink k p s = offerNotice p.other
    { kind := k, subject := none, epoch := none, detail := if p = .a then 1 else 2 } s := by
  rw [raiseLink, portCode_setWidth]

/-! ### What slabs that come to rest leave while a port is DOWN -/

/-- From `s` to `t` slabs came to rest while port `p` is DOWN: UNBINDs may have completed by it, whose REPLYs and notices
the port discards and loses (R19, R174, R190). -/
structure CameToRest (p : Port) (s t : State) : Prop where
  rest : ∃ ops, ops.Sublist s.management.ops ∧
    t = { s with portA := t.portA, portB := t.portB, streams := t.streams, slabs := t.slabs, freeList := t.freeList
                 channels := t.channels, management := { s.management with ops := ops } }
  port : ∃ n, t.port p = { s.port p with lost := n }

namespace CameToRest

variable {p : Port} {s t : State}

theorem refl (p : Port) (s : State) : CameToRest p s s := ⟨⟨_, List.Sublist.refl _, rfl⟩, (s.port p).lost, rfl⟩

theorem link (h : CameToRest p s t) : (t.port p).link = (s.port p).link := by
  obtain ⟨n, e⟩ := h.port
  rw [e]

theorem holder (h : CameToRest p s t) : t.management.holder = s.management.holder := by
  obtain ⟨ops, -, e⟩ := h.rest
  rw [e]

/-! #### The updates by which slabs come to rest -/

/-- A change of the records leaves the ports. -/
theorem records (h : CameToRest p s t) (streams : Table 64 Stream) (slabs : Table 1024 Slab) (freeList : List SlabId)
    (channels : Table 4 Channel) :
    CameToRest p s { t with streams := streams, slabs := slabs, freeList := freeList, channels := channels } where
  rest := by
    obtain ⟨ops, hsub, e⟩ := h.rest
    refine ⟨ops, hsub, ?_⟩
    conv_lhs => rw [e]
  port := by cases p <;> exact h.port

theorem setStream (h : CameToRest p s t) (i : StreamId) (v : Stream) : CameToRest p s (t.setStream i v) :=
  h.records (t.streams.set i v) t.slabs t.freeList t.channels

theorem setSlab (h : CameToRest p s t) (sl : SlabId) (v : Slab) : CameToRest p s (t.setSlab sl v) :=
  h.records t.streams (t.slabs.set sl v) t.freeList t.channels

theorem setChannel (h : CameToRest p s t) (c : ChanId) (v : Channel) : CameToRest p s (t.setChannel c v) :=
  h.records t.streams t.slabs t.freeList (t.channels.set c v)

theorem free (h : CameToRest p s t) (l : List SlabId) : CameToRest p s { t with freeList := l } :=
  h.records t.streams t.slabs l t.channels

theorem releaseOp (h : CameToRest p s t) (k : OpSlot) : CameToRest p s (releaseOp k t) where
  rest := by
    obtain ⟨ops, hsub, e⟩ := h.rest
    refine ⟨ops.filter fun o => o.slot != k, List.filter_sublist.trans hsub, ?_⟩
    conv_lhs => rw [e]
    rfl
  port := by cases p <;> exact h.port

/-- A DOWN port loses a notice, and counts it (R190). -/
theorem offer (hdown : (s.port p).link = .down) {q : Port} {n : Notice} (h : CameToRest p s t) :
    CameToRest p s (offerNotice q n t) where
  rest := by
    obtain ⟨ops, hsub, e⟩ := h.rest
    exact ⟨ops, hsub, by cases q <;> (conv_lhs => rw [e]) <;> rfl⟩
  port := by
    obtain ⟨m, e⟩ := h.port
    rw [offerNotice, modPort_port_of]
    split
    · next hq =>
      subst hq
      rw [if_neg (by rw [h.link, hdown]; simp), e]
      exact ⟨_, rfl⟩
    · exact ⟨m, e⟩

/-- A DOWN port queues no REPLY (R174). -/
theorem reply (hdown : (s.port p).link = .down) {q : Port} {seg : Segment} (h : CameToRest p s t) :
    CameToRest p s (pushReply q seg t) where
  rest := by
    obtain ⟨ops, hsub, e⟩ := h.rest
    exact ⟨ops, hsub, by cases q <;> (conv_lhs => rw [e]) <;> rfl⟩
  port := by
    rw [pushReply, modPort_port_of]
    split
    · next hq =>
      subst hq
      rw [if_neg (by rw [h.link, hdown]; simp)]
      exact h.port
    · exact h.port

theorem raise (hdown : (s.port p).link = .down) {n : Notice} (h : CameToRest p s t) : CameToRest p s (raise n t) :=
  raise_keeps (fun h => h.offer hdown) h

/-! #### The operations by which slabs come to rest (R19, R41, R60, R130, R133) -/

theorem completeUnbind (hdown : (s.port p).link = .down) {i : StreamId} {o : PendingOp} {forced : Bool} {n : Nat}
    {cut : Option Epoch} (h : CameToRest p s t) : CameToRest p s (completeUnbind i o forced n cut t) := by
  have ring : CameToRest p s (modSlabs Slab.freed (t.stream i).ring t) := modSlabs_keeps (fun h => h.setSlab _ _) h
  unfold Machine.completeUnbind
  dsimp only
  split
  · exact raise hdown (lateReply_keeps (fun h => h.reply hdown) (((ring.free _).setStream i _).releaseOp _))
  · exact lateReply_keeps (fun h => h.reply hdown) (((ring.free _).setStream i _).releaseOp _)

theorem unbindTest (hdown : (s.port p).link = .down) {i : StreamId} (h : CameToRest p s t) :
    CameToRest p s (unbindTest i t) := by
  unfold Machine.unbindTest
  split
  · split
    · split
      · exact h.completeUnbind hdown
      · exact h
    · exact h
  · exact h

theorem emptyOwned (hdown : (s.port p).link = .down) {sl : SlabId} (h : CameToRest p s t) :
    CameToRest p s (emptyOwned sl t) := by
  unfold Machine.emptyOwned
  split
  · rw [emptySlab_eq]
    exact ((h.setSlab ..).setStream ..).unbindTest hdown
  · exact h.setSlab ..

theorem completeAbort (hdown : (s.port p).link = .down) {c : ChanId} (h : CameToRest p s t) :
    CameToRest p s (completeAbort c t) :=
  (fold_keeps (fun _ _ h => h.emptyOwned hdown) _ h).setChannel ..

theorem transmissionEnded (hdown : (s.port p).link = .down) {o : Option ChanId} (h : CameToRest p s t) :
    CameToRest p s (transmissionEnded o t) := by
  unfold Machine.transmissionEnded
  split
  · unfold testAbort
    split
    · exact (h.setChannel ..).completeAbort hdown
    · exact h.setChannel ..
  · exact h

end CameToRest

/-! ### The end of a channel's transmission (R130, R133) -/

/-- Whether its abort completes or not, the channel is no longer in transmission. -/
theorem transmissionEnded_channel (c : ChanId) (s : State) :
    ((transmissionEnded (some c) s).channel c).inTransmission = false := by
  unfold transmissionEnded testAbort
  dsimp only
  split
  · rw [completeAbort, State.setChannel_channel]
    rfl
  · rw [State.modChannel, State.setChannel_channel]

theorem transmissionEnded_eq (c : ChanId) (s : State) : transmissionEnded (some c) s = sendEnded c s := by
  unfold transmissionEnded testAbort sendEnded
  dsimp only
  rw [State.modChannel, State.setChannel_channel]
  by_cases h : (s.channel c).state = .aborting ∧ (s.channel c).read = none
  · obtain ⟨hstate, hread⟩ := id h
    rw [if_pos ⟨hstate, hread, rfl⟩, if_pos h, completeAbort, State.setChannel_channel]
    rfl
  · rw [if_neg fun ⟨hstate, hread, _⟩ => h ⟨hstate, hread⟩, if_neg h]

/-! ### The claim of a port that went DOWN (R43, R156, R178) -/

theorem dropClaim_eq (p : Port) (s : State) :
    dropClaim p s = if s.management.holder = some p then claimLost p s else s := by
  rw [dropClaim, claimEndedNotice_eq]
  rfl

/-- The Management Unit without a claim of port `p`. -/
def claimDropped (p : Port) (s : State) : State :=
  { s with management := { s.management with
      holder := if s.management.holder = some p then none else s.management.holder
      lease := if s.management.holder = some p then none else s.management.lease
      leaseTimer := if s.management.holder = some p then none else s.management.leaseTimer } }

theorem CameToRest.dropClaim {p : Port} {s t : State} (hdown : (s.port p).link = .down) (h : CameToRest p s t) :
    CameToRest p (claimDropped p s) (dropClaim p t) := by
  obtain ⟨ops, hsub, e⟩ := id h.rest
  unfold Machine.dropClaim
  rw [h.holder]
  by_cases hclaim : s.management.holder = some p
  · rw [if_pos hclaim]
    refine CameToRest.raise (by cases p <;> exact hdown) ⟨⟨ops, hsub, ?_⟩, by cases p <;> exact h.port⟩
    rw [endClaim, claimDropped, hclaim]
    conv_lhs => rw [e]
    simp only [if_true]
  · rw [if_neg hclaim]
    refine ⟨⟨ops, hsub, ?_⟩, by cases p <;> exact h.port⟩
    rw [claimDropped, if_neg hclaim, if_neg hclaim, if_neg hclaim]
    exact e

/-! ### The DOWN event (R156, R174) -/

theorem portDropped_eq (p : Port) (s : State) : markDiscards p (s.modPort p PortState.dropped) = portDropped p s := by
  cases p <;> rfl

theorem portDropped_port (p : Port) (s : State) : (portDropped p s).port p = { PortState.blank with
    overruns := (s.port p).overruns, checkFailures := (s.port p).checkFailures, misdirected := (s.port p).misdirected
    unbound := (s.port p).unbound, lost := satAdd (s.port p).lost (s.port p).notices.length } := by
  cases p <;> rfl

/-- The requests taken from a port that went DOWN are marked (R174). -/
theorem portDropped_marks {p : Port} {s : State} {o : PendingOp} (h : o ∈ (portDropped p s).management.ops)
    (hp : o.port = p) : o.discard = true := by
  obtain ⟨x, -, rfl⟩ := List.mem_map.1 h
  by_cases e : x.port = p
  · rw [if_pos e]
  · rw [if_neg e] at hp
    exact absurd hp e

theorem portDropped_down (p : Port) (s : State) : ((portDropped p s).port p).link = .down := by
  rw [portDropped_port]
  rfl

/-- The end of the transmission that was cut short leaves the claim. -/
theorem cutShort_holder (p : Port) (s : State) (o : Option ChanId) :
    (transmissionEnded o (portDropped p s)).management.holder = s.management.holder :=
  ((CameToRest.refl p _).transmissionEnded (portDropped_down p s)).holder

theorem exec_downEvent {p : Port} {s : State} (h : (s.port p).link = .up) :
    exec (.downEvent p) s = .next (goDown p s) := by
  show execDownEvent p s = _
  rw [execDownEvent, h]

/-- A DOWN event, its effects in the order of log entry 22. -/
theorem goDown_eq (p : Port) (s : State) : goDown p s = raiseLink .portDown p
    (dropClaim p (transmissionEnded ((s.port p).sending.bind (·.source)) (portDropped p s))) := by
  rw [← portDropped_eq]
  rfl

/-- The DOWN port's own fields, the claim and the marks, and the state that no slab coming to rest changes. -/
theorem goDown_cameToRest (p : Port) (s : State) : CameToRest p (claimDropped p (portDropped p s)) (goDown p s) := by
  have hdown := portDropped_down p s
  rw [goDown_eq]
  exact (((CameToRest.refl p _).transmissionEnded hdown).dropClaim hdown).offer (by cases p <;> exact hdown)

/-- A DOWN event leaves the gangs, the Drain Queue, the controller, the Fill Engine, memory, the routes, the turn and
the time, and of the table's entries it marks and completes some. -/
theorem goDown_rest (p : Port) (s : State) : ∃ ops, ops.Sublist (portDropped p s).management.ops ∧
    goDown p s = { s with
      portA := (goDown p s).portA, portB := (goDown p s).portB, streams := (goDown p s).streams
      slabs := (goDown p s).slabs, freeList := (goDown p s).freeList, channels := (goDown p s).channels
      management := { (claimDropped p (portDropped p s)).management with ops := ops } } := by
  obtain ⟨ops, hsub, e⟩ := (goDown_cameToRest p s).rest
  exact ⟨ops, hsub, e.trans (by cases p <;> rfl)⟩

/-- Nothing is staged when the claim has ended with its holder's port (R43). -/
theorem goDown_unstaged {p : Port} {s : State} (h : s.management.holder = some p) (i : StreamId) :
    ((goDown p s).stream i).stagedWrite = none ∧ ((goDown p s).stream i).stagedRead = none := by
  have hstream : (goDown p s).stream i = ((transmissionEnded ((s.port p).sending.bind (·.source))
      (portDropped p s)).stream i).unstaged := by
    rw [goDown_eq, dropClaim, if_pos ((cutShort_holder ..).trans h), State.stream, raiseLink, offerNotice_streams,
      raise_keeps (P := fun t => t.streams = _) (fun h => (offerNotice_streams ..).trans h) rfl]
    exact Table.get_map ..
  rw [hstream]
  exact ⟨rfl, rfl⟩

/-- The channel whose segment was cut short is no longer in transmission (R133). -/
theorem goDown_channel {p : Port} {s : State} {c : ChanId} (h : (s.port p).sending.bind (·.source) = some c) :
    ((goDown p s).channel c).inTransmission = false := by
  have hchannels : (goDown p s).channels = (transmissionEnded (some c) (portDropped p s)).channels := by
    rw [goDown_eq, h, raiseLink, offerNotice_channels, dropClaim]
    split
    · exact raise_keeps (P := fun t => t.channels = _) (fun h => (offerNotice_channels ..).trans h) rfl
    · rfl
  rw [State.channel, hchannels]
  exact transmissionEnded_channel ..

end Sys2Proof.Machine

open Sys2Proof Sys2Proof.Machine

/-- Settles O28: the lease's expiry ends the claim at the moment of its timer. -/
theorem leaseExpires : Obligations.LeaseExpires := by
  intro p d s hholder htimer
  have hexec : exec .leaseExpiry s = .next (raise (claimEndedNotice p) (endClaim (s.reach d))) := by
    show execLeaseExpiry s = _
    rw [execLeaseExpiry, hholder, htimer]
  rw [hexec, claimEndedNotice_eq]
  rfl

/-- Settles O12: `goDown_eq` writes the event's effects out in their order, `goDown_cameToRest` says what they leave. -/
theorem downEvent : Obligations.DownEvent := by
  intro p s
  refine ⟨fun hlink => ?_, fun hlink => ⟨goDown p s, ?_⟩, fun hlink v w x hv hw hx => ?_⟩
  · show execDownEvent p s = _
    rw [execDownEvent, hlink]
  · obtain ⟨ops, hsub, hrest⟩ := goDown_rest p s
    have hmgmt := congrArg State.management hrest
    refine ⟨exec_downEvent hlink, ?port, congrArg Management.holder hmgmt, congrArg Management.lease hmgmt,
      congrArg Management.leaseTimer hmgmt, goDown_unstaged, fun o ho hp => ?ops, fun tag discard hs => ?peek,
      fun tag discard y hs => ?poke, fun r hs hp => ?reset, fun c => goDown_channel, by rw [hrest], by rw [hrest],
      by rw [hrest], by rw [hrest], by rw [hrest], by rw [hrest], by rw [hrest], by rw [hrest]⟩
    case port =>
      obtain ⟨n, hport⟩ := (goDown_cameToRest p s).port
      exact ⟨n, by rw [hport]; cases p <;> rfl⟩
    case ops =>
      rw [hrest] at ho
      exact portDropped_marks (hsub.subset ho) hp
    case peek =>
      refine (congrArg Management.wait hmgmt).trans ?_
      show (portDropped p s).management.wait = _
      rw [portDropped, hs]
      simp
    case poke =>
      refine (congrArg Management.wait hmgmt).trans ?_
      show (portDropped p s).management.wait = _
      rw [portDropped, hs]
      simp
    case reset =>
      refine (congrArg Management.warmReset hmgmt).trans ?_
      show (portDropped p s).management.warmReset = _
      rw [portDropped, hs]
      simp [hp]
  · have hended : w = transmissionEnded ((s.port p).sending.bind (·.source)) v := by
      rw [hw]
      cases (s.port p).sending.bind (·.source) with
      | none => rfl
      | some c => exact (transmissionEnded_eq c v).symm
    have hholder : w.management.holder = s.management.holder := by rw [hended, hv, cutShort_holder]
    rw [exec_downEvent hlink, goDown_eq, ← hv, ← hended, raiseLink_eq, dropClaim_eq, hholder, ← hx]
end

section
/-! PROOF. The drain channels: which entry is taken, what the taking does, and the read a channel requests
(02_walks_and_layouts.md R30; 07_draining.md R118, R121 to R124; 08_frame_memory.md R143). -/

namespace Sys2Proof.Machine

/-! ### Which entry is taken (R118, R121) -/

/-- Two entries share nothing when they have no stream and no gang in common. -/
theorem shares_eq_false {s : State} {e f : DrainEntry} : e.shares s f = false ↔
    (∀ i, i ∈ e.streams s → i ∉ f.streams s) ∧ ∀ g, e.gangOf = some g → f.gangOf ≠ some g := by
  have hstreams : ((e.streams s).any fun i => (f.streams s).contains i) = false ↔
      ∀ i, i ∈ e.streams s → i ∉ f.streams s := by
    simp
  have hgang : (e.gangOf.isSome && e.gangOf == f.gangOf) = false ↔ ∀ g, e.gangOf = some g → f.gangOf ≠ some g := by
    cases e.gangOf with
    | none => simp
    | some g =>
      rw [Option.isSome_some, Bool.true_and, beq_eq_false_iff_ne]
      exact ⟨fun h x hx hf => h (hx.trans hf.symm), fun h hf => h g rfl hf.symm⟩
  rw [DrainEntry.shares, Bool.or_eq_false_iff, hstreams, hgang]

/-- The entry that a channel at work holds shares nothing with an eligible one. -/
theorem eligible_iff {s : State} {e : DrainEntry} : eligible s e = true ↔
    ∀ c f, (s.channel c).state ≠ .idle → (s.channel c).entry = some f → e.shares s f = false := by
  have hchannel : ∀ c, ((s.channel c).state == .idle || !(s.channel c).entry.any fun f => e.shares s f) = true ↔
      ∀ f, (s.channel c).state ≠ .idle → (s.channel c).entry = some f → e.shares s f = false := by
    intro c
    cases (s.channel c).entry with
    | none => simp
    | some f => simp [or_iff_not_imp_left]
  unfold eligible
  rw [List.all_eq_true]
  exact ⟨fun h c => (hchannel c).1 (h c (List.mem_finRange c)), fun h c _ => (hchannel c).2 (h c)⟩

theorem takeable_iff {s : State} {older : List DrainEntry} {e : DrainEntry} : takeable s older e = true ↔
    ∀ f, f ∈ older ∨ (∃ c, (s.channel c).state ≠ .idle ∧ (s.channel c).entry = some f) → e.shares s f = false := by
  have hpassed : (!older.any fun f => e.shares s f) = true ↔ ∀ f ∈ older, e.shares s f = false := by simp
  rw [takeable, Bool.and_eq_true, eligible_iff, hpassed]
  constructor
  · rintro ⟨hheld, hpassed⟩ f (hf | ⟨c, hbusy, hf⟩)
    · exact hpassed f hf
    · exact hheld c f hbusy hf
  · exact fun h => ⟨fun c f hbusy hf => h f (.inr ⟨c, hbusy, hf⟩), fun f hf => h f (.inl hf)⟩

/-- The streams of a gang entry are those of its present positions (R118). -/
theorem mem_streams_gang {s : State} {e : GangEntry} {i : StreamId} : i ∈ (DrainEntry.gang e).streams s ↔
    ∃ p o, p ∈ e.present ∧ e.members[p.1]? = some (i, o) := by
  unfold DrainEntry.streams
  simp

theorem idleChannel_eq_none {s : State} (h : ∀ c, (s.channel c).state ≠ .idle) : idleChannel s = none :=
  List.find?_eq_none.2 fun c _ hc => h c (beq_iff_eq.1 hc)

theorem oldestTakeable_eq_none {s : State} (h : ∀ a f b, s.drainQueue = a ++ f :: b → takeable s a f = false) :
    oldestTakeable s [] s.drainQueue = none := by
  rw [Option.eq_none_iff_forall_ne_some]
  intro e he
  obtain ⟨front, back, hqueue, htake, -⟩ := oldestTakeable_eq_some.1 he
  rw [List.nil_append, h front e back hqueue] at htake
  cases htake

/-! ### The taking (R122, R123) -/

theorem execChannelTakeEntry_takes {s : State} {c : ChanId} {e : DrainEntry} (hrun : s.management.warmReset = none)
    (hidle : idleChannel s = some c) (he : oldestTakeable s [] s.drainQueue = some e) :
    exec .channelTakeEntry s = .next (takeEntry c e s) := by
  have hhalted : s.halted = false := by rw [State.halted, hrun]; rfl
  show execChannelTakeEntry s = _
  rw [execChannelTakeEntry, hidle, he, hhalted]
  rfl

theorem execChannelTakeEntry_idle {s : State} (h : idleChannel s = none ∨ oldestTakeable s [] s.drainQueue = none) :
    exec .channelTakeEntry s = .next s := by
  show execChannelTakeEntry s = _
  unfold execChannelTakeEntry
  rcases h with h | h
  · rw [h]
  · rw [h]
    cases idleChannel s <;> rfl

/-- The state in which the entry has left the queue and its slabs are DRAINING, held by the channel (R122). -/
def entryTaken (c : ChanId) (e : DrainEntry) (s : State) : State :=
  modSlabs (fun v => { v with state := .draining, holder := some (.channel c) }) e.slabs
    { s with drainQueue := s.drainQueue.erase e }

theorem takeEntry_eq (c : ChanId) (e : DrainEntry) (s : State) :
    takeEntry c e s = requestRead c ((entryTaken c e s).setChannel c ((s.channel c).taking e)) := by
  have hchannel : (entryTaken c e s).channel c = s.channel c := by
    rw [entryTaken, modSlabs, modSlabs_eq]
    rfl
  rw [← hchannel]
  rfl

/-! ### The read a channel requests (R124, R143) -/

/-- A channel that drains no slab requests none. -/
theorem requestRead_noSlab {c : ChanId} {s : State} (h : (s.channel c).currentSlab = none) : requestRead c s = s := by
  rw [requestRead, h]

theorem requestRead_slab {c : ChanId} {s : State} {sl : SlabId} {k : Nat} (hsl : (s.channel c).currentSlab = some sl)
    (hk : (s.channel c).nextIndex = some k) :
    requestRead c s = s.setChannel c { s.channel c with read := readRequest s sl k } := by
  rw [requestRead, hsl, hk]
  rfl

theorem readRequest_eq {s : State} {sl : SlabId} {i : StreamId} {d : Definition} {w : Walk} (k : Nat)
    (hi : s.owner sl = some i) (hd : (s.stream i).defn = some d) (hw : readWalkOf s i sl = some w) :
    readRequest s sl k = some
      { addr := sampleAddr sl d.storeWidth (walkAddress w k), size := d.storeWidth / 8, data := none
        hold := newestFor s.controller.queue (lineOf (sampleAddr sl d.storeWidth (walkAddress w k))) } := by
  simp only [readRequest, hi, hd, hw, bind, Option.bind]

end Sys2Proof.Machine

open Sys2Proof Sys2Proof.Machine

/-- Settles O38: the choice by `takeable_iff`, the taking by `takeEntry_eq`, the read by `readRequest_eq`. -/
theorem channelTakesEntry : Obligations.ChannelTakesEntry := by
  refine ⟨fun c e s u hrun hidle he hu => ?takes, fun s h => ?none, fun s older e => ?takeable,
    fun s sl e => ⟨rfl, fun i => mem_streams_gang⟩, fun c s sl k i d w a hsl hk hi hd hw ha => ?read⟩
  case takes =>
    have hexec := execChannelTakeEntry_takes hrun hidle (oldestTakeable_eq_some.2 he)
    have hu : u = entryTaken c e s := hu
    rw [hexec, takeEntry_eq, ← hu]
    refine ⟨fun sl hsingle => ?_, fun g hgang => ?_⟩
    · subst hsingle
      rfl
    · subst hgang
      rw [requestRead_noSlab (by rw [State.setChannel_channel]; rfl)]
      rfl
  case none =>
    exact execChannelTakeEntry_idle (h.imp idleChannel_eq_none oldestTakeable_eq_none)
  case takeable =>
    simp only [takeable_iff, shares_eq_false]
  case read =>
    rw [requestRead_slab hsl hk, readRequest_eq k hi hd hw, ha]
    rfl
end

section
/-! PROOF. The Conversion Unit: what is stored of a value out of range, and what is sent of one (03_sample_conversion.md R46
to R51, R55 to R58). -/

namespace Sys2Proof.Machine

/-! ### The range of a field (03_sample_conversion.md, introduction) -/

theorem rangeLow_eq (sign : Sign) (w : Nat) :
    rangeLow sign w = if sign = .signed then -(2 ^ (w - 1) : Int) else 0 := by
  cases sign <;> simp [rangeLow]

theorem rangeHigh_eq (sign : Sign) (w : Nat) :
    rangeHigh sign w = if sign = .signed then (2 ^ (w - 1) : Int) - 1 else (2 ^ w : Int) - 1 := by
  cases sign <;> simp [rangeHigh]

/-- A field of `w` bits holds twice as many values as one of a bit less. -/
theorem two_pow_halves {w : Nat} (hw : 1 ≤ w) : (2 : Nat) ^ w = 2 * 2 ^ (w - 1) := by
  rw [← pow_succ', Nat.sub_add_cancel hw]

theorem rangeLow_le_rangeHigh (sign : Sign) (w : Nat) : rangeLow sign w ≤ rangeHigh sign w := by
  have half := Nat.two_pow_pos (w - 1)
  have whole := Nat.two_pow_pos w
  cases sign with
  | signed => simp only [rangeLow, rangeHigh]; omega
  | unsigned => simp only [rangeLow, rangeHigh]; omega

theorem inRange_iff {sign : Sign} {w : Nat} {v : Int} :
    inRange sign w v = true ↔ rangeLow sign w ≤ v ∧ v ≤ rangeHigh sign w := decide_eq_true_iff

/-- The test of the range fails on either side of it. -/
theorem inRange_eq_false {sign : Sign} {w : Nat} {v : Int} :
    inRange sign w v = false ↔ v < rangeLow sign w ∨ rangeHigh sign w < v := by
  rw [← Bool.not_eq_true, inRange_iff, not_and_or, not_le, not_le]

/-- A value out of the range is clamped to the bound on its side (R49). -/
theorem clampTo_outside {sign : Sign} {w : Nat} {v : Int} (h : v < rangeLow sign w ∨ rangeHigh sign w < v) :
    clampTo sign w v = if v < rangeLow sign w then rangeLow sign w else rangeHigh sign w := by
  have bounds := rangeLow_le_rangeHigh sign w
  rw [clampTo]
  split <;> omega

/-- A bit pattern read in a signedness lies in its range (R46). -/
theorem fieldValue_inRange {sign : Sign} {w n : Nat} (hw : 1 ≤ w) (hn : n < 2 ^ w) :
    rangeLow sign w ≤ fieldValue sign w n ∧ fieldValue sign w n ≤ rangeHigh sign w := by
  have halves := two_pow_halves hw
  cases sign with
  | unsigned => simp only [rangeLow, rangeHigh, fieldValue]; omega
  | signed =>
    simp only [rangeLow, rangeHigh, fieldValue, signedValue]
    split <;> omega

/-- A bit pattern read in either signedness differs by a multiple of 2^w at most (R46). -/
theorem fieldValue_emod (sign : Sign) (w n : Nat) : fieldValue sign w n % (2 ^ w : Nat) = (n : Int) % (2 ^ w : Nat) := by
  cases sign with
  | unsigned => rfl
  | signed =>
    rw [fieldValue, signedValue]
    split
    · rfl
    · exact Int.sub_emod_right ..

/-- WRAP keeps to the range, and to the value but for a multiple of 2^w (R50). -/
theorem wrapTo_spec {sign : Sign} {w : Nat} (v : Int) (hw : 1 ≤ w) :
    rangeLow sign w ≤ wrapTo sign w v ∧ wrapTo sign w v ≤ rangeHigh sign w ∧
      (wrapTo sign w v - v) % (2 ^ w : Int) = 0 := by
  have hpos : (0 : Int) < (2 ^ w : Nat) := mod_cast Nat.two_pow_pos w
  have hbits : ((v % (2 ^ w : Nat)).toNat : Int) = v % (2 ^ w : Nat) := Int.toNat_of_nonneg (Int.emod_nonneg v hpos.ne')
  have hlt : (v % (2 ^ w : Nat)).toNat < 2 ^ w := by
    have := Int.emod_lt_of_pos v hpos
    omega
  obtain ⟨hlow, hhigh⟩ := fieldValue_inRange (sign := sign) hw hlt
  have hmod : wrapTo sign w v % (2 ^ w : Nat) = v % (2 ^ w : Nat) := by
    rw [wrapTo, fieldValue_emod, hbits, Int.emod_emod_of_dvd _ (dvd_refl _)]
  refine ⟨hlow, hhigh, ?_⟩
  have := Int.emod_eq_emod_iff_emod_sub_eq_zero.1 hmod
  exact_mod_cast this

/-! ### The two conversions, by their cases (R48, R56, R58) -/

section

variable {d : Definition} {bytes : List Byte}

theorem inboundConvert_inside (h : inRange d.inSign d.storeWidth (shiftedValue d bytes) = true) :
    inboundConvert d bytes = (shiftedValue d bytes, false) := by
  rw [inboundConvert, if_pos h]

theorem inboundConvert_outside (h : inRange d.inSign d.storeWidth (shiftedValue d bytes) = false) :
    inboundConvert d bytes = (outOfRangeValue d (shiftedValue d bytes), true) := by
  rw [inboundConvert, if_neg (by rw [h]; exact Bool.false_ne_true)]

theorem outboundConvert_high (h : d.placement = .high) : outboundConvert d bytes =
    (valueBytes d.outWidth
      (fieldValue d.inSign d.storeWidth (beNat bytes) * (2 ^ (d.outWidth - d.storeWidth) : Int)), false) := by
  simp [outboundConvert, h]

/-- LOW sends the nearest value of the output's range, clipped when the read value is outside (R56). -/
theorem outboundConvert_low {v lo hi : Int} (h : d.placement = .low)
    (hv : v = fieldValue d.inSign d.storeWidth (beNat bytes)) (hlo : rangeLow d.outSign d.outWidth = lo)
    (hhi : rangeHigh d.outSign d.outWidth = hi) :
    outboundConvert d bytes = (valueBytes d.outWidth (max lo (min v hi)), decide (v < lo ∨ hi < v)) := by
  have hclip : (!inRange d.outSign d.outWidth v) = decide (v < lo ∨ hi < v) := by
    rw [Bool.eq_iff_iff, Bool.not_eq_true', inRange_eq_false, hlo, hhi, decide_eq_true_iff]
  rw [← hclip, ← hlo, ← hhi, hv, outboundConvert, h]
  rfl

end

end Sys2Proof.Machine

open Sys2Proof Sys2Proof.Machine

/-- Settles O40: the store range is that of `rangeLow_eq` and `rangeHigh_eq`, and each policy and placement has its lemma. -/
theorem conversions : Obligations.Conversions := by
  intro d bytes x lo hi hwidth hlo hhi hx
  rw [← rangeLow_eq] at hlo
  rw [← rangeHigh_eq] at hhi
  have hshift : shiftedValue d bytes = x := by rw [hx, shiftedValue]; norm_cast
  subst hlo hhi
  refine ⟨fun hl hh => ?inside, fun houtside => ?outside, fun y hy _ => ⟨fun hhigh => ?high, fun hlow hs => ?unsigned,
    fun hlow hs => ?signed⟩⟩
  case inside => rw [inboundConvert_inside (inRange_iff.2 (by rw [hshift]; exact ⟨hl, hh⟩)), hshift]
  case outside =>
    rw [inboundConvert_outside (inRange_eq_false.2 (by rw [hshift]; exact houtside)), hshift, outOfRangeValue]
    refine ⟨fun hp => ?saturate, fun hp => ?wrap, fun hp => ?mark⟩
    case saturate => rw [hp, clampTo_outside houtside]
    case wrap =>
      rw [hp]
      exact ⟨_, rfl, wrapTo_spec x hwidth⟩
    case mark => rw [hp]
  case high => rw [outboundConvert_high hhigh, hy]
  case unsigned => exact outboundConvert_low hlow hy (by rw [rangeLow_eq, hs]; rfl) (by rw [rangeHigh_eq, hs]; rfl)
  case signed => exact outboundConvert_low hlow hy (by rw [rangeLow_eq, hs]; rfl) (by rw [rangeHigh_eq, hs]; rfl)
end

section
/-! PROOF. The completion of a drain read on an ASSEMBLING and on an ABORTING channel (03_sample_conversion.md R57;
07_draining.md R124, R125, R130; 08_frame_memory.md R143). -/

namespace Sys2Proof.Machine

/-! ### A channel's record and the slabs that come to rest are apart (R19, R60) -/

theorem setChannel_setChannel (c : ChanId) (v w : Channel) (s : State) :
    (s.setChannel c v).setChannel c w = s.setChannel c w :=
  congrArg (fun t : Table 4 Channel => { s with channels := t }) (Table.set_set ..)

theorem emptySlab_setChannel (i : StreamId) (sl : SlabId) (c : ChanId) (v : Channel) (s : State) :
    emptySlab i sl (s.setChannel c v) = (emptySlab i sl s).setChannel c v := by
  rw [emptySlab_eq, emptySlab_eq, ← unbindTest_setChannel]
  rfl

theorem emptyOwned_setChannel (sl : SlabId) (c : ChanId) (v : Channel) (s : State) :
    emptyOwned sl (s.setChannel c v) = (emptyOwned sl s).setChannel c v := by
  have howner : (s.setChannel c v).owner sl = s.owner sl := rfl
  unfold emptyOwned
  rw [howner]
  split
  · exact emptySlab_setChannel ..
  · rfl

theorem emptyOwneds_setChannel (c : ChanId) (v : Channel) : ∀ (l : List SlabId) (s : State),
    l.foldl (fun acc sl => emptyOwned sl acc) (s.setChannel c v) =
      (l.foldl (fun acc sl => emptyOwned sl acc) s).setChannel c v
  | [], _ => rfl
  | sl :: l, s => by
    rw [List.foldl_cons, List.foldl_cons, emptyOwned_setChannel]
    exact emptyOwneds_setChannel c v l _

/-- The completion of a channel's abort, whatever the record of the channel besides its slabs (R130). -/
theorem completeAbort_setChannel (c : ChanId) (v : Channel) (s : State) :
    completeAbort c (s.setChannel c v) =
      (v.slabs.foldl (fun acc sl => emptyOwned sl acc) s).setChannel c .blank := by
  rw [completeAbort, State.setChannel_channel, emptyOwneds_setChannel, setChannel_setChannel]

/-! ### What slabs that come to rest leave, whatever operations complete by it (R19, R60, R130) -/

/-- A slab in no use: EMPTY in its ring, or FREE after the ring's return. -/
def Slab.unused (v : Slab) : Prop := v.state = .empty ∨ v.state = .free

/-- From `s` to `t` slabs came to rest: the counters of the streams and the controller stand, and no slab came into use. -/
structure SlabsRested (s t : State) : Prop where
  counters : ∀ i, (t.stream i).counters = (s.stream i).counters
  controller : t.controller = s.controller
  unused : ∀ x, (s.slab x).unused → (t.slab x).unused

namespace SlabsRested

variable {s t : State}

theorem refl (s : State) : SlabsRested s s := ⟨fun _ => rfl, rfl, fun _ h => h⟩

theorem trans {u : State} (h : SlabsRested s t) (h' : SlabsRested t u) : SlabsRested s u :=
  ⟨fun i => (h'.counters i).trans (h.counters i), h'.controller.trans h.controller,
    fun x hx => h'.unused x (h.unused x hx)⟩

theorem setStream (h : SlabsRested s t) {i : StreamId} {v : Stream} (hv : v.counters = (t.stream i).counters) :
    SlabsRested s (t.setStream i v) where
  counters k := by
    refine Eq.trans ?_ (h.counters k)
    by_cases e : i = k
    · subst e
      rw [State.setStream_stream, hv]
    · rw [State.setStream_stream_ne _ _ e]
  controller := h.controller
  unused := h.unused

theorem setSlab (h : SlabsRested s t) {sl : SlabId} {v : Slab} (hv : v.unused) : SlabsRested s (t.setSlab sl v) where
  counters := h.counters
  controller := h.controller
  unused x hx := by
    by_cases e : sl = x
    · subst e
      rw [State.setSlab_slab]
      exact hv
    · rw [State.setSlab_slab_ne _ _ e]
      exact h.unused x hx

theorem offer (h : SlabsRested s t) {p : Port} {n : Notice} : SlabsRested s (offerNotice p n t) := by
  cases p <;> exact ⟨h.counters, h.controller, h.unused⟩

theorem reply (h : SlabsRested s t) {p : Port} {seg : Segment} : SlabsRested s (pushReply p seg t) := by
  cases p <;> exact ⟨h.counters, h.controller, h.unused⟩

/-- A ring returned: its slabs are FREE, and its stream keeps its counters (R19). -/
theorem completeUnbind (h : SlabsRested s t) {i : StreamId} {o : PendingOp} {forced : Bool} {n : Nat}
    {cut : Option Epoch} : SlabsRested s (completeUnbind i o forced n cut t) := by
  have ring : SlabsRested s (modSlabs Slab.freed (t.stream i).ring t) :=
    fold_keeps (fun _ _ h => h.setSlab (.inr rfl)) _ h
  have freeList (l : List SlabId) : SlabsRested s { modSlabs Slab.freed (t.stream i).ring t with freeList := l } :=
    ⟨ring.counters, ring.controller, ring.unused⟩
  have released (l : List SlabId) : SlabsRested s (releaseOp o.slot
      (State.modStream { modSlabs Slab.freed (t.stream i).ring t with freeList := l } i Stream.unbound)) :=
    have unbound := (freeList l).setStream (i := i) (v := Stream.unbound _) rfl
    ⟨unbound.counters, unbound.controller, unbound.unused⟩
  unfold Machine.completeUnbind
  dsimp only
  split
  · exact raise_keeps (fun h => h.offer) (lateReply_keeps (fun h => h.reply) (released _))
  · exact lateReply_keeps (fun h => h.reply) (released _)

theorem unbindTest (h : SlabsRested s t) {i : StreamId} : SlabsRested s (unbindTest i t) := by
  unfold Machine.unbindTest
  split
  · split
    · split
      · exact h.completeUnbind
      · exact h
    · exact h
  · exact h

/-- A slab made EMPTY is in no use: it stays EMPTY, or is FREE when an UNBIND completes by it. -/
theorem emptyOwned (sl : SlabId) (s : State) :
    SlabsRested s (emptyOwned sl s) ∧ ((emptyOwned sl s).slab sl).unused := by
  have hatRest : (s.slab sl).atRest.unused := .inl rfl
  have rested : SlabsRested s (s.setSlab sl (s.slab sl).atRest) := (refl s).setSlab hatRest
  have hself : ((s.setSlab sl (s.slab sl).atRest).slab sl).unused := by rwa [State.setSlab_slab]
  unfold Machine.emptyOwned
  split
  · next i _ =>
    have tested : SlabsRested (s.setSlab sl (s.slab sl).atRest) (emptySlab i sl s) := by
      rw [emptySlab_eq]
      refine unbindTest (setStream (refl _) ?_)
      rfl
    exact ⟨rested.trans tested, tested.unused sl hself⟩
  · exact ⟨rested, hself⟩

theorem emptyOwneds : ∀ (l : List SlabId) (s : State),
    SlabsRested s (l.foldl (fun acc sl => Machine.emptyOwned sl acc) s) ∧
      ∀ x ∈ l, ((l.foldl (fun acc sl => Machine.emptyOwned sl acc) s).slab x).unused
  | [], s => ⟨refl s, fun _ h => absurd h List.not_mem_nil⟩
  | sl :: l, s => by
    obtain ⟨first, hfirst⟩ := emptyOwned sl s
    obtain ⟨others, hothers⟩ := emptyOwneds l (Machine.emptyOwned sl s)
    refine ⟨first.trans others, fun x hx => ?_⟩
    rcases List.mem_cons.1 hx with rfl | hx
    · exact others.unused x hfirst
    · exact hothers x hx

end SlabsRested

/-! ### The end of a read (R137, R143) -/

/-- The state in which the bank of a read is READY again. -/
def bankReleased (r : DrainRead) (s : State) : State :=
  { s with controller := { s.controller with banks := s.controller.banks.set (bankOf (r.addr / 64)) .ready } }

/-- A channel without an outstanding read. -/
def Channel.readEnded (v : Channel) : Channel := { v with read := none }

theorem exec_drainReadCompletion {c : ChanId} {s : State} {r : DrainRead} {bytes : List Byte}
    (hread : (s.channel c).read = some r) (hdata : r.data = some bytes) : exec (.drainReadCompletion c) s =
      .next (readReturned c bytes ((bankReleased r s).setChannel c (s.channel c).readEnded)) := by
  show execDrainReadCompletion c s = _
  have hgranted : grantedRead (s.channel c) = some (r.addr, bytes) := by simp [grantedRead, hread, hdata]
  rw [execDrainReadCompletion, hgranted]
  rfl

/-! ### An ABORTING channel (R130) -/

section

variable {c : ChanId} {s : State} {v : Channel} {bytes : List Byte}

/-- A transmission in progress keeps the abort from completing. -/
theorem readReturned_transmitting (hstate : v.state = .aborting) (hbusy : v.inTransmission = true) :
    readReturned c bytes (s.setChannel c v) = s.setChannel c v := by
  rw [readReturned, testAbort, State.setChannel_channel, hstate]
  refine if_neg fun ⟨_, _, hidle⟩ => ?_
  rw [hbusy] at hidle
  cases hidle

/-- With no read and no transmission left the abort completes. -/
theorem readReturned_abortCompletes (hstate : v.state = .aborting) (hread : v.read = none)
    (hidle : v.inTransmission = false) : readReturned c bytes (s.setChannel c v) =
      (v.slabs.foldl (fun acc sl => emptyOwned sl acc) s).setChannel c .blank := by
  rw [readReturned, testAbort, State.setChannel_channel, hstate, ← completeAbort_setChannel]
  exact if_pos ⟨rfl, hread, hidle⟩

/-! ### An ASSEMBLING channel (R57, R124, R125) -/

theorem readReturned_assembling {sl : SlabId} {k : Nat} {i : StreamId} {d : Definition} (hstate : v.state = .assembling)
    (hslab : v.currentSlab = some sl) (hindex : v.nextIndex = some k) (howner : s.owner sl = some i)
    (hdefn : (s.stream i).defn = some d) :
    readReturned c bytes (s.setChannel c v) = appendSample c i d sl k bytes (s.setChannel c v) := by
  have howner : (s.setChannel c v).owner sl = some i := howner
  simp only [readReturned, receiveRead, State.setChannel_channel, State.setChannel_stream_of, hstate, hslab, hindex,
    howner, hdefn]

end

/-- An output clip, as the counter that rises or stands (R57). -/
theorem countClip_eq (i : StreamId) (clipped : Bool) (s : State) : countClip i clipped s = s.count i fun n =>
    { n with outputClips := if clipped = true then satAdd n.outputClips 1 else n.outputClips } := by
  cases clipped with
  | true => rfl
  | false => exact (count_id i s).symm

theorem countClip_setChannel (i : StreamId) (clipped : Bool) (c : ChanId) (v : Channel) (s : State) :
    countClip i clipped (s.setChannel c v) = (countClip i clipped s).setChannel c v := by
  cases clipped <;> rfl

/-- The segment of a channel with the output sample of index `k` at its end (R124). -/
def Channel.joined (v : Channel) (d : Definition) (k : Nat) (bytes : List Byte) : Segment :=
  let seg := v.assembled.getD (partialSegment k)
  { seg with payload := seg.payload ++ (outboundConvert d bytes).1 }

/-- A segment that is begun with a sample has no payload before it (R124). -/
theorem Channel.joined_eq (v : Channel) (d : Definition) (k : Nat) (bytes : List Byte) : v.joined d k bytes =
    { v.assembled.getD (partialSegment k) with
      payload := (v.assembled.map Segment.payload).getD [] ++ (outboundConvert d bytes).1 } := by
  unfold Channel.joined
  cases v.assembled <;> rfl

/-- The sample joins the segment: the one that makes it whole has its header fixed, any other has the next one read (R124,
R125). -/
theorem appendSample_setChannel (c : ChanId) (i : StreamId) (d : Definition) (sl : SlabId) (k : Nat) (bytes : List Byte)
    (v : Channel) {s u : State} (hu : u = countClip i (outboundConvert d bytes).2 s) :
    appendSample c i d sl k bytes (s.setChannel c v) =
      if d.segmentSize ≤ (v.joined d k bytes).payload.length ∨ d.frameLength ≤ k + 1 then
        u.setChannel c { v with
          state := .waitingSend, nextIndex := some (k + 1)
          assembled := some (fixHeader (v.joined d k bytes) d (u.slab sl) (decide (d.frameLength ≤ k + 1)) v.ganged) }
      else requestRead c (u.setChannel c { v with
        nextIndex := some (k + 1), assembled := some (v.joined d k bytes) }) := by
  unfold appendSample State.modChannel
  dsimp only
  rw [countClip_setChannel, ← hu, State.setChannel_channel, setChannel_setChannel, setChannel_setChannel]
  rfl

end Sys2Proof.Machine

open Sys2Proof Sys2Proof.Machine

/-- Settles O35: on an ABORTING channel with or without a transmission left, on an ASSEMBLING one by the sample that joins
its segment. -/
theorem drainReadCompletes : Obligations.DrainReadCompletes := by
  refine ⟨fun c s u r bytes hread hdata hstate hu => ?aborting,
    fun c s u r bytes sl k i d seg hread hdata hstate hslab hindex howner hdefn hu hseg => ?assembling⟩
  case aborting =>
    replace hu : u = bankReleased r s := hu
    replace hstate : (s.channel c).readEnded.state = .aborting := hstate
    rw [exec_drainReadCompletion hread hdata, ← hu]
    refine ⟨fun hbusy => ?transmitting, fun hidle => ?done⟩
    case transmitting => exact congrArg Host.Outcome.next (readReturned_transmitting hstate hbusy)
    case done =>
      rw [readReturned_abortCompletes hstate rfl hidle]
      refine ⟨fun sl i hone howner => ?single, _, rfl, State.setChannel_channel .., ?rested⟩
      case single =>
        have hslabs : (s.channel c).readEnded.slabs = [sl] := hone
        have howner : u.owner sl = some i := by rw [hu]; exact howner
        rw [hslabs, List.foldl_cons, List.foldl_nil, emptyOwned, howner]
      case rested =>
        obtain ⟨rested, hunused⟩ := SlabsRested.emptyOwneds (s.channel c).readEnded.slabs u
        exact ⟨hunused, fun i => (rested.counters i).trans (by rw [hu]; rfl), rested.controller⟩
  case assembling =>
    replace hu : u = countClip i (outboundConvert d bytes).2 (bankReleased r s) := hu.trans (countClip_eq ..).symm
    replace hseg : seg = (s.channel c).readEnded.joined d k bytes := hseg.trans (Channel.joined_eq ..).symm
    have hslab' : u.slab sl = s.slab sl := by rw [hu, countClip_eq]; rfl
    replace hstate : (s.channel c).readEnded.state = .assembling := hstate
    rw [exec_drainReadCompletion hread hdata, readReturned_assembling (s := bankReleased r s) hstate hslab hindex
      howner hdefn, appendSample_setChannel (hu := hu), ← hseg, hslab']
    refine ⟨fun hwhole => ?whole, fun hpartial => ?goesOn⟩
    case whole =>
      rw [if_pos hwhole]
      rfl
    case goesOn =>
      rw [if_neg hpartial]
      rfl
end

section
/-! PROOF. A DATA segment that joins the FILLING slab of its epoch: the merge of its range into the coverage, and its placement
(04_slabs_and_the_fill_path.md R67, R77, R78, R80 to R83). -/

namespace Sys2Proof.Machine

/-! ### The range that a merge makes (R78) -/

/-- A least start is at most `k` just where the one it begins from or a range's start is. -/
theorem foldl_minStart_le {k : Nat} : ∀ {l : List IndexRange} {i : Nat},
    l.foldl (fun a r => min a r.start) i ≤ k ↔ i ≤ k ∨ ∃ r ∈ l, r.start ≤ k
  | [], i => by simp
  | r :: l, i => by
    rw [List.foldl_cons, foldl_minStart_le, min_le_iff, or_assoc, List.exists_mem_cons_iff]

/-- A greatest stop is at least `k` just where the one it begins from or a range's stop is. -/
theorem le_foldl_maxStop {k : Nat} : ∀ {l : List IndexRange} {i : Nat},
    k ≤ l.foldl (fun a r => max a r.stop) i ↔ k ≤ i ∨ ∃ r ∈ l, k ≤ r.stop
  | [], i => by simp
  | r :: l, i => by
    rw [List.foldl_cons, le_foldl_maxStop, le_max_iff, or_assoc, List.exists_mem_cons_iff]

/-- The range that `[i, i + n)` makes with the ranges it touches (R78). -/
def joinedRange (cov : List IndexRange) (i n : Nat) : IndexRange :=
  { start := (cov.filter fun r => r.touches i (i + n)).foldl (fun a r => min a r.start) i
    stop := (cov.filter fun r => r.touches i (i + n)).foldl (fun a r => max a r.stop) (i + n) }

theorem mergeRange_eq (cov : List IndexRange) (i n : Nat) : mergeRange cov i n =
    cov.filter (fun r => decide (r.stop < i)) ++ joinedRange cov i n ::
      cov.filter (fun r => decide (i + n < r.start)) := rfl

section

variable {cov : List IndexRange} {i n k : Nat}

theorem joinedRange_start_le : (joinedRange cov i n).start ≤ k ↔
    i ≤ k ∨ ∃ r ∈ cov, (i ≤ r.stop ∧ r.start ≤ i + n) ∧ r.start ≤ k := by
  simp [joinedRange, foldl_minStart_le, IndexRange.touches, and_assoc]

theorem le_joinedRange_stop : k ≤ (joinedRange cov i n).stop ↔
    k ≤ i + n ∨ ∃ r ∈ cov, (i ≤ r.stop ∧ r.start ≤ i + n) ∧ k ≤ r.stop := by
  simp [joinedRange, le_foldl_maxStop, IndexRange.touches, and_assoc]

/-- A range is left as it stands on one side of the merged one, or the merged one takes it in. -/
theorem mem_mergeRange {r : IndexRange} : r ∈ mergeRange cov i n ↔
    (r ∈ cov ∧ r.stop < i) ∨ r = joinedRange cov i n ∨ (r ∈ cov ∧ i + n < r.start) := by
  simp [mergeRange_eq]

/-! ### The coverage that a merge leaves (R77, R78) -/

/-- Of two ranges in a coverage list, one ends before the other starts. -/
theorem rangesOk.apart {frameLength : Nat} (h : rangesOk frameLength cov) {r x : IndexRange} (hr : r ∈ cov) (hx : x ∈ cov)
    (hne : r ≠ x) : r.stop < x.start ∨ x.stop < r.start := by
  have symm : Std.Symm fun r x : IndexRange => r.stop < x.start ∨ x.stop < r.start := ⟨fun _ _ => Or.symm⟩
  exact (h.1.imp Or.inl : cov.Pairwise fun r x => r.stop < x.start ∨ x.stop < r.start).forall hr hx hne

/-- A range that ends before the new indices ends before all that these are joined with. -/
theorem rangesOk.stop_lt_joined {frameLength : Nat} (h : rangesOk frameLength cov) {r : IndexRange} (hr : r ∈ cov)
    (hlow : r.stop < i) : r.stop < (joinedRange cov i n).start := by
  rw [← not_le, joinedRange_start_le]
  rintro (hle | ⟨x, hx, ⟨htouch, -⟩, hle⟩)
  · omega
  · have hrx : r ≠ x := by
      rintro rfl
      omega
    have := (h.2 r hr).1
    rcases h.apart hr hx hrx with hlt | hlt <;> omega

/-- A range that starts after the new indices starts after all that these are joined with. -/
theorem rangesOk.joined_lt_start {frameLength : Nat} (h : rangesOk frameLength cov) {r : IndexRange} (hr : r ∈ cov)
    (hhigh : i + n < r.start) : (joinedRange cov i n).stop < r.start := by
  rw [← not_le, le_joinedRange_stop]
  rintro (hle | ⟨x, hx, ⟨-, htouch⟩, hle⟩)
  · omega
  · have hrx : r ≠ x := by
      rintro rfl
      omega
    have := (h.2 r hr).1
    rcases h.apart hr hx hrx with hlt | hlt <;> omega

theorem rangesOk.joined_within {frameLength : Nat} (h : rangesOk frameLength cov) (hn : 0 < n)
    (hframe : i + n ≤ frameLength) :
    (joinedRange cov i n).start < (joinedRange cov i n).stop ∧ (joinedRange cov i n).stop ≤ frameLength := by
  have hstart : (joinedRange cov i n).start ≤ i := joinedRange_start_le.2 (Or.inl le_rfl)
  have hstop : i + n ≤ (joinedRange cov i n).stop := le_joinedRange_stop.2 (Or.inl le_rfl)
  refine ⟨by omega, ?_⟩
  rcases le_joinedRange_stop.1 (le_refl (joinedRange cov i n).stop) with hle | ⟨x, hx, -, hle⟩
  · omega
  · exact hle.trans (h.2 x hx).2

/-- The merge keeps the ranges disjoint, non-adjacent, ascending and within the frame (R77, R78). -/
theorem rangesOk.mergeRange {frameLength : Nat} (h : rangesOk frameLength cov) (hn : 0 < n)
    (hframe : i + n ≤ frameLength) : rangesOk frameLength (mergeRange cov i n) := by
  refine ⟨?_, fun r hr => ?_⟩
  · rw [mergeRange_eq, List.pairwise_append, List.pairwise_cons]
    simp only [List.mem_filter, List.mem_cons, decide_eq_true_eq]
    refine ⟨h.1.filter _, ⟨fun x ⟨hx, hhigh⟩ => h.joined_lt_start hx hhigh, h.1.filter _⟩, ?_⟩
    rintro r ⟨hr, hlow⟩ x (rfl | ⟨-, hhigh⟩)
    · exact h.stop_lt_joined hr hlow
    · omega
  · rcases mem_mergeRange.1 hr with ⟨hr, -⟩ | rfl | ⟨hr, -⟩
    · exact h.2 r hr
    · exact h.joined_within hn hframe
    · exact h.2 r hr

/-- An index of the joined range is one of the new indices, or a range that these touch covers it. -/
theorem covered_of_joinedRange (hstart : (joinedRange cov i n).start ≤ k) (hstop : k < (joinedRange cov i n).stop) :
    covered cov k ∨ i ≤ k ∧ k < i + n := by
  by_cases hlow : k < i
  · obtain hle | ⟨r, hr, ⟨htouch, -⟩, hle⟩ := joinedRange_start_le.1 hstart
    · omega
    · exact Or.inl ⟨r, hr, hle, by omega⟩
  · by_cases hhigh : i + n ≤ k
    · obtain hle | ⟨r, hr, ⟨-, htouch⟩, hle⟩ := le_joinedRange_stop.1 (Nat.succ_le_of_lt hstop)
      · omega
      · exact Or.inl ⟨r, hr, by omega, hle⟩
    · exact Or.inr (by omega)

/-- The merge covers what was covered and the new indices (R78). -/
theorem covered_mergeRange : covered (mergeRange cov i n) k ↔ covered cov k ∨ i ≤ k ∧ k < i + n := by
  constructor
  · rintro ⟨r, hr, hstart, hstop⟩
    rcases mem_mergeRange.1 hr with ⟨hr, -⟩ | rfl | ⟨hr, -⟩
    · exact Or.inl ⟨r, hr, hstart, hstop⟩
    · exact covered_of_joinedRange hstart hstop
    · exact Or.inl ⟨r, hr, hstart, hstop⟩
  · have joined (hlow : (joinedRange cov i n).start ≤ k) (hhigh : k < (joinedRange cov i n).stop) :
        covered (mergeRange cov i n) k := ⟨_, mem_mergeRange.2 (Or.inr (Or.inl rfl)), hlow, hhigh⟩
    rintro (⟨r, hr, hstart, hstop⟩ | ⟨hstart, hstop⟩)
    · by_cases hlow : r.stop < i
      · exact ⟨r, mem_mergeRange.2 (Or.inl ⟨hr, hlow⟩), hstart, hstop⟩
      · by_cases hhigh : i + n < r.start
        · exact ⟨r, mem_mergeRange.2 (Or.inr (Or.inr ⟨hr, hhigh⟩)), hstart, hstop⟩
        · have htouch : i ≤ r.stop ∧ r.start ≤ i + n := by omega
          exact joined (joinedRange_start_le.2 (Or.inr ⟨r, hr, htouch, hstart⟩))
            (le_joinedRange_stop.2 (Or.inr ⟨r, hr, htouch, hstop⟩))
    · exact joined (joinedRange_start_le.2 (Or.inl hstart)) (le_joinedRange_stop.2 (Or.inl hstop))

end

/-! ### The segment that is accepted (R78 to R81) -/

section

variable {i : StreamId} {sl : SlabId} {cov : List IndexRange} {s : State}

/-- The slab that a segment joins is changed in its coverage and in being placed into (R78, R81). -/
theorem countAccepted_slab : (countAccepted i sl cov s).slab sl = { s.slab sl with coverage := cov, placing := true } :=
  State.setSlab_slab ..

theorem countAccepted_defn : ((countAccepted i sl cov s).stream i).defn = (s.stream i).defn := by
  rw [countAccepted, count_stream_self]
  rfl

theorem countAccepted_writeWalkOf : writeWalkOf (countAccepted i sl cov s) i sl = writeWalkOf s i sl :=
  writeWalkOf_congr (by rw [countAccepted_slab]) (by rw [countAccepted, count_stream_self]; rfl)
    (by rw [countAccepted, count_stream_self]; rfl)

/-- A segment whose range the coverage has room for is placed, counted accepted before (R79 to R81). -/
theorem mergeAndPlace_accepted {d : Definition} {seg : Segment}
    (hcov : cov = mergeRange (s.slab sl).coverage seg.first.toNat (seg.payload.length / (d.inWidth / 8)))
    (hroom : cov.length ≤ 16) : mergeAndPlace i d sl seg s =
      continuePlacing { stream := i, slab := sl, next := seg.first.toNat, rest := fieldsOf d seg, aborted := false }
        (countAccepted i sl cov s) := by
  subst hcov
  rw [← sampleFields_eq]
  exact if_neg (not_lt.2 hroom)

end

end Sys2Proof.Machine

open Sys2Proof Sys2Proof.Machine

/-- Settles O21: the segment goes on to the slab of its epoch, where `continuePlacing_eq` says what its placement does; the
merge by `rangesOk.mergeRange` and `covered_mergeRange`. -/
theorem dataJoinsSlab : Obligations.DataJoinsSlab := by
  refine ⟨?_, fun cov f n frameLength hok hn hframe => ⟨hok.mergeRange hn hframe, fun k => covered_mergeRange⟩⟩
  rintro i d seg rest s u t sl w cov hoffer htime hfound hwalk hcov hroom rfl hplaces
  have ⟨hkind, _, _, hdefn, _⟩ := htime
  rw [exec_fillTakeData hoffer hkind, fillData_onTime (s := afterTake rest s) htime,
    placeData_found (s := afterTake rest s) hfound, mergeAndPlace_accepted (s := afterTake rest s) hcov hroom]
  refine congrArg Host.Outcome.next (continuePlacing_eq (d := d) (w := w) ?_ ?_ ?_ ?_ hplaces)
  · exact countAccepted_defn.trans hdefn
  · exact countAccepted_writeWalkOf.trans hwalk
  · exact congrArg FillEngine.held hoffer.1
  · exact congrArg FillEngine.work hoffer.1
end

section
/-! PROOF. The end of a warm reset: what it waits for, and what it clears (04_slabs_and_the_fill_path.md R63;
07_draining.md R120, R132; 10_in_band_management.md R186). -/

namespace Sys2Proof

namespace Table

/-- The records of a table are those of its numbers. -/
theorem mem_rows {n : Nat} {α : Type} {t : Table n α} {v : α} : v ∈ t.rows ↔ ∃ i, t.get i = v := by
  rw [List.mem_iff_getElem]
  exact ⟨fun ⟨k, hk, h⟩ => ⟨⟨k, t.size ▸ hk⟩, h⟩, fun ⟨i, h⟩ => ⟨i.val, t.size.symm ▸ i.isLt, h⟩⟩

end Table

namespace Machine

/-! ### What the end of a warm reset waits for (R186) -/

section

variable {s : State} {x : WarmReset}

/-- Every channel is at rest just where each has its cold-reset fields (R120; log entry 8). -/
theorem allIdle_iff : allIdle s = true ↔ ∀ c, s.channel c = .blank := by
  simp [allIdle, Table.mem_rows, State.channel]

/-- The Fill Engine is at rest just where it places nothing, holds no write and has no seal work (R63; log entry 15). -/
theorem fillAtRest_iff : fillFree s = true ∧ s.fill.work = [] ↔ s.fill = { placing := none, held := none, work := [] } := by
  cases hfill : s.fill
  simp [fillFree, hfill, and_assoc]

theorem atRest_iff : atRest s = true ↔ s.controller.queue = [] ∧ s.controller.reads = [] ∧ (∀ c, s.channel c = .blank) ∧
    s.fill = { placing := none, held := none, work := [] } := by
  rw [← allIdle_iff, ← fillAtRest_iff]
  simp only [atRest, Bool.and_eq_true, List.isEmpty_iff]
  tauto

/-! ### WARM_RESET_CLEAR (R186) -/

theorem exec_warmResetClear (h : s.management.warmReset = some x) : exec .warmResetClear s =
    if atRest s then .next (resumeDispatch x (clearAll s)) else .next s := by
  show execWarmResetClear s = _
  rw [execWarmResetClear, h]

theorem exec_warmResetClear_waits (h : s.management.warmReset = some x) (hrest : ¬ atRest s = true) :
    exec .warmResetClear s = .next s := by
  rw [exec_warmResetClear h, if_neg hrest]

theorem exec_warmResetClear_clears (h : s.management.warmReset = some x) (hrest : atRest s = true) :
    exec .warmResetClear s = .next (resumeDispatch x (clearAll s)) := by
  rw [exec_warmResetClear h, if_pos hrest]

end

end Machine

end Sys2Proof

open Sys2Proof Sys2Proof.Machine

/-- Settles O60: it waits where `atRest_iff` names something that is not at rest, and else clears everything at once. -/
theorem warmResetClears : Obligations.WarmResetClears := by
  refine fun s x hreset => ⟨fun hbusy => ?waits, fun t hqueue hreads hchannels hfill ht => ?clears⟩
  case waits =>
    refine exec_warmResetClear_waits hreset fun hrest => ?_
    obtain ⟨hqueue, hreads, hchannels, hfill⟩ := atRest_iff.1 hrest
    obtain h | h | ⟨c, h⟩ | h := hbusy
    · exact h hqueue
    · exact h hreads
    · exact h (hchannels c)
    · exact h hfill
  case clears =>
    have hcleared : (clearAll s).modManagement (fun m => { m with warmReset := none }) = t := by
      rw [ht]
      unfold State.modManagement clearAll PortState.cleared PortState.clearCounters allSlabs
      with_reducible rfl
    rw [exec_warmResetClear_clears hreset (atRest_iff.2 ⟨hqueue, hreads, hchannels, hfill⟩), resumeDispatch, hcleared]
    rfl
end

section
/-! SUPPORT. A slab of a stream in no gang that becomes FULL, and the FLUSH that waits for it (R92, R95 to R97). -/

namespace Sys2Proof.Machine

/-! ### The passage to FULL, in no gang -/

/-- The state after a slab became FULL and was handed on as a single drain entry, a FAULTED one with its notice (R96,
R97). -/
def handedSingle (i : StreamId) (sl : SlabId) (s : State) : State :=
  conversionRaised i (s.slab sl) sl
    { s.setSlab sl { s.slab sl with state := .full, holder := some .singleEntry } with
      drainQueue := s.drainQueue ++ [.single sl] }

/-- What a CONVERSION notice makes of the ports is a matter of the ports and the routes (R96, R190). -/
theorem conversionRaised_port_congr {i : StreamId} {v w : Slab} {sl : SlabId} {s t : State} (hf : v.faulted = w.faulted)
    (he : v.epoch = w.epoch) (hr : t.routes = s.routes) (h : ∀ q, t.port q = s.port q) (q : Port) :
    (conversionRaised i v sl t).port q = (conversionRaised i w sl s).port q := by
  unfold conversionRaised
  rw [hf, he]
  split
  · exact raise_port_congr _ hr h q
  · exact h q

/-- The hand-on leaves the streams and the Management Unit. -/
theorem handedSingle_same (i : StreamId) (sl : SlabId) (s : State) :
    (handedSingle i sl s).streams = s.streams ∧ (handedSingle i sl s).management = s.management ∧
      (handedSingle i sl s).drainQueue = s.drainQueue ++ [.single sl] := by
  obtain ⟨hstreams, -, hqueue, -, hmanagement⟩ := conversionRaised_same i (s.slab sl) sl
    { s.setSlab sl { s.slab sl with state := .full, holder := some .singleEntry } with
      drainQueue := s.drainQueue ++ [.single sl] }
  exact ⟨hstreams, hmanagement, hqueue⟩

theorem handedSingle_slab (i : StreamId) (sl : SlabId) (s : State) : (handedSingle i sl s).slab sl =
    { s.slab sl with state := .full, holder := some .singleEntry } := by
  obtain ⟨-, hslabs, -⟩ := conversionRaised_same i (s.slab sl) sl
    { s.setSlab sl { s.slab sl with state := .full, holder := some .singleEntry } with
      drainQueue := s.drainQueue ++ [.single sl] }
  exact (congrArg (fun t => Table.get t sl) hslabs).trans (State.setSlab_slab ..)

/-- The hand-on brings the ports the CONVERSION notice alone (R96). -/
theorem handedSingle_port (i : StreamId) (sl : SlabId) (s : State) (q : Port) :
    (handedSingle i sl s).port q = (conversionRaised i (s.slab sl) sl s).port q := by
  unfold handedSingle
  exact conversionRaised_port_congr rfl rfl (by rfl) (by rintro (_ | _) <;> rfl) q

/-- A slab of a stream in no gang is handed on to the Drain Queue's tail (R97). -/
theorem handOn_single {i : StreamId} {sl : SlabId} {s : State} (hg : (s.stream i).gang = none) : handOn i sl s =
    { s.setSlab sl { s.slab sl with holder := some .singleEntry } with
      drainQueue := s.drainQueue ++ [.single sl] } := by
  rw [handOn, hg]
  rfl

/-- A slab that becomes FULL in no gang is handed on as a single drain entry, and the FLUSH makes its progress (R92). -/
theorem becomeFull_single {i : StreamId} {sl : SlabId} {s : State} (hg : (s.stream i).gang = none) :
    becomeFull i sl s = flushProgress i sl (handedSingle i sl s) := by
  obtain ⟨hstreams, -, hqueue, -⟩ := conversionRaised_same i (s.slab sl) sl s
  have hnoticed : becomeFull i sl s = flushProgress i sl (handOn i sl
      ((conversionRaised i (s.slab sl) sl s).setSlab sl { s.slab sl with state := .full })) := by
    rw [← conversionRaised_setSlab]
    rfl
  have hsingle : handedSingle i sl s = { (conversionRaised i (s.slab sl) sl s).setSlab sl
      { s.slab sl with state := .full, holder := some .singleEntry } with
        drainQueue := s.drainQueue ++ [.single sl] } := by
    rw [← conversionRaised_setSlab]
    exact conversionRaised_drainQueue ..
  rw [hnoticed, hsingle, handOn_single, State.setSlab_setSlab, State.setSlab_slab, State.setSlab_drainQueue, hqueue]
  rw [State.setSlab_stream_of, State.stream, hstreams]
  exact hg

/-- A seal that makes its slab FULL is the seal, and the passage to FULL (R85, R95). -/
theorem handedSingle_sealedWaiting (i : StreamId) (sl : SlabId) (cause : SealCause) (s : State) :
    handedSingle i sl (sealedWaiting i sl cause s) = sealedFull i sl cause s := by
  have hsealed : (sealedWaiting i sl cause s).slab sl = sealedRecord (s.slab sl) cause (holesOf i sl s) := by
    unfold sealedWaiting
    rw [State.setStream_slab_of, State.setSlab_slab]
  have hnotice : conversionRaised i ((sealedWaiting i sl cause s).slab sl) sl = conversionRaised i (s.slab sl) sl := by
    funext c
    rw [hsealed]
    rfl
  rw [handedSingle, hnotice]
  rfl

/-! ### The progress of a FLUSH (R92) -/

/-- The table entry of a FLUSH that waits for these slabs. -/
def PendingOp.waitsFor (size : Nat) (waiting : List SlabId) (o : PendingOp) : PendingOp :=
  { o with detail := .flush size waiting }

section
variable {i : StreamId} {sl : SlabId} {s : State} {o : PendingOp} {size : Nat} {waiting : List SlabId}

/-- No FLUSH waits for the slab. -/
theorem flushProgress_notWaiting
    (h : ∀ o size waiting, streamOp i s = some o → o.detail = .flush size waiting → sl ∉ waiting) :
    flushProgress i sl s = s := by
  unfold flushProgress
  split
  · next o ho =>
    split
    · next size waiting hd => rw [if_neg (by simpa using h o size waiting ho hd)]
    · rfl
  · rfl

/-- The slab is the last that the FLUSH waits for. -/
theorem flushProgress_last (ho : streamOp i s = some o) (hd : o.detail = .flush size waiting) (hsl : sl ∈ waiting)
    (hlast : waiting.erase sl = []) : flushProgress i sl s = completeFlush i o size s := by
  unfold flushProgress
  rw [ho]
  dsimp only
  rw [hd]
  dsimp only
  rw [if_pos (by simpa using hsl), if_pos hlast]

/-- The FLUSH goes on to wait for other slabs. -/
theorem flushProgress_more (ho : streamOp i s = some o) (hd : o.detail = .flush size waiting) (hsl : sl ∈ waiting)
    (hmore : waiting.erase sl ≠ []) :
    flushProgress i sl s = modOp o.slot (.waitsFor size (waiting.erase sl)) s := by
  unfold flushProgress
  rw [ho]
  dsimp only
  rw [hd]
  dsimp only
  rw [if_pos (by simpa using hsl), if_neg hmore]
  rfl

end

/-- The pending operation of a stream depends on the streams and the table alone. -/
theorem streamOp_congr {i : StreamId} {s t : State} (hstreams : t.streams = s.streams)
    (hops : t.management.ops = s.management.ops) : streamOp i t = streamOp i s := by
  unfold streamOp findOp State.stream
  rw [hstreams, hops]

end Sys2Proof.Machine
end

section
/-! PROOF. FLUSH: refused, complete at once, pending on its set, or complete at its own seal (05_sealing.md R85, R89,
R91 to R95, R97). -/

namespace Sys2Proof.Machine

/-! ### The entry of a FLUSH in the pending-operation table (R91, R175) -/

theorem freeSlot_unused {l : List PendingOp} {slot : OpSlot} (h : freeSlot l = some slot) : ∀ o ∈ l, o.slot ≠ slot := by
  have hfree := List.find?_some h
  simpa using hfree

/-- The operation `o` taken on stream `i`: the stream's pending operation, at the table's end (R91). -/
def opPending (i : StreamId) (o : PendingOp) (s : State) : State :=
  addOp o (s.modStream i fun e => { e with pendingOp := some o.slot })

section
variable {i : StreamId} {s : State} {o : PendingOp}

theorem opPending_stream : (opPending i o s).stream i = { s.stream i with pendingOp := some o.slot } :=
  State.setStream_stream ..

theorem opPending_slab (x : SlabId) : (opPending i o s).slab x = s.slab x := rfl

theorem streamOp_opPending (hunused : ∀ x ∈ s.management.ops, x.slot ≠ o.slot) :
    streamOp i (opPending i o s) = some o := by
  have hnone : s.management.ops.find? (fun x => x.slot == o.slot) = none := by simpa using hunused
  rw [streamOp, opPending_stream]
  show (s.management.ops ++ [o]).find? (fun x => x.slot == o.slot) = some o
  rw [List.find?_append, hnone]
  simp

/-- A FLUSH that completes where its table entry was taken leaves the stream and the table as they were (R92). -/
theorem completeFlush_opPending (size : Nat) (hpending : (s.stream i).pendingOp = none)
    (hunused : ∀ x ∈ s.management.ops, x.slot ≠ o.slot) : completeFlush i o size (opPending i o s) =
      lateReply o.port o.discard (replySegment o.tag 0x16 .done [BitVec.ofNat 8 size]) s := by
  have hstream : { (opPending i o s).stream i with pendingOp := none } = s.stream i := by
    rw [opPending_stream, ← hpending]
  have hops : (s.management.ops ++ [o]).filter (fun x => x.slot != o.slot) = s.management.ops := by
    rw [List.filter_append, List.filter_eq_self.2 (by simpa using hunused)]
    simp
  have hback : releaseOp o.slot ((opPending i o s).modStream i fun e => { e with pendingOp := none }) = s := by
    refine (congrArg (fun v => releaseOp o.slot ((opPending i o s).setStream i v)) hstream).trans ?_
    unfold opPending addOp releaseOp State.modStream State.modManagement State.setStream State.stream
    dsimp only
    rw [hops, Table.set_set, Table.set_get]
  rw [completeFlush, hback]
  rfl

/-- A CONVERSION notice meets neither the streams nor the table (R190). -/
theorem conversionRaised_opPending (v : Slab) (sl : SlabId) :
    conversionRaised i v sl (opPending i o s) = opPending i o (conversionRaised i v sl s) := by
  unfold conversionRaised raise
  split
  · split
    · rw [show (opPending i o s).routes = s.routes from rfl]
      unfold offerRoute
      split <;> rfl
    · rfl
  · rfl

theorem sealedWaiting_opPending (sl : SlabId) (cause : SealCause) :
    sealedWaiting i sl cause (opPending i o s) = opPending i o (sealedWaiting i sl cause s) := by
  have hholes : holesOf i sl (opPending i o s) = holesOf i sl s := by
    unfold holesOf State.frameLength
    rw [opPending_stream]
    rfl
  have hsame (v w : Stream) (x : Slab) : ((addOp o (s.setStream i v)).setSlab sl x).setStream i w =
      addOp o ((s.setSlab sl x).setStream i w) := by
    unfold addOp State.modManagement State.setStream State.setSlab
    dsimp only
    rw [Table.set_set]
  unfold sealedWaiting
  rw [hholes, opPending_stream]
  unfold opPending State.modStream
  rw [hsame, State.setStream_stream, State.setStream_setStream]
  rfl

theorem handedSingle_opPending (sl : SlabId) :
    handedSingle i sl (opPending i o s) = opPending i o (handedSingle i sl s) :=
  conversionRaised_opPending (s := { s.setSlab sl { s.slab sl with state := .full, holder := some .singleEntry } with
    drainQueue := s.drainQueue ++ [.single sl] }) (s.slab sl) sl

/-- A slab that is sealed and becomes FULL leaves the stream's pending operation and the table (R85, R97). -/
theorem sealedFull_opPending (sl : SlabId) (cause : SealCause) :
    sealedFull i sl cause (opPending i o s) = opPending i o (sealedFull i sl cause s) := by
  rw [← handedSingle_sealedWaiting, ← handedSingle_sealedWaiting, sealedWaiting_opPending,
    handedSingle_opPending]

end

/-! ### FLUSH, by its cases (R91) -/

section
variable {s : State} {r : Request} {i : StreamId} {slot : OpSlot}

theorem flushStream_busy (h : freeSlot s.management.ops = none) : flushStream i r s = refuse r .flush .busy s := by
  rw [flushStream, h]

theorem flushStream_empty (h : freeSlot s.management.ops = some slot) (hset : flushSet s i = []) :
    flushStream i r s = answer r .flush .done [0] s := by
  rw [flushStream, h]
  exact if_pos hset

theorem flushStream_set (h : freeSlot s.management.ops = some slot) (hset : flushSet s i ≠ []) : flushStream i r s =
    runWork (reachRing i .flushed (opPending i (flushOp slot i r (flushSet s i)) s)) := by
  rw [flushStream, h]
  exact if_neg hset

end

/-- The one slab of a ring that is FILLING or SEALING stands between slabs that are neither. -/
theorem flushSet_one {i : StreamId} {sl : SlabId} {s : State} (h : flushSet s i = [sl]) :
    ∃ front back, (s.stream i).ring = front ++ sl :: back ∧
      ∀ x, x ∈ front ∨ x ∈ back → (s.slab x).state ≠ .filling := by
  obtain ⟨front, back, hring, hfront, -, hback⟩ := List.filter_eq_cons_iff.1 h
  refine ⟨front, back, hring, fun x hx hfilling => ?_⟩
  rcases hx with hx | hx
  · exact hfront x hx (by simp [hfilling])
  · exact List.filter_eq_nil_iff.1 hback x hx (by simp [hfilling])

/-- A FLUSH whose only slab becomes FULL at its seal completes with its REPLY (R92, R95, R97). -/
theorem reachRing_flushed {i : StreamId} {sl : SlabId} {o : PendingOp} {s : State}
    (hset : flushSet s i = [sl]) (hseal : sealsToFull i sl s) (hunused : ∀ x ∈ s.management.ops, x.slot ≠ o.slot)
    (hd : o.detail = .flush 1 [sl]) (hdiscard : o.discard = false) :
    reachRing i .flushed (opPending i o s) =
      pushReply o.port (replySegment o.tag 0x16 .done [1]) (sealedFull i sl .flushed s) := by
  obtain ⟨front, back, hring, hothers⟩ := flushSet_one hset
  obtain ⟨hfilling, hplacing, hout, hfill, hwork, hgang, hpending⟩ := hseal
  obtain ⟨hslabs, hstream, hmanagement, -⟩ := sealedFull_same i sl .flushed s
  rw [sealedWaiting_stream] at hstream
  have hstays : ¬ staysOpen i sl (opPending i o s) := by
    unfold staysOpen
    rw [opPending_stream, opPending_slab, hplacing, hout]
    rw [holeFillOn_eq] at hfill
    simp [hfill]
  have hitem : hasItem (opPending i o s) sl = false := by
    unfold hasItem
    rw [show (opPending i o s).fill.work = [] from hwork]
    rfl
  have hslot : streamOp i (opPending i o (sealedFull i sl .flushed s)) = some o :=
    streamOp_opPending (by rw [hmanagement]; exact hunused)
  have hreach : reachSlab i .flushed sl (opPending i o s) =
      pushReply o.port (replySegment o.tag 0x16 .done [1]) (sealedFull i sl .flushed s) := by
    rw [reachSlab_becomesFull (s := opPending i o s) hfilling hstays hitem, becomeFull_single,
      handedSingle_sealedWaiting, sealedFull_opPending, flushProgress_last hslot hd (by simp) (by simp),
      completeFlush_opPending, hdiscard]
    · rfl
    · rw [hstream]
      exact hpending
    · rw [hmanagement]
      exact hunused
    · rw [sealedWaiting_stream, opPending_stream]
      exact hgang
  refine reachRing_one (by rw [opPending_stream]; exact hring) hothers hreach (fun x hx => ?_) hfilling
  rw [State.slab, pushReply_slabs]
  exact hslabs x hx

end Sys2Proof.Machine

open Sys2Proof Sys2Proof.Machine

/-- Settles O54: by the free entry of the table and the flush set; `reachRing_flushed` is the FLUSH that completes at
its own seal. -/
theorem flushStarts : Obligations.FlushStarts := by
  rintro p s u r i hasks rfl
  have hexec : exec (.flush p) s = .next (flushStream i r (takeRequest p s)) :=
    congrArg Host.Outcome.next (serve_asksStream hasks)
  have hport := asksStream_port hasks
  have hops : (takeRequest p s).management.ops = s.management.ops := by rw [takeRequest_management]
  have hset : flushSet (takeRequest p s) i = (s.stream i).ring.filter
      fun x => (s.slab x).state == .filling || (s.slab x).state == .sealing := by
    cases p <;> rfl
  rw [hexec]
  refine ⟨fun hfull => ?busy, fun slot hslot => ⟨fun hempty => ?empty,
    fun set v t h hne hnodup hsealed hstays hv hdone => ?set, fun sl hone hseal => ?one⟩⟩
  case busy =>
    rw [flushStream_busy (by rw [hops]; exact hfull), refuse, answer, hport]
    rfl
  case empty =>
    have hnil : flushSet (takeRequest p s) i = [] := by
      rw [hset]
      exact List.filter_eq_nil_iff.2 fun x hx => by simpa using hempty x hx
    rw [flushStream_empty (by rw [hops]; exact hslot) hnil, answer, hport]
    rfl
  case set =>
    have hpending : v = ringReached i .flushed s
        (opPending i (flushOp slot i r (flushSet (takeRequest p s) i)) (takeRequest p s)) := by
      rw [hv, hset, ← h, flushOp, hport, opPending, State.modStream, takeRequest_stream, ← hops]
      rfl
    rw [flushStream_set (by rw [hops]; exact hslot) (by rw [hset, ← h]; exact hne),
      reachRing_eq (s := s) ?_ hnodup ?_ ?_ ?_ hsealed (.inl hstays), ← hpending, runWork_eq hdone]
    · rw [opPending_stream, takeRequest_stream]
    · cases p <;> rfl
    · rw [opPending_stream, takeRequest_stream]
    · exact takeRequest_fill p s
  case one =>
    have hwork : s.fill.work = [] := hseal.2.2.2.2.1
    have hone' : flushSet (takeRequest p s) i = [sl] := hset.trans hone
    have hseal' : sealsToFull i sl (takeRequest p s) := by cases p <;> exact hseal
    rw [flushStream_set (by rw [hops]; exact hslot) (by rw [hone']; simp), hone',
      reachRing_flushed hone' hseal' (by rw [hops]; exact freeSlot_unused hslot) rfl rfl, runWork_nil, flushOp, hport]
    rw [pushReply_fill, (sealedFull_same ..).2.2.2, takeRequest_fill]
    exact hwork
end

section
/-! SUPPORT. What the passage of a slab to FULL leaves, whatever operations complete by it and wherever the slab is
handed on (R92, R95 to R97, R104 to R110). -/

namespace Sys2Proof.Machine

/-- From `s` to `t` slabs became FULL, were handed on or came to rest: the write queue, the reads and every slab's
outstanding-write count stand, and of the Management Unit the table alone has changed. -/
structure PassedOn (s t : State) : Prop where
  rest : t = { s with portA := t.portA, portB := t.portB, streams := t.streams, slabs := t.slabs, freeList := t.freeList
                      gangs := t.gangs, drainQueue := t.drainQueue
                      management := { s.management with ops := t.management.ops } }
  outstanding : ∀ x, (t.slab x).outstanding = (s.slab x).outstanding

namespace PassedOn

variable {s t : State}

theorem refl (s : State) : PassedOn s s := ⟨rfl, fun _ => rfl⟩

theorem trans {u : State} (h : PassedOn s t) (h' : PassedOn t u) : PassedOn s u where
  rest := h'.rest.trans (by rw [h.rest])
  outstanding x := (h'.outstanding x).trans (h.outstanding x)

/-! ### The updates it is made of -/

theorem offer (h : PassedOn s t) {p : Port} {n : Notice} : PassedOn s (offerNotice p n t) :=
  h.trans (by cases p <;> exact ⟨rfl, fun _ => rfl⟩)

theorem raise (h : PassedOn s t) {n : Notice} : PassedOn s (raise n t) := raise_keeps (fun h => h.offer) h

theorem reply (h : PassedOn s t) {p : Port} {seg : Segment} : PassedOn s (pushReply p seg t) :=
  h.trans (by cases p <;> exact ⟨rfl, fun _ => rfl⟩)

theorem late (h : PassedOn s t) {p : Port} {discard : Bool} {seg : Segment} : PassedOn s (lateReply p discard seg t) :=
  lateReply_keeps (fun h => h.reply) h

theorem setStream (h : PassedOn s t) {i : StreamId} {v : Stream} : PassedOn s (t.setStream i v) :=
  h.trans ⟨rfl, fun _ => rfl⟩

theorem setSlab (h : PassedOn s t) {sl : SlabId} {v : Slab} (hv : v.outstanding = (t.slab sl).outstanding) :
    PassedOn s (t.setSlab sl v) := by
  refine h.trans ⟨rfl, fun x => ?_⟩
  by_cases e : sl = x
  · subst e
    rw [State.setSlab_slab, hv]
  · rw [State.setSlab_slab_ne _ _ e]

theorem setGang (h : PassedOn s t) {g : GangId} {v : Gang} : PassedOn s (t.setGang g v) := h.trans ⟨rfl, fun _ => rfl⟩

theorem drain (h : PassedOn s t) {q : List DrainEntry} : PassedOn s { t with drainQueue := q } :=
  h.trans ⟨rfl, fun _ => rfl⟩

theorem free (h : PassedOn s t) {l : List SlabId} : PassedOn s { t with freeList := l } := h.trans ⟨rfl, fun _ => rfl⟩

theorem releaseOp (h : PassedOn s t) {k : OpSlot} : PassedOn s (releaseOp k t) := h.trans ⟨rfl, fun _ => rfl⟩

theorem modOp (h : PassedOn s t) {k : OpSlot} {f : PendingOp → PendingOp} : PassedOn s (modOp k f t) :=
  h.trans ⟨rfl, fun _ => rfl⟩

/-! ### A slab that comes to rest (R19, R60) -/

theorem modSlabs (h : PassedOn s t) {f : Slab → Slab} (hf : ∀ v, (f v).outstanding = v.outstanding) {l : List SlabId} :
    PassedOn s (modSlabs f l t) := fold_keeps (fun _ _ h => h.setSlab (hf _)) l h

theorem completeUnbind (h : PassedOn s t) {i : StreamId} {o : PendingOp} {forced : Bool} {n : Nat}
    {cut : Option Epoch} : PassedOn s (completeUnbind i o forced n cut t) := by
  have released {l : List SlabId} : PassedOn s (Machine.releaseOp o.slot
      (State.modStream { Machine.modSlabs Slab.freed (t.stream i).ring t with freeList := l } i Stream.unbound)) :=
    (h.modSlabs (by exact fun _ => rfl)).free.setStream.releaseOp
  unfold Machine.completeUnbind
  dsimp only
  split
  · exact released.late.raise
  · exact released.late

theorem unbindTest (h : PassedOn s t) {i : StreamId} : PassedOn s (unbindTest i t) := by
  unfold Machine.unbindTest
  split
  · split
    · split
      · exact h.completeUnbind
      · exact h
    · exact h
  · exact h

theorem emptySlab (h : PassedOn s t) {i : StreamId} {sl : SlabId} : PassedOn s (emptySlab i sl t) := by
  rw [emptySlab_eq]
  exact (h.setSlab (by rfl)).setStream.unbindTest

/-! ### The Gang Aligner (R104 to R110) -/

theorem releaseOldest (h : PassedOn s t) {g : GangId} : PassedOn s (releaseOldest g t) := by
  unfold Machine.releaseOldest
  split
  · exact h
  · dsimp only
    have released {q : List DrainEntry} {o : Option Holder} {l : List SlabId} {v : Gang} : PassedOn s
        ((Machine.modSlabs (fun v => { v with holder := o }) l { t with drainQueue := q }).setGang g v) :=
      (h.drain.modSlabs (by exact fun _ => rfl)).setGang
    split
    · exact released
    · exact released.raise

theorem completionTest (h : PassedOn s t) {g : GangId} : PassedOn s (completionTest g t) :=
  completionLoop_keeps (fun h => h.releaseOldest) _ h

theorem gangLate (h : PassedOn s t) {g : GangId} {i : StreamId} {sl : SlabId} {e : Epoch} :
    PassedOn s (gangLate g i sl e t) := by
  unfold Machine.gangLate State.count State.modStream
  exact h.emptySlab.setStream.raise

theorem joinRecord (h : PassedOn s t) {g : GangId} {k : Nat} {sl : SlabId} {e : Epoch} :
    PassedOn s (joinRecord g k sl e t) := by
  unfold Machine.joinRecord
  dsimp only
  split
  · exact (h.setSlab (by rfl)).setGang.completionTest
  · exact (h.setSlab (by rfl)).setGang

theorem createRecord (h : PassedOn s t) {g : GangId} {k : Nat} {sl : SlabId} {e : Epoch} :
    PassedOn s (createRecord g k sl e t) := by
  unfold Machine.createRecord
  dsimp only
  split
  · exact (h.setSlab (by rfl)).setGang.releaseOldest.completionTest
  · exact (h.setSlab (by rfl)).setGang

/-- The four cases of an arrival (R104). -/
theorem arrive (h : PassedOn s t) {g : GangId} {i : StreamId} {sl : SlabId} : PassedOn s (arrive g i sl t) := by
  unfold Machine.arrive
  dsimp only
  split
  · exact h.gangLate
  split
  · exact h.joinRecord
  split
  · exact h.gangLate
  · exact h.createRecord

/-! ### The passage to FULL (R92, R95 to R97) -/

theorem handOn (h : PassedOn s t) {i : StreamId} {sl : SlabId} : PassedOn s (handOn i sl t) := by
  unfold Machine.handOn
  split
  · exact h.arrive
  · exact h.drain.setSlab (by rfl)

theorem flushProgress (h : PassedOn s t) {i : StreamId} {sl : SlabId} : PassedOn s (flushProgress i sl t) := by
  unfold Machine.flushProgress
  split
  · split
    · split
      · split
        · exact h.setStream.releaseOp.late
        · exact h.modOp
      · exact h
    · exact h
  · exact h

theorem becomeFull (h : PassedOn s t) {i : StreamId} {sl : SlabId} : PassedOn s (becomeFull i sl t) := by
  unfold Machine.becomeFull
  dsimp only
  split
  · exact (h.setSlab (by rfl)).raise.handOn.flushProgress
  · exact (h.setSlab (by rfl)).handOn.flushProgress

theorem testFullOwned (h : PassedOn s t) {sl : SlabId} : PassedOn s (testFullOwned sl t) := by
  unfold Machine.testFullOwned
  split
  · unfold testFull
    split
    · exact h.becomeFull
    · exact h
  · exact h

end PassedOn

end Sys2Proof.Machine
end

section
/-! PROOF. The completion of a write (08_frame_memory.md R140, R141, R143, R148, R151), and the slab that it makes FULL
(05_sealing.md R92, R95 to R97). -/

namespace Sys2Proof.Machine

/-! ### The bytes that reach memory (R138, R141) -/

namespace Memory

/-- The byte of an image at position `k` written into a line, if its mask is set. -/
def putByte (line : Nat) (image : Table 64 (Option Byte)) (m : List Host.Cell) (k : Fin 64) : List Host.Cell :=
  (image.get k).elim m fun b => write m (line * 64 + k.val) b

section
variable {line : Nat} {image : Table 64 (Option Byte)} {m : List Host.Cell} {k : Fin 64} {a : Nat}

theorem writeLine_eq : writeLine m line image = (List.finRange 64).foldl (putByte line image) m := by
  unfold writeLine
  congr 1
  funext m k
  unfold putByte
  cases image.get k <;> rfl

theorem read_putByte : read (putByte line image m k) a =
    if a = line * 64 + k.val then (image.get k).getD (read m a) else read m a := by
  unfold putByte
  cases image.get k with
  | none => simp
  | some b => exact read_write ..

theorem read_putBytes_other : ∀ {l : List (Fin 64)} {m : List Host.Cell}, (∀ k ∈ l, a ≠ line * 64 + k.val) →
    read (l.foldl (putByte line image) m) a = read m a
  | [], _, _ => rfl
  | k :: l, m, h => by
    rw [List.foldl_cons, read_putBytes_other fun j hj => h j (List.mem_cons_of_mem _ hj), read_putByte,
      if_neg (h k List.mem_cons_self)]

theorem read_putBytes_self : ∀ {l : List (Fin 64)} {m : List Host.Cell}, k ∈ l →
    read (l.foldl (putByte line image) m) (line * 64 + k.val) =
      (image.get k).getD (read m (line * 64 + k.val))
  | j :: l, m, h => by
    rw [List.foldl_cons]
    by_cases hk : k ∈ l
    · rw [read_putBytes_self hk, read_putByte]
      by_cases hj : line * 64 + k.val = line * 64 + j.val
      · obtain rfl : k = j := Fin.ext (by omega)
        rw [if_pos rfl]
        cases image.get k <;> rfl
      · rw [if_neg hj]
    · obtain rfl : k = j := (List.mem_cons.1 h).resolve_right hk
      have hothers : ∀ j ∈ l, line * 64 + k.val ≠ line * 64 + j.val := by
        rintro j hj e
        obtain rfl : k = j := Fin.ext (by omega)
        exact hk hj
      rw [read_putBytes_other hothers, read_putByte, if_pos rfl]

theorem read_writeLine_self : read (writeLine m line image) (line * 64 + k.val) =
    (image.get k).getD (read m (line * 64 + k.val)) := by
  rw [writeLine_eq, read_putBytes_self (List.mem_finRange k)]

theorem read_writeLine_other (h : a / 64 ≠ line) : read (writeLine m line image) a = read m a := by
  rw [writeLine_eq, read_putBytes_other fun k _ => by omega]

end

end Memory

/-! ### What waited for the entry (R143, R148, R151) -/

/-- The drain reads, the PEEKs and the SYNCs that waited for entry `n` wait no longer (R141). -/
def waitersReleased (n : Nat) (s : State) : State := completeSyncs n (releasePeeks n (releaseHolds n s))

theorem depart_eq (e : WriteEntry) (s : State) : depart e s = waitersReleased e.number (departSlab e.slab s) := rfl

theorem completeSync_rest (s : State) (o : PendingOp) : completeSync s o =
    { s with portA := (completeSync s o).portA, portB := (completeSync s o).portB
             management := { s.management with ops := s.management.ops.filter fun x => x.slot != o.slot } } := by
  unfold completeSync lateReply
  split
  · rfl
  · cases o.port <;> rfl

/-- SYNCs that complete leave everything but the replies and their own entries of the table (R151). -/
theorem completeSyncList_rest : ∀ (l : List PendingOp) (s : State), l.foldl completeSync s =
    { s with portA := (l.foldl completeSync s).portA, portB := (l.foldl completeSync s).portB
             management := { s.management with
               ops := s.management.ops.filter fun x => l.all fun o => x.slot != o.slot } }
  | [], s => by simp
  | o :: l, s => by
    rw [List.foldl_cons]
    refine (completeSyncList_rest l _).trans ?_
    rw [completeSync_rest s o]
    dsimp only
    rw [List.filter_filter]
    simp only [List.all_cons, Bool.and_comm]

/-- The SYNCs of a table that recorded entry `n` (R151). -/
def syncsOf (n : Nat) (l : List PendingOp) : List PendingOp := l.filter fun o => o.detail == .sync n

theorem mem_syncsOf {n : Nat} {l : List PendingOp} {o : PendingOp} : o ∈ syncsOf n l ↔ o ∈ l ∧ o.detail = .sync n := by
  simp [syncsOf]

theorem waitersReleased_rest (n : Nat) (s : State) : waitersReleased n s =
    { s with
      portA := (waitersReleased n s).portA, portB := (waitersReleased n s).portB
      channels := s.channels.map (Channel.unhold n)
      controller := { s.controller with
        reads := s.controller.reads ++ (s.controller.heldPeeks.filter fun h => h.entry == n).map HeldPeek.toRead
        heldPeeks := s.controller.heldPeeks.filter fun h => h.entry != n }
      management := { s.management with ops := s.management.ops.filter fun x =>
        (syncsOf n s.management.ops).all fun o => x.slot != o.slot } } :=
  completeSyncList_rest (syncsOf n s.management.ops) (releasePeeks n (releaseHolds n s))

theorem waitersReleased_ops (n : Nat) (s : State) : (waitersReleased n s).management.ops =
    s.management.ops.filter fun x => (syncsOf n s.management.ops).all fun o => x.slot != o.slot :=
  congrArg (fun t => t.management.ops) (waitersReleased_rest n s)

theorem waitersReleased_stream (n : Nat) (s : State) (i : StreamId) : (waitersReleased n s).stream i = s.stream i :=
  congrArg (fun t => t.stream i) (waitersReleased_rest n s)

theorem waitersReleased_slab (n : Nat) (s : State) (x : SlabId) : (waitersReleased n s).slab x = s.slab x :=
  congrArg (fun t => t.slab x) (waitersReleased_rest n s)

/-- No SYNC waits for the entry any longer (R151). -/
theorem waitersReleased_noSync {n : Nat} {s : State} {o : PendingOp} (ho : o ∈ (waitersReleased n s).management.ops) :
    o.detail ≠ .sync n := by
  intro hd
  rw [waitersReleased_ops, List.mem_filter] at ho
  obtain ⟨hmem, hall⟩ := ho
  have := List.all_eq_true.1 hall o (mem_syncsOf.2 ⟨hmem, hd⟩)
  simp at this

/-- An entry of the table that no SYNC for the entry uses stays as it is (R151, R175). -/
theorem findOp_waitersReleased {n : Nat} {k : OpSlot} {s : State}
    (h : ∀ x ∈ s.management.ops, x.slot = k → x.detail ≠ .sync n) : findOp k (waitersReleased n s) = findOp k s := by
  unfold findOp
  rw [waitersReleased_ops, List.find?_filter]
  refine List.find?_congr fun x hx => ?_
  by_cases hk : x.slot = k
  · have hall : ((syncsOf n s.management.ops).all fun o => x.slot != o.slot) = true := by
      refine List.all_eq_true.2 fun o ho => bne_iff_ne.2 fun e => ?_
      obtain ⟨hmem, hd⟩ := mem_syncsOf.1 ho
      exact h o hmem (e.symm.trans hk) hd
    simp [hall, Bool.beq_eq_decide_eq]
  · simp [hk]

/-- The REPLY of a SYNC, unless its request is marked for discard (R151, R174). -/
def syncAnswered (c : State) (o : PendingOp) : State :=
  if o.discard = true then c else pushReply o.port (replySegment o.tag 0x2A .done []) c

theorem completeSync_port {s c : State} (o : PendingOp) (h : ∀ q, s.port q = c.port q) (q : Port) :
    (completeSync s o).port q = (syncAnswered c o).port q := by
  have hreleased : ∀ q, (releaseOp o.slot s).port q = c.port q := fun q => by
    rw [← h]
    cases q <;> rfl
  unfold completeSync lateReply syncAnswered
  split
  · exact hreleased q
  · exact pushReply_port_congr _ _ hreleased q

/-- What the SYNCs of a table reply is a matter of those SYNCs and the ports (R151). -/
theorem waitersReleased_port {e : WriteEntry} {s c x : State}
    (hsyncs : syncsOf e.number x.management.ops = syncsOf e.number s.management.ops)
    (hports : ∀ q, x.port q = c.port q) (q : Port) :
    (waitersReleased e.number x).port q = (syncReplies e s c).port q := by
  have fold : ∀ (l : List PendingOp) (x c : State), (∀ q, x.port q = c.port q) →
      (l.foldl completeSync x).port q = (l.foldl syncAnswered c).port q := by
    intro l
    induction l with
    | nil => exact fun _ _ h => h q
    | cons o l ih => exact fun x c h => ih _ _ (completeSync_port o h)
  have hfreed : ∀ q, (releasePeeks e.number (releaseHolds e.number x)).port q = c.port q := fun q => by
    rw [← hports]
    cases q <;> rfl
  refine (fold (syncsOf e.number x.management.ops) _ _ hfreed).trans ?_
  rw [hsyncs]
  rfl

/-! ### The slab of the entry (R95, R140) -/

/-- A slab's outstanding-write count falls by one, if the entry carries a slab's number (R140). -/
def countedDown : Option SlabId → State → State
  | some sl, s => s.modSlab sl fun v => { v with outstanding := v.outstanding - 1 }
  | none, s => s

theorem countedDown_rest (o : Option SlabId) (s : State) :
    countedDown o s = { s with slabs := (countedDown o s).slabs } := by cases o <;> rfl

theorem countedDown_slab (sl : SlabId) (s : State) : (countedDown (some sl) s).slab sl =
    { s.slab sl with outstanding := (s.slab sl).outstanding - 1 } := State.setSlab_slab ..

theorem countedDown_slab_ne {o : Option SlabId} {sl : SlabId} (h : o ≠ some sl) (s : State) :
    (countedDown o s).slab sl = s.slab sl := by
  cases o with
  | none => rfl
  | some x => exact State.setSlab_slab_ne _ _ (fun e => h (congrArg some e)) _

/-- The state in which the head entry has left the queue and its slab counts one write less (R140, R141). -/
def headGone (e : WriteEntry) (s : State) : State := countedDown e.slab (retireHead e s)

theorem headGone_rest (e : WriteEntry) (s : State) : headGone e s =
    { s with
      slabs := (headGone e s).slabs
      memory := Memory.writeLine s.memory e.line e.image
      controller := { s.controller with
        queue := s.controller.queue.tail, banks := s.controller.banks.set (bankOf e.line) .ready } } :=
  countedDown_rest e.slab (retireHead e s)

theorem headGone_streams (e : WriteEntry) (s : State) : (headGone e s).streams = s.streams := by
  rw [headGone_rest]

theorem headGone_drainQueue (e : WriteEntry) (s : State) : (headGone e s).drainQueue = s.drainQueue := by
  rw [headGone_rest]

theorem headGone_management (e : WriteEntry) (s : State) : (headGone e s).management = s.management := by
  rw [headGone_rest]

theorem headGone_routes (e : WriteEntry) (s : State) : (headGone e s).routes = s.routes := by
  rw [headGone_rest]

theorem headGone_port (e : WriteEntry) (s : State) (q : Port) : (headGone e s).port q = s.port q := by
  rw [headGone_rest]
  cases q <;> rfl

theorem departSlab_passedOn (e : WriteEntry) (s : State) :
    PassedOn (headGone e s) (departSlab e.slab (retireHead e s)) := by
  unfold headGone
  cases e.slab with
  | none => exact .refl _
  | some sl => exact (PassedOn.refl _).testFullOwned

/-- The slab of a departed entry becomes FULL just where `fillsUp` says (R95). -/
theorem fillsUp_iff {e : WriteEntry} {sl : SlabId} {i : StreamId} {s : State} (h : e.slab = some sl) :
    fillsUp e sl i s ↔ (headGone e s).owner sl = some i ∧ ((headGone e s).slab sl).state = .sealing ∧
      hasItem (headGone e s) sl = false ∧ ((headGone e s).slab sl).outstanding = 0 := by
  have howner : (headGone e s).owner sl = s.owner sl :=
    owner_congr sl fun k => congrArg (fun t => (Table.get t k).ring) (headGone_streams e s)
  have hitem : hasItem (headGone e s) sl = false ↔ ∀ x ∈ s.fill.work, x.slab ≠ sl := by
    rw [headGone_rest]
    simp [hasItem]
  have hslab : (headGone e s).slab sl = { s.slab sl with outstanding := (s.slab sl).outstanding - 1 } := by
    unfold headGone
    rw [h]
    exact countedDown_slab ..
  rw [howner, hitem, hslab, fillsUp, Nat.sub_eq_zero_iff_le]
  tauto

/-- A slab that has another write to wait for, or is not SEALING, stays as it is (R95). -/
theorem departSlab_stays {e : WriteEntry} {s : State} (h : ∀ sl i, ¬ fillsUp e sl i s) :
    departSlab e.slab (retireHead e s) = headGone e s := by
  cases hsl : e.slab with
  | none => rw [headGone, hsl]; rfl
  | some sl =>
    have hgone : departSlab (some sl) (retireHead e s) = testFullOwned sl (headGone e s) := by rw [headGone, hsl]; rfl
    rw [hgone, testFullOwned]
    split
    · next i howner => exact if_neg fun hfull => h sl i ((fillsUp_iff hsl).2 ⟨howner, hfull⟩)
    · rfl

/-! ### The slab that becomes FULL (R92, R96, R97) -/

/-! #### A FLUSH that completes (R92) -/

section
variable {i : StreamId} {o : PendingOp} {size : Nat} {s : State}

theorem completeFlush_ops : (completeFlush i o size s).management.ops =
    s.management.ops.filter fun x => x.slot != o.slot := by
  unfold completeFlush lateReply
  split
  · rfl
  · rw [pushReply_management]
    rfl

theorem completeFlush_pendingOp : ((completeFlush i o size s).stream i).pendingOp = none := by
  unfold completeFlush lateReply
  have hstream : (releaseOp o.slot (s.modStream i fun e => { e with pendingOp := none })).stream i =
      { s.stream i with pendingOp := none } := State.setStream_stream ..
  split
  · rw [hstream]
  · rw [State.stream, pushReply_streams, ← State.stream, hstream]

theorem completeFlush_port {c : State} (h : ∀ q, s.port q = c.port q) (q : Port) : (completeFlush i o size s).port q =
    (if o.discard = true then c
      else pushReply o.port (replySegment o.tag 0x16 .done [BitVec.ofNat 8 size]) c).port q := by
  have hreleased : ∀ q, (releaseOp o.slot (s.modStream i fun e => { e with pendingOp := none })).port q = c.port q :=
    fun q => by
      rw [← h]
      cases q <;> rfl
  unfold completeFlush lateReply
  split
  · exact hreleased q
  · exact pushReply_port_congr _ _ hreleased q

end

/-- A FLUSH's progress leaves the slabs and the Drain Queue (R92). -/
theorem flushProgress_same (i : StreamId) (sl : SlabId) (s : State) :
    (flushProgress i sl s).slabs = s.slabs ∧ (flushProgress i sl s).drainQueue = s.drainQueue := by
  unfold flushProgress
  split
  · split
    · split
      · split
        · unfold completeFlush lateReply
          split
          · exact ⟨rfl, rfl⟩
          · rw [pushReply_slabs, pushReply_drainQueue]
            exact ⟨rfl, rfl⟩
        · exact ⟨rfl, rfl⟩
      · exact ⟨rfl, rfl⟩
    · exact ⟨rfl, rfl⟩
  · exact ⟨rfl, rfl⟩

/-- The state in which the entry's slab is FULL and handed on, before the FLUSH that waits for it goes on (R96, R97). -/
def madeFull (e : WriteEntry) (sl : SlabId) (i : StreamId) (s : State) : State := handedSingle i sl (headGone e s)

section
variable {e : WriteEntry} {sl : SlabId} {i : StreamId} {s : State}

theorem madeFull_streams : (madeFull e sl i s).streams = s.streams :=
  (handedSingle_same i sl (headGone e s)).1.trans (headGone_streams e s)

theorem madeFull_management : (madeFull e sl i s).management = s.management :=
  (handedSingle_same i sl (headGone e s)).2.1.trans (headGone_management e s)

theorem madeFull_drainQueue : (madeFull e sl i s).drainQueue = s.drainQueue ++ [.single sl] :=
  (handedSingle_same i sl (headGone e s)).2.2.trans (by rw [headGone_drainQueue])

theorem madeFull_streamOp : streamOp i (madeFull e sl i s) = streamOp i s :=
  streamOp_congr madeFull_streams (by rw [madeFull_management])

theorem headGone_slab (h : fillsUp e sl i s) : (headGone e s).slab sl = { s.slab sl with outstanding := 0 } := by
  obtain ⟨hsl, -, hout, -⟩ := h
  unfold headGone
  rw [hsl, countedDown_slab, show (retireHead e s).slab sl = s.slab sl from rfl, Nat.sub_eq_zero_of_le hout]

theorem madeFull_slab (h : fillsUp e sl i s) : (madeFull e sl i s).slab sl =
    { s.slab sl with state := .full, outstanding := 0, holder := some .singleEntry } := by
  rw [madeFull, handedSingle_slab, headGone_slab h]

theorem madeFull_port (h : fillsUp e sl i s) (q : Port) :
    (madeFull e sl i s).port q = (conversionRaised i (s.slab sl) sl s).port q := by
  rw [madeFull, handedSingle_port]
  exact conversionRaised_port_congr (by rw [headGone_slab h]) (by rw [headGone_slab h]) (headGone_routes e s)
    (headGone_port e s) q

end

theorem departSlab_fills {e : WriteEntry} {sl : SlabId} {i : StreamId} {s : State} (h : fillsUp e sl i s)
    (hg : (s.stream i).gang = none) :
    departSlab e.slab (retireHead e s) = flushProgress i sl (madeFull e sl i s) := by
  obtain ⟨howner, hfull⟩ := (fillsUp_iff h.1).1 h
  have hgone : departSlab e.slab (retireHead e s) = testFullOwned sl (headGone e s) := by rw [headGone, h.1]; rfl
  have hgang : ((headGone e s).stream i).gang = none := by
    rw [State.stream, headGone_streams]
    exact hg
  rw [hgone, testFullOwned, howner, madeFull, ← becomeFull_single hgang]
  exact if_pos hfull

/-! ### A FLUSH and SYNCs in one table (R92, R151) -/

section
variable {n : Nat} {k : OpSlot} {l : List PendingOp}

/-- An entry that is no SYNC may be released before the SYNCs complete (R151). -/
theorem syncsOf_released (h : ∀ x ∈ l, x.slot = k → x.detail ≠ .sync n) :
    syncsOf n (l.filter fun x => x.slot != k) = syncsOf n l := by
  unfold syncsOf
  rw [List.filter_filter]
  refine List.filter_congr fun x hx => ?_
  by_cases hk : x.slot = k
  · simp [hk, h x hx hk]
  · simp [hk]

/-- An entry that is no SYNC may be changed before the SYNCs complete (R151). -/
theorem syncsOf_changed {f : PendingOp → PendingOp} (hf : ∀ o, (f o).detail ≠ .sync n) : ∀ {l : List PendingOp},
    (∀ x ∈ l, x.slot = k → x.detail ≠ .sync n) → syncsOf n (l.map fun o => if o.slot = k then f o else o) = syncsOf n l
  | [], _ => rfl
  | o :: l, h => by
    have ih := syncsOf_changed hf fun x hx => h x (List.mem_cons_of_mem _ hx)
    unfold syncsOf at ih ⊢
    rw [List.map_cons, List.filter_cons, List.filter_cons, ih]
    by_cases hk : o.slot = k
    · simp [hk, hf o, h o List.mem_cons_self hk]
    · simp [hk]

end

/-! ### WRITE_COMPLETION (R141) -/

section
variable {s : State} {e : WriteEntry} {rest : List WriteEntry}

theorem exec_writeCompletion (hq : s.controller.queue = e :: rest) (hg : e.granted = true) :
    exec .writeCompletion s = .next (depart e (retireHead e s)) := by
  show execWriteCompletion s = _
  rw [execWriteCompletion, hq, List.head?_cons, Option.filter_some, if_pos hg]

/-- What a departure leaves but for the ports, the streams, the slabs, the gangs, the Drain Queue and the table. -/
theorem depart_rest {t : State} (h : t = depart e (retireHead e s)) : t = { t with
    now := s.now, lastDataChannel := s.lastDataChannel, fill := s.fill, routes := s.routes
    channels := s.channels.map (Channel.unhold e.number)
    memory := Memory.writeLine s.memory e.line e.image
    controller := { s.controller with
      queue := s.controller.queue.tail, banks := s.controller.banks.set (bankOf e.line) .ready
      reads := s.controller.reads ++ (s.controller.heldPeeks.filter fun h => h.entry == e.number).map HeldPeek.toRead
      heldPeeks := s.controller.heldPeeks.filter fun h => h.entry != e.number } } := by
  rw [h, depart_eq, waitersReleased_rest, (departSlab_passedOn e s).rest, headGone_rest]

theorem depart_outstanding (e : WriteEntry) (s : State) (x : SlabId) :
    ((depart e (retireHead e s)).slab x).outstanding = ((headGone e s).slab x).outstanding := by
  rw [depart_eq, waitersReleased_slab]
  exact (departSlab_passedOn e s).outstanding x

/-- No slab becomes FULL: the Drain Queue and the streams stand, and the SYNCs reply (R95, R151). -/
theorem depart_stays (h : ∀ sl i, ¬ fillsUp e sl i s) :
    (depart e (retireHead e s)).drainQueue = s.drainQueue ∧ (depart e (retireHead e s)).streams = s.streams ∧
      ∀ p, (depart e (retireHead e s)).port p = (syncReplies e s s).port p := by
  rw [depart_eq, departSlab_stays h]
  refine ⟨?_, ?_, waitersReleased_port (by rw [headGone_management]) (headGone_port e s)⟩
  · rw [waitersReleased_rest]
    exact headGone_drainQueue e s
  · rw [waitersReleased_rest]
    exact headGone_streams e s

/-! ### The departure that makes a slab FULL (R92, R95 to R97) -/

variable {sl : SlabId} {i : StreamId} {o : PendingOp} {size : Nat} {waiting : List SlabId}

theorem depart_fills (h : fillsUp e sl i s) (hgang : (s.stream i).gang = none) :
    depart e (retireHead e s) = waitersReleased e.number (flushProgress i sl (madeFull e sl i s)) := by
  rw [depart_eq, departSlab_fills h hgang]

theorem depart_full (h : fillsUp e sl i s) (hgang : (s.stream i).gang = none) :
    (depart e (retireHead e s)).drainQueue = s.drainQueue ++ [.single sl] ∧
      (depart e (retireHead e s)).slab sl =
        { s.slab sl with state := .full, outstanding := 0, holder := some .singleEntry } := by
  obtain ⟨hslabs, hqueue⟩ := flushProgress_same i sl (madeFull e sl i s)
  rw [depart_fills h hgang, waitersReleased_slab, State.slab, hslabs]
  refine ⟨?_, madeFull_slab h⟩
  rw [waitersReleased_rest]
  exact hqueue.trans madeFull_drainQueue

/-- No FLUSH waits for the slab (R92). -/
theorem depart_notWaiting (h : fillsUp e sl i s) (hgang : (s.stream i).gang = none)
    (hwait : ∀ o size waiting, streamOp i s = some o → o.detail = .flush size waiting → sl ∉ waiting) :
    (depart e (retireHead e s)).streams = s.streams ∧ ∀ p, (depart e (retireHead e s)).port p =
      (syncReplies e s (conversionRaised i (s.slab sl) sl s)).port p := by
  rw [depart_fills h hgang, flushProgress_notWaiting (by rw [madeFull_streamOp]; exact hwait)]
  refine ⟨?_, waitersReleased_port (by rw [madeFull_management]) (madeFull_port h)⟩
  rw [waitersReleased_rest]
  exact madeFull_streams

section
variable (h : fillsUp e sl i s) (hgang : (s.stream i).gang = none) (ho : streamOp i s = some o)
  (hd : o.detail = .flush size waiting) (hsl : sl ∈ waiting)
  (hsync : ∀ x ∈ s.management.ops, x.slot = o.slot → x.detail ≠ .sync e.number)
include h hgang ho hd hsl hsync

/-- The FLUSH that waited for this slab alone completes with its REPLY (R92). -/
theorem depart_completesFlush (hlast : waiting.erase sl = []) :
    ((depart e (retireHead e s)).stream i).pendingOp = none ∧ findOp o.slot (depart e (retireHead e s)) = none ∧
      ∀ p, (depart e (retireHead e s)).port p =
        (syncReplies e s (if o.discard = true then conversionRaised i (s.slab sl) sl s
          else pushReply o.port (replySegment o.tag 0x16 .done [BitVec.ofNat 8 size])
            (conversionRaised i (s.slab sl) sl s))).port p := by
  have hops : (completeFlush i o size (madeFull e sl i s)).management.ops =
      s.management.ops.filter fun x => x.slot != o.slot := by
    rw [completeFlush_ops, madeFull_management]
  have hreleased : ∀ x ∈ (completeFlush i o size (madeFull e sl i s)).management.ops, x.slot ≠ o.slot := by
    rw [hops]
    intro x hx
    simpa using (List.mem_filter.1 hx).2
  rw [depart_fills h hgang, flushProgress_last (madeFull_streamOp.trans ho) hd hsl hlast]
  refine ⟨?_, ?_, waitersReleased_port ?_ (completeFlush_port (madeFull_port h))⟩
  · rw [waitersReleased_stream, completeFlush_pendingOp]
  · rw [findOp_waitersReleased fun x hx e => absurd e (hreleased x hx)]
    exact List.find?_eq_none.2 fun x hx => by simpa using hreleased x hx
  · rw [hops, syncsOf_released hsync]

/-- The FLUSH that waited for other slabs too waits for these alone (R92). -/
theorem depart_keepsFlush (hmore : waiting.erase sl ≠ []) :
    (depart e (retireHead e s)).stream i = s.stream i ∧
      findOp o.slot (depart e (retireHead e s)) = some (o.waitsFor size (waiting.erase sl)) ∧
      ∀ p, (depart e (retireHead e s)).port p =
        (syncReplies e s (conversionRaised i (s.slab sl) sl s)).port p := by
  have hop : streamOp i (madeFull e sl i s) = some o := madeFull_streamOp.trans ho
  have hfound : findOp o.slot (madeFull e sl i s) = some o := by
    obtain ⟨k, -, hk⟩ := Option.bind_eq_some_iff.1 hop
    rwa [findOp_slot hk]
  have hops : (modOp o.slot (.waitsFor size (waiting.erase sl)) (madeFull e sl i s)).management.ops =
      s.management.ops.map fun x => if x.slot = o.slot then x.waitsFor size (waiting.erase sl) else x := by
    rw [← madeFull_management (e := e) (sl := sl) (i := i) (s := s)]
    rfl
  have hchanged : ∀ x ∈ (modOp o.slot (.waitsFor size (waiting.erase sl)) (madeFull e sl i s)).management.ops,
      x.slot = o.slot → x.detail ≠ .sync e.number := by
    rw [hops]
    intro x hx hk
    obtain ⟨y, -, rfl⟩ := List.mem_map.1 hx
    split at hk
    · next hy => rw [if_pos hy]; nofun
    · next hy => exact absurd hk hy
  rw [depart_fills h hgang, flushProgress_more hop hd hsl hmore]
  refine ⟨?_, ?_, waitersReleased_port ?_ fun q => ?_⟩
  · rw [waitersReleased_stream]
    exact congrArg (fun t => Table.get t i) madeFull_streams
  · rw [findOp_waitersReleased hchanged]
    exact findOp_modOp (fun _ => rfl) hfound
  · rw [hops, syncsOf_changed (fun _ => by nofun) hsync]
  · rw [← madeFull_port h]
    cases q <;> rfl

end

end

end Sys2Proof.Machine

open Sys2Proof Sys2Proof.Machine

/-- Settles O33: the departure's frame by `depart_rest`, the slab's passage to FULL by what the FLUSH of its stream
waits for. -/
theorem writeCompletes : Obligations.WriteCompletes := by
  intro s e rest hq hg
  obtain ⟨t, ht⟩ : ∃ t, t = depart e (retireHead e s) := ⟨_, rfl⟩
  have hframe := depart_rest ht
  refine ⟨t, (exec_writeCompletion hq hg).trans (congrArg Host.Outcome.next ht.symm), fun k => ?self,
    fun a ha => ?other, ?controller, fun sl hsl => ?counted, fun sl hsl => ?uncounted, fun c => ?reads,
    fun o ho => ?syncs, ?fill, ?routes, ?now, ?last, fun hstays => ht ▸ depart_stays hstays,
    fun sl i c hfills hgang hc => ?fills⟩
  case self =>
    rw [hframe]
    exact Memory.read_writeLine_self
  case other =>
    rw [hframe]
    exact Memory.read_writeLine_other ha
  case controller =>
    rw [hframe, hq]
    rfl
  case counted =>
    rw [ht, depart_outstanding, headGone, hsl, countedDown_slab]
    rfl
  case uncounted =>
    rw [ht, depart_outstanding, headGone, countedDown_slab_ne hsl]
    rfl
  case reads =>
    rw [hframe]
    exact congrArg Channel.read (Table.get_map ..)
  case syncs => exact waitersReleased_noSync (ht ▸ ho)
  case fill => rw [hframe]
  case routes => rw [hframe]
  case now => rw [hframe]
  case last => rw [hframe]
  case fills =>
    obtain ⟨hqueue, hslab⟩ := depart_full hfills hgang
    rw [ht, hc]
    refine ⟨hqueue, hslab, depart_notWaiting hfills hgang, fun o size waiting ho hd hsl hone => ?_⟩
    have hsync : ∀ x ∈ s.management.ops, x.slot = o.slot → x.detail ≠ .sync e.number := fun x hx hk => by
      rw [hone x hx hk, hd]
      nofun
    exact ⟨depart_completesFlush hfills hgang ho hd hsl hsync, depart_keepsFlush hfills hgang ho hd hsl hsync⟩
end

section
/-! SUPPORT. What the release of a gang's records leaves, beside the ports and the slabs that it changes (R108 to R110,
R114). -/

namespace Sys2Proof.Machine

section

variable {g k : GangId} {r : GangRecord} {l m later : List GangRecord} {s : State}

/-! ### The release of one record -/

/-- A notice raised changes the ports alone (R189, R190). -/
theorem raise_rest (n : Notice) (s : State) : ∃ a b, raise n s = { s with portA := a, portB := b } := by
  refine raise_keeps (P := fun t => ∃ a b, t = { s with portA := a, portB := b }) ?_ ⟨s.portA, s.portB, rfl⟩
  rintro p n t ⟨a, b, rfl⟩
  cases p <;> exact ⟨_, _, rfl⟩

/-- A release appends the record's entry to the Drain Queue, takes the record from its gang, and changes ports and slabs;
nothing else (R110). -/
theorem recordReleased_rest (g : GangId) (r : GangRecord) (later : List GangRecord) (s : State) :
    ∃ a b slabs, recordReleased g r later s = { s with
      portA := a, portB := b, slabs := slabs, drainQueue := s.drainQueue ++ [.gang (releaseEntry g r s)]
      gangs := s.gangs.set g { s.gang g with released := some r.epoch, records := later } } := by
  unfold recordReleased
  rw [modSlabs_eq]
  dsimp only
  split
  · exact ⟨_, _, _, rfl⟩
  · obtain ⟨a, b, e⟩ := raise_rest (partialNotice g r) _
    exact ⟨a, b, _, e⟩

theorem recordReleased_gang_ne (h : g ≠ k) : (recordReleased g r later s).gang k = s.gang k := by
  obtain ⟨a, b, slabs, e⟩ := recordReleased_rest g r later s
  rw [e]
  exact Table.get_set_ne _ h _

/-! ### The release of several records -/

/-- Releases append the records' entries, oldest first, take the records from their gang, and change ports and slabs; nothing
else (R109, R110, R114). -/
theorem releasedAll_rest (g : GangId) (later : List GangRecord) : ∀ (l : List GangRecord) (s : State),
    ∃ a b slabs e records, releasedAll g l later s = { s with
      portA := a, portB := b, slabs := slabs
      drainQueue := s.drainQueue ++ l.map fun x => .gang (releaseEntry g x s)
      gangs := s.gangs.set g { s.gang g with released := e, records := records } }
  | [], s => ⟨s.portA, s.portB, s.slabs, (s.gang g).released, (s.gang g).records, by
      simp only [releasedAll, List.map_nil, List.append_nil]
      exact congrArg (fun t => { s with gangs := t }) (Table.set_get s.gangs g).symm⟩
  | r :: l, s => by
    obtain ⟨a, b, slabs, hone⟩ := recordReleased_rest g r (l ++ later) s
    obtain ⟨a', b', slabs', e, records, hmany⟩ := releasedAll_rest g later l (recordReleased g r (l ++ later) s)
    refine ⟨a', b', slabs', e, records, ?_⟩
    rw [releasedAll, hmany, hone]
    simp only [releaseEntry, State.gang, State.stream, Table.get_set_self, Table.set_set, List.map_cons, List.append_assoc,
      List.singleton_append]

/-- The gang has the records that stay (R108 to R110). -/
theorem releasedAll_records : ∀ {l : List GangRecord} {s : State}, (s.gang g).records = l ++ later →
    ((releasedAll g l later s).gang g).records = later
  | [], _, h => h
  | r :: l, s, _ => by
    rw [releasedAll]
    exact releasedAll_records (congrArg Gang.records (recordReleased_gang ..))

/-- Records released one by one are those of a first list and then those of a second. -/
theorem releasedAll_append : ∀ {l : List GangRecord} {s : State},
    releasedAll g (l ++ m) later s = releasedAll g m later (releasedAll g l (m ++ later) s)
  | [], _ => rfl
  | r :: l, s => by
    rw [List.cons_append, releasedAll, releasedAll_append, releasedAll, List.append_assoc]

end

end Sys2Proof.Machine
end

section
/-! PROOF. The bound of four pending records of a gang: every step keeps it (06_gangs_and_epoch_alignment.md R101, R107). -/

namespace Sys2Proof.Machine

/-! ### The updates of a gang's records -/

/-- The bound speaks of the gangs alone. -/
theorem recordLaw_congr {s t : State} (hg : t.gangs = s.gangs) (h : recordLaw s) : recordLaw t := by
  unfold recordLaw State.gang at h ⊢
  rw [hg]
  exact h

theorem recordLaw_setGang {g : GangId} {v : Gang} {s : State} (hv : v.records.length ≤ Config.recordDepth)
    (h : ∀ k, k ≠ g → (s.gang k).records.length ≤ Config.recordDepth) : recordLaw (s.setGang g v) := by
  intro k
  by_cases e : g = k
  · subst e
    rw [State.setGang_gang]
    exact hv
  · rw [State.setGang_gang_ne _ _ e]
    exact h k (Ne.symm e)

/-- The release of a gang's oldest record brings it within the bound from one record above (R107, R110). -/
theorem recordLaw_releaseOldest {g : GangId} {s : State} (hg : (s.gang g).records.length ≤ Config.recordDepth + 1)
    (h : ∀ k, k ≠ g → (s.gang k).records.length ≤ Config.recordDepth) : recordLaw (releaseOldest g s) := by
  intro k
  cases hr : (s.gang g).records with
  | nil =>
    have hs : releaseOldest g s = s := by rw [releaseOldest, hr]
    rw [hs]
    by_cases e : k = g
    · rw [e, hr]
      exact Nat.zero_le _
    · exact h k e
  | cons r later =>
    rw [releaseOldest_eq hr]
    by_cases e : g = k
    · subst e
      rw [recordReleased_gang]
      rw [hr] at hg
      exact Nat.le_of_succ_le_succ hg
    · rw [recordReleased_gang_ne e]
      exact h k (Ne.symm e)

/-- The completion test only releases records (R108). -/
theorem recordLaw_completionTest {g : GangId} {s : State} (h : recordLaw s) : recordLaw (completionTest g s) :=
  completionLoop_keeps (fun h => recordLaw_releaseOldest (Nat.le_succ_of_le (h _)) fun k _ => h k) _ h

theorem insertRecord_length (r : GangRecord) : ∀ l : List GangRecord, (insertRecord r l).length = l.length + 1
  | [] => rfl
  | x :: l => by
    rw [insertRecord]
    split
    · rfl
    · rw [List.length_cons, insertRecord_length r l, List.length_cons]

/-- A fifth record is there only until the oldest is released for it, in the same step (R107). -/
theorem recordLaw_createRecord {g : GangId} {k : Nat} {sl : SlabId} {e : Epoch} {s : State} (h : recordLaw s) :
    recordLaw (createRecord g k sl e s) := by
  unfold createRecord
  dsimp only
  split
  · refine recordLaw_completionTest (recordLaw_releaseOldest ?_ fun k hk => ?_)
    · rw [State.setGang_gang, insertRecord_length]
      exact Nat.succ_le_succ (h g)
    · rw [State.setGang_gang_ne _ _ (Ne.symm hk)]
      exact h k
  · next hfits =>
    rw [State.setGang_gang] at hfits
    exact recordLaw_setGang (Nat.le_of_not_lt hfits) fun k _ => h k

/-! ### The operations that leave the records of every gang -/

theorem recordLaw_offer {p : Port} {n : Notice} {s : State} (h : recordLaw s) : recordLaw (offerNotice p n s) :=
  recordLaw_congr (offerNotice_gangs ..) h

theorem recordLaw_reply {p : Port} {seg : Segment} {s : State} (h : recordLaw s) : recordLaw (pushReply p seg s) :=
  recordLaw_congr (pushReply_gangs ..) h

theorem recordLaw_modSlabs {f : Slab → Slab} {l : List SlabId} {s : State} (h : recordLaw s) :
    recordLaw (modSlabs f l s) := modSlabs_keeps (fun h => h) h

/-- The completion of an UNBIND returns its ring and answers (R19, R20). -/
theorem recordLaw_completeUnbind {i : StreamId} {o : PendingOp} {forced : Bool} {n : Nat} {cut : Option Epoch} {s : State}
    (h : recordLaw s) : recordLaw (completeUnbind i o forced n cut s) := by
  have returned : recordLaw { modSlabs Slab.freed (s.stream i).ring s with
      freeList := (modSlabs Slab.freed (s.stream i).ring s).freeList ++ (s.stream i).ring } := recordLaw_modSlabs h
  unfold completeUnbind
  dsimp only
  split
  · exact raise_keeps recordLaw_offer (lateReply_keeps recordLaw_reply returned)
  · exact lateReply_keeps recordLaw_reply returned

/-! ### Every command -/

/-- The shared operations keep the bound. -/
theorem recordLaw_closed : Closed recordLaw where
  offer := recordLaw_offer
  reply := recordLaw_reply
  stream _ _ h := h
  slab h := h
  channel h := h
  gang hv h := recordLaw_setGang (hv.trans (h _)) fun k _ => h k
  create := recordLaw_createRecord
  unbind := recordLaw_completeUnbind
  drain h := h
  fill h := h
  ops h := h

theorem recordLaw_mapGangs {f : Gang → Gang} {s : State} (hf : ∀ v : Gang, (f v).records.length = v.records.length)
    (h : recordLaw s) : recordLaw { s with gangs := s.gangs.map f } := by
  intro g
  have hg : State.gang { s with gangs := s.gangs.map f } g = f (s.gang g) := Table.get_map ..
  rw [hg, hf]
  exact h g

/-- Blank gangs have no records. -/
theorem recordLaw_blank {s : State} (hg : s.gangs = Table.replicate 16 .blank) : recordLaw s := by
  intro g
  rw [State.gang, hg, Table.get_replicate]
  exact Nat.zero_le _

/-- A DOWN event leaves the gangs (R156). -/
theorem goDown_gangs (p : Port) (s : State) : (goDown p s).gangs = s.gangs := by
  obtain ⟨ops, -, e⟩ := goDown_rest p s
  rw [e]

/-- Every command keeps the bound. -/
theorem recordLaw_kept : Kept recordLaw where
  toClosed := recordLaw_closed
  enqueue h := enqueue_keeps (fun h => h) (fun _ h => h) h
  time h := h
  port _ h := recordLaw_congr (State.setPort_gangs ..) h
  up _ h := recordLaw_congr (State.setPort_gangs ..) h
  down _ h := recordLaw_congr (goDown_gangs ..) h
  mgmt _ h := h
  hold {p n s} _ h := recordLaw_congr (t := holdClaim p n (takeRequest p s)) (by cases p <;> rfl) h
  streams _ h := h
  slabs h := h
  gangs hf h := recordLaw_mapGangs hf h
  channels h := h
  routes h := h
  turn h := h
  control _ _ _ h := h
  bind _ _ h := recordLaw_modSlabs h
  clear _ := recordLaw_blank (by unfold clearAll; with_reducible rfl)
  cold _ := recordLaw_blank (by unfold State.reset; with_reducible rfl)

end Sys2Proof.Machine

open Sys2Proof Sys2Proof.Machine

/-- Settles O8: of the updates that commands are made of, only the creation of a record adds one, and a fifth forces the
oldest out. -/
theorem recordLawKept : Obligations.RecordLawKept := fun _ _ h hstep =>
  recordLaw_kept.step (fun h => h) (fun h => h) (fun h => h) h _ hstep
end

section
/-! PROOF. The expiry of an align timer (06_gangs_and_epoch_alignment.md R108 to R110). -/

namespace Sys2Proof.Machine

/-- No epoch is newer than itself (R2). -/
theorem newer_self (e : Epoch) : newer e e = false := by
  rw [newer_eq_false_iff]
  omega

section

variable {v : Gang} {r : GangRecord} {older back : List GangRecord}

/-- The expired timer is that of the record, whose epoch no older record has. -/
theorem recordTimer_eq (hv : v.records = older ++ r :: back) (h : ∀ x, x ∈ older → x.epoch ≠ r.epoch) :
    recordTimer v r.epoch = r.timer := by
  have hfind : v.records.find? (fun x => x.epoch == r.epoch) = some r := by
    rw [hv, List.find?_append, List.find?_eq_none.2 fun x hx => by simpa using h x hx, Option.none_or]
    exact List.find?_cons_of_pos (beq_self_eq_true _)
  rw [recordTimer, hfind]
  rfl

/-- The records not newer than one of them are those before it and itself, when those behind it are newer (R109). -/
theorem notNewerRecords_eq (hv : v.records = older ++ r :: back) (ho : ∀ x, x ∈ older → newer x.epoch r.epoch = false)
    (hb : ∀ x, x ∈ back → newer x.epoch r.epoch = true) : notNewerRecords v r.epoch = older ++ [r] := by
  have hold : older.filter (fun x => !newer x.epoch r.epoch) = older :=
    List.filter_eq_self.2 fun x hx => by rw [ho x hx]; rfl
  have hback : back.filter (fun x => !newer x.epoch r.epoch) = [] :=
    List.filter_eq_nil_iff.2 fun x hx => by rw [hb x hx]; exact Bool.false_ne_true
  rw [notNewerRecords, hv, List.filter_append, List.filter_cons_of_pos (by rw [newer_self]; rfl), hold, hback]

end

/-- While dispatch is not halted, the expiry releases the records not newer than its own and makes the completion test
(R109). -/
theorem exec_alignTimerExpiry {g : GangId} {e : Epoch} {d : Nat} {s : State} (ht : recordTimer (s.gang g) e = some d)
    (hrun : s.management.warmReset = none) : exec (.alignTimerExpiry g e) s =
      .next (completionTest g (releaseMany g (notNewerRecords (s.gang g) e).length (s.reach d))) := by
  have hgo : s.halted = false := by rw [State.halted, hrun]; rfl
  show execAlignTimerExpiry g e s = _
  rw [execAlignTimerExpiry, ht]
  dsimp only
  rw [hgo]
  rfl

end Sys2Proof.Machine

open Sys2Proof Sys2Proof.Machine

/-- Settles O26: the records up to the expired one are released, and then those of the completion test. -/
theorem alignTimerReleases : Obligations.AlignTimerReleases := by
  intro g older done later r d s hrec htimer hrun holder hnewer hthrough
  have hback : ∀ x, x ∈ done ++ later → newer x.epoch r.epoch = true := fun x hx => hnewer x (List.mem_append.1 hx)
  have hsplit : ((s.reach d).gang g).records = (older ++ [r]) ++ (done ++ later) := by
    rw [List.append_assoc]
    exact hrec
  rw [exec_alignTimerExpiry ((recordTimer_eq hrec fun x hx => (holder x hx).1).trans htimer) hrun,
    notNewerRecords_eq hrec (fun x hx => (holder x hx).2) hback, releaseMany_eq hsplit,
    completionTest_eq (releasedAll_records hsplit) hthrough, ← releasedAll_append, List.append_assoc]
  rfl
end

section
/-! PROOF. FORM GANG and DISSOLVE GANG (06_gangs_and_epoch_alignment.md R102, R103, R110, R114). -/

namespace Sys2Proof.Machine

/-! ### The gang fields of streams (R103, R114) -/

/-- Gang fields set one by one change the streams alone. -/
theorem setGangField_rest (o : Option GangId) : ∀ (l : List StreamId) (s : State),
    setGangField o l s = { s with streams := (setGangField o l s).streams }
  | [], _ => rfl
  | i :: l, s => setGangField_rest o l (s.modStream i fun e => { e with gang := o })

/-- The members have the gang field, and the other streams are as they were. -/
theorem setGangField_stream (o : Option GangId) (i : StreamId) : ∀ (l : List StreamId) (s : State),
    (setGangField o l s).stream i = if i ∈ l then { s.stream i with gang := o } else s.stream i
  | [], _ => rfl
  | k :: l, s => by
    refine (setGangField_stream o i l (s.modStream k fun e => { e with gang := o })).trans ?_
    by_cases e : k = i
    · subst e
      rw [State.modStream, State.setStream_stream, if_pos List.mem_cons_self]
      exact ite_self _
    · rw [State.modStream, State.setStream_stream_ne _ _ e]
      simp only [List.mem_cons, Ne.symm e, false_or]

/-! ### FORM GANG, by its cases (R102, R103) -/

section

variable {q : GangRequest} {r : Request} {s : State} {i : StreamId}

theorem formGang_badParam (h : gangRequestOf r.payload = none) : formGang r s = refuse r .formGang .badParam s := by
  rw [formGang, h]

theorem formGang_formed (h : gangRequestOf r.payload = some q) (hg : (s.gang q.gang).state = .formed) :
    formGang r s = refuse r .formGang .badState s := by
  rw [formGang, h]
  exact if_pos hg

theorem formGang_free (h : gangRequestOf r.payload = some q) (hg : (s.gang q.gang).state = .free) :
    formGang r s = formChecked q r s := by
  rw [formGang, h]
  exact if_neg (by rw [hg]; nofun)

/-- Check 3 fails for the first member that is neither ACTIVE nor PAUSED. -/
theorem firstUnbound_eq (s : State) (l : List StreamId) : firstUnbound s l =
    l.find? fun i => (s.stream i).state != .active && (s.stream i).state != .paused := by
  have hbound : ∀ v : StreamState, (!isBound v) = (v != .active && v != .paused) := fun v => by cases v <;> rfl
  rw [firstUnbound]
  simp only [hbound]

theorem firstUnbound_eq_none {l : List StreamId}
    (h : ∀ i, i ∈ l → (s.stream i).state = .active ∨ (s.stream i).state = .paused) : firstUnbound s l = none := by
  refine List.find?_eq_none.2 fun i hi => ?_
  rcases h i hi with hs | hs <;> rw [hs] <;> exact Bool.false_ne_true

theorem firstGanged_eq_none {l : List StreamId} (h : ∀ i, i ∈ l → (s.stream i).gang = none) : firstGanged s l = none :=
  List.find?_eq_none.2 fun i hi => by rw [h i hi]; exact Bool.false_ne_true

theorem formChecked_unbound (h : firstUnbound s q.members = some i) :
    formChecked q r s = refuseMember .badState i r s := by
  rw [formChecked, h]

theorem formChecked_inGang (hu : firstUnbound s q.members = none) (h : firstGanged s q.members = some i) :
    formChecked q r s = refuseMember .inGang i r s := by
  rw [formChecked, hu, h]

theorem formChecked_taken (hu : firstUnbound s q.members = none) (hg : firstGanged s q.members = none) :
    formChecked q r s = answer r .formGang .done [] (takeGang q s) := by
  rw [formChecked, hu, hg]

end

/-! ### DISSOLVE GANG (R114) -/

section

variable {k : RequestKind} {own : GangId → Request → State → State} {r : Request} {g : GangId} {s : State}

theorem onGang_badNumber (h : 15 < field r.payload 1 1) : onGang k own r s = refuse r k .badParam s := by
  rw [onGang, gangOfNat_none h]

theorem onGang_gang (h : field r.payload 1 1 = g.val) : onGang k own r s = own g r s := by
  rw [onGang, gangOfNat_eq h]

theorem dissolveGang_free (h : (s.gang g).state = .free) : dissolveGang g r s = refuse r .dissolveGang .badState s :=
  if_neg (by rw [h]; nofun)

theorem dissolveGang_formed (h : (s.gang g).state = .formed) : dissolveGang g r s =
    answer r .dissolveGang .done [BitVec.ofNat 8 (s.gang g).records.length] (dissolve g s) := if_pos h

/-- A gang dissolved: every pending record released, oldest first, the members out of the gang, its record FREE. -/
theorem dissolve_eq (g : GangId) (s : State) : dissolve g s =
    (setGangField none (s.gang g).members (releasedAll g (s.gang g).records [] s)).setGang g .blank := by
  obtain ⟨a, b, slabs, e, records, hrest⟩ := releasedAll_rest g [] (s.gang g).records s
  have hgang : (releasedAll g (s.gang g).records [] s).gang g = { s.gang g with released := e, records := records } := by
    rw [hrest]
    exact Table.get_set_self ..
  rw [dissolve, releaseMany_eq (List.append_nil _).symm, hgang]

/-- Beside ports, slabs and streams, a dissolution changes the gang's record, and the Drain Queue has an entry for each
pending record (R110). -/
theorem dissolve_rest (g : GangId) (s : State) : ∃ a b slabs streams, dissolve g s = { s with
      portA := a, portB := b, slabs := slabs, streams := streams
      drainQueue := s.drainQueue ++ (s.gang g).records.map fun x => .gang (releaseEntry g x s)
      gangs := s.gangs.set g .blank } := by
  obtain ⟨a, b, slabs, e, records, hrest⟩ := releasedAll_rest g [] (s.gang g).records s
  refine ⟨a, b, slabs, (dissolve g s).streams, ?_⟩
  rw [dissolve_eq, setGangField_rest, State.setGang, hrest]
  simp only [Table.set_set]

/-- The members are out of the gang; nothing else of a stream changes. -/
theorem dissolve_stream (g : GangId) (s : State) (i : StreamId) : (dissolve g s).stream i =
    if i ∈ (s.gang g).members then { s.stream i with gang := none } else s.stream i := by
  obtain ⟨a, b, slabs, e, records, hrest⟩ := releasedAll_rest g [] (s.gang g).records s
  have hreleased : (releasedAll g (s.gang g).records [] s).stream i = s.stream i := by
    rw [hrest]
    rfl
  rw [dissolve_eq, State.setGang_stream_of, setGangField_stream, hreleased]

end

/-- The entry of a record released is the same whether or not the request's slot has been freed (R110, R162). -/
theorem releaseEntry_takeRequest (g : GangId) (x : GangRecord) (p : Port) (s : State) :
    releaseEntry g x (takeRequest p s) = releaseEntry g x s := by
  unfold releaseEntry
  simp only [takeRequest_gang, takeRequest_stream]

theorem takeRequest_drainQueue (p : Port) (s : State) : (takeRequest p s).drainQueue = s.drainQueue := by
  cases p <;> rfl

theorem takeRequest_memory (p : Port) (s : State) : (takeRequest p s).memory = s.memory := by
  cases p <;> rfl

end Sys2Proof.Machine

open Sys2Proof Sys2Proof.Machine

/-- Settles O57: FORM GANG by its first check that fails, DISSOLVE GANG by what its releases leave. -/
theorem gangRequests : Obligations.GangRequests := by
  rintro p s u r rfl
  refine ⟨fun hasks => ?form, fun hasks => ?dissolve⟩
  case form =>
    obtain rfl := asks_port hasks
    have hexec : exec (.formGang r.port) s = .next (formGang r (takeRequest r.port s)) :=
      congrArg Host.Outcome.next (serve_asks hasks)
    have hstream := takeRequest_stream r.port s
    rw [hexec]
    refine ⟨fun hbad => by rw [formGang_badParam hbad]; rfl, fun q hq => ⟨fun hformed => ?formed, fun hfree => ?free⟩⟩
    case formed => rw [formGang_formed hq (by rw [takeRequest_gang]; exact hformed)]; rfl
    case free =>
      rw [formGang_free hq (by rw [takeRequest_gang]; exact hfree)]
      refine ⟨fun i hi => ?unbound, fun hbound => ?_⟩
      case unbound => rw [formChecked_unbound (by simpa only [firstUnbound_eq, hstream] using hi)]; rfl
      have hu : firstUnbound (takeRequest r.port s) q.members = none :=
        firstUnbound_eq_none (by simpa only [hstream] using hbound)
      refine ⟨fun i hi => ?inGang, fun hnone => ?taken⟩
      case inGang => rw [formChecked_inGang hu (by simpa only [firstGanged, hstream] using hi)]; rfl
      case taken => rw [formChecked_taken hu (firstGanged_eq_none (by simpa only [hstream] using hnone))]; rfl
  case dissolve =>
    obtain rfl := asks_port hasks
    have hexec : exec (.dissolveGang r.port) s =
        .next (onGang .dissolveGang dissolveGang r (takeRequest r.port s)) :=
      congrArg Host.Outcome.next (serve_asks hasks)
    rw [hexec]
    refine ⟨fun hbad => by rw [onGang_badNumber hbad]; rfl, fun g hg => ?_⟩
    have hgang := takeRequest_gang r.port s g
    rw [onGang_gang hg]
    refine ⟨fun hfree => by rw [dissolveGang_free (by rw [hgang]; exact hfree)]; rfl, fun hformed => ?_⟩
    obtain ⟨a, b, slabs, streams, hrest⟩ := dissolve_rest g (takeRequest r.port s)
    refine ⟨dissolve g (takeRequest r.port s), ?answer, ?written, ?freed, fun k hk => ?others, fun i => ?streams, ?entries,
      ?memory, ?controller, ?management, ?fill⟩
    case answer => rw [dissolveGang_formed (by rw [hgang]; exact hformed), hgang]; rfl
    case written => rw [dissolve_eq, hgang]; rfl
    case freed => rw [dissolve_eq, State.setGang_gang]
    case others =>
      rw [hrest, ← takeRequest_gang r.port s k]
      exact Table.get_set_ne _ (Ne.symm hk) _
    case streams => rw [dissolve_stream, hgang, takeRequest_stream]
    case entries =>
      rw [hrest]
      simp only [releaseEntry_takeRequest, takeRequest_drainQueue, hgang]
      rfl
    case memory => rw [hrest]; exact takeRequest_memory ..
    case controller => rw [hrest]; exact takeRequest_controller ..
    case management => rw [hrest]
    case fill => rw [hrest]; exact takeRequest_fill ..
end

section
/-! PROOF. QUERY STREAM, QUERY SLABS and QUERY GANG (06_gangs_and_epoch_alignment.md R115; 10_in_band_management.md R182, R183,
R187). -/

namespace Sys2Proof.Machine

section

variable {k : RequestKind} {own : StreamId → Request → State → State} {r : Request} {p : Port} {s : State} {i : StreamId}
  {g : GangId}

/-! ### The number of a query's stream (R6, R182) -/

theorem askStream_badNumber (h : 63 < field r.payload 1 1) : askStream k own r s = refuse r k .badParam s := by
  rw [askStream, streamOf_none h]

theorem askStream_stream (h : field r.payload 1 1 = i.val) : askStream k own r s = own i r s := by
  rw [askStream, streamOf_eq h]

/-! ### The results (R115, R182, R183) -/

/-- An EMPTY stream, which has no definition, is reported with its state alone (R182). -/
theorem queryStreamResults_empty (hs : (s.stream i).state = .empty) (hd : (s.stream i).defn = none) :
    queryStreamResults s i = [0] := by
  rw [queryStreamResults]
  rw [hd, hs]
  rfl

/-- A FREE gang is reported with its state alone (R115). -/
theorem queryGangResults_free (h : (s.gang g).state = .free) : queryGangResults s g = [0] := by
  rw [queryGangResults]
  rw [h]
  rfl

theorem queryGangResults_takeRequest (p : Port) (s : State) (g : GangId) :
    queryGangResults (takeRequest p s) g = queryGangResults s g := by
  cases p <;> rfl

theorem queryStreamResults_takeRequest (p : Port) (s : State) (i : StreamId) :
    queryStreamResults (takeRequest p s) i = queryStreamResults s i := by
  cases p <;> rfl

theorem querySlabsResults_takeRequest (p : Port) (s : State) (i : StreamId) (first : Nat) :
    querySlabsResults (takeRequest p s) i first = querySlabsResults s i first := by
  cases p <;> rfl

/-- The first `n` reports of the ring are those that keep the payload within 1,024 bytes (R183). -/
theorem querySlabsResults_eq {first n : Nat} {reports : List (List Byte)}
    (hreports : reports = ((s.stream i).ring.drop first).map fun sl => slabLayout sl (s.slab sl)) (hn : n ≤ reports.length)
    (hfits : (reports.take n).flatten.length ≤ 1019)
    (hmore : n < reports.length → 1019 < (reports.take (n + 1)).flatten.length) :
    querySlabsResults s i first =
      [BitVec.ofNat 8 (s.stream i).ring.length, BitVec.ofNat 8 first, BitVec.ofNat 8 n] ++ (reports.take n).flatten := by
  have hroom : Config.payloadBytes - 5 = 1019 := rfl
  have hreport : slabReport s = fun sl => slabLayout sl (s.slab sl) := funext (slabReport_eq s)
  rw [querySlabsResults, hroom, hreport, ← hreports]
  rw [reportsWithin_eq hn hfits hmore, List.length_take_of_le hn]

/-! ### QUERY SLABS' own check (R183) -/

theorem querySlabs_answers (h : field r.payload 2 1 ≤ 15) : querySlabs i r s =
    answer r .querySlabs .done (querySlabsResults s i (field r.payload 2 1)) s := if_pos h

theorem querySlabs_badFirst (h : 15 < field r.payload 2 1) : querySlabs i r s = refuse r .querySlabs .badParam s :=
  if_neg (Nat.not_le.2 h)

/-- QUERY SLABS is refused for a stream number or a first position that is too great. -/
theorem askSlabs_badParam (h : 63 < field r.payload 1 1 ∨ 15 < field r.payload 2 1) :
    askStream .querySlabs querySlabs r s = refuse r .querySlabs .badParam s := by
  rw [askStream]
  split
  · rfl
  · next hi =>
    refine querySlabs_badFirst (h.resolve_left fun hbig => ?_)
    rw [streamOf_none hbig] at hi
    cases hi

/-! ### The commands -/

theorem exec_queryStream (h : asks p .queryStream r s) : exec (.queryStream p) s =
    .next (askStream .queryStream queryStream r (takeRequest p s)) := congrArg Host.Outcome.next (serve_asks h)

theorem exec_querySlabs (h : asks p .querySlabs r s) : exec (.querySlabs p) s =
    .next (askStream .querySlabs querySlabs r (takeRequest p s)) := congrArg Host.Outcome.next (serve_asks h)

theorem exec_queryGang (h : asks p .queryGang r s) : exec (.queryGang p) s =
    .next (onGang .queryGang queryGang r (takeRequest p s)) := congrArg Host.Outcome.next (serve_asks h)

end

end Sys2Proof.Machine

open Sys2Proof Sys2Proof.Machine

/-- Settles O47: each query's own rule, whose results the taking of the request leaves as they were, and the lengths of the
layouts. -/
theorem queriesAnswer : Obligations.QueriesAnswer := by
  refine ⟨?_, definitionLayout_length, walkLayout_length, slabLayout_length, recordLayout_length⟩
  rintro p s u r rfl
  refine ⟨fun hasks => ?stream, fun hasks => ?slabs, fun hasks => ?gang⟩
  case stream =>
    obtain rfl := asks_port hasks
    rw [exec_queryStream hasks]
    refine ⟨fun hbad => by rw [askStream_badNumber hbad]; rfl, fun i hi => ?_⟩
    rw [askStream_stream hi, queryStream, queryStreamResults_takeRequest]
    refine ⟨fun hs hd => by rw [queryStreamResults_empty hs hd]; rfl, fun d cur _ hd hcur => ?_⟩
    rw [queryStreamResults_eq hd hcur]
    rfl
  case slabs =>
    obtain rfl := asks_port hasks
    rw [exec_querySlabs hasks]
    refine ⟨fun hbad => by rw [askSlabs_badParam hbad]; rfl, fun i first n reports hi hfirst hle hreports => ?_⟩
    rw [askStream_stream hi, querySlabs_answers (by rw [hfirst]; exact hle), hfirst, querySlabsResults_takeRequest]
    refine ⟨fun hring => ?empty, fun hn hfits hmore => by rw [querySlabsResults_eq hreports hn hfits hmore]; rfl⟩
    case empty =>
      have hnone : reports = [] := by rw [hreports, hring, List.drop_nil, List.map_nil]
      subst hnone
      rw [querySlabsResults_eq (n := 0) hreports (Nat.zero_le _) (Nat.zero_le _) (fun h => absurd h (Nat.lt_irrefl 0)), hring]
      rfl
  case gang =>
    obtain rfl := asks_port hasks
    rw [exec_queryGang hasks]
    refine ⟨fun hbad => by rw [onGang_badNumber hbad]; rfl, fun g hg => ?_⟩
    rw [onGang_gang hg, queryGang, queryGangResults_takeRequest]
    refine ⟨fun hfree => by rw [queryGangResults_free hfree]; rfl, fun hformed => ?_⟩
    rw [queryGangResults_eq hformed]
    rfl
end

section
/-! PROOF. The sending of a channel's segment: Port B takes it and the channel goes on, and its completion frees the
transmitter (07_draining.md R123, R126, R127, R130, R133; 09_ports_and_segments.md R167 to R169). -/

namespace Sys2Proof.Machine

/-! ### Port B's choice (R126, R168, R169) -/

/-- A channel offers a segment when it is in WAITING SEND with one assembled (R126). -/
theorem offered_isSome (v : Channel) :
    v.offered.isSome = (decide (v.state = .waitingSend) && v.assembled.isSome) := by
  unfold Channel.offered
  split <;> simp [*]

theorem sendChannel_eq (s : State) : sendChannel s =
    [s.lastDataChannel + 1, s.lastDataChannel + 2, s.lastDataChannel + 3, s.lastDataChannel].find? fun k =>
      decide ((s.channel k).state = .waitingSend) && (s.channel k).assembled.isSome := by
  unfold sendChannel
  simp only [offered_isSome]
  rfl

/-- The channel that Port B takes from offers the segment it has assembled. -/
theorem offered_sendChannel {c : ChanId} {s : State} (h : sendChannel s = some c) :
    (s.channel c).offered = (s.channel c).assembled := by
  have hoffers := List.find?_some (p := fun k => (s.channel k).offered.isSome) h
  rw [offered_isSome, Bool.and_eq_true, decide_eq_true_iff] at hoffers
  exact if_pos hoffers.1

/-- With no CREDIT due, and no REPLY or NOTICE or no control credit for one, Port B takes from the channels (R168). -/
theorem sendChoice_drain {s : State} (hlink : s.portB.link = .up) (hfree : s.portB.sending = none)
    (hcredit : creditDue .b s = false)
    (hcontrol : (s.portB.replies = [] ∧ s.portB.notices = []) ∨ s.portB.partnerControl = 0)
    (hdata : 0 < s.portB.partnerData) (hoffer : (sendChannel s).isSome = true) : sendChoice .b s = some .drain := by
  have free : sendFree .b s = true := by simp [sendFree, State.port, hlink, hfree]
  have reply : sourceReady .b s .reply = false := by
    rcases hcontrol with ⟨hreplies, -⟩ | hnone
    · simp [sourceReady, State.port, hreplies]
    · simp [sourceReady, State.port, hnone]
  have notice : sourceReady .b s .notice = false := by
    rcases hcontrol with ⟨-, hnotices⟩ | hnone
    · simp [sourceReady, State.port, hnotices]
    · simp [sourceReady, State.port, hnone]
  have drain : sourceReady .b s .drain = true := by simp [sourceReady, State.port, hdata, hoffer]
  have credit : sourceReady .b s .credit = false := hcredit
  rw [sendChoice, if_pos free]
  simp only [List.find?_cons, credit, reply, notice, drain]

theorem exec_sendDrainSegment {c : ChanId} {seg : Segment} {s : State} (hchoice : sendChoice .b s = some .drain)
    (hchannel : sendChannel s = some c) (hseg : (s.channel c).assembled = some seg) :
    exec .sendDrainSegment s = .next (sendDrain c seg s) := by
  show execSendDrainSegment s = _
  simp only [execSendDrainSegment, hchoice, hchannel, offered_sendChannel hchannel, hseg]

/-! ### The channel goes on (R123, R126, R127) -/

/-- A channel whose segment the transmitter has taken (R126). -/
def Channel.sent (v : Channel) : Channel := { v with assembled := none, inTransmission := true }

/-- A channel at the start of the slab at position `k` of its entry (R123, R127). -/
def Channel.beginning (v : Channel) (k : Nat) : Channel :=
  { v with state := .assembling, markDue := false, current := some k, nextIndex := some 0 }

theorem Channel.beginning_eq {v : Channel} (h : v.markDue = false) (k : Nat) :
    v.beginning k = { v with state := .assembling, current := some k, nextIndex := some 0 } := by
  rw [beginning, ← h]

section

variable {c : ChanId} {seg : Segment} {s : State}

theorem beginSlab_eq (c : ChanId) (k : Nat) (s : State) :
    beginSlab c k s = requestRead c (s.setChannel c ((s.channel c).beginning k)) := rfl

theorem segmentTaken_mark (hmark : (s.channel c).markDue = true) :
    segmentTaken c seg s = requestRead c (s.setChannel c ((s.channel c).sent.beginning 0)) := by
  unfold segmentTaken State.modChannel
  dsimp only
  rw [State.setChannel_channel, if_pos hmark, beginSlab_eq, State.setChannel_channel, State.setChannel_setChannel]
  rfl

theorem segmentTaken_more (hmark : (s.channel c).markDue = false) (hmore : isLast seg = false) :
    segmentTaken c seg s = requestRead c (s.setChannel c { (s.channel c).sent with state := .assembling }) := by
  unfold segmentTaken State.modChannel
  dsimp only
  rw [State.setChannel_channel, if_neg (by simp [hmark]), if_neg (by simp [hmore]), State.setChannel_setChannel]
  rfl

/-! ### The end of a slab (R127) -/

/-- The state in which a slab that has been drained is EMPTY, and its frame is counted (R127). -/
def slabDrained (i : StreamId) (sl : SlabId) (s : State) : State :=
  emptySlab i sl (s.count i fun n => { n with epochsDrained := satAdd n.epochsDrained 1 })

theorem slabDrained_channel (i : StreamId) (sl : SlabId) (s : State) (c : ChanId) :
    (slabDrained i sl s).channel c = s.channel c := by
  rw [slabDrained, State.channel, ((PassedOn.refl _).emptySlab (i := i) (sl := sl)).rest]
  rfl

theorem emptyOwned_countDrained {sl : SlabId} {i : StreamId} (howner : s.owner sl = some i) :
    emptyOwned sl (countDrained sl s) = slabDrained i sl s := by
  simp only [countDrained, howner, emptyOwned, count_owner]
  rfl

/-- The LAST segment of a slab is taken: the channel goes on to the next slab of its entry, or becomes IDLE after the last
one. -/
theorem segmentTaken_last {e : DrainEntry} {k : Nat} {sl : SlabId} {i : StreamId} (hmark : (s.channel c).markDue = false)
    (hlast : isLast seg = true) (hentry : (s.channel c).entry = some e) (hcurrent : (s.channel c).current = some k)
    (hslab : e.slabs[k]? = some sl) (howner : s.owner sl = some i) :
    segmentTaken c seg s =
      let t := slabDrained i sl (s.setChannel c (s.channel c).sent)
      if k + 1 < e.slabs.length then requestRead c (t.setChannel c ((s.channel c).sent.beginning (k + 1)))
      else t.setChannel c { Channel.blank with inTransmission := true } := by
  have howner : (s.setChannel c (s.channel c).sent).owner sl = some i := howner
  have hentry : (s.channel c).sent.entry = some e := hentry
  have hcurrent : (s.channel c).sent.current = some k := hcurrent
  have hfinish : segmentTaken c seg s = finishSlab c (s.setChannel c (s.channel c).sent) := by
    unfold segmentTaken State.modChannel
    dsimp only
    rw [State.setChannel_channel, if_neg (by simp [hmark]), if_pos hlast]
    rfl
  rw [hfinish]
  simp only [finishSlab, State.setChannel_channel, hentry, hcurrent, hslab, emptyOwned_countDrained howner, beginSlab_eq,
    slabDrained_channel]
  rfl

end

/-! ### What slabs that come to rest leave (R19, R41, R60) -/

/-- `P` is kept by the updates that a slab's coming to rest is made of, with the completion of an UNBIND. -/
structure KeptAtRest (P : State → Prop) : Prop where
  offer : ∀ {p n s}, P s → P (offerNotice p n s)
  reply : ∀ {p seg s}, P s → P (pushReply p seg s)
  stream : ∀ {i v s}, P s → P (s.setStream i v)
  slab : ∀ {sl v s}, P s → P (s.setSlab sl v)
  free : ∀ {l s}, P s → P { s with freeList := l }
  release : ∀ {k s}, P s → P (releaseOp k s)

namespace KeptAtRest

variable {P : State → Prop} (h : KeptAtRest P)
include h

theorem completeUnbind {i o forced n cut s} (hs : P s) : P (completeUnbind i o forced n cut s) := by
  have released {l} : P (releaseOp o.slot
      (State.modStream { modSlabs Slab.freed (s.stream i).ring s with freeList := l } i Stream.unbound)) :=
    h.release (h.stream (h.free (modSlabs_keeps h.slab hs)))
  unfold Machine.completeUnbind
  dsimp only
  split
  · exact raise_keeps h.offer (lateReply_keeps h.reply released)
  · exact lateReply_keeps h.reply released

theorem unbindTest {i s} (hs : P s) : P (unbindTest i s) := by
  unfold Machine.unbindTest
  split
  · split
    · split
      · exact h.completeUnbind hs
      · exact hs
    · exact hs
  · exact hs

theorem emptyOwned {sl s} (hs : P s) : P (emptyOwned sl s) := by
  unfold Machine.emptyOwned
  split
  · rw [emptySlab_eq]
    exact h.unbindTest (h.stream (h.slab hs))
  · exact h.slab hs

theorem emptyOwneds (l : List SlabId) {s} (hs : P s) : P (l.foldl (fun acc sl => Machine.emptyOwned sl acc) s) :=
  fold_keeps (P := P) (fun _ _ hs => h.emptyOwned hs) l hs

end KeptAtRest

/-- From `s` to `t` the ports have got REPLYs and notices at most, and the rest of the state stands but for the streams, the
slabs, the free list and the Management Unit. -/
structure RestFrame (s t : State) : Prop where
  rest : t = { s with portA := t.portA, portB := t.portB, streams := t.streams, slabs := t.slabs, freeList := t.freeList
                      management := t.management }
  port : ∀ q, ∃ l n k, t.port q = { s.port q with replies := l, notices := n, lost := k }

namespace RestFrame

variable {s t : State}

theorem refl (s : State) : RestFrame s s :=
  ⟨rfl, fun q => ⟨(s.port q).replies, (s.port q).notices, (s.port q).lost, rfl⟩⟩

theorem offer (h : RestFrame s t) {p : Port} {n : Notice} : RestFrame s (offerNotice p n t) where
  rest := by cases p <;> (conv_lhs => rw [h.rest]) <;> rfl
  port q := by
    obtain ⟨l, _, _, he⟩ := h.port q
    obtain ⟨m, k, hoffered, -⟩ := offerNotice_port p n t q
    exact ⟨l, m, k, by rw [hoffered, he]⟩

theorem reply (h : RestFrame s t) {p : Port} {seg : Segment} : RestFrame s (pushReply p seg t) where
  rest := by cases p <;> (conv_lhs => rw [h.rest]) <;> rfl
  port q := by
    obtain ⟨_, n, k, he⟩ := h.port q
    obtain ⟨l, hpushed⟩ := pushReply_port p seg t q
    exact ⟨l, n, k, by rw [hpushed, he]⟩

/-- A change of the records, the free list or the Management Unit leaves the ports. -/
theorem records (h : RestFrame s t) {streams : Table 64 Stream} {slabs : Table 1024 Slab} {freeList : List SlabId}
    {management : Management} : RestFrame s { t with
      streams := streams, slabs := slabs, freeList := freeList, management := management } where
  rest := by conv_lhs => rw [h.rest]
  port
    | .a => h.port .a
    | .b => h.port .b

/-- A slab that comes to rest leaves the rest of the state, whatever operation completes by it. -/
theorem kept (s : State) : KeptAtRest (RestFrame s) where
  offer h := h.offer
  reply h := h.reply
  stream h := h.records
  slab h := h.records
  free h := h.records
  release h := h.records

end RestFrame

/-- The frame stands from before the change of a port's record as well, but for that port. -/
theorem RestFrame.rest_setPort {s t : State} {p : Port} {w : PortState} (h : RestFrame (s.setPort p w) t) :
    t = { s with portA := t.portA, portB := t.portB, streams := t.streams, slabs := t.slabs, freeList := t.freeList
                 management := t.management } :=
  h.rest.trans (by cases p <;> rfl)

/-! ### The end of a channel's transmission (R130, R133) -/

section

variable {c : ChanId} {s : State}

theorem transmissionEnded_goesOn (h : (s.channel c).state ≠ .aborting ∨ (s.channel c).read ≠ none) :
    transmissionEnded (some c) s = s.setChannel c { s.channel c with inTransmission := false } := by
  rw [transmissionEnded_eq, sendEnded]
  exact if_neg fun ⟨haborting, hread⟩ => h.elim (· haborting) (· hread)

/-- The abort of a channel without a read completes with its transmission. -/
theorem transmissionEnded_abortCompletes (hstate : (s.channel c).state = .aborting) (hread : (s.channel c).read = none) :
    transmissionEnded (some c) s =
      ((s.channel c).slabs.foldl (fun acc sl => emptyOwned sl acc) s).setChannel c .blank := by
  unfold transmissionEnded testAbort State.modChannel
  dsimp only
  rw [State.setChannel_channel, if_pos ⟨hstate, hread, rfl⟩, completeAbort_setChannel]
  rfl

end

theorem exec_sendCompletion {p : Port} {s v : State} {x : Transmission} (hsending : (s.port p).sending = some x)
    (hv : v = s.setPort p { s.port p with sending := none }) :
    exec (.sendCompletion p) s = .next (transmissionEnded x.source v) := by
  show execSendCompletion p s = _
  rw [execSendCompletion, hsending, hv]
  rfl

end Sys2Proof.Machine

open Sys2Proof Sys2Proof.Machine

/-- Settles O18: the choice by `sendChoice_drain` and `sendChannel_eq`, and each continuation of the channel by its lemma. -/
theorem sendDrainSegment : Obligations.SendDrainSegment := by
  intro c seg s u hlink hfree hcredit hcontrol hdata hchannel hseg hu
  rw [← sendChannel_eq] at hchannel
  have hchoice := sendChoice_drain hlink hfree hcredit hcontrol hdata (by rw [hchannel]; rfl)
  have htaken : sendDrain c seg s = segmentTaken c seg u := by rw [hu]; rfl
  have hchan : u.channel c = s.channel c := by rw [hu]; rfl
  have howned (sl : SlabId) : u.owner sl = s.owner sl := by rw [hu]; rfl
  rw [exec_sendDrainSegment hchoice hchannel hseg, htaken, ← hchan]
  refine ⟨fun hmark => ?mark, fun hmark hmore => ?more, fun e k sl i hmark hlast hentry hcurrent hslab hend howner => ?idle,
    fun e k sl i hmark hlast hentry hcurrent hslab hnext howner => ?next⟩
  case mark => exact congrArg Host.Outcome.next (segmentTaken_mark hmark)
  case more => exact congrArg Host.Outcome.next (segmentTaken_more hmark hmore)
  case idle =>
    rw [segmentTaken_last hmark hlast hentry hcurrent hslab ((howned sl).trans howner)]
    exact congrArg Host.Outcome.next (if_neg (by omega))
  case next =>
    rw [segmentTaken_last hmark hlast hentry hcurrent hslab ((howned sl).trans howner),
      Channel.beginning_eq (v := (u.channel c).sent) hmark]
    exact congrArg Host.Outcome.next (if_pos hnext)

/-- Settles O19: the transmission ends as `exec_sendCompletion` says; of an abort that completes by it, the slabs in the order
of log entry 25, `SlabsRested` says what the slabs and the counters are, and `RestFrame` what stands. -/
theorem sendCompletion : Obligations.SendCompletion := by
  intro p s v x hsending hv
  have hchan (c : ChanId) : v.channel c = s.channel c := by rw [hv, State.setPort_channel_of]
  rw [exec_sendCompletion hsending hv]
  refine ⟨fun hsource => ?noChannel, fun c hsource hgoesOn => ?goesOn, fun c hsource hstate hread => ?aborts⟩
  case noChannel => rw [hsource]; rfl
  case goesOn =>
    rw [← hchan] at hgoesOn
    rw [hsource, transmissionEnded_goesOn hgoesOn, hchan]
  case aborts =>
    rw [← hchan] at hstate hread
    have hended := transmissionEnded_abortCompletes hstate hread
    obtain ⟨rested, hunused⟩ := SlabsRested.emptyOwneds (v.channel c).slabs v
    have frame := (RestFrame.kept v).emptyOwneds (v.channel c).slabs (RestFrame.refl v)
    rw [hsource]
    refine ⟨_, rfl, transmissionEnded_eq c v, ?_⟩
    rw [hended]
    generalize (v.channel c).slabs.foldl (fun acc sl => emptyOwned sl acc) v = t at rested hunused frame
    have hrest := (hv ▸ frame).rest_setPort
    refine ⟨?sending, State.setChannel_channel .., fun k hk => ?channel, fun sl hsl => hunused sl (hchan c ▸ hsl),
      fun i => ?counters, fun q => ?port, (congrArg State.memory hrest :), (congrArg State.controller hrest :),
      (congrArg State.gangs hrest :), (congrArg State.drainQueue hrest :), (congrArg State.fill hrest :),
      (congrArg State.routes hrest :), (congrArg State.lastDataChannel hrest :), (congrArg State.now hrest :)⟩
    case sending =>
      obtain ⟨l, n, k, hport⟩ := frame.port p
      rw [State.setChannel_port_of, hport, hv, State.setPort_port]
    case channel =>
      rw [State.setChannel_channel_ne _ _ hk.symm]
      exact (congrArg (State.channel · k) hrest :)
    case counters =>
      refine (rested.counters i).trans ?_
      rw [hv, State.setPort_stream_of]
    case port =>
      rw [State.setChannel_port_of]
      exact frame.port q
end

section
/-! PROOF. The bounds of the refresh debt, the fairness count, the write queue and the notice queues, and the canonical form of
frame memory: every step keeps them; frame memory changes at two completions alone (08_frame_memory.md R138, R141, R144,
R145, R152; 11_notices_and_counters.md R190). -/

namespace Sys2Proof.Machine

/-! ### The bounds of the controller, and frame memory (R138, R144, R145) -/

/-- A controller whose write queue, debt and fairness count have grown from those of `c` no further than to their bounds. -/
structure Controller.Within (c d : Controller) : Prop where
  queue : d.queue.length ≤ max c.queue.length Config.writeQueueDepth
  debt : d.debt ≤ max c.debt Config.debtBound
  fairness : d.fairness ≤ max c.fairness Config.debtBound

theorem goDown_controller (p : Port) (s : State) : (goDown p s).controller = s.controller := by
  obtain ⟨ops, -, e⟩ := goDown_rest p s
  rw [e]

theorem goDown_memory (p : Port) (s : State) : (goDown p s).memory = s.memory := by
  obtain ⟨ops, -, e⟩ := goDown_rest p s
  rw [e]

section

variable {Q : List Host.Cell → Controller → Prop}

theorem stored_congr {s t : State} (hm : t.memory = s.memory) (hc : t.controller = s.controller)
    (h : Q s.memory s.controller) : Q t.memory t.controller := by
  rw [hm, hc]
  exact h

/-- The shared operations, but for the writes that they hand to the write queue, leave memory and the controller. -/
theorem stored_simple : Simple fun s => Q s.memory s.controller where
  offer h := stored_congr (offerNotice_memory ..) (offerNotice_controller ..) h
  reply h := stored_congr (pushReply_memory ..) (pushReply_controller ..) h
  stream h := h
  slab h := h
  channel h := h
  gang h := h
  free h := h
  drain h := h
  fill h := h
  ops h := h

/-- The commands, but for their writes of lines, leave memory and keep what controllers within the bounds keep; a cold reset
empties the queue and both counts. -/
theorem stored_kept (hQ : ∀ m c d, Controller.Within c d → Q m c → Q m d) : Kept fun s => Q s.memory s.controller where
  toClosed := stored_simple.closed
  enqueue h := enqueue_keeps (P := fun s => Q s.memory s.controller) (fun h => h)
    (fun hq h => hQ _ _ _ ⟨hq, le_max_left _ _, le_max_left _ _⟩ h) h
  time h := h
  port _ h := stored_congr (State.setPort_memory ..) (State.setPort_controller ..) h
  up _ h := stored_congr (State.setPort_memory ..) (State.setPort_controller ..) h
  down _ h := stored_congr (goDown_memory ..) (goDown_controller ..) h
  mgmt _ h := h
  hold {p n s} _ h := stored_congr (t := holdClaim p n (takeRequest p s)) (takeRequest_memory p s)
    (takeRequest_controller p s) h
  streams _ h := h
  slabs h := h
  gangs _ h := h
  channels h := h
  routes h := h
  turn h := h
  control hq hd hf h := hQ _ _ _ ⟨le_max_of_le_left hq, hd, hf⟩ h
  bind _ _ h := modSlabs_keeps (P := fun s => Q s.memory s.controller) (fun h => h) h
  clear {s} h := hQ _ s.controller _ ⟨le_max_left _ _, le_max_left _ _, le_max_left _ _⟩ h
  cold h := hQ _ _ .start ⟨Nat.zero_le _, Nat.zero_le _, Nat.zero_le _⟩ h

end

theorem debtLaw_kept : Kept debtLaw :=
  stored_kept (Q := fun _ c => c.debt ≤ Config.debtBound ∧ c.fairness ≤ Config.debtBound)
    fun _ _ _ h ⟨hdebt, hfairness⟩ => ⟨h.debt.trans (max_le hdebt le_rfl), h.fairness.trans (max_le hfairness le_rfl)⟩

theorem queueLaw_kept : Kept queueLaw :=
  stored_kept (Q := fun _ c => c.queue.length ≤ Config.writeQueueDepth)
    fun _ _ _ h hqueue => h.queue.trans (max_le hqueue le_rfl)

/-- What is said of memory alone the commands keep, but for their writes of lines (R141, R152). -/
theorem memory_kept (Q : List Host.Cell → Prop) : Kept fun s => Q s.memory :=
  stored_kept (Q := fun m _ => Q m) fun _ _ _ _ h => h

/-! ### The bound of the notice queues (R190) -/

section

variable {s t : State} {p : Port}

theorem noticeLaw_congr (hports : ∀ p, t.port p = s.port p) (h : noticeLaw s) : noticeLaw t := fun p => by
  rw [hports]
  exact h p

theorem noticeLaw_setPort {v : PortState} (hv : v.notices.length ≤ Config.noticeDepth) (h : noticeLaw s) :
    noticeLaw (s.setPort p v) := fun q => by
  have hport : (s.setPort p v).port q = if p = q then v else s.port q := modPort_port_of p q (fun _ => v) s
  rw [hport]
  split
  · exact hv
  · exact h q

/-- An offered notice is appended only where it fits. -/
theorem noticeLaw_offer {n : Notice} (h : noticeLaw s) : noticeLaw (offerNotice p n s) := fun q => by
  obtain ⟨l, c, hport, hl⟩ := offerNotice_port p n s q
  rw [hport]
  exact hl.trans (max_le (h q) le_rfl)

theorem noticeLaw_reply {r : Segment} (h : noticeLaw s) : noticeLaw (pushReply p r s) := fun q => by
  obtain ⟨l, hport⟩ := pushReply_port p r s q
  rw [hport]
  exact h q

/-- Of the shared operations only those that offer a notice reach the notice queues. -/
theorem noticeLaw_simple : Simple noticeLaw where
  offer h := noticeLaw_offer h
  reply h := noticeLaw_reply h
  stream h := h
  slab h := h
  channel h := h
  gang h := h
  free h := h
  drain h := h
  fill h := h
  ops h := h

/-- A DOWN event empties the notice queue of its port, then offers notices (R156, R190). -/
theorem noticeLaw_goDown (h : noticeLaw s) : noticeLaw (goDown p s) := by
  have dropped : noticeLaw (portDropped p s) := by
    rw [← portDropped_eq]
    exact noticeLaw_setPort (Nat.zero_le _) h
  have ended := noticeLaw_simple.closed.transmissionEnded (o := (s.port p).sending.bind (·.source)) dropped
  rw [goDown_eq]
  refine noticeLaw_offer ?_
  unfold dropClaim
  split
  · exact noticeLaw_simple.closed.raise (noticeLaw_congr (fun q => by cases q <;> rfl) ended)
  · exact ended

theorem noticeLaw_empty (hports : ∀ p, (t.port p).notices = []) : noticeLaw t := fun p => by
  rw [hports]
  exact Nat.zero_le _

end

theorem noticeLaw_kept : Kept noticeLaw where
  toClosed := noticeLaw_simple.closed
  enqueue h := enqueue_keeps (fun h => h) (fun _ h => h) h
  time h := h
  port hv h := noticeLaw_setPort (hv.notices.trans (h _)) h
  up _ h := noticeLaw_setPort (h _) h
  down _ h := noticeLaw_goDown h
  mgmt _ h := h
  hold {p n s} _ h q := by
    show ((takeRequest p s).port q).notices.length ≤ _
    rw [(takeRequest_notices p s q).1]
    exact h q
  streams _ h := h
  slabs h := h
  gangs _ h := h
  channels h := h
  routes h := h
  turn h := h
  control _ _ _ h := h
  bind _ _ h := modSlabs_keeps (P := noticeLaw) (fun h => h) h
  clear _ := noticeLaw_empty fun p => by cases p <;> rfl
  cold _ := noticeLaw_empty fun p => by cases p <;> rfl

end Sys2Proof.Machine

open Sys2Proof Sys2Proof.Machine

/-- Settles O7: each law is kept by the updates that commands are made of, the canonical form by the writes of lines too. -/
theorem deviceBoundsKept : Obligations.DeviceBoundsKept := fun _ _ hstep =>
  ⟨fun h => debtLaw_kept.step (fun h => h) (fun h => h) (fun h => h) h _ hstep,
    fun h => queueLaw_kept.step (fun h => h) (fun h => h) (fun h => h) h _ hstep,
    fun h => noticeLaw_kept.step (fun h => h) (fun h => h) (fun h => h) h _ hstep,
    fun h => (memory_kept Memory.wf).step (fun h => Memory.wf_writeLine h _ _) (fun h => Memory.wf_zeroLine h _)
      (fun h => h) h _ hstep⟩

/-- Settles O3: with the two completions excluded no command writes a line. -/
theorem memoryWrittenAtCompletion : Obligations.MemoryWrittenAtCompletion := fun _ s t hexec hwrite hinit =>
  (memory_kept (· = s.memory)).exec (fun h => absurd h hwrite) (fun ⟨b, h⟩ => absurd h (hinit b)) rfl t hexec
end

section
/-! PROOF. The arbiter and its grants: the order of the claimants, when each stands, and what the grant of a write, an
initialisation write, a read or a refresh makes of the controller (08_frame_memory.md R137, R141 to R146, R149, R152). -/

namespace Sys2Proof.Machine

section

variable {s : State} {c : ChanId} {line : Nat}

/-! ### When each claimant stands with its bank READY (R141 to R143, R146, R149, R152) -/

theorem bankReady_iff {b : BankId} : bankReady s b = true ↔ s.controller.banks.get b = .ready := beq_iff_eq

theorem refreshing_eq_false_iff : refreshing s = false ↔ ∀ b, s.controller.banks.get b ≠ .refreshing := by
  simp [refreshing, Table.mem_rows]

theorem refreshReady_iff : refreshReady s = true ↔ 1 ≤ s.controller.debt ∧
    (∀ b, s.controller.banks.get b ≠ .refreshing) ∧
    s.controller.banks.get s.controller.bankPointer = .ready := by
  simp only [refreshReady, Bool.and_eq_true, decide_eq_true_eq, Bool.not_eq_true', refreshing_eq_false_iff, bankReady_iff,
    and_assoc]

theorem readClaim_eq_some {r : MgmtRead} :
    readClaim s = some r ↔ ∃ rest, s.controller.reads = r :: rest ∧ r.data = none := by
  simp [readClaim, Option.filter_eq_some_iff, List.head?_eq_some_iff]

theorem claimReady_managementRead_iff : claimReady s .managementRead = true ↔ ∃ r rest, s.controller.reads = r :: rest ∧
    r.data = none ∧ s.controller.banks.get (bankOf (r.addr / 64)) = .ready := by
  simp only [claimReady, Option.any_eq_true, readClaim_eq_some, bankReady_iff]
  exact exists_congr fun r => ⟨fun ⟨⟨rest, hreads, hdata⟩, hbank⟩ => ⟨rest, hreads, hdata, hbank⟩,
    fun ⟨rest, hreads, hdata, hbank⟩ => ⟨⟨rest, hreads, hdata⟩, hbank⟩⟩

theorem writeClaim_initializing (h : s.controller.state = .initializing) :
    writeClaim s = some line ↔ s.controller.progress < 1048576 ∧ s.controller.progress = line := by
  rw [writeClaim, h]
  show (if s.controller.progress < 1048576 then some s.controller.progress else none) = some line ↔ _
  by_cases hprogress : s.controller.progress < 1048576 <;> simp [hprogress]

theorem writeClaim_running (h : s.controller.state = .running) :
    writeClaim s = some line ↔ ∃ e rest, s.controller.queue = e :: rest ∧ e.granted = false ∧ e.line = line := by
  simp [writeClaim, h, Option.filter_eq_some_iff, List.head?_eq_some_iff, and_assoc]

theorem claimReady_write_iff : claimReady s .write = true ↔
    (s.controller.state = .initializing ∧ s.controller.progress < 1048576 ∧
      s.controller.banks.get (bankOf s.controller.progress) = .ready) ∨
    (s.controller.state = .running ∧ ∃ e rest, s.controller.queue = e :: rest ∧ e.granted = false ∧
      s.controller.banks.get (bankOf e.line) = .ready) := by
  simp only [claimReady, Option.any_eq_true, bankReady_iff]
  cases hstate : s.controller.state with
  | initializing => simp [writeClaim_initializing hstate, and_assoc]
  | running => simp [writeClaim_running hstate, and_assoc]

theorem drainClaim_eq_some {ch : Channel} {r : DrainRead} :
    drainClaim ch = some r ↔ ch.read = some r ∧ r.data = none ∧ r.hold = none := by
  simp [drainClaim, Option.filter_eq_some_iff]

theorem drainReady_iff : drainReady s c = true ↔ ∃ r, (s.channel c).read = some r ∧ r.data = none ∧ r.hold = none ∧
    s.controller.banks.get (bankOf (r.addr / 64)) = .ready := by
  simp only [drainReady, Option.any_eq_true, drainClaim_eq_some, bankReady_iff, and_assoc]
  rfl

/-- The drain read that is granted next is the first ready one in rotation (R143). -/
theorem drainChoice_eq_some : drainChoice s = some c ↔ drainReady s c = true ∧
    ∃ front back, rotation s.controller.lastGranted = front ++ c :: back ∧ ∀ k ∈ front, ¬ drainReady s k = true := by
  simp [drainChoice, List.find?_eq_some_iff_append]

/-! ### The order of the claimants (R142, R144) -/

/-- The claimants between an urgent refresh and a relaxed one (R142, R144). -/
def accessOrder (s : State) : List Claimant :=
  if s.controller.fairness = 8 then [.managementRead, .drainRead, .write] else [.managementRead, .write, .drainRead]

theorem arbiterChoice_urgent (hdebt : 4 ≤ s.controller.debt) (hready : refreshReady s = true) :
    arbiterChoice s = some .refresh := by
  have hurgent : refreshUrgent s = true := decide_eq_true hdebt
  rw [arbiterChoice, claimOrder, if_pos hurgent]
  exact List.find?_cons_of_pos hready

/-- Unless an urgent refresh is ready, a refresh is chosen where no access is ready. -/
theorem arbiterChoice_accesses (h : ¬(4 ≤ s.controller.debt ∧ refreshReady s = true)) : arbiterChoice s =
    ((accessOrder s).find? (claimReady s)).or (if refreshReady s = true then some .refresh else none) := by
  rw [arbiterChoice, claimOrder]
  by_cases hdebt : 4 ≤ s.controller.debt
  · have hready : refreshReady s = false := Bool.eq_false_iff.2 fun hready => h ⟨hdebt, hready⟩
    have hurgent : refreshUrgent s = true := decide_eq_true hdebt
    rw [if_pos hurgent, hready, List.find?_cons_of_neg (by simp [claimReady, hready])]
    exact (Option.or_none ..).symm
  · have hrelaxed : ¬ refreshUrgent s = true := fun hu => hdebt (of_decide_eq_true hu)
    rw [if_neg hrelaxed]
    exact List.find?_append.trans (congrArg _ (List.find?_singleton ..))

theorem claimReady_of_choice {k : Claimant} (h : arbiterChoice s = some k) : claimReady s k = true := List.find?_some h

/-! ### The grants (R137, R141, R143, R144, R146, R149, R152) -/

/-- Whether a drain read stands as a claimant, in the words of R143. -/
theorem anyDrainClaim_eq (s : State) : anyDrainClaim s =
    (List.finRange 4).any fun c => (s.channel c).read.any fun r => r.data.isNone && r.hold.isNone := by
  simp only [anyDrainClaim, drainClaim, Option.isSome_filter]

theorem exec_grantWrite {e : WriteEntry} {rest : List WriteEntry} (hchoice : arbiterChoice s = some .write)
    (hstate : s.controller.state = .running) (hqueue : s.controller.queue = e :: rest) (hgranted : e.granted = false) :
    exec .grantWrite s = .next { s with controller := { s.controller with
      banks := s.controller.banks.set (bankOf e.line) .busy
      fairness := fairnessAfterWrite s
      queue := { e with granted := true } :: rest } } := by
  show execGrantWrite s = _
  have hclaim : writeClaim s = some e.line := (writeClaim_running hstate).2 ⟨e, rest, hqueue, hgranted, rfl⟩
  have hhead : grantHead s.controller.queue = { e with granted := true } :: rest := congrArg grantHead hqueue
  rw [execGrantWrite, hstate, hclaim, hchoice, ← hhead]
  rfl

theorem exec_grantInitWrite (hchoice : arbiterChoice s = some .write) (hstate : s.controller.state = .initializing)
    (hprogress : s.controller.progress < 1048576) :
    exec .grantInitWrite s = .next { s with controller := { s.controller with
      banks := s.controller.banks.set (bankOf s.controller.progress) .busy
      fairness := fairnessAfterWrite s
      progress := s.controller.progress + 1
      initInFlight := s.controller.initInFlight ++ [s.controller.progress] } } := by
  show execGrantInitWrite s = _
  have hclaim : writeClaim s = some s.controller.progress := (writeClaim_initializing hstate).2 ⟨hprogress, rfl⟩
  rw [execGrantInitWrite, hstate, hclaim, hchoice]
  rfl

theorem exec_grantDrainRead {r : DrainRead} (hchoice : arbiterChoice s = some .drainRead) (hdrain : drainChoice s = some c)
    (hread : (s.channel c).read = some r) : exec .grantDrainRead s = .next (grantDrain c r s) := by
  show execGrantDrainRead s = _
  obtain ⟨x, hx, hdata, hhold, -⟩ := drainReady_iff.1 (drainChoice_eq_some.1 hdrain).1
  obtain rfl : x = r := Option.some.inj (hx.symm.trans hread)
  have hclaim : drainClaim (s.channel c) = some x := drainClaim_eq_some.2 ⟨hx, hdata, hhold⟩
  rw [execGrantDrainRead, hchoice, hdrain]
  dsimp only
  rw [hclaim]

theorem exec_grantManagementRead {r : MgmtRead} {rest : List MgmtRead} (hchoice : arbiterChoice s = some .managementRead)
    (hreads : s.controller.reads = r :: rest) :
    exec .grantManagementRead s = .next { s with controller := { s.controller with
      banks := s.controller.banks.set (bankOf (r.addr / 64)) .busy
      reads := { r with data := some (Memory.readBytes s.memory r.addr r.size) } :: rest } } := by
  show execGrantManagementRead s = _
  obtain ⟨x, l, hx, hdata, -⟩ := claimReady_managementRead_iff.1 (claimReady_of_choice hchoice)
  obtain ⟨rfl, rfl⟩ := List.cons.inj (hx.symm.trans hreads)
  have hclaim : readClaim s = some x := readClaim_eq_some.2 ⟨l, hx, hdata⟩
  have hhead : grantRead (Memory.readBytes s.memory x.addr x.size) s.controller.reads =
      { x with data := some (Memory.readBytes s.memory x.addr x.size) } :: l := congrArg (grantRead _) hreads
  rw [execGrantManagementRead, hchoice, hclaim, ← hhead]
  rfl

theorem exec_grantRefresh (h : arbiterChoice s = some .refresh) :
    exec .grantRefresh s = .next (setBank s.controller.bankPointer .refreshing s) := if_pos h

theorem exec_grantRefresh_notChosen (h : arbiterChoice s ≠ some .refresh) : exec .grantRefresh s = .next s := if_neg h

theorem exec_refreshCompletion (h : s.controller.banks.get s.controller.bankPointer = .refreshing) :
    exec .refreshCompletion s = .next (completeRefresh s) := if_pos h

end

end Sys2Proof.Machine

open Sys2Proof Sys2Proof.Machine

/-- Settles O30: the order of the claimants is searched for the first that is ready, and the rotation for the first channel. -/
theorem arbiterOrder : Obligations.ArbiterOrder := by
  refine fun s => ⟨arbiterChoice_urgent, fun hcalm => ?order, refreshReady_iff, claimReady_managementRead_iff,
    claimReady_write_iff, Option.isSome_iff_exists, fun _ => rfl, fun ready c last hlast hready => ?rotation⟩
  case order =>
    rw [arbiterChoice_accesses hcalm, accessOrder]
    refine ⟨fun hread => ?read, fun hread => ⟨fun hwrite hfirst => ?write, fun hdrain hfirst => ?drain,
      fun hwrite hdrain => ?none⟩⟩
    case read => split <;> simp [hread]
    case write =>
      split
      · next hfair =>
        have hdrain : claimReady s .drainRead = false := hfirst.resolve_left (not_not.2 hfair)
        simp [hread, hwrite, hdrain]
      · simp [hread, hwrite]
    case drain =>
      split
      · simp [hread, hdrain]
      · next hfair =>
        have hwrite : claimReady s .write = false := hfirst.resolve_left hfair
        simp [hread, hwrite, hdrain]
    case none => split <;> simp [hread, hwrite, hdrain]
  case rotation =>
    have hready' : ∀ k, drainReady s k = true ↔ ready k := fun k => drainReady_iff.trans (hready k).symm
    simp only [drainChoice_eq_some, hready', hlast, Machine.rotation]

/-- Settles O32: each grant is of the claimant that the arbiter chose, which is the one the statement names. -/
theorem accessGrants : Obligations.AccessGrants := by
  refine ⟨fun s f hchoice hf => ?writes, fun s => ⟨fun c r hchoice hdrain hread => ?drain, fun r rest => ?read⟩⟩
  case writes =>
    have hfairness : fairnessAfterWrite s = f := by
      rw [fairnessAfterWrite, anyDrainClaim_eq, hf]
      rfl
    rw [← hfairness]
    exact ⟨fun e rest hstate hqueue hgranted => exec_grantWrite hchoice hstate hqueue hgranted,
      fun hstate hprogress => exec_grantInitWrite hchoice hstate hprogress⟩
  case drain => exact exec_grantDrainRead hchoice hdrain hread
  case read => exact fun hchoice hreads => exec_grantManagementRead hchoice hreads

/-- Settles O37: the refresh claimant is chosen only with the pointer's bank READY. -/
theorem refreshRuns : Obligations.RefreshRuns := by
  refine fun s => ⟨fun hchoice => ?granted, fun hbank => ?stays, fun hbank => ?complete⟩
  case granted => exact exec_grantRefresh hchoice
  case stays =>
    refine exec_grantRefresh_notChosen fun hchoice => ?_
    obtain ⟨-, -, hready⟩ := refreshReady_iff.1 (claimReady_of_choice hchoice)
    exact hbank hready
  case complete => exact exec_refreshCompletion hbank
end

section
/-! PROOF. The write queue's taking of a write: merged, appended or not taken (08_frame_memory.md R138 to R140). -/

namespace Sys2Proof.Machine

/-- Bytes put into an image from an offset on stand at their own places, and the image shows at the others (R139). -/
theorem putBytes_get (k : Fin 64) : ∀ (bytes : List Byte) (image : Table 64 (Option Byte)) (off : Nat),
    (putBytes image off bytes).get k =
      if off ≤ k.val ∧ k.val < off + bytes.length then bytes[k.val - off]? else image.get k
  | [], image, off => by
    rw [if_neg (by simp)]
    rfl
  | b :: bytes, image, off => by
    have hfirst : (if h : off < 64 then image.set ⟨off, h⟩ (some b) else image).get k =
        if off = k.val then some b else image.get k := by
      by_cases h : off < 64
      · rw [dif_pos h, Table.get_set]
        simp only [Fin.ext_iff]
      · rw [dif_neg h, if_neg (by omega)]
    rw [putBytes, putBytes_get k bytes, hfirst]
    obtain hk | hk | hk := Nat.lt_trichotomy off k.val
    · have hnext : k.val - off = k.val - (off + 1) + 1 := by omega
      rw [if_neg hk.ne, hnext, List.getElem?_cons_succ, List.length_cons]
      exact if_congr (by omega) rfl rfl
    · rw [if_neg (by omega), if_pos hk, if_pos (by simp; omega), hk, Nat.sub_self, List.getElem?_cons_zero]
    · rw [if_neg (by omega), if_neg (by omega), if_neg (by omega)]

section

variable {w : Write} {s : State} {e : WriteEntry} {front : List WriteEntry}

theorem mergeTarget_tail (hline : e.line = w.addr / 64) (hgranted : e.granted = false) :
    mergeTarget (front ++ [e]) w = some e := by
  simp [mergeTarget, hline, hgranted, lineOf, Config.lineBytes]

theorem mergeTarget_eq_none {queue : List WriteEntry}
    (h : ∀ e, queue.getLast? = some e → e.line ≠ w.addr / 64 ∨ e.granted = true) : mergeTarget queue w = none := by
  rw [mergeTarget, Option.filter_eq_none_iff]
  intro e he htarget
  obtain ⟨hline, hgranted⟩ := Bool.and_eq_true_iff.1 htarget
  obtain hother | hother := h e he
  · exact hother (beq_iff_eq.1 hline)
  · rw [hother] at hgranted
    cases hgranted

theorem enqueue_merges (hqueue : s.controller.queue = front ++ [e]) (hline : e.line = w.addr / 64)
    (hgranted : e.granted = false) : enqueue w s = some (mergeWrite e w s) := by
  rw [enqueue, hqueue, mergeTarget_tail hline hgranted]

theorem enqueue_full (h : mergeTarget s.controller.queue w = none) (hfull : 32 ≤ s.controller.queue.length) :
    enqueue w s = none := by
  rw [enqueue, h]
  exact if_neg (Nat.not_lt.2 hfull)

theorem enqueue_appends (h : mergeTarget s.controller.queue w = none) (hroom : s.controller.queue.length < 32) :
    enqueue w s = some (appendWrite w s) := by
  rw [enqueue, h]
  exact if_pos hroom

/-- A merge into the tail entry: an entry without a slab takes the write's slab, which counts one write more (R139, R140). -/
theorem mergeWrite_unowned (hqueue : s.controller.queue = front ++ [e]) (hslab : e.slab = none) :
    mergeWrite e w s = countWrite w.slab { s with controller := { s.controller with
      queue := front ++ [{ e with image := putBytes e.image (w.addr % 64) w.bytes, slab := w.slab }] } } := by
  have hmerge : e.merge w = { e with image := putBytes e.image (w.addr % 64) w.bytes, slab := w.slab } := by
    rw [WriteEntry.merge, hslab]
    rfl
  rw [mergeWrite, if_pos hslab, hmerge, State.modController, hqueue, List.dropLast_concat]

theorem mergeWrite_owned {sl : SlabId} (hqueue : s.controller.queue = front ++ [e]) (hslab : e.slab = some sl) :
    mergeWrite e w s = { s with controller := { s.controller with
      queue := front ++ [{ e with image := putBytes e.image (w.addr % 64) w.bytes }] } } := by
  have hmerge : e.merge w = { e with image := putBytes e.image (w.addr % 64) w.bytes } := by
    rw [WriteEntry.merge, hslab, Option.some_or, ← hslab]
    rfl
  rw [mergeWrite, if_neg (by rw [hslab]; exact Option.some_ne_none sl), hmerge, State.modController, hqueue,
    List.dropLast_concat]

end

end Sys2Proof.Machine

open Sys2Proof Sys2Proof.Machine

/-- Settles O31: the tail entry decides between a merge and an append, its slab or none between counting and not. -/
theorem writeQueueTakes : Obligations.WriteQueueTakes := by
  refine fun w s => ⟨fun front e sl hqueue hline hgranted hsl => ?merge, fun hother => ?apart, fun image off bytes k =>
    putBytes_get k bytes image off⟩
  case merge =>
    rw [enqueue_merges hqueue hline hgranted]
    cases hslab : e.slab with
    | none =>
      rw [hslab, if_pos rfl] at hsl
      rw [mergeWrite_unowned hqueue hslab, hsl]
      cases hw : w.slab <;> rfl
    | some x =>
      rw [hslab, if_neg (Option.some_ne_none x)] at hsl
      rw [mergeWrite_owned hqueue hslab, hsl, hslab]
  case apart =>
    have hapart := mergeTarget_eq_none hother
    refine ⟨fun hfull => enqueue_full hapart hfull, fun x hx hroom => ?_⟩
    have happend : enqueue w s = some (countWrite w.slab x) := by
      rw [enqueue_appends hapart hroom, hx]
      rfl
    rw [happend]
    exact ⟨fun hslab => by rw [hslab]; rfl, fun sl hslab => by rw [hslab]; rfl⟩
end

section
/-! PROOF. The completion of an initialisation write and of a management read, and the expiry of the refresh interval
(08_frame_memory.md R145, R147 to R149, R152). -/

namespace Sys2Proof.Machine

section

variable {s : State}

/-! ### INIT_WRITE_COMPLETION (R152) -/

theorem exec_initWriteCompletion {b : BankId} {line : Nat}
    (h : (s.controller.initInFlight.find? fun l => bankOf l == b) = some line) :
    exec (.initWriteCompletion b) s = .next (completeInit line s) := by
  show execInitWriteCompletion b s = _
  rw [execInitWriteCompletion, h]

/-- The controller is RUNNING once the last line has been granted and none is in flight, and else in its state (R152). -/
theorem testRunning_eq (c : Controller) : c.testRunning = { c with
    state := if c.progress = 1048576 ∧ c.initInFlight = [] then .running else c.state } := by
  by_cases h : c.progress = 1048576 ∧ c.initInFlight = []
  · rw [if_pos h]
    exact if_pos h
  · rw [if_neg h]
    exact if_neg h

/-- No other line is in flight just where the list without this one is empty. -/
theorem filter_ne_eq_nil {line : Nat} {l : List Nat} : (l.filter fun x => x != line) = [] ↔ ∀ x ∈ l, x = line := by
  simp [List.filter_eq_nil_iff]

/-! ### MANAGEMENT_READ_COMPLETION (R148, R149) -/

/-- The state in which the bank of a management read is READY again and the list goes on behind the read. -/
def readRemoved (r : MgmtRead) (rest : List MgmtRead) (s : State) : State :=
  { s with controller := { s.controller with
    banks := s.controller.banks.set (bankOf (r.addr / 64)) .ready, reads := rest } }

theorem exec_managementReadCompletion {r : MgmtRead} {rest : List MgmtRead} {bytes : List Byte}
    (hreads : s.controller.reads = r :: rest) (hdata : r.data = some bytes) :
    exec .managementReadCompletion s = .next (finishRead r.owner bytes (readRemoved r rest s)) := by
  show execManagementReadCompletion s = _
  have hhead : grantedHead s.controller.reads = some (r, bytes) := by simp [grantedHead, hreads, hdata]
  have htail : rest = s.controller.reads.tail := by rw [hreads, List.tail_cons]
  rw [execManagementReadCompletion, hhead, htail]
  rfl

theorem finishRead_direct {p : Port} {tag : BitVec 16} {bytes : List Byte} (h : s.management.wait = .peek p tag false) :
    finishRead .direct bytes s = pushReply p (replySegment tag 0x28 .done bytes)
      { s with management := { s.management with wait := .nothing } } := by
  rw [finishRead, finishDirect, h]
  rfl

theorem finishRead_tableEntry {slot : OpSlot} {o : PendingOp} {bytes : List Byte} (h : findOp slot s = some o)
    (hdiscard : o.discard = false) :
    finishRead (.tableEntry slot) bytes s = pushReply o.port (replySegment o.tag 0x28 .done bytes)
      { s with management := { s.management with ops := s.management.ops.filter fun x => x.slot != slot } } := by
  rw [finishRead, finishEntry, h]
  dsimp only
  rw [hdiscard]
  rfl

/-! ### REFRESH_INTERVAL_EXPIRY (R145, R147) -/

theorem exec_refreshIntervalExpiry_debt (h : s.controller.debt < 8) : exec .refreshIntervalExpiry s =
    .next ((restartRefresh s).modController fun c => { c with debt := c.debt + 1 }) := if_pos h

theorem exec_refreshIntervalExpiry_miss (h : 8 ≤ s.controller.debt) : exec .refreshIntervalExpiry s =
    .next (refreshMiss (restartRefresh s)) := if_neg (Nat.not_lt.2 h)

/-- A slab in use is neither FREE nor EMPTY (R147). -/
theorem inUse_eq : Slab.inUse = fun v => v.state != .free && v.state != .empty := by
  funext v
  unfold Slab.inUse
  cases v.state <;> rfl

theorem suspect_inUse_eq : (fun v : Slab => if v.inUse then { v with suspect := true } else v) =
    fun v => if v.state ≠ .free ∧ v.state ≠ .empty then { v with suspect := true } else v := by
  funext v
  simp only [inUse_eq, Bool.and_eq_true, bne_iff_ne]

end

end Sys2Proof.Machine

open Sys2Proof Sys2Proof.Machine

/-- Settles O34: the line reads as zero, and the controller's state follows the lines still in flight. -/
theorem initWriteCompletes : Obligations.InitWriteCompletes := by
  refine fun s b line hline => ⟨Memory.zeroLine s.memory line, ?_, fun a => Memory.read_zeroLine ..⟩
  rw [exec_initWriteCompletion hline, completeInit]
  simp only [State.modController, testRunning_eq, filter_ne_eq_nil]
  rfl

/-- Settles O36: the three owners of a read, once the read has left the list. -/
theorem managementReadCompletes : Obligations.ManagementReadCompletes := by
  rintro s u r rest bytes hreads hdata rfl
  rw [exec_managementReadCompletion hreads hdata]
  refine ⟨fun howner => ?discarded, fun p tag howner hwait => ?direct, fun slot o howner hop hdiscard => ?entry⟩
  case discarded => rw [howner]; rfl
  case direct => rw [howner, finishRead_direct (s := readRemoved r rest s) hwait]; rfl
  case entry => rw [howner, finishRead_tableEntry (s := readRemoved r rest s) hop hdiscard]; rfl

/-- Settles O29: the interval's restart, then the debt or the miss by the debt's bound. -/
theorem refreshIntervalExpires : Obligations.RefreshIntervalExpires := by
  rintro s u n rfl rfl
  refine ⟨fun hdebt => exec_refreshIntervalExpiry_debt hdebt, fun hdebt => ?_⟩
  rw [exec_refreshIntervalExpiry_miss hdebt, refreshMiss, slabsInUse, suspect_inUse_eq, inUse_eq]
  rfl
end

section
/-! PROOF. PEEK, POKE and SYNC: the checks of an address and a size, a PEEK and its line hazard, a POKE and the write queue, a
SYNC and the queue's tail (08_frame_memory.md R139, R148 to R151). -/

namespace Sys2Proof.Machine

section

variable {p : Port} {r : Request} {s : State} {addr size : Nat} {st : Status}

theorem exec_peek (h : asks p .peek r s) : exec (.peek p) s = .next (peek r (takeRequest p s)) :=
  congrArg Host.Outcome.next (serve_asks h)

theorem exec_poke (h : asks p .poke r s) : exec (.poke p) s = .next (poke r (takeRequest p s)) :=
  congrArg Host.Outcome.next (serve_asks h)

theorem exec_sync (h : asks p .sync r s) : exec (.sync p) s = .next (sync r (takeRequest p s)) :=
  congrArg Host.Outcome.next (serve_asks h)

theorem takeRequest_ops (p : Port) (s : State) : (takeRequest p s).management.ops = s.management.ops := by
  rw [takeRequest_management]

/-! ### The checks of an address and a size, in their order (R148, R150) -/

theorem accessRefusal_takeRequest (p : Port) (s : State) (addr size : Nat) :
    accessRefusal (takeRequest p s) addr size = accessRefusal s addr size := by
  cases p <;> rfl

theorem accessRefusal_badSize (h : size ∉ [1, 2, 4, 8]) : accessRefusal s addr size = some .badParam :=
  if_pos (by simpa using h)

/-- With a good size the checks of the address decide. -/
theorem accessRefusal_goodSize (h : size ∈ [1, 2, 4, 8]) : accessRefusal s addr size =
    if 67108864 ≤ addr then some .range else if addr % size ≠ 0 then some .misaligned
    else if s.controller.state = .initializing then some .starting else none := by
  have hsize : ¬(size ≠ 1 ∧ size ≠ 2 ∧ size ≠ 4 ∧ size ≠ 8) := fun hbad => absurd h (by simpa using hbad)
  rw [accessRefusal, if_neg hsize]
  simp only [initializing, beq_iff_eq]
  rfl

theorem accessRefusal_range (hsize : size ∈ [1, 2, 4, 8]) (h : 67108864 ≤ addr) :
    accessRefusal s addr size = some .range := by
  rw [accessRefusal_goodSize hsize, if_pos h]

theorem accessRefusal_misaligned (hsize : size ∈ [1, 2, 4, 8]) (haddr : addr < 67108864) (h : addr % size ≠ 0) :
    accessRefusal s addr size = some .misaligned := by
  rw [accessRefusal_goodSize hsize, if_neg (Nat.not_le.2 haddr), if_pos h]

theorem accessRefusal_starting (hsize : size ∈ [1, 2, 4, 8]) (haddr : addr < 67108864) (haligned : addr % size = 0)
    (h : s.controller.state = .initializing) : accessRefusal s addr size = some .starting := by
  rw [accessRefusal_goodSize hsize, if_neg (Nat.not_le.2 haddr), if_neg (not_not.2 haligned), if_pos h]

theorem accessRefusal_eq_none (hsize : size ∈ [1, 2, 4, 8]) (haddr : addr < 67108864) (haligned : addr % size = 0)
    (h : s.controller.state = .running) : accessRefusal s addr size = none := by
  rw [accessRefusal_goodSize hsize, if_neg (Nat.not_le.2 haddr), if_neg (not_not.2 haligned), h]
  rfl

/-- A PEEK or a POKE that fails one of these checks is refused with its status. -/
theorem exec_access_refused {k : RequestKind} (hk : k = .peek ∨ k = .poke) (hasks : asks p k r s)
    (h : accessRefusal s (field r.payload 1 4) (field r.payload 5 1) = some st) :
    exec (k.command p) s = .next (pushReply p (replySegment r.tag k.code st []) (takeRequest p s)) := by
  rw [← accessRefusal_takeRequest p] at h
  obtain rfl := asks_port hasks
  obtain rfl | rfl := hk
  · show exec (.peek r.port) s = _
    rw [exec_peek hasks, peek, h]
    rfl
  · show exec (.poke r.port) s = _
    rw [exec_poke hasks, poke, h]
    rfl

/-! ### PEEK, by its line hazard (R148) -/

theorem newestFor_eq_none {queue : List WriteEntry} {line : Nat} (h : ∀ e ∈ queue, e.line ≠ line) :
    newestFor queue line = none := by
  have hnone : (queue.filter fun e => e.line == line) = [] := List.filter_eq_nil_iff.2 fun e he => by simpa using h e he
  rw [newestFor, hnone]
  rfl

theorem newestFor_eq_some {queue : List WriteEntry} {line : Nat} {e : WriteEntry}
    (h : (queue.filter fun x => x.line == line).getLast? = some e) : newestFor queue line = some e.number := by
  rw [newestFor, h]
  rfl

theorem exec_peek_clear (hasks : asks p .peek r s)
    (h : accessRefusal s (field r.payload 1 4) (field r.payload 5 1) = none)
    (hline : ∀ e ∈ s.controller.queue, e.line ≠ field r.payload 1 4 / 64) :
    exec (.peek p) s = .next (directPeek r (field r.payload 1 4) (field r.payload 5 1) (takeRequest p s)) := by
  have hnewest : newestFor (takeRequest p s).controller.queue (lineOf (field r.payload 1 4)) = none := by
    rw [takeRequest_controller]
    exact newestFor_eq_none hline
  rw [exec_peek hasks, peek, accessRefusal_takeRequest, h, hnewest]

theorem exec_peek_hazard {e : WriteEntry} (hasks : asks p .peek r s)
    (h : accessRefusal s (field r.payload 1 4) (field r.payload 5 1) = none)
    (hline : (s.controller.queue.filter fun x => x.line == field r.payload 1 4 / 64).getLast? = some e) :
    exec (.peek p) s =
      .next (heldPeek e.number r (field r.payload 1 4) (field r.payload 5 1) (takeRequest p s)) := by
  have hnewest : newestFor (takeRequest p s).controller.queue (lineOf (field r.payload 1 4)) = some e.number := by
    rw [takeRequest_controller]
    exact newestFor_eq_some hline
  rw [exec_peek hasks, peek, accessRefusal_takeRequest, h, hnewest]

theorem heldPeek_busy {n : Nat} (h : freeSlot s.management.ops = none) :
    heldPeek n r addr size s = refuse r .peek .busy s := by
  rw [heldPeek, h]

theorem heldPeek_slot {n : Nat} {slot : OpSlot} (h : freeSlot s.management.ops = some slot) :
    heldPeek n r addr size s = { s with
      controller := { s.controller with
        heldPeeks := s.controller.heldPeeks ++ [{ entry := n, slot := slot, addr := addr, size := size }] }
      management := { s.management with ops := s.management.ops ++ [memoryOp slot .peek r .peek] } } := by
  rw [heldPeek, h]
  rfl

/-! ### POKE and the write queue (R139, R150) -/

/-- A write without a slab is taken by the controller alone, alike in states that share it. -/
theorem enqueue_noSlab {w : Write} {t : State} (hw : w.slab = none) (h : t.controller = s.controller) :
    enqueue w t = (enqueue w s).map fun v => { t with controller := v.controller } := by
  have hcount : ∀ v : State, countWrite w.slab v = v := fun v => by rw [hw]; rfl
  have hmerge : ∀ (e : WriteEntry) (v : State), mergeWrite e w v =
      v.modController fun c => { c with queue := c.queue.dropLast ++ [e.merge w] } := fun e v => by
    rw [mergeWrite, hcount, ite_self]
  unfold enqueue
  simp only [hmerge, appendWrite, hcount, State.modController, h]
  split
  · rfl
  · split <;> rfl

theorem handPoke_taken {w : Write} {v : State} (h : enqueue w s = some v) :
    handPoke r w s = answer r .poke .done [] v := by
  rw [handPoke, h]

theorem handPoke_held {w : Write} (h : enqueue w s = none) :
    handPoke r w s = s.modManagement fun m => { m with wait := .poke r.port r.tag false w } := by
  rw [handPoke, h]

theorem exec_poke_handed (hasks : asks p .poke r s)
    (h : accessRefusal s (field r.payload 1 4) (field r.payload 5 1) = none) :
    exec (.poke p) s = .next (handPoke r (pokeWrite r.payload) (takeRequest p s)) := by
  rw [exec_poke hasks, poke, accessRefusal_takeRequest, h]

section

variable {q : Port} {tag : BitVec 16} {w : Write}

theorem exec_pokeWriteResume_waits (hwait : s.management.wait = .poke q tag false w) (h : enqueue w s = none) :
    exec .pokeWriteResume s = .next s := by
  show execPokeWriteResume s = _
  rw [execPokeWriteResume, hwait]
  dsimp only
  rw [h]

theorem exec_pokeWriteResume_taken {v : State} (hwait : s.management.wait = .poke q tag false w)
    (h : enqueue w s = some v) : exec .pokeWriteResume s = .next (pokeTaken q tag false v) := by
  show execPokeWriteResume s = _
  rw [execPokeWriteResume, hwait]
  dsimp only
  rw [h]

end

/-! ### SYNC (R151) -/

theorem sync_busy (h : freeSlot s.management.ops = none) : sync r s = refuse r .sync .busy s := by
  rw [sync, h]

theorem sync_empty {slot : OpSlot} (h : freeSlot s.management.ops = some slot) (hqueue : s.controller.queue = []) :
    sync r s = answer r .sync .done [] s := by
  rw [sync, h]
  dsimp only
  rw [startSync, hqueue]
  rfl

theorem sync_tail {slot : OpSlot} {e : WriteEntry} (h : freeSlot s.management.ops = some slot)
    (htail : s.controller.queue.getLast? = some e) : sync r s = addOp (memoryOp slot .sync r (.sync e.number)) s := by
  rw [sync, h]
  dsimp only
  rw [startSync, htail]

end

end Sys2Proof.Machine

open Sys2Proof Sys2Proof.Machine

/-- Settles O58: the checks first; then a PEEK by the newest entry of its line, a POKE by the write queue, and a SYNC by the
queue's tail. -/
theorem memoryRequests : Obligations.MemoryRequests := by
  rintro p s u r a n rfl rfl rfl
  have hcontroller := takeRequest_controller p s
  have hops := takeRequest_ops p s
  refine ⟨fun k hk hasks => ?checks, fun hsize haddr halign hstate => ?access, fun hasks => ?sync,
    fun q tag w hwait => ?resume⟩
  case checks =>
    refine ⟨fun hsize => ?_, fun hsize => ⟨fun haddr => ?_, fun haddr =>
      ⟨fun halign => ?_, fun halign hstate => ?_⟩⟩⟩ <;>
      refine exec_access_refused hk hasks ?_
    · exact accessRefusal_badSize hsize
    · exact accessRefusal_range hsize haddr
    · exact accessRefusal_misaligned hsize haddr halign
    · exact accessRefusal_starting hsize haddr halign hstate
  case access =>
    have hcheck := accessRefusal_eq_none hsize haddr halign hstate
    refine ⟨fun hasks => ?peek, fun hasks w hw => ?poke⟩
    case peek =>
      obtain rfl := asks_port hasks
      refine ⟨fun hclear => ?clear, fun e he => ?hazard⟩
      case clear =>
        rw [exec_peek_clear hasks hcheck hclear, ← hcontroller]
        rfl
      case hazard =>
        rw [exec_peek_hazard hasks hcheck he]
        refine ⟨fun hslot => by rw [heldPeek_busy (hops ▸ hslot)]; rfl, fun slot hslot => ?_⟩
        rw [heldPeek_slot (hops ▸ hslot), hcontroller, hops]
        rfl
    case poke =>
      obtain rfl := asks_port hasks
      rw [exec_poke_handed hasks hcheck]
      subst hw
      have htakes : ∀ o, enqueue (pokeWrite r.payload) s = o → enqueue (pokeWrite r.payload) (takeRequest r.port s) =
          o.map fun v => { takeRequest r.port s with controller := v.controller } :=
        fun o ho => ho ▸ enqueue_noSlab rfl hcontroller
      exact ⟨fun v hv => congrArg Host.Outcome.next (handPoke_taken (htakes _ hv)),
        fun hnone => congrArg Host.Outcome.next (handPoke_held (htakes _ hnone))⟩
  case sync =>
    obtain rfl := asks_port hasks
    rw [exec_sync hasks]
    refine ⟨fun hslot => by rw [sync_busy (hops ▸ hslot)]; rfl, fun slot hslot =>
      ⟨fun hqueue => ?empty, fun e he => ?tail⟩⟩
    case empty =>
      rw [sync_empty (hops ▸ hslot) (hcontroller ▸ hqueue)]
      rfl
    case tail =>
      rw [sync_tail (hops ▸ hslot) (hcontroller ▸ he), ← hops]
      rfl
  case resume =>
    refine ⟨fun hnone => exec_pokeWriteResume_waits hwait hnone, fun v hv => ?_⟩
    have hmanagement : v.management = s.management := enqueue_keeps (P := fun t => t.management = s.management)
      (fun h => h) (fun _ h => h) hv rfl
    rw [exec_pokeWriteResume_taken hwait hv, ← hmanagement]
    rfl
end

section
/-! PROOF. What every command keeps: it answers a next state and leaves the commands that wait, and it keeps the credit law
with the tenth law (09_ports_and_segments.md R154 to R156, R160 to R163; 10_in_band_management.md R164, R176, R178;
95_what_each_step_holds.md). -/

namespace Sys2Proof.Machine

/-! ### The commands that wait -/

section

variable {l : List Instr}

/-- The shared operations leave the commands that wait. -/
theorem pending_simple : Simple fun s => s.pending = l where
  offer h := (offerNotice_pending ..).trans h
  reply h := (pushReply_pending ..).trans h
  stream h := h
  slab h := h
  channel h := h
  gang h := h
  free h := h
  drain h := h
  fill h := h
  ops h := h

theorem takeRequest_pending (p : Port) (s : State) : (takeRequest p s).pending = s.pending := by cases p <;> rfl

theorem goDown_pending (p : Port) (s : State) : (goDown p s).pending = s.pending := by
  obtain ⟨ops, -, e⟩ := goDown_rest p s
  rw [e]

/-- Every command leaves the commands that wait. -/
theorem pending_kept : Kept fun s => s.pending = l where
  toClosed := pending_simple.closed
  enqueue h := enqueue_keeps (P := fun s => s.pending = l) (fun h => h) (fun _ h => h) h
  time h := h
  port _ h := (State.setPort_pending ..).trans h
  up _ h := (State.setPort_pending ..).trans h
  down _ h := (goDown_pending ..).trans h
  mgmt _ h := h
  hold {p _ s} _ h := (takeRequest_pending p s).trans h
  streams _ h := h
  slabs h := h
  gangs _ h := h
  channels h := h
  routes h := h
  turn h := h
  control _ _ _ h := h
  bind _ _ h := modSlabs_keeps (P := fun s => s.pending = l) (fun h => h) h
  clear h := h
  cold h := h

end

/-! ### Every command answers a next state -/

/-- The command of a request and COLD_RESET answer with one state. The others look at the state first: most by one test,
four by a second test where the first finds something to do. Each branch answers a next state. -/
theorem exec_next (c : Instr) (s : State) : ∃ t, exec c s = .next t := by
  cases c
  case upEvent | downEvent | receiveSegment | sendCredit | sendReply | sendNotice | sendCompletion =>
    simp only [exec, execUpEvent, execDownEvent, execReceiveSegment, execSendCredit, execSendReply, execSendNotice,
      execSendCompletion]
    split <;> exact ⟨_, rfl⟩
  case fillTakeData | fillTakeMark | fillWriteResume | fillTimerExpiry | alignTimerExpiry | unbindDeadlineExpiry |
      leaseExpiry | refreshIntervalExpiry =>
    simp only [exec, execFillTakeData, execFillTakeMark, execFillWriteResume, execFillTimerExpiry, execAlignTimerExpiry,
      execUnbindDeadlineExpiry, execLeaseExpiry, execRefreshIntervalExpiry]
    split <;> exact ⟨_, rfl⟩
  case grantWrite | writeCompletion | grantInitWrite | initWriteCompletion | drainReadCompletion | grantManagementRead |
      managementReadCompletion | grantRefresh | refreshCompletion | channelTakeEntry | unknownRequest =>
    simp only [exec, execGrantWrite, execWriteCompletion, execGrantInitWrite, execInitWriteCompletion,
      execDrainReadCompletion, execGrantManagementRead, execManagementReadCompletion, execGrantRefresh,
      execRefreshCompletion, execChannelTakeEntry, execUnknownRequest]
    split <;> exact ⟨_, rfl⟩
  case grantDrainRead | sendDrainSegment | pokeWriteResume | warmResetClear =>
    simp only [exec, execGrantDrainRead, execSendDrainSegment, execPokeWriteResume, execWarmResetClear]
    split
    · split <;> exact ⟨_, rfl⟩
    · exact ⟨_, rfl⟩
  all_goals exact ⟨_, rfl⟩

/-- The command of a request is the request's own rule, when the Management Unit takes it. -/
theorem exec_command (k : RequestKind) :
    ∃ own : Request → State → State, ∀ p s, exec (k.command p) s = .next (serve k own p s) := by
  cases k <;> exact ⟨_, fun _ _ => rfl⟩

/-! ### The ports' links and credits, and the claim's holder (R154, R162, R176) -/

theorem setPort_port_of (p q : Port) (v : PortState) (s : State) :
    (s.setPort p v).port q = if p = q then v else s.port q :=
  modPort_port_of p q (fun _ => v) s

/-- The eleventh law, in its stronger form of R162, and the tenth (R176). -/
def linkLaws (s : State) : Prop := creditLaw s ∧ claimLaw s

/-- From `s` to `t` no port's link changed and no credit was made or lost, and the claim's holder stands. -/
def LinkFrame (s t : State) : Prop :=
  (∀ q, (t.port q).link = (s.port q).link ∧ ∀ b, (t.port q).balance b = (s.port q).balance b) ∧
    t.management.holder = s.management.holder

theorem LinkFrame.refl (s : State) : LinkFrame s s := ⟨fun _ => ⟨rfl, fun _ => rfl⟩, rfl⟩

/-- Of a port's record, conservation speaks of the link and the balances alone. -/
theorem creditsConserved_congr {p : Port} {q v : PortState} {b : Bool} (hlink : v.link = q.link)
    (hbalance : v.balance b = q.balance b) (h : creditsConserved p q b) : creditsConserved p v b := by
  unfold creditsConserved at h ⊢
  rw [hlink]
  exact hbalance.trans h

theorem LinkFrame.laws {s t : State} (hframe : LinkFrame s t) (h : linkLaws s) : linkLaws t := by
  obtain ⟨hports, hholder⟩ := hframe
  obtain ⟨hcredit, hclaim⟩ := h
  refine ⟨fun q b => ?_, fun q hq => ?_⟩
  · obtain ⟨hlink, hbalance⟩ := hports q
    exact creditsConserved_congr hlink (hbalance b) (hcredit q b)
  · obtain ⟨hlink, -⟩ := hports q
    exact hlink.trans (hclaim q (hholder ▸ hq))

/-- The shared operations queue REPLYs and notices at the ports at most. -/
theorem linkFrame_simple (s : State) : Simple (LinkFrame s) where
  offer {p n t} h := by
    obtain ⟨hports, hholder⟩ := h
    refine ⟨fun q => ?_, (congrArg Management.holder (offerNotice_management ..)).trans hholder⟩
    obtain ⟨m, c, hport, -⟩ := offerNotice_port p n t q
    rw [hport]
    exact hports q
  reply {p seg t} h := by
    obtain ⟨hports, hholder⟩ := h
    refine ⟨fun q => ?_, (congrArg Management.holder (pushReply_management ..)).trans hholder⟩
    obtain ⟨m, hport⟩ := pushReply_port p seg t q
    rw [hport]
    exact hports q
  stream h := h
  slab h := h
  channel h := h
  gang h := h
  free h := h
  drain h := h
  fill h := h
  ops h := h

theorem linkLaws_simple : Simple linkLaws where
  offer h := ((linkFrame_simple _).offer (.refl _)).laws h
  reply h := ((linkFrame_simple _).reply (.refl _)).laws h
  stream h := h
  slab h := h
  channel h := h
  gang h := h
  free h := h
  drain h := h
  fill h := h
  ops h := h

/-! ### The DOWN event (R156, R178) -/

section

variable {p : Port} {s t : State}

theorem portDropped_other {q : Port} (h : q ≠ p) : (portDropped p s).port q = s.port q := by
  rw [← portDropped_eq]
  refine (modPort_port_of p q PortState.dropped s).trans ?_
  rw [if_neg h.symm]

theorem LinkFrame.dropClaim (h : LinkFrame s t) : LinkFrame (claimDropped p s) (dropClaim p t) := by
  obtain ⟨hports, hholder⟩ := h
  have ended {u : State} (hu : u.port = t.port) : ∀ q, (u.port q).link = ((claimDropped p s).port q).link ∧
      ∀ b, (u.port q).balance b = ((claimDropped p s).port q).balance b := fun q => hu ▸ hports q
  unfold Machine.dropClaim
  rw [hholder]
  by_cases hclaim : s.management.holder = some p
  · rw [if_pos hclaim]
    exact (linkFrame_simple _).closed.raise ⟨ended rfl, (if_pos hclaim).symm⟩
  · rw [if_neg hclaim]
    exact ⟨ended rfl, hholder.trans (if_neg hclaim).symm⟩

/-- A DOWN event: of the links only the port's own changed, of the credits only the port's own are gone, and the claim ended
if the port held it. -/
theorem goDown_linkFrame (p : Port) (s : State) : LinkFrame (claimDropped p (portDropped p s)) (goDown p s) := by
  rw [goDown_eq]
  exact (linkFrame_simple _).closed.raiseLink
    ((linkFrame_simple _).closed.transmissionEnded (LinkFrame.refl _)).dropClaim

theorem linkLaws_goDown (h : linkLaws s) : linkLaws (goDown p s) := by
  obtain ⟨hcredit, hclaim⟩ := h
  refine (goDown_linkFrame p s).laws ⟨fun q b => ?_, fun q hq => ?_⟩
  · show creditsConserved q ((portDropped p s).port q) b
    by_cases hqp : q = p
    · subst hqp
      rw [portDropped_port]
      cases b <;> rfl
    · rw [portDropped_other hqp]
      exact hcredit q b
  · show ((portDropped p s).port q).link = .up
    have hq : (if s.management.holder = some p then none else s.management.holder) = some q := hq
    split at hq
    · cases hq
    · next hne =>
      rw [portDropped_other fun e : q = p => hne (e ▸ hq)]
      exact hclaim q hq

/-! ### The other changes of a port or of the claim -/

theorem linkFrame_steady {v : PortState} (hv : (s.port p).Steady v) : LinkFrame s (s.setPort p v) := by
  refine ⟨fun q => ?_, congrArg Management.holder (State.setPort_management ..)⟩
  rw [setPort_port_of]
  split
  · next hqp => exact hqp ▸ ⟨hv.link, hv.balance⟩
  · exact ⟨rfl, fun _ => rfl⟩

/-- At its UP event a port owes a credit for each of its slots (R155). -/
theorem linkLaws_raised (h : linkLaws s) : linkLaws (s.setPort p ((s.port p).raised p)) := by
  obtain ⟨hcredit, hclaim⟩ := h
  refine ⟨fun q b => ?_, fun q hq => ?_⟩ <;> rw [setPort_port_of]
  · split
    · next hqp =>
      subst hqp
      cases b <;> simp [creditsConserved, PortState.raised, PortState.held, PortState.advertised, PortState.owed, slotCount]
    · exact hcredit q b
  · split
    · rfl
    · exact hclaim q (by rwa [State.setPort_management] at hq)

/-- A port that holds a request is UP, since a DOWN port holds nothing (R156). -/
theorem link_of_controlHead (hcredit : creditLaw s) (h : (controlHead p s).isSome) : (s.port p).link = .up := by
  obtain ⟨seg, hseg⟩ := Option.isSome_iff_exists.1 h
  obtain ⟨hhead, hkind⟩ := Option.filter_eq_some_iff.1 hseg
  have hheld : 0 < (s.port p).held false :=
    List.countP_pos_iff.2 ⟨seg, List.mem_of_mem_head? hhead, by rw [eq_of_beq hkind]; rfl⟩
  have hsum := hcredit p false
  cases hlink : (s.port p).link
  · rw [creditsConserved, hlink] at hsum
    dsimp only at hsum
    omega
  · rfl

/-- The claim goes to a port that is UP, since its request was at the head of the port's receive list (R176). -/
theorem linkLaws_holdClaim {n : Nat} (hhead : (controlHead p s).isSome) (h : linkLaws s) :
    linkLaws (holdClaim p n (takeRequest p s)) := by
  have taken : LinkFrame s (takeHead p s) := linkFrame_steady (PortState.dropHead_steady _)
  obtain ⟨hcredit, -⟩ := taken.laws h
  refine ⟨hcredit, fun q hq => ?_⟩
  obtain ⟨hports, -⟩ := taken
  obtain ⟨hlink, -⟩ := hports p
  obtain rfl : p = q := Option.some.inj hq
  exact hlink.trans (link_of_controlHead h.1 hhead)

end

/-- Every command keeps both laws: a credit moves between held, advertised and owed, and the links and the claim change at
the events of R155, R156 and R176 alone. -/
theorem linkLaws_kept : Kept linkLaws where
  toClosed := linkLaws_simple.closed
  enqueue h := enqueue_keeps (fun h => h) (fun _ h => h) h
  time h := h
  port hv h := (linkFrame_steady hv).laws h
  up _ h := linkLaws_raised h
  down _ h := linkLaws_goDown h
  mgmt {m s} hm h := by
    obtain ⟨hcredit, hclaim⟩ := h
    refine ⟨hcredit, fun q hq => ?_⟩
    rcases hm with hnone | hsame
    · cases hnone.symm.trans hq
    · exact hclaim q (hsame.symm.trans hq)
  hold hhead h := linkLaws_holdClaim hhead h
  streams _ h := h
  slabs h := h
  gangs _ h := h
  channels h := h
  routes h := h
  turn h := h
  control _ _ _ h := h
  bind _ _ h := modSlabs_keeps (P := linkLaws) (fun h => h) h
  clear {s} h := LinkFrame.laws (s := s) ⟨fun q => by cases q <;> exact ⟨rfl, fun b => by cases b <;> rfl⟩, rfl⟩ h
  cold _ := ⟨fun q b => by cases q <;> cases b <;> rfl, fun _ hq => nomatch hq⟩

end Sys2Proof.Machine

open Sys2Proof Sys2Proof.Machine

/-- Settles O6: both laws are kept by the updates that commands are made of. -/
theorem linkLawsKept : Obligations.LinkLawsKept := fun _ t hcredit hclaim hstep =>
  linkLaws_kept.step (fun h => h) (fun h => h) (fun h => h) ⟨hcredit, hclaim⟩ t hstep

/-- Settles O2: each branch of a command answers a next state, no update touches the commands that wait, and `serve` leaves
the state when the request is not the next one. -/
theorem commandsAnswerNext : Obligations.CommandsAnswerNext := by
  refine ⟨fun c s => ?_, fun k p s hidle => ?_⟩
  · obtain ⟨t, ht⟩ := exec_next c s
    exact ⟨t, ht, pending_kept.exec (fun _ _ _ _ h => h) (fun _ _ _ h => h) rfl t ht⟩
  · obtain ⟨own, hexec⟩ := exec_command k
    rw [hexec, serve_idle hidle]
end

section
/-! PROOF. The UP event, the judgement of received segments and the CREDIT, REPLY or NOTICE that a transmitter takes
(09_ports_and_segments.md R154, R155, R159 to R162, R165 to R168; 11_notices_and_counters.md R191). -/

namespace Sys2Proof.Machine

/-! ### Numbers in received bytes -/

theorem beNat_append_singleton (l : List Byte) (b : Byte) : beNat (l ++ [b]) = beNat l * 256 + b.toNat := by
  rw [beNat, beNat, List.foldl_append, List.foldl_cons, List.foldl_nil]

theorem beNat_lt (l : List Byte) : beNat l < 256 ^ l.length := by
  induction l using List.reverseRecOn with
  | nil => exact Nat.one_pos
  | append_singleton l b ih =>
    have hb : b.toNat < 256 := b.isLt
    rw [beNat_append_singleton, List.length_append, List.length_singleton, pow_succ]
    omega

/-- A field of two bytes is a 16-bit number. -/
theorem field_two_lt (bytes : List Byte) (off : Nat) : field bytes off 2 < 2 ^ 16 :=
  (beNat_lt _).trans_le (Nat.pow_le_pow_right (by decide) (List.length_take_le ..))

/-! ### The judgement of a received segment (R159) -/

theorem framingLoss_iff {bytes : List Byte} : framingLoss bytes = true ↔
    headerCheck (slice bytes 0 3 ++ slice bytes 4 8) ≠ bytes.getD 3 0 ∨ 1024 < field bytes 8 2 := by
  rw [framingLoss, rxHeaderGood, rxLength, Bool.or_eq_true, Bool.not_eq_true', beq_eq_false_iff_ne, decide_eq_true_iff]
  rfl

section

variable {p : Port} {bytes : List Byte} {s : State}

theorem exec_receiveSegment_down (h : (s.port p).link = .down) : exec (.receiveSegment p bytes) s = .next s := by
  show execReceiveSegment p bytes s = _
  rw [execReceiveSegment, h]

theorem exec_receiveSegment_up (h : (s.port p).link = .up) :
    exec (.receiveSegment p bytes) s = .next (judge p bytes s) := by
  show execReceiveSegment p bytes s = _
  rw [execReceiveSegment, h]

/-- An UP port that declares framing loss goes DOWN (R159 steps 1 and 2). -/
theorem judge_framingLoss (hlength : 12 ≤ bytes.length) (hloss : framingLoss bytes = true) :
    judge p bytes s = goDown p s := by
  rw [judge, if_neg (by omega), if_pos hloss]

/-- A whole segment with a good header acts on its port alone (R159 steps 3 to 5). -/
theorem exec_receiveSegment_arrives (h : arrives p bytes s) :
    exec (.receiveSegment p bytes) s = .next (s.setPort p ((s.port p).receive p bytes)) := by
  obtain ⟨hlink, hlength, hheader, hpayload, hwhole⟩ := h
  have hframed : ¬ framingLoss bytes = true := by
    rw [framingLoss, hheader, Bool.not_true, Bool.false_or, decide_eq_true_iff]
    exact Nat.not_lt.2 hpayload
  rw [exec_receiveSegment_up hlink, judge, if_neg (by omega), if_neg hframed, if_pos hwhole]
  rfl

end

/-! ### A segment's effect, by its kind (R159 to R162, R166) -/

namespace PortState

variable {q : PortState} {p : Port} {bytes : List Byte} {k : SegKind}

theorem receive_misdirected (h : ∀ k, SegKind.ofCode (rxKind bytes) = some k → accepts p k = false) :
    q.receive p bytes = q.misdirect (SegKind.ofCode (rxKind bytes)) := by
  have hnone : (SegKind.ofCode (rxKind bytes)).filter (accepts p) = none :=
    Option.filter_eq_none_iff.2 fun k hk => by rw [h k hk]; exact Bool.false_ne_true
  rw [receive, hnone]

theorem receive_credit (h : SegKind.ofCode (rxKind bytes) = some .credit) :
    q.receive p bytes = q.credited p (rxSegment .credit bytes) := by
  rw [receive, h, Option.filter_some, if_pos (by cases p <;> rfl)]

/-- A DATA, MARK or CONTROL segment that the port accepts comes to the credit test (R160). -/
theorem receive_tested (h : SegKind.ofCode (rxKind bytes) = some k) (haccepts : accepts p k = true) (hk : k ≠ .credit) :
    q.receive p bytes = q.testCredit (rxSegment k bytes) (rxPayloadGood bytes) := by
  rw [receive, h, Option.filter_some, if_pos haccepts]
  cases k
  case credit => exact absurd rfl hk
  all_goals rfl

end PortState

/-- The three ends of a DATA, MARK or CONTROL segment: without an advertised credit of its class it is an overrun; else it
consumes one, and is held in a slot or counted with the credit owed back. -/
theorem exec_receiveSegment_tested {p : Port} {bytes : List Byte} {s : State} {k : SegKind} {b : Bool}
    (harrives : arrives p bytes s) (hkind : SegKind.ofCode (rxKind bytes) = some k) (haccepts : accepts p k = true)
    (hk : k ≠ .credit) (hclass : k.dataClass = b) :
    ((s.port p).advertised b = 0 → exec (.receiveSegment p bytes) s =
      .next (s.setPort p { s.port p with overruns := satAdd (s.port p).overruns 1 })) ∧
    (0 < (s.port p).advertised b → rxPayloadGood bytes = true → exec (.receiveSegment p bytes) s =
      .next (s.setPort p { (s.port p).consume b with
        slots := ((s.port p).consume b).slots ++ [rxSegment k bytes] })) ∧
    (0 < (s.port p).advertised b → rxPayloadGood bytes = false → exec (.receiveSegment p bytes) s =
      .next (s.setPort p (PortState.owe { (s.port p).consume b with
        checkFailures := satAdd ((s.port p).consume b).checkFailures 1 } b))) := by
  have hclass : (rxSegment k bytes).kind.dataClass = b := hclass
  rw [exec_receiveSegment_arrives harrives, PortState.receive_tested hkind haccepts hk, PortState.testCredit, hclass]
  refine ⟨fun hnone => ?overrun, fun hcredit hgood => ?held, fun hcredit hbad => ?badPayload⟩
  case overrun => rw [if_neg (by omega)]
  case held => rw [if_pos hcredit, hgood]; rfl
  case badPayload => rw [if_pos hcredit, hbad, PortState.hold, hclass]; rfl

/-! ### What a transmitter takes next (R165, R167, R168) -/

section

variable {p : Port} {s : State}

/-- A free transmitter of an UP port takes from the first source that is ready. -/
theorem sendChoice_free (hlink : (s.port p).link = .up) (hfree : (s.port p).sending = none) :
    sendChoice p s = [Source.credit, .reply, .notice, .drain].find? (sourceReady p s) := by
  rw [sendChoice, if_pos]
  rw [sendFree, hlink, hfree]
  rfl

theorem creditDue_iff : creditDue p s = true ↔ 0 < dataIncrement p s ∨ 0 < (s.port p).owedControl := by
  rw [creditDue, Bool.or_eq_true, decide_eq_true_iff, decide_eq_true_iff]

theorem sendChoice_credit (hlink : (s.port p).link = .up) (hfree : (s.port p).sending = none)
    (hdue : creditDue p s = true) : sendChoice p s = some .credit := by
  rw [sendChoice_free hlink hfree]
  exact List.find?_cons_of_pos hdue

theorem sourceReady_reply_iff : sourceReady p s .reply = true ↔ (s.port p).replies ≠ [] ∧ 0 < (s.port p).partnerControl := by
  simp [sourceReady]

theorem sourceReady_notice_iff :
    sourceReady p s .notice = true ↔ (s.port p).notices ≠ [] ∧ 0 < (s.port p).partnerControl := by
  simp [sourceReady]

theorem sendChoice_reply (hlink : (s.port p).link = .up) (hfree : (s.port p).sending = none)
    (hcredit : creditDue p s = false) (hcontrol : 0 < (s.port p).partnerControl) (hreply : (s.port p).replies ≠ []) :
    sendChoice p s = some .reply := by
  have credit : ¬ sourceReady p s .credit = true := by rw [sourceReady, hcredit]; exact Bool.false_ne_true
  rw [sendChoice_free hlink hfree, List.find?_cons_of_neg credit]
  exact List.find?_cons_of_pos (sourceReady_reply_iff.2 ⟨hreply, hcontrol⟩)

theorem sendChoice_notice (hlink : (s.port p).link = .up) (hfree : (s.port p).sending = none)
    (hcredit : creditDue p s = false) (hcontrol : 0 < (s.port p).partnerControl) (hreply : (s.port p).replies = [])
    (hnotice : (s.port p).notices ≠ []) : sendChoice p s = some .notice := by
  have credit : ¬ sourceReady p s .credit = true := by rw [sourceReady, hcredit]; exact Bool.false_ne_true
  have reply : ¬ sourceReady p s .reply = true := fun h => (sourceReady_reply_iff.1 h).1 hreply
  rw [sendChoice_free hlink hfree, List.find?_cons_of_neg credit, List.find?_cons_of_neg reply]
  exact List.find?_cons_of_pos (sourceReady_notice_iff.2 ⟨hnotice, hcontrol⟩)

/-- A transmitter without credits in hand takes no REPLY, no NOTICE and no channel's segment (R167). -/
theorem sourceReady_noCredit (hcontrol : (s.port p).partnerControl = 0) (hdata : (s.port p).partnerData = 0) :
    sourceReady p s .reply = false ∧ sourceReady p s .notice = false ∧ sourceReady p s .drain = false := by
  simp [sourceReady, hcontrol, hdata]

end

/-! ### A notice for the other port (R189, R190) -/

section

variable {p : Port} {n : Notice} {s : State}

theorem offerNotice_other : (offerNotice p.other n s).port p = s.port p := by cases p <;> rfl

/-- A notice offered to a DOWN port is lost (R190). -/
theorem offerNotice_down (h : (s.port p).link = .down) : ((offerNotice p n s).port p).notices = (s.port p).notices := by
  rw [offerNotice, State.modPort_port, if_neg (by rw [h]; simp)]

end

end Sys2Proof.Machine

open Sys2Proof Sys2Proof.Machine

/-- Settles O11: the port's record is that of R155; it owes eight control credits and holds none, so a CREDIT is due and
nothing else can be taken. -/
theorem upEvent : Obligations.UpEvent := by
  intro p s
  refine ⟨fun hlink => ?up, fun hlink => ⟨s.setPort p ((s.port p).raised p), _, by cases p <;> rfl, rfl, ?down⟩⟩
  case up =>
    show execUpEvent p s = _
    rw [execUpEvent, hlink]
  case down =>
    rw [← raiseLink_eq]
    have hport : (raiseLink .portUp p (s.setPort p ((s.port p).raised p))).port p = (s.port p).raised p :=
      offerNotice_other.trans (State.setPort_port ..)
    have hdue : creditDue p (raiseLink .portUp p (s.setPort p ((s.port p).raised p))) = true :=
      creditDue_iff.2 (.inr (by rw [hport]; exact Nat.succ_pos 7))
    obtain ⟨hreply, hnotice, hdrain⟩ := sourceReady_noCredit (p := p)
      (s := raiseLink .portUp p (s.setPort p ((s.port p).raised p))) (by rw [hport]; rfl) (by rw [hport]; rfl)
    refine ⟨?exec, sendChoice_credit (by rw [hport]; rfl) (by rw [hport]; rfl) hdue, hreply, hnotice, hdrain,
      fun hother => ?lost⟩
    case exec =>
      show execUpEvent p s = _
      rw [execUpEvent, hlink]
      rfl
    case lost =>
      rw [← State.setPort_other s p ((s.port p).raised p)] at hother ⊢
      exact offerNotice_down hother

/-- Settles O13: framing loss ends as a DOWN event does; a segment of a kind that the port does not accept is misdirected. -/
theorem receiveRefusals : Obligations.ReceiveRefusals := by
  refine ⟨fun p bytes s => ⟨exec_receiveSegment_down, fun hlink hlength hloss => ?_⟩, fun p bytes s harrives hkind => ?_⟩
  · rw [exec_receiveSegment_up hlink, judge_framingLoss hlength (framingLoss_iff.2 hloss), exec_downEvent hlink]
  · rw [exec_receiveSegment_arrives harrives, PortState.receive_misdirected hkind]
    rfl

/-- Settles O14: the three ends of the credit test, for CONTROL in the control class and for DATA and MARK in the data
class. -/
theorem creditTest : Obligations.CreditTest := by
  intro p bytes s harrives
  refine ⟨fun hkind => ?control, fun k hp hk hkind => ?data, fun hlength => ?noPayload⟩
  case control => exact exec_receiveSegment_tested harrives hkind (by cases p <;> rfl) (by decide) rfl
  case data =>
    subst hp
    rcases hk with rfl | rfl
    · exact exec_receiveSegment_tested harrives hkind rfl (by decide) rfl
    · exact exec_receiveSegment_tested harrives hkind rfl (by decide) rfl
  case noPayload => rw [rxPayloadGood, hlength]; rfl

/-- Settles O15: a CREDIT acts on its port alone, and its increments are the 16-bit fields of its header. -/
theorem receivedCredit : Obligations.ReceivedCredit := by
  intro p bytes s harrives hkind
  have hincrement (off : Nat) : (BitVec.ofNat 16 (field bytes off 2)).toNat = field bytes off 2 :=
    (BitVec.toNat_ofNat ..).trans (Nat.mod_eq_of_lt (field_two_lt bytes off))
  rw [exec_receiveSegment_arrives harrives, PortState.receive_credit hkind, PortState.credited, addCredits, addCredits]
  simp only [rxSegment, hincrement]

/-- Settles O16: a CREDIT that is due comes before the other sources. -/
theorem sendCredit : Obligations.SendCredit := by
  rintro p s d rfl hlink hfree hdue
  show execSendCredit p s = _
  rw [execSendCredit, if_pos (sendChoice_credit hlink hfree (creditDue_iff.2 hdue))]
  rfl

/-- Settles O17: without a CREDIT due the REPLYs come first, and the NOTICEs when there is no REPLY. -/
theorem sendReplyAndNotice : Obligations.SendReplyAndNotice := by
  intro p s hlink hfree hcredit hcontrol
  refine ⟨fun seg rest hreplies => ?_, fun n rest hreplies hnotices => ?_⟩
  · show execSendReply p s = _
    rw [execSendReply, if_pos (sendChoice_reply hlink hfree hcredit hcontrol (by rw [hreplies]; exact List.cons_ne_nil _ _)),
      State.modPort, PortState.sendReply, hreplies]
  · show execSendNotice p s = _
    rw [execSendNotice, if_pos (sendChoice_notice hlink hfree hcredit hcontrol hreplies
      (by rw [hnotices]; exact List.cons_ne_nil _ _)), State.modPort, PortState.sendNotice, hnotices]
end

section
/-! PROOF. The taking of a request: when the Management Unit takes one and from which port, the slot that it frees, and the
reply reservations (09_ports_and_segments.md R162 to R164; 10_in_band_management.md R173, R174). -/

namespace Sys2Proof.Machine

section

variable {p : Port} {s : State} {seg : Segment}

/-! ### The reservations (R173) -/

theorem opReservations_eq (p : Port) (ops : List PendingOp) :
    opReservations p ops = (ops.filter fun o => decide (o.port = p ∧ o.discard = false)).length := by
  rw [opReservations, List.countP_eq_length_filter]
  congr 2
  funext o
  rw [Bool.eq_iff_iff]
  simp

/-! ### The port that is taken from (R163, R164, R173) -/

theorem controlHead_eq_some : controlHead p s = some seg ↔ (s.port p).slots.head? = some seg ∧ seg.kind = .control := by
  rw [controlHead, Option.filter_eq_some_iff, beq_iff_eq]

theorem mgmtReady_iff : mgmtReady s = true ↔ s.management.wait = .nothing ∧ s.management.warmReset = none := by
  simp [mgmtReady, State.halted]

theorem canTake_iff : canTake p s = true ↔ (∃ seg, controlHead p s = some seg) ∧ reservations p s < 8 := by
  rw [canTake, Bool.and_eq_true, Option.isSome_iff_exists, decide_eq_true_iff]
  rfl

theorem mgmtTakes_iff : mgmtTakes p s = true ↔
    mgmtReady s = true ∧ canTake p s = true ∧ (canTake p.other s = false ∨ s.management.lastPort = p.other) := by
  simp [mgmtTakes, and_assoc]

theorem nextRequest_eq_some {r : Request} : nextRequest p s = some r ↔ mgmtTakes p s = true ∧
    ∃ seg, controlHead p s = some seg ∧ r = { port := p, tag := seg.tag, payload := seg.payload } := by
  unfold nextRequest
  by_cases h : mgmtTakes p s = true
  · simp [h, eq_comm]
  · simp [h]

/-! ### What the taking does (R162, R164) -/

/-- A CONTROL taken from the head of a receive list frees its slot, whose control credit is owed. -/
theorem dropHead_control {q : PortState} {rest : List Segment} (hslots : q.slots = seg :: rest)
    (hkind : seg.kind = .control) : q.dropHead = { q with slots := rest, owedControl := q.owedControl + 1 } := by
  rw [PortState.dropHead, hslots]
  simp only [hkind]
  rfl

theorem takeRequest_control {rest : List Segment} (hslots : (s.port p).slots = seg :: rest) (hkind : seg.kind = .control) :
    takeRequest p s = { s.setPort p { s.port p with slots := rest, owedControl := (s.port p).owedControl + 1 } with
      management := { s.management with lastPort := p } } := by
  rw [← dropHead_control hslots hkind]
  cases p <;> rfl

end

end Sys2Proof.Machine

open Sys2Proof Sys2Proof.Machine

/-- Settles O41: each condition of R163, R164 and R173 stands in `nextRequest_eq_some` and `mgmtTakes_iff`. -/
theorem requestTaking : Obligations.RequestTaking := by
  intro p s
  refine ⟨?reservations, fun r hr => ?taken, fun hrefused => ?refused, fun seg hwait hreset hfew hhead hkind hturn => ?taking,
    fun seg => ?reply⟩
  case reservations =>
    rw [reservations, opReservations_eq]
    rfl
  case taken =>
    obtain ⟨-, seg, hseg, hrequest⟩ := nextRequest_eq_some.1 hr
    obtain ⟨hhead, hkind⟩ := controlHead_eq_some.1 hseg
    obtain ⟨rest, hslots⟩ := List.head?_eq_some_iff.1 hhead
    exact ⟨seg, rest, hslots, hkind, hrequest, takeRequest_control hslots hkind⟩
  case refused =>
    rw [Option.eq_none_iff_forall_ne_some]
    intro r hr
    obtain ⟨htakes, -⟩ := nextRequest_eq_some.1 hr
    obtain ⟨hready, hcan, hturn⟩ := mgmtTakes_iff.1 htakes
    obtain ⟨hwait, hreset⟩ := mgmtReady_iff.1 hready
    obtain ⟨⟨seg, hseg⟩, hfew⟩ := canTake_iff.1 hcan
    obtain ⟨hhead, hkind⟩ := controlHead_eq_some.1 hseg
    rcases hrefused with hwaits | hhalted | hfull | hnone | ⟨hother, hlast⟩
    · exact hwaits hwait
    · exact hhalted hreset
    · omega
    · exact hnone seg hhead hkind
    · rcases hturn with hturn | hturn
      · cases hother.symm.trans hturn
      · cases p <;> cases hlast.symm.trans hturn
  case taking =>
    have hseg := controlHead_eq_some.2 ⟨hhead, hkind⟩
    have hcan := canTake_iff.2 ⟨⟨seg, hseg⟩, hfew⟩
    exact nextRequest_eq_some.2 ⟨mgmtTakes_iff.2 ⟨mgmtReady_iff.2 ⟨hwait, hreset⟩, hcan, hturn⟩, seg, hseg, rfl⟩
  case reply => rfl
end

section
/-! PROOF. The checks common to requests, in their order, and IDENTIFY, which passes them in every state
(10_in_band_management.md R171, R172, R180, R187). -/

namespace Sys2Proof.Machine

section

variable {k : RequestKind} {p : Port} {r : Request} {s : State} {st : Status}

/-! ### A payload without a kind of the catalogue (R172) -/

theorem requestKind_eq_none {b : Byte} {rest : List Byte} (h : ∀ k, RequestKind.code k ≠ b) :
    requestKind (b :: rest) = none :=
  List.find?_eq_none.2 fun k _ => by simpa using h k

theorem exec_unknownRequest (h : nextRequest p s = some r) (hk : requestKind r.payload = none) :
    exec (.unknownRequest p) s =
      .next (pushReply p (replySegment r.tag (r.payload.headD 0) .unknown []) (takeRequest p s)) := by
  show execUnknownRequest p s = _
  rw [execUnknownRequest, h, Option.filter_some, if_pos (Option.isNone_iff_eq_none.2 hk)]

/-! ### The checks, one failing (R172) -/

theorem commonRefusal_length (h : r.payload.length ≠ expectedLength k r.payload) :
    commonRefusal k r s = some .badParam := if_pos h

theorem commonRefusal_claim (hlength : r.payload.length = expectedLength k r.payload)
    (hneeds : needsClaim k r.payload = true) (hholder : s.management.holder ≠ some r.port) :
    commonRefusal k r s = some .noClaim := by
  rw [commonRefusal, if_neg (not_not_intro hlength), if_pos ⟨hneeds, hholder⟩]

theorem refusedStarting_iff : refusedStarting k = true ↔ k ≠ .identify ∧ k ≠ .peek ∧ k ≠ .poke := by
  simp [refusedStarting, and_assoc]

/-- The check on the controller's state is made behind those on the length and the claim. -/
theorem commonRefusal_controller (hlength : r.payload.length = expectedLength k r.payload)
    (hclaim : needsClaim k r.payload = true → s.management.holder = some r.port) :
    commonRefusal k r s = if refusedStarting k && initializing s then some .starting else none := by
  rw [commonRefusal, if_neg (not_not_intro hlength), if_neg fun h => h.2 (hclaim h.1)]

theorem commonRefusal_starting (hlength : r.payload.length = expectedLength k r.payload)
    (hclaim : needsClaim k r.payload = true → s.management.holder = some r.port)
    (hkind : k ≠ .identify ∧ k ≠ .peek ∧ k ≠ .poke) (hstate : s.controller.state = .initializing) :
    commonRefusal k r s = some .starting := by
  rw [commonRefusal_controller hlength hclaim, refusedStarting_iff.2 hkind, initializing, hstate]
  rfl

theorem exec_command_refused (h : nextRequest p s = some r) (hk : requestKind r.payload = some k)
    (hst : commonRefusal k r s = some st) :
    exec (k.command p) s = .next (pushReply p (replySegment r.tag k.code st []) (takeRequest p s)) := by
  obtain ⟨own, hexec⟩ := exec_command k
  rw [hexec, serve_refused h hk hst, refuse, answer, nextRequest_port h]

/-! ### IDENTIFY (R180, R187) -/

/-- An IDENTIFY of one byte passes the common checks, whatever the claim and the controller's state. -/
theorem asks_identify (h : nextRequest p s = some r) (hpayload : r.payload = [0x01]) : asks p .identify r s := by
  refine ⟨h, ?_, ?_⟩
  · rw [hpayload]
    rfl
  · rw [commonRefusal_controller (k := .identify) (by rw [hpayload]; rfl) nofun]
    rfl

theorem exec_identify (h : asks p .identify r s) :
    exec (.identify p) s = .next (identify r (takeRequest p s)) := congrArg Host.Outcome.next (serve_asks h)

theorem CtrlState.code_eq (x : CtrlState) : x.code = if x = .initializing then 0 else 1 := by
  cases x <;> rfl

theorem Port.code_eq (p : Port) : Port.code p = if p = .a then 1 else 2 := by
  cases p <;> rfl

theorem holderCode_eq (o : Option Port) : holderCode o = match o with
    | none => 0
    | some .a => 1
    | some .b => 2 := by
  rcases o with _ | _ | _ <;> rfl

/-- The results of IDENTIFY, byte by byte (R180, R187). -/
theorem identifyResults_eq (p : Port) (s : State) : identifyResults p s =
    [0x7A, 0x31, 0x46, 0x20, 1, 64, 16, 0x04, 0x00, 4, if s.controller.state = .initializing then 0 else 1,
      match s.management.holder with
        | none => 0
        | some .a => 1
        | some .b => 2,
      if p = .a then 1 else 2] := by
  rw [identifyResults, CtrlState.code_eq, holderCode_eq, Port.code_eq]
  rfl

theorem identifyResults_takeRequest (p q : Port) (s : State) :
    identifyResults q (takeRequest p s) = identifyResults q s := by
  cases p <;> rfl

end

end Sys2Proof.Machine

open Sys2Proof Sys2Proof.Machine

/-- Settles O43: an unknown kind by its own command, and each check by `serve_refused` where the checks before it pass. -/
theorem commonChecks : Obligations.CommonChecks := by
  intro p s r hr
  obtain rfl := nextRequest_port hr
  refine ⟨fun hpayload => ?empty, fun b rest hpayload hb => ?unknown, fun k hk =>
    ⟨fun hlength => ?length, fun hlength hneeds hholder => ?claim,
      fun hlength hclaim hidentify hpeek hpoke hstate => ?starting⟩⟩
  case empty =>
    rw [exec_unknownRequest hr (by rw [hpayload]; rfl), hpayload]
    rfl
  case unknown =>
    rw [exec_unknownRequest hr (by rw [hpayload, requestKind_eq_none hb]), hpayload]
    rfl
  case length => exact exec_command_refused hr hk (commonRefusal_length hlength)
  case claim => exact exec_command_refused hr hk (commonRefusal_claim hlength hneeds hholder)
  case starting =>
    exact exec_command_refused hr hk (commonRefusal_starting hlength hclaim ⟨hidentify, hpeek, hpoke⟩ hstate)

/-- Settles O42: IDENTIFY passes the common checks in every state, and its results are read byte by byte. -/
theorem identifyAnswers : Obligations.IdentifyAnswers := by
  intro p s r hr hpayload
  obtain rfl := nextRequest_port hr
  rw [exec_identify (asks_identify hr hpayload), identify, identifyResults_takeRequest, identifyResults_eq]
  rfl
end

section
/-! PROOF. CLAIM, RENEW and RELEASE (10_in_band_management.md R176 to R178). -/

namespace Sys2Proof.Machine

section

variable {p : Port} {r : Request} {s : State}

/-! ### CLAIM, by its cases (R176) -/

theorem claim_badLease (h : field r.payload 1 2 < 100 ∨ 60000 < field r.payload 1 2) :
    claim r s = refuse r .claim .badParam s := if_neg (by omega)

theorem claim_lease (hlow : 100 ≤ field r.payload 1 2) (hhigh : field r.payload 1 2 ≤ 60000) :
    claim r s = grantClaim (field r.payload 1 2) r s := if_pos ⟨hlow, hhigh⟩

theorem grantClaim_held {lease : Nat} (h : s.management.holder = some r.port.other) :
    grantClaim lease r s = answer r .claim .held (heldResults s) s := if_pos h

theorem grantClaim_granted {lease : Nat} (h : s.management.holder ≠ some r.port.other) :
    grantClaim lease r s = answer r .claim .done (beBytes 2 lease) (holdClaim r.port lease s) := if_neg h

theorem heldResults_takeRequest (p : Port) (s : State) : heldResults (takeRequest p s) = heldResults s := by
  cases p <;> rfl

/-! ### RENEW and RELEASE, by their cases (R177, R178) -/

/-- The holder's claim held anew for its own lease is the claim with its timer restarted. -/
theorem holdClaim_holder {lease : Nat} (hholder : s.management.holder = some p) (hlease : s.management.lease = some lease) :
    holdClaim p lease s =
      { s with management := { s.management with leaseTimer := some (s.now + lease * 1000) } } := by
  rw [holdClaim, State.modManagement, ← hholder, ← hlease]
  rfl

theorem renew_holder {lease : Nat} (hholder : s.management.holder = some r.port)
    (hlease : s.management.lease = some lease) : renew r s = answer r .renew .done (beBytes 2 lease)
      { s with management := { s.management with leaseTimer := some (s.now + lease * 1000) } } := by
  rw [renew, if_pos hholder, hlease, ← holdClaim_holder hholder hlease]
  rfl

theorem renew_noClaim (h : s.management.holder ≠ some r.port) : renew r s = refuse r .renew .noClaim s := if_neg h

theorem release_holder (h : s.management.holder = some r.port) :
    release r s = answer r .release .done [] (endClaim s) := if_pos h

theorem release_noClaim (h : s.management.holder ≠ some r.port) : release r s = refuse r .release .noClaim s := if_neg h

/-! ### The commands -/

theorem takeRequest_holder (p : Port) (s : State) : (takeRequest p s).management.holder = s.management.holder := by
  rw [takeRequest_management]

theorem takeRequest_lease (p : Port) (s : State) : (takeRequest p s).management.lease = s.management.lease := by
  rw [takeRequest_management]

theorem exec_claim (h : asks p .claim r s) : exec (.claim p) s = .next (claim r (takeRequest p s)) :=
  congrArg Host.Outcome.next (serve_asks h)

theorem exec_renew (h : asks p .renew r s) : exec (.renew p) s = .next (renew r (takeRequest p s)) :=
  congrArg Host.Outcome.next (serve_asks h)

theorem exec_release (h : asks p .release r s) : exec (.release p) s = .next (release r (takeRequest p s)) :=
  congrArg Host.Outcome.next (serve_asks h)

end

end Sys2Proof.Machine

open Sys2Proof Sys2Proof.Machine

/-- Settles O45: each own rule by its cases, the claim's holder and lease being those from before the taking. -/
theorem claimRequests : Obligations.ClaimRequests := by
  rintro p s u r n rfl rfl
  have hsame := takeRequest_holder p s
  refine ⟨fun hasks => ?claim, fun hasks => ?renew, fun hasks => ?release⟩
  case claim =>
    obtain rfl := asks_port hasks
    rw [exec_claim hasks]
    refine ⟨fun hbad => ?refused, fun hlow hhigh hother => ?held, fun hlow hhigh hfree => ?granted⟩
    case refused =>
      rw [claim_badLease hbad]
      rfl
    case held =>
      rw [claim_lease hlow hhigh, grantClaim_held (hsame.trans hother), heldResults_takeRequest]
      rfl
    case granted =>
      rw [claim_lease hlow hhigh, grantClaim_granted (hsame ▸ hfree), ← takeRequest_now r.port s]
      rfl
  case renew =>
    obtain rfl := asks_port hasks
    rw [exec_renew hasks]
    refine ⟨fun hnot => by rw [renew_noClaim (hsame ▸ hnot)]; rfl, fun l hholder hlease => ?_⟩
    rw [renew_holder (hsame.trans hholder) ((takeRequest_lease ..).trans hlease), takeRequest_now]
    rfl
  case release =>
    obtain rfl := asks_port hasks
    rw [exec_release hasks]
    refine ⟨fun hnot => by rw [release_noClaim (hsame ▸ hnot)]; rfl, fun hholder => ?_⟩
    rw [release_holder (hsame.trans hholder), endClaim, takeRequest_streams]
    rfl
end

section
/-! PROOF. SET NOTICE ROUTE, and the notices raised by the route of their kind (10_in_band_management.md R181, R187;
11_notices_and_counters.md R188, R189). -/

namespace Sys2Proof.Machine

/-! ### The codes of the routed kinds and of the routes (R181, R187, R188) -/

theorem routeSlot_eq_some {n : Nat} {k : Fin 8} : routeSlot n = some k ↔ n = k.val + 1 := by
  unfold routeSlot
  split
  · rw [Option.some.injEq, Fin.ext_iff]
    dsimp only
    omega
  · simp only [reduceCtorEq, false_iff]
    omega

theorem routeSlot_eq_none {n : Nat} (h : n = 0 ∨ 8 < n) : routeSlot n = none := dif_neg (by omega)

/-- A kind has the place in the route table that its code names, if any. -/
theorem routeIndex_eq_routeSlot (kind : NoticeKind) : routeIndex kind = routeSlot kind.code.toNat := by
  cases kind <;> rfl

theorem Route.ofCode_code (route : Route) : Route.ofCode route.code.toNat = some route := by
  cases route <;> rfl

theorem Route.ofCode_eq_none {n : Nat} (h : 3 < n) : Route.ofCode n = Option.none := by
  obtain ⟨m, rfl⟩ : ∃ m, n = m + 4 := ⟨n - 4, by omega⟩
  rfl

/-! ### SET NOTICE ROUTE, by its cases (R181) -/

section

variable {p : Port} {r : Request} {s : State}

theorem setNoticeRoute_set {k : Fin 8} {route : Route} (hkind : field r.payload 1 1 = k.val + 1)
    (hroute : field r.payload 2 1 = route.code.toNat) : setNoticeRoute r s =
      answer r .setNoticeRoute .done [(s.routes.get k).code] { s with routes := s.routes.set k route } := by
  rw [setNoticeRoute, routeSlot_eq_some.2 hkind, hroute, Route.ofCode_code]

theorem setNoticeRoute_badParam (h : field r.payload 1 1 = 0 ∨ 8 < field r.payload 1 1 ∨ 3 < field r.payload 2 1) :
    setNoticeRoute r s = refuse r .setNoticeRoute .badParam s := by
  rw [setNoticeRoute]
  split
  · next k route hkind hroute =>
    rw [routeSlot_eq_some] at hkind
    rw [Route.ofCode_eq_none (by omega)] at hroute
    cases hroute
  · rfl

theorem exec_setNoticeRoute (h : asks p .setNoticeRoute r s) :
    exec (.setNoticeRoute p) s = .next (setNoticeRoute r (takeRequest p s)) := congrArg Host.Outcome.next (serve_asks h)

end

/-! ### The routing of a notice (R189) -/

theorem raise_routed {n : Notice} {k : Fin 8} (s : State) (h : routeIndex n.kind = some k) :
    raise n s = offerRoute (s.routes.get k) n s := by
  rw [raise, h]

end Sys2Proof.Machine

open Sys2Proof Sys2Proof.Machine

/-- Settles O46: SET NOTICE ROUTE's own rule, the place of a kind by its code, and a notice's offers by its route. -/
theorem noticeRouteSet : Obligations.NoticeRouteSet := by
  refine ⟨?set, fun kind k => ?place, fun n k s hk => ?raised⟩
  case set =>
    rintro p s u r hasks rfl
    obtain rfl := asks_port hasks
    rw [exec_setNoticeRoute hasks]
    refine ⟨fun hbad => by rw [setNoticeRoute_badParam hbad]; rfl, fun k route hkind hroute => ?_⟩
    rw [setNoticeRoute_set hkind hroute, takeRequest_routes]
    rfl
  case place => rw [routeIndex_eq_routeSlot, routeSlot_eq_some]
  case raised =>
    rw [raise_routed s hk]
    cases s.routes.get k <;> rfl
end

section
/-! PROOF. READ STREAM COUNTERS and READ DEVICE COUNTERS, with and without the clear option
(10_in_band_management.md R184; 11_notices_and_counters.md R192, R193). -/

namespace Sys2Proof.Machine

section

variable {p : Port} {i : StreamId} {r : Request} {s : State}

/-! ### READ STREAM COUNTERS, by its clear option (R184, R192) -/

theorem readStreamCounters_keep (h : field r.payload 2 1 = 0) : readStreamCounters i r s =
    answer r .readStreamCounters .done (s.stream i).counters.bytes s := by
  rw [readStreamCounters, h]
  rfl

theorem readStreamCounters_clear (h : field r.payload 2 1 = 1) : readStreamCounters i r s =
    answer r .readStreamCounters .done (s.stream i).counters.bytes
      (s.setStream i { s.stream i with counters := .zero }) := by
  rw [readStreamCounters, h]
  rfl

theorem readStreamCounters_badOption (h : 1 < field r.payload 2 1) :
    readStreamCounters i r s = refuse r .readStreamCounters .badParam s := by
  rw [readStreamCounters]
  split
  · omega
  · omega
  · rfl

/-- READ STREAM COUNTERS is refused for a stream number or a clear option that is too great. -/
theorem askCounters_badParam (h : 63 < field r.payload 1 1 ∨ 1 < field r.payload 2 1) :
    askStream .readStreamCounters readStreamCounters r s = refuse r .readStreamCounters .badParam s := by
  by_cases hnumber : 63 < field r.payload 1 1
  · exact askStream_badNumber hnumber
  · rw [askStream_stream (i := ⟨field r.payload 1 1, by omega⟩) rfl]
    exact readStreamCounters_badOption (h.resolve_left hnumber)

/-! ### READ DEVICE COUNTERS, by its clear option (R184, R193) -/

theorem readDeviceCounters_keep (h : field r.payload 1 1 = 0) :
    readDeviceCounters r s = answer r .readDeviceCounters .done (deviceCounters s) s := by
  rw [readDeviceCounters, h]
  rfl

theorem readDeviceCounters_clear (h : field r.payload 1 1 = 1) : readDeviceCounters r s =
    answer r .readDeviceCounters .done (deviceCounters s) (clearDeviceCounters s) := by
  rw [readDeviceCounters, h]
  rfl

theorem readDeviceCounters_badOption (h : 1 < field r.payload 1 1) :
    readDeviceCounters r s = refuse r .readDeviceCounters .badParam s := by
  rw [readDeviceCounters]
  split
  · omega
  · omega
  · rfl

/-- A segment taken from the head of the receive list counts nothing in its port's counters. -/
theorem dropHead_counters (q : PortState) : q.dropHead.overruns = q.overruns ∧
    q.dropHead.checkFailures = q.checkFailures ∧ q.dropHead.misdirected = q.misdirected ∧
    q.dropHead.unbound = q.unbound := by
  unfold PortState.dropHead PortState.owe
  split
  · split <;> exact ⟨rfl, rfl, rfl, rfl⟩
  · exact ⟨rfl, rfl, rfl, rfl⟩

theorem deviceCounters_takeRequest (p : Port) (s : State) : deviceCounters (takeRequest p s) = deviceCounters s := by
  unfold deviceCounters
  cases p
  case a =>
    obtain ⟨hover, hcheck, hmis, hunbound⟩ := dropHead_counters s.portA
    rw [← hover, ← hcheck, ← hmis, ← hunbound]
    rfl
  case b =>
    obtain ⟨hover, hcheck, hmis, -⟩ := dropHead_counters s.portB
    rw [← hover, ← hcheck, ← hmis]
    rfl

/-! ### The commands -/

theorem exec_readStreamCounters (h : asks p .readStreamCounters r s) : exec (.readStreamCounters p) s =
    .next (askStream .readStreamCounters readStreamCounters r (takeRequest p s)) :=
  congrArg Host.Outcome.next (serve_asks h)

theorem exec_readDeviceCounters (h : asks p .readDeviceCounters r s) :
    exec (.readDeviceCounters p) s = .next (readDeviceCounters r (takeRequest p s)) :=
  congrArg Host.Outcome.next (serve_asks h)

end

end Sys2Proof.Machine

open Sys2Proof Sys2Proof.Machine

/-- Settles O48: each reading's own rule by its clear option, the counters being those from before the taking. -/
theorem countersReadAndClear : Obligations.CountersReadAndClear := by
  rintro p s u r rfl
  refine ⟨fun hasks => ?stream, fun hasks => ?device⟩
  case stream =>
    obtain rfl := asks_port hasks
    rw [exec_readStreamCounters hasks]
    refine ⟨fun hbad => by rw [askCounters_badParam hbad]; rfl, fun i n results hi hn hresults => ?_⟩
    subst hn hresults
    rw [askStream_stream hi]
    refine ⟨fun hkeep => ?keep, fun hclear => ?clear⟩
    case keep =>
      rw [readStreamCounters_keep hkeep, takeRequest_stream]
      rfl
    case clear =>
      rw [readStreamCounters_clear hclear, takeRequest_stream]
      rfl
  case device =>
    obtain rfl := asks_port hasks
    rw [exec_readDeviceCounters hasks]
    refine ⟨fun hbad => by rw [readDeviceCounters_badOption hbad]; rfl, fun results hresults => ?_⟩
    subst hresults
    refine ⟨fun hkeep => ?keep, fun hclear => ?clear⟩
    case keep =>
      rw [readDeviceCounters_keep hkeep, deviceCounters_takeRequest]
      rfl
    case clear =>
      rw [readDeviceCounters_clear hclear, deviceCounters_takeRequest]
      rfl
end

section
/-! PROOF. The values after a cold reset (R4, R10, R59, R63, R93, R99, R118, R120, R136, R145, R154, R164, R169, R173, R175,
R176, R189 to R191). -/

namespace Sys2Proof.Machine

@[simp] theorem reset_stream (i : StreamId) : State.reset.stream i = .blank := Table.get_replicate ..

@[simp] theorem reset_slab (sl : SlabId) : State.reset.slab sl = .blank := Table.get_replicate ..

@[simp] theorem reset_gang (g : GangId) : State.reset.gang g = .blank := Table.get_replicate ..

@[simp] theorem reset_channel (c : ChanId) : State.reset.channel c = .blank := Table.get_replicate ..

/-- Every slab is free, 0 first; the list is not evaluated (R10). -/
theorem reset_freeList : State.reset.freeList = List.finRange 1024 := by
  unfold State.reset allSlabs
  with_reducible rfl

@[simp] theorem reset_route (k : Fin 8) : State.reset.routes.get k = .a := Table.get_replicate ..

/-- COLD_RESET keeps frame memory's bytes and the commands that wait, and nothing else (log entry 3). -/
theorem exec_coldReset (s : State) :
    exec .coldReset s = .next { State.reset with memory := s.memory, pending := s.pending } := rfl

end Sys2Proof.Machine

open Sys2Proof Sys2Proof.Machine

/-- Settles O4: the blank record of each table, and the values of the blocks as `State.reset` gives them. -/
theorem resetValues : Obligations.ResetValues := by
  refine ⟨reset_port, reset_stream, reset_slab, reset_gang, reset_channel, ?controller, ?management, reset_route,
    reset_freeList, ?fill, ?drainQueue, ?lastDataChannel, ?memory, ?now, ?pending, exec_coldReset⟩
  all_goals rfl
end

section
/-! SUPPORT. The arrival of a member's FULL slab at its gang, by the cases of R104, and what each makes of the gang's records
(R105 to R108). -/

namespace Sys2Proof.Machine

section

variable {g : GangId} {i : StreamId} {sl : SlabId} {e : Epoch} {k : Nat} {s : State}

/-! ### The case that applies (R104) -/

theorem lateAgainstReleased_iff {v : Gang} :
    lateAgainstReleased v e = true ↔ ∃ f, v.released = some f ∧ newer e f = false := by
  unfold lateAgainstReleased
  cases v.released <;> simp

theorem outsideWindow_iff {v : Gang} : outsideWindow v e = true ↔ v.released = none ∧ ∃ oldest newest,
    v.records.head? = some oldest ∧ v.records.getLast? = some newest ∧ newer e oldest.epoch = false ∧
      newer newest.epoch e = false := by
  unfold outsideWindow
  cases v.released <;> cases v.records.head? <;> cases v.records.getLast? <;> simp

theorem not_lateAgainstReleased {v : Gang} (h : ∀ f, v.released = some f → newer e f = true) :
    ¬ lateAgainstReleased v e = true := by
  rw [lateAgainstReleased_iff]
  rintro ⟨f, hf, hnot⟩
  exact Bool.false_ne_true (hnot.symm.trans (h f hf))

/-- The window matters only where no record was released and some are pending (R104, case 3). -/
theorem not_outsideWindow {v : Gang} (h : v.released ≠ none ∨ v.records = [] ∨ ∃ oldest newest,
    v.records.head? = some oldest ∧ v.records.getLast? = some newest ∧
      (newer e oldest.epoch = true ∨ newer newest.epoch e = true)) : ¬ outsideWindow v e = true := by
  rw [outsideWindow_iff]
  rintro ⟨hreleased, oldest, newest, hold, hnew, hnot, hnot'⟩
  obtain h | h | ⟨oldest', newest', hold', hnew', h⟩ := h
  · exact h hreleased
  · rw [h] at hold
    cases hold
  · obtain rfl := Option.some_inj.1 (hold'.symm.trans hold)
    obtain rfl := Option.some_inj.1 (hnew'.symm.trans hnew)
    rw [hnot, hnot'] at h
    exact h.elim Bool.false_ne_true Bool.false_ne_true

/-- Late against the released epoch, or outside the window of the pending records (R104, cases 1 and 3). -/
theorem arrive_late (he : (s.slab sl).epoch = some e)
    (h : lateAgainstReleased (s.gang g) e = true ∨
      (∀ r ∈ (s.gang g).records, r.epoch ≠ e) ∧ outsideWindow (s.gang g) e = true) :
    arrive g i sl s = gangLate g i sl e s := by
  unfold arrive
  rw [he, Option.getD_some]
  dsimp only
  by_cases hlate : lateAgainstReleased (s.gang g) e = true
  · exact if_pos hlate
  · obtain ⟨hnew, hout⟩ := h.resolve_left hlate
    have hany : ¬ ((s.gang g).records.any fun r => r.epoch == e) = true := by simpa using hnew
    rw [if_neg hlate, if_neg hany, if_pos hout]

/-- A pending record has the slab's epoch (R104, case 2). -/
theorem arrive_joins (he : (s.slab sl).epoch = some e) (hlate : ¬ lateAgainstReleased (s.gang g) e = true)
    (h : ∃ r ∈ (s.gang g).records, r.epoch = e) :
    arrive g i sl s = joinRecord g ((s.gang g).members.idxOf i) sl e s := by
  unfold arrive
  rw [he, Option.getD_some]
  dsimp only
  rw [if_neg hlate, if_pos (by simpa using h)]

/-- No pending record has the slab's epoch, which lies within the window (R104, case 4). -/
theorem arrive_creates (he : (s.slab sl).epoch = some e) (hlate : ¬ lateAgainstReleased (s.gang g) e = true)
    (hnew : ∀ r ∈ (s.gang g).records, r.epoch ≠ e) (hwindow : ¬ outsideWindow (s.gang g) e = true) :
    arrive g i sl s = createRecord g ((s.gang g).members.idxOf i) sl e s := by
  have hany : ¬ ((s.gang g).records.any fun r => r.epoch == e) = true := by simpa using hnew
  unfold arrive
  rw [he, Option.getD_some]
  dsimp only
  rw [if_neg hlate, if_neg hany, if_neg hwindow]

/-! ### A gang-late arrival (R105) -/

/-- The slab comes to rest without an UNBIND to complete; it is counted and noticed (R41, R60, R105). -/
theorem gangLate_idle (hp : (s.stream i).pendingOp = none) : gangLate g i sl e s = raise
    { kind := .gangLate, subject := some (BitVec.ofNat 8 i.val), epoch := some e, detail := BitVec.ofNat 32 g.val }
    ((s.setSlab sl (s.slab sl).atRest).setStream i { s.stream i with
      previous := previousWithout i sl s
      counters := { (s.stream i).counters with gangLate := satAdd (s.stream i).counters.gangLate 1 } }) := by
  rw [gangLate, emptySlab_idle hp, State.count, State.modStream, State.setStream_stream, State.setStream_setStream]
  rfl

/-! ### An arrival that joins a record (R106) -/

/-- The state in which the slab is held by the record of its epoch, the gang's records being `l`. -/
def heldByRecord (g : GangId) (sl : SlabId) (e : Epoch) (l : List GangRecord) (s : State) : State :=
  (s.setSlab sl { s.slab sl with holder := some (.gangRecord g e) }).setGang g { s.gang g with records := l }

theorem heldByRecord_records (l : List GangRecord) : ((heldByRecord g sl e l s).gang g).records = l :=
  congrArg Gang.records (State.setGang_gang ..)

/-- The records with the slab in its place in the record of its epoch (R106). -/
theorem map_setSlot {front back : List GangRecord} {r : GangRecord} (hr : r.epoch = e)
    (hothers : ∀ y, y ∈ front ∨ y ∈ back → y.epoch ≠ e) :
    (front ++ r :: back).map (fun y => if y.epoch = e then { y with slots := y.slots.set k (some sl) } else y) =
      front ++ { r with slots := r.slots.set k (some sl) } :: back := by
  have same : ∀ l : List GangRecord, (∀ y ∈ l, y.epoch ≠ e) →
      l.map (fun y => if y.epoch = e then { y with slots := y.slots.set k (some sl) } else y) = l := fun l hl =>
    (List.map_congr_left fun y hy => if_neg (hl y hy)).trans (List.map_id' l)
  rw [List.map_append, List.map_cons, same front fun y hy => hothers y (.inl hy), same back fun y hy => hothers y (.inr hy),
    if_pos hr]

theorem joinRecord_eq {front back : List GangRecord} {r x : GangRecord} (hrec : (s.gang g).records = front ++ r :: back)
    (hr : r.epoch = e) (hothers : ∀ y, y ∈ front ∨ y ∈ back → y.epoch ≠ e)
    (hx : x = { r with slots := r.slots.set k (some sl) }) : joinRecord g k sl e s =
      if x.complete = true then completionTest g (heldByRecord g sl e (front ++ x :: back) s)
      else heldByRecord g sl e (front ++ x :: back) s := by
  have hxe : x.epoch = e := by rw [hx]; exact hr
  have hany : ((front ++ x :: back).any fun y => y.epoch == e && y.complete) = x.complete := by
    have none : ∀ l : List GangRecord, (∀ y ∈ l, y.epoch ≠ e) → (l.any fun y => y.epoch == e && y.complete) = false :=
      fun l hl => List.any_eq_false.2 fun y hy => by simp [hl y hy]
    rw [List.any_append, List.any_cons, none front fun y hy => hothers y (.inl hy),
      none back fun y hy => hothers y (.inr hy), hxe, beq_self_eq_true]
    simp
  unfold joinRecord
  dsimp only
  rw [State.modSlab, State.setSlab_gang_of, hrec, map_setSlot hr hothers, ← hx, hany]
  rfl

/-- The record that is joined stays pending: it lacks a slab, or an older one does (R106, R108). -/
theorem joinRecord_waits {front back : List GangRecord} {r x : GangRecord} (hrec : (s.gang g).records = front ++ r :: back)
    (hr : r.epoch = e) (hothers : ∀ y, y ∈ front ∨ y ∈ back → y.epoch ≠ e)
    (hx : x = { r with slots := r.slots.set k (some sl) })
    (h : x.slots.all Option.isSome = false ∨ (front ≠ [] ∧ oldestIncomplete front)) :
    joinRecord g k sl e s = heldByRecord g sl e (front ++ x :: back) s := by
  rw [joinRecord_eq hrec hr hothers hx]
  split
  · next hcomplete =>
    obtain ⟨hne, hfront⟩ := h.resolve_left fun hlacks => Bool.false_ne_true (hlacks.symm.trans hcomplete)
    refine completionTest_eq (done := []) (heldByRecord_records _) ⟨by simp, fun y hy => hfront y ?_⟩
    rw [← hy]
    exact (List.head?_append_of_ne_nil _ hne).symm
  · rfl

/-- The oldest record is complete with the slab, and is released with the complete ones that follow (R106, R108). -/
theorem joinRecord_completes {done later : List GangRecord} {r x : GangRecord}
    (hrec : (s.gang g).records = r :: (done ++ later)) (hr : r.epoch = e) (hothers : ∀ y ∈ done ++ later, y.epoch ≠ e)
    (hx : x = { r with slots := r.slots.set k (some sl) }) (hcomplete : x.slots.all Option.isSome = true)
    (hdone : completesThrough done later) :
    joinRecord g k sl e s = releasedAll g (x :: done) later (heldByRecord g sl e (x :: (done ++ later)) s) := by
  rw [joinRecord_eq (front := []) hrec hr (by simpa using hothers) hx]
  refine (if_pos hcomplete).trans (completionTest_eq (heldByRecord_records _) ⟨fun y hy => ?_, hdone.2⟩)
  obtain rfl | hy := List.mem_cons.1 hy
  · exact hcomplete
  · exact hdone.1 y hy

/-! ### An arrival that makes a record (R107) -/

/-- A new record stands before the first that is newer. -/
theorem insertRecord_eq {x : GangRecord} {back : List GangRecord}
    (hback : ∀ y, back.head? = some y → newer y.epoch x.epoch = true) :
    ∀ {front : List GangRecord}, (∀ y ∈ front, newer y.epoch x.epoch = false) →
      insertRecord x (front ++ back) = front ++ x :: back
  | [], _ => by
    cases back with
    | nil => rfl
    | cons y back => exact if_pos (hback y rfl)
  | y :: front, h => by
    have hy : ¬ newer y.epoch x.epoch = true := by rw [h y List.mem_cons_self]; exact Bool.false_ne_true
    rw [List.cons_append, insertRecord, if_neg hy, insertRecord_eq hback fun z hz => h z (List.mem_cons_of_mem _ hz)]
    rfl

theorem createRecord_eq {front back : List GangRecord} {x : GangRecord} (hrec : (s.gang g).records = front ++ back)
    (hfront : ∀ y ∈ front, newer y.epoch e = false) (hback : ∀ y, back.head? = some y → newer y.epoch e = true)
    (hx : x = { epoch := e, slots := ((s.gang g).members.map fun _ => none).set k (some sl)
                timer := some (s.now + (s.gang g).alignTimeout.getD 0) }) : createRecord g k sl e s =
      if 4 < (front ++ x :: back).length then
        completionTest g (releaseOldest g (heldByRecord g sl e (front ++ x :: back) s))
      else heldByRecord g sl e (front ++ x :: back) s := by
  have hinsert : insertRecord x (s.gang g).records = front ++ x :: back := by
    rw [hrec]
    exact insertRecord_eq (by rw [hx]; exact hback) (by rw [hx]; exact hfront)
  have hheld : createRecord g k sl e s =
      if 4 < (((heldByRecord g sl e (insertRecord x (s.gang g).records) s).gang g).records).length then
        completionTest g (releaseOldest g (heldByRecord g sl e (insertRecord x (s.gang g).records) s))
      else heldByRecord g sl e (insertRecord x (s.gang g).records) s := by
    rw [hx]
    rfl
  rw [hheld, hinsert, heldByRecord_records]

/-- The gang has room for the record (R101, R107). -/
theorem createRecord_room {front back : List GangRecord} {x : GangRecord} (hrec : (s.gang g).records = front ++ back)
    (hfront : ∀ y ∈ front, newer y.epoch e = false) (hback : ∀ y, back.head? = some y → newer y.epoch e = true)
    (hx : x = { epoch := e, slots := ((s.gang g).members.map fun _ => none).set k (some sl)
                timer := some (s.now + (s.gang g).alignTimeout.getD 0) }) (hroom : (s.gang g).records.length < 4) :
    createRecord g k sl e s = heldByRecord g sl e (front ++ x :: back) s := by
  rw [createRecord_eq hrec hfront hback hx, if_neg]
  rw [hrec, List.length_append] at hroom
  rw [List.length_append, List.length_cons]
  omega

/-- A fifth record forces the oldest out, and the completion test follows (R107, R108). -/
theorem createRecord_forces {front back done later : List GangRecord} {x first : GangRecord}
    (hrec : (s.gang g).records = front ++ back) (hfront : ∀ y ∈ front, newer y.epoch e = false)
    (hback : ∀ y, back.head? = some y → newer y.epoch e = true)
    (hx : x = { epoch := e, slots := ((s.gang g).members.map fun _ => none).set k (some sl)
                timer := some (s.now + (s.gang g).alignTimeout.getD 0) }) (hfull : 4 ≤ (s.gang g).records.length)
    (hfirst : front ++ x :: back = first :: (done ++ later)) (hdone : completesThrough done later) :
    createRecord g k sl e s =
      releasedAll g (first :: done) later (heldByRecord g sl e (first :: (done ++ later)) s) := by
  rw [createRecord_eq hrec hfront hback hx, if_pos, hfirst, releaseOldest_eq (heldByRecord_records _), releasedAll]
  · exact completionTest_eq (congrArg Gang.records (recordReleased_gang ..)) hdone
  · rw [hrec, List.length_append] at hfull
    rw [List.length_append, List.length_cons]
    omega

end

end Sys2Proof.Machine
end

section
/-! PROOF. The expiry of a fill timer (04_slabs_and_the_fill_path.md R77, R87; 05_sealing.md R85, R89, R93 to R97;
06_gangs_and_epoch_alignment.md R104 to R110). -/

namespace Sys2Proof.Machine

/-! ### The expiry and the seal that it brings (R87, R89) -/

/-- The state in which an expired fill timer reaches its slab: the time base at the deadline, the timer stopped (R87). -/
def timerExpired (sl : SlabId) (d : Nat) (s : State) : State :=
  State.setSlab { s with now := max s.now d } sl { s.slab sl with fillTimer := none }

section

variable {sl : SlabId} {i : StreamId} {d : Nat} {s : State}

theorem timerExpired_slab : (timerExpired sl d s).slab sl = { s.slab sl with fillTimer := none } := State.setSlab_slab ..

theorem exec_fillTimerExpiry (ht : (s.slab sl).fillTimer = some d) (ho : s.owner sl = some i)
    (hrun : s.management.warmReset = none) :
    exec (.fillTimerExpiry sl) s = .next (runWork (reachSlab i .timeout sl (timerExpired sl d s))) := by
  have hhalted : s.halted = false := by rw [State.halted, hrun]; rfl
  show execFillTimerExpiry sl s = _
  rw [execFillTimerExpiry, ht, ho]
  dsimp only
  rw [hhalted, if_neg Bool.false_ne_true]
  rfl

theorem exec_fillTimerExpiry_halted (ht : (s.slab sl).fillTimer = some d) (ho : s.owner sl = some i)
    (hreset : s.management.warmReset ≠ none) : exec (.fillTimerExpiry sl) s = .next s := by
  have hhalted : s.halted = true := Option.isSome_iff_ne_none.2 hreset
  show execFillTimerExpiry sl s = _
  rw [execFillTimerExpiry, ht, ho]
  dsimp only
  rw [hhalted, if_pos rfl]

theorem holesOf_timerExpired : holesOf i sl (timerExpired sl d s) = holesOf i sl s := by
  unfold holesOf
  rw [timerExpired_slab]
  rfl

/-- A seal stops the slab's timer, so that it makes no difference whether the timer was stopped before (R85, R87). -/
theorem sealedWaiting_timerExpired (cause : SealCause) :
    sealedWaiting i sl cause (timerExpired sl d s) = sealedWaiting i sl cause { s with now := max s.now d } := by
  rw [sealedWaiting, holesOf_timerExpired, timerExpired_slab, timerExpired, State.setSlab_setSlab]
  rfl

theorem sealedFull_timerExpired (cause : SealCause) :
    sealedFull i sl cause (timerExpired sl d s) = sealedFull i sl cause { s with now := max s.now d } := by
  rw [← handedSingle_sealedWaiting, ← handedSingle_sealedWaiting, sealedWaiting_timerExpired]

/-- A seal cause that reaches a FILLING slab, with no placement into it, seals it (R85). -/
theorem reachSlab_seals {cause : SealCause} (hst : (s.slab sl).state = .filling) (hp : (s.slab sl).placing = false) :
    reachSlab i cause sl s = sealSlab i sl cause s := by
  rw [reachSlab, if_pos hst, hp, if_neg Bool.false_ne_true]

/-- During a placement into the slab the expiry is held, its timer stopped (R89; log entry 27). -/
theorem reachSlab_holdsExpiry (hst : (s.slab sl).state = .filling) (hp : (s.slab sl).placing = true) :
    reachSlab i .timeout sl (timerExpired sl d s) = State.setSlab { s with now := max s.now d } sl
      { s.slab sl with fillTimer := none, heldCause := (s.slab sl).heldCause.or (some .timeout) } := by
  rw [reachSlab, timerExpired_slab, if_pos hst, if_pos hp, State.modSlab, timerExpired_slab, timerExpired,
    State.setSlab_setSlab]

theorem sealsQuietly_timerExpired (h : sealsQuietly i sl s) : sealsQuietly i sl (timerExpired sl d s) := by
  unfold sealsQuietly
  rw [timerExpired_slab]
  exact h

theorem sealsToFull_timerExpired (h : sealsToFull i sl s) : sealsToFull i sl (timerExpired sl d s) := by
  unfold sealsToFull
  rw [timerExpired_slab]
  exact h

end

/-! ### A member's slab that its seal makes FULL (R97, R104) -/

section

variable {sl : SlabId} {i : StreamId} {g : GangId} {d : Nat} {s : State}

theorem conversionRaised_rest (i : StreamId) (v : Slab) (sl : SlabId) (s : State) :
    ∃ a b, conversionRaised i v sl s = { s with portA := a, portB := b } := by
  unfold conversionRaised
  split
  · exact raise_rest ..
  · exact ⟨s.portA, s.portB, rfl⟩

/-- The slab after its seal has made it FULL (R85, R95). -/
def memberFull (i : StreamId) (sl : SlabId) (cause : SealCause) (s : State) : State :=
  conversionRaised i (s.slab sl) sl ((sealedWaiting i sl cause s).setSlab sl
    { (sealedWaiting i sl cause s).slab sl with state := .full })

/-- Being FULL and noticed changes nothing that the Gang Aligner looks at but the slab's state. -/
theorem memberFull_same (i : StreamId) (sl : SlabId) (cause : SealCause) (s : State) :
    (memberFull i sl cause s).slab sl = { (sealedWaiting i sl cause s).slab sl with state := .full } ∧
      (∀ x, x ≠ sl → (memberFull i sl cause s).slab x = s.slab x) ∧
      (memberFull i sl cause s).stream i = (sealedWaiting i sl cause s).stream i ∧
      (memberFull i sl cause s).gang = s.gang ∧ (memberFull i sl cause s).now = s.now := by
  obtain ⟨a, b, h⟩ := conversionRaised_rest i (s.slab sl) sl ((sealedWaiting i sl cause s).setSlab sl
    { (sealedWaiting i sl cause s).slab sl with state := .full })
  rw [memberFull, h]
  exact ⟨State.setSlab_slab .., fun x hx => (State.setSlab_slab_ne _ _ hx.symm _).trans (sealedWaiting_slab hx), rfl, rfl,
    rfl⟩

/-- The expiry of the fill timer of a member's slab without anything to wait for: the slab arrives at its gang (R97, R104). -/
theorem fillTimer_arrives (ht : (s.slab sl).fillTimer = some d) (ho : s.owner sl = some i)
    (hrun : s.management.warmReset = none) (hst : (s.slab sl).state = .filling) (hp : (s.slab sl).placing = false)
    (hout : (s.slab sl).outstanding = 0) (hfill : holeFillOn s i = false) (hwork : s.fill.work = [])
    (hg : (s.stream i).gang = some g) (hop : (s.stream i).pendingOp = none) :
    exec (.fillTimerExpiry sl) s = .next (arrive g i sl (memberFull i sl .timeout { s with now := max s.now d })) := by
  obtain ⟨w, hw⟩ : ∃ w, w = sealedWaiting i sl .timeout (timerExpired sl d s) := ⟨_, rfl⟩
  have hstays : ¬ staysOpen i sl (timerExpired sl d s) := by
    rw [holeFillOn_eq] at hfill
    unfold staysOpen
    rw [timerExpired_slab, hp, hout, show (timerExpired sl d s).stream i = s.stream i from rfl, hfill]
    simp
  have hitem : hasItem (timerExpired sl d s) sl = false := by
    unfold hasItem
    rw [show (timerExpired sl d s).fill.work = [] from hwork]
    rfl
  have hpending : (w.stream i).pendingOp = none := by rw [hw, sealedWaiting_stream]; exact hop
  have hnotice : conversionRaised i (w.slab sl) sl = conversionRaised i (s.slab sl) sl := by
    funext c
    rw [hw, sealedWaiting, State.setStream_slab_of, State.setSlab_slab, timerExpired_slab]
    rfl
  have hnoticed := HandedOn.noticed i (s.slab sl) sl w
  have hgang : ((conversionRaised i (s.slab sl) sl (w.setSlab sl { w.slab sl with state := .full })).stream i).gang =
      some g := by
    obtain ⟨l, c, hstream⟩ := hnoticed.stream i
    rw [hstream, hw, sealedWaiting_stream]
    exact hg
  rw [exec_fillTimerExpiry ht ho hrun,
    reachSlab_becomesFull (by rw [timerExpired_slab]; exact hst) hstays hitem, ← hw, becomeFull_idle hpending, hnotice,
    handOn_member hgang, runWork_nil, hw, sealedWaiting_timerExpired]
  · rfl
  · rw [((HandedOn.arrive ((hnoticed.pendingOp i).trans hpending)).fill).trans hnoticed.fill, hw]
    exact hwork

theorem previousWithout_congr {t : State} (hp : (t.stream i).previous = (s.stream i).previous)
    (hr : (t.stream i).ring = (s.stream i).ring) (hv : ∀ y, y ≠ sl → (t.slab y).version = (s.slab y).version) :
    previousWithout i sl t = previousWithout i sl s := by
  have hany : ∀ n, (fun y => y != sl && (t.slab y).version == some n) =
      fun y => y != sl && (s.slab y).version == some n := by
    intro n
    funext y
    by_cases e : y = sl
    · simp [e]
    · rw [hv y e]
  unfold previousWithout
  simp only [hp, hr, hany]

end

/-! ### The next hole is the first index that no range covers (R77, R94) -/

/-- The first index at or after `k` behind the ranges that are passed on the way (R94). -/
def skipCovered (cov : List IndexRange) (k : Nat) : Nat :=
  cov.foldl (fun k r => if r.start ≤ k ∧ k < r.stop then r.stop else k) k

theorem nextHole_eq (cov : List IndexRange) (frameLength k : Nat) : nextHole cov frameLength k =
    if skipCovered cov k < frameLength then some (skipCovered cov k) else none := rfl

theorem covered_cons {r : IndexRange} {cov : List IndexRange} {m : Nat} :
    covered (r :: cov) m ↔ (r.start ≤ m ∧ m < r.stop) ∨ covered cov m := by
  simp [covered]

/-- The ranges of a coverage list behind its first one. -/
theorem rangesOk_cons {r : IndexRange} {cov : List IndexRange} {frameLength : Nat} :
    rangesOk frameLength (r :: cov) ↔
      (∀ x ∈ cov, r.stop < x.start) ∧ (r.start < r.stop ∧ r.stop ≤ frameLength) ∧ rangesOk frameLength cov := by
  unfold rangesOk
  rw [List.pairwise_cons, List.forall_mem_cons]
  tauto

/-- Of ranges that ascend, what is passed is covered, and the index that is reached is not (R77, R94). -/
theorem skipCovered_spec {frameLength : Nat} : ∀ {cov : List IndexRange} {k : Nat}, rangesOk frameLength cov →
    k ≤ skipCovered cov k ∧ ¬ covered cov (skipCovered cov k) ∧ ∀ m, k ≤ m → m < skipCovered cov k → covered cov m
  | [], k, _ => ⟨le_rfl, by simp [covered], fun m hlow hhigh => absurd hhigh (not_lt.2 hlow)⟩
  | r :: cov, k, h => by
    obtain ⟨hapart, ⟨hrange, -⟩, htail⟩ := rangesOk_cons.1 h
    simp only [covered_cons, not_or]
    by_cases hin : r.start ≤ k ∧ k < r.stop
    · have hskip : skipCovered (r :: cov) k = skipCovered cov r.stop := congrArg (skipCovered cov) (if_pos hin)
      obtain ⟨hle, hnot, hall⟩ := skipCovered_spec (k := r.stop) htail
      rw [hskip]
      refine ⟨by omega, ⟨by omega, hnot⟩, fun m hlow hhigh => ?_⟩
      by_cases hm : m < r.stop
      · exact Or.inl (by omega)
      · exact Or.inr (hall m (by omega) hhigh)
    · have hskip : skipCovered (r :: cov) k = skipCovered cov k := congrArg (skipCovered cov) (if_neg hin)
      obtain ⟨hle, hnot, hall⟩ := skipCovered_spec (k := k) htail
      rw [hskip]
      refine ⟨hle, ⟨fun hr => ?_, hnot⟩, fun m hlow hhigh => Or.inr (hall m hlow hhigh)⟩
      obtain ⟨x, hx, hstart, -⟩ := hall k le_rfl (by omega)
      have := hapart x hx
      omega

/-- There is no hole at or after `k` just where every index from `k` on is covered (R94). -/
theorem nextHole_eq_none_iff {cov : List IndexRange} {frameLength k : Nat} (h : rangesOk frameLength cov) :
    nextHole cov frameLength k = none ↔ ∀ m, k ≤ m → m < frameLength → covered cov m := by
  obtain ⟨hle, hnot, hall⟩ := skipCovered_spec (k := k) h
  rw [nextHole_eq, ite_eq_right_iff]
  refine ⟨fun hend m hlow hhigh => hall m hlow ?_, fun hcov hlt => absurd (hcov _ hle hlt) hnot⟩
  by_contra hge
  cases hend (by omega)

/-- The next hole at or after `k` is the first index of the frame that no range covers (R94). -/
theorem nextHole_eq_some_iff {cov : List IndexRange} {frameLength k j : Nat} (h : rangesOk frameLength cov) :
    nextHole cov frameLength k = some j ↔
      k ≤ j ∧ j < frameLength ∧ ¬ covered cov j ∧ ∀ m, k ≤ m → m < j → covered cov m := by
  obtain ⟨hle, hnot, hall⟩ := skipCovered_spec (k := k) h
  rw [nextHole_eq, Option.ite_none_right_eq_some, Option.some_inj]
  constructor
  · rintro ⟨hlt, rfl⟩
    exact ⟨hle, hlt, hnot, hall⟩
  · rintro ⟨hlow, hlt, hfree, hbelow⟩
    obtain hless | rfl | hmore := lt_trichotomy (skipCovered cov k) j
    · exact absurd (hbelow _ hle hless) hnot
    · exact ⟨hlt, rfl⟩
    · exact absurd (hall j hlow hmore) hfree

end Sys2Proof.Machine

open Sys2Proof Sys2Proof.Machine

/-- Settles O25: the expiry seals the slab or is held; a member's slab that is FULL at once arrives at its gang by the cases of
R104; the holes that are filled are those that `nextHole_eq_some_iff` says. -/
theorem fillTimerExpires : Obligations.FillTimerExpires := by
  refine ⟨?sealed, ?full, ?member, ?holes, fun cov frameLength k h =>
    ⟨nextHole_eq_none_iff h, fun j => nextHole_eq_some_iff h⟩⟩
  case sealed =>
    rintro sl i d s u ht ho rfl
    refine ⟨exec_fillTimerExpiry_halted ht ho, fun hrun hquiet => ?_, fun hrun hst hp hwork => ?_⟩
    · rw [exec_fillTimerExpiry ht ho hrun, reachSlab_quietly (sealsQuietly_timerExpired hquiet), sealedWaiting_timerExpired]
      exact congrArg _ (runWork_nil hquiet.2.2.2.2)
    · rw [exec_fillTimerExpiry ht ho hrun, reachSlab_holdsExpiry hst hp]
      exact congrArg _ (runWork_nil hwork)
  case full =>
    intro sl i d s ht ho hrun hfull
    have hfull' := sealsToFull_timerExpired (d := d) hfull
    rw [exec_fillTimerExpiry ht ho hrun, reachSlab_seals hfull'.1 hfull'.2.1, sealSlab_full hfull', sealedFull_timerExpired,
      runWork_nil]
    rw [(sealedFull_same ..).2.2.2]
    exact hfull.2.2.2.2.1
  case holes =>
    intro sl i d f w s t ht ho hrun hst hp hfill hdefn hon hwalk hholes h
    have hwalk' : writeWalkOf (timerExpired sl d s) i sl = some w :=
      (writeWalkOf_congr (s := s) (t := timerExpired sl d s) (by rw [timerExpired_slab]) rfl rfl).trans hwalk
    rw [exec_fillTimerExpiry ht ho hrun, reachSlab_seals (by rw [timerExpired_slab]; exact hst)
      (by rw [timerExpired_slab]; exact hp)]
    refine congrArg _ (sealSlab_holes hfill ho hdefn hon hwalk' (by rw [holesOf_timerExpired]; exact hholes) ?_)
    rw [sealedWaiting_timerExpired]
    exact h
  case member =>
    intro sl i g d n k e s u b v h ht ho hrun hst hp hout hfill hwork hg hop he hn hv hk hu hb hh
    have hmember : memberFull i sl .timeout { s with now := n } = b := by rw [hb, hu]; rfl
    have hfull := memberFull_same i sl .timeout { s with now := n }
    rw [hmember, ← hu] at hfull
    obtain ⟨hslab, hslabs, hstream, hgangs, hreached⟩ := hfull
    have hnow : b.now = n := hreached
    have hgang : b.gang g = v := (congrFun hgangs g).trans hv.symm
    have hepoch : (b.slab sl).epoch = some e := by
      rw [hslab, hu, sealedWaiting, State.setStream_slab_of, State.setSlab_slab]
      exact he
    have hheld : ∀ l, heldByRecord g sl e l b = (b.setSlab sl h).setGang g { v with records := l } := fun l => by
      rw [heldByRecord, hslab, hgang, hh]
    rw [fillTimer_arrives ht ho hrun hst hp hout hfill hwork hg hop, ← hn, hmember]
    refine ⟨fun hlate => ?late, fun hnewer =>
      ⟨fun front r back x hrec hr hothers hx => ?joins, fun front back x hrec hnone hfront hback hwindow hx => ?creates⟩⟩
    case late =>
      have hsealed : b.stream i = sealedStream (s.stream i) ((s.slab sl).epoch.getD 0) (holesOf i sl s) := by
        rw [hstream, hu]
        exact sealedWaiting_stream ..
      have hprevious : previousWithout i sl b = previousWithout i sl s :=
        previousWithout_congr (by rw [hsealed]; rfl) (by rw [hsealed]; rfl) fun y hy => congrArg Slab.version (hslabs y hy)
      rw [arrive_late hepoch, gangLate_idle, hprevious, hslab, hstream]
      · rfl
      · rw [hsealed]
        exact hop
      · rw [hgang, lateAgainstReleased_iff, outsideWindow_iff]
        exact hlate.imp_right fun ⟨hnone, hothers, hwindow⟩ => ⟨hothers, hnone, hwindow⟩
    case joins =>
      rw [arrive_joins hepoch (by rw [hgang]; exact not_lateAgainstReleased hnewer) ⟨r, by rw [hgang, hrec]; simp, hr⟩,
        hgang, ← hk, ← hheld]
      rw [← hgang] at hrec
      refine ⟨fun hwaits => by rw [joinRecord_waits hrec hr hothers hx hwaits],
        fun done later hcomplete hempty hback hdone => ?_⟩
      subst hempty hback
      rw [joinRecord_completes hrec hr (fun y hy => hothers y (.inr hy)) hx hcomplete hdone, hheld]
    case creates =>
      rw [arrive_creates hepoch (by rw [hgang]; exact not_lateAgainstReleased hnewer) (by rw [hgang]; exact hnone)
        (by rw [hgang]; exact not_outsideWindow hwindow), hgang, ← hk, ← hheld]
      rw [← hgang, ← hnow] at hx
      rw [← hgang] at hrec ⊢
      refine ⟨fun hroom => by rw [createRecord_room hrec hfront hback hx hroom],
        fun first done later hfull hfirst hdone => ?_⟩
      rw [createRecord_forces hrec hfront hback hx hfull hfirst hdone, hheld, hgang]
end

section
/-! SUPPORT. The completion of an UNBIND that its deadline need not have forced, and an abort of its whole ring (R18 to R20). -/

namespace Sys2Proof.Machine

/-! ### The completion of an UNBIND (R19, R20) -/

section

variable {i : StreamId} {o : PendingOp} {forced : Bool} {n : Nat} {cut : Option Epoch} {s : State}

/-- The ring returned, the stream DEFINED and the table entry released, before the REPLY and the notice (R19). -/
def ringReturned (i : StreamId) (o : PendingOp) (s : State) : State :=
  releaseOp o.slot (State.modStream { modSlabs Slab.freed (s.stream i).ring s with
    freeList := s.freeList ++ (s.stream i).ring } i Stream.unbound)

theorem ringReturned_port (q : Port) : (ringReturned i o s).port q = s.port q := by
  rw [ringReturned, modSlabs, modSlabs_eq]
  cases q <;> rfl

theorem ringReturned_routes : (ringReturned i o s).routes = s.routes := by
  rw [ringReturned, modSlabs, modSlabs_eq]
  rfl

/-- An UNBIND completes with its REPLY, and with STREAM_STOPPED where it was forced or a DRAINING slab was cut short (R19,
R20). -/
theorem completeUnbind_ringReturned : completeUnbind i o forced n cut s =
    if (forced || cut.isSome) = true then
      raise (stoppedNotice i cut n) (lateReply o.port o.discard (unbindReply o forced n) (ringReturned i o s))
    else lateReply o.port o.discard (unbindReply o forced n) (ringReturned i o s) := by
  have hfree : (modSlabs Slab.freed (s.stream i).ring s).freeList = s.freeList := by rw [modSlabs, modSlabs_eq]
  rw [ringReturned, ← hfree]
  rfl

theorem completeUnbind_completed : Completed i o s (completeUnbind i o forced n cut s) := by
  have hreplied : Completed i o s (lateReply o.port o.discard (unbindReply o forced n) (ringReturned i o s)) :=
    lateReply_keeps (fun h => h.reply) (released_completed i o s)
  rw [completeUnbind_ringReturned]
  split
  · exact raise_keeps (fun h => h.offer) hreplied
  · exact hreplied

/-- An unforced UNBIND that no DOWN event has marked: its REPLY, and its notice where an epoch was cut short (R19, R20). -/
theorem completeUnbind_port (hdiscard : o.discard = false) (q : Port) : (completeUnbind i o false n cut s).port q =
    (if cut.isSome = true then
      raise (stoppedNotice i cut n) (pushReply o.port (replySegment o.tag 0x15 .done (0 :: beBytes 2 n)) s)
    else pushReply o.port (replySegment o.tag 0x15 .done (0 :: beBytes 2 n)) s).port q := by
  have hreply : lateReply o.port o.discard (unbindReply o false n) (ringReturned i o s) =
      pushReply o.port (replySegment o.tag 0x15 .done (0 :: beBytes 2 n)) (ringReturned i o s) := by
    rw [hdiscard]
    rfl
  have hpush := pushReply_port_congr o.port (replySegment o.tag 0x15 .done (0 :: beBytes 2 n))
    (ringReturned_port (i := i) (o := o) (s := s))
  rw [completeUnbind_ringReturned, hreply, Bool.false_or]
  split
  · exact raise_port_congr _ (by rw [pushReply_routes, pushReply_routes, ringReturned_routes]) hpush q
  · exact hpush q

/-! ### An abort of the whole ring (R18, R19) -/

/-- With its last slab given up, the UNBIND completes (R19). -/
theorem GivenUp.unbindTest_completes {done : List SlabId} {t : State} (h : GivenUp i s done t)
    (hstate : (s.stream i).state = .stopping) (hop : streamOp i s = some o) (hdetail : o.detail = .unbind forced n cut)
    (hempty : allEmpty t (s.stream i).ring = true) : unbindTest i t = completeUnbind i o forced n cut t := by
  obtain ⟨l, hself⟩ := h.self
  have hmanagement : t.management = s.management := by rw [h.rest]
  have htop : streamOp i t = some o := by
    rw [← hop]
    unfold streamOp findOp
    rw [hself, hmanagement]
  rw [unbindTest, if_pos ⟨by rw [hself]; exact hstate, by rw [h.ring]; exact hempty⟩, htop]
  dsimp only
  rw [hdetail]

/-- The abort gives up the rest `l` of the ring, and the UNBIND completes with the last slab that was not EMPTY (R18, R19). -/
theorem abortSlabs_complete (hs : abortsAtOnce i s) (hstate : (s.stream i).state = .stopping)
    (hop : streamOp i s = some o) (hdetail : o.detail = .unbind forced n cut) : ∀ {l done : List SlabId} {t : State},
    (s.stream i).ring = done ++ l → GivenUp i s done t → ∃ y, GivenUp i s (s.stream i).ring y ∧
      unbindTest i (l.foldl (fun acc sl => abortSlab i sl acc) t) = completeUnbind i o forced n cut y
  | [], done, t, hring, h => by
    rw [List.append_nil] at hring
    have hall : allEmpty t (s.stream i).ring = true :=
      List.all_eq_true.2 fun x hx => beq_iff_eq.2 (h.empty x (hring ▸ hx)).1
    exact ⟨t, hring ▸ h, h.unbindTest_completes hstate hop hdetail hall⟩
  | x :: l, done, t, hring, h => by
    have hring' : (s.stream i).ring = (done ++ [x]) ++ l := by rw [hring, ← List.append_cons]
    have hnodup : ((done ++ [x]) ++ l).Nodup := hring' ▸ hs.1
    have hx : x ∉ done := fun hd => List.disjoint_of_nodup_append (hring ▸ hs.1) hd List.mem_cons_self
    have hwork : ∀ it ∈ s.fill.work, (s.slab it.slab).state = .sealing := fun it hit => (hs.2.1 it hit).2
    rw [List.foldl_cons]
    by_cases he : (s.slab x).state = .empty
    · rw [abortSlab, (congrArg Slab.state (h.slabs x hx)).trans he]
      exact abortSlabs_complete hs hstate hop hdetail hring' (h.skip hx he hwork)
    · obtain ⟨z, hz, habort⟩ := abortSlab_givesUp hs (hring ▸ List.mem_append_right _ List.mem_cons_self)
        (fun y hy => hring ▸ List.mem_append_left _ hy) hx he h
      rw [habort]
      by_cases hempty : allEmpty z (s.stream i).ring = true
      · have hrest : ∀ y ∈ l, (s.slab y).state = .empty := fun y hy => by
          rw [← hz.slabs y fun hd => List.disjoint_of_nodup_append hnodup hd hy]
          exact beq_iff_eq.1 (List.all_eq_true.1 hempty y (hring' ▸ List.mem_append_right _ hy))
        have hdone : Completed i o z (completeUnbind i o forced n cut z) := completeUnbind_completed
        refine ⟨z, hring' ▸ hz.skips hwork hnodup hrest, ?_⟩
        rw [hz.unbindTest_completes hstate hop hdetail hempty, hdone.abortSlabs fun y hy => ?_, hdone.unbindTest]
        rw [hz.ring, hring']
        exact List.mem_append_right _ hy
      · have hwait : unbindTest i z = z := if_neg fun hc => hempty (by rw [← hz.ring]; exact hc.2)
        rw [hwait]
        exact abortSlabs_complete hs hstate hop hdetail hring' hz

end

end Sys2Proof.Machine
end

section
/-! PROOF. UNBIND: its refusals, a ring that is EMPTY at once, a GRACEFUL one's seals, and an ABORT
(01_streams_and_the_stream_table.md R15, R16, R18 to R20; 05_sealing.md R85, R89, R93 to R97; 07_draining.md R119, R129 to
R131). -/

namespace Sys2Proof.Machine

/-! ### The modes of UNBIND (R15, R187) -/

theorem unbindMode_graceful {payload : List Byte} (hmode : field payload 2 1 = 0) (h : field payload 3 2 ≠ 0) :
    unbindMode payload = some (.graceful (field payload 3 2)) := by
  rw [unbindMode, hmode]
  exact if_pos (Nat.pos_of_ne_zero h)

theorem unbindMode_abort {payload : List Byte} (hmode : field payload 2 1 = 1) (h : field payload 3 2 = 0) :
    unbindMode payload = some .abort := by
  rw [unbindMode, hmode]
  exact if_pos h

theorem unbindMode_eq_none {payload : List Byte} (h : 1 < field payload 2 1 ∨
    (field payload 2 1 = 0 ∧ field payload 3 2 = 0) ∨ (field payload 2 1 = 1 ∧ field payload 3 2 ≠ 0)) :
    unbindMode payload = none := by
  unfold unbindMode
  rcases h with h | ⟨hmode, h⟩ | ⟨hmode, h⟩
  · split
    · omega
    · omega
    · rfl
  · rw [hmode]
    exact if_neg (by omega)
  · rw [hmode]
    exact if_neg h

theorem unbindMode_eq_some {payload : List Byte} (h : (field payload 2 1 = 0 ∧ field payload 3 2 ≠ 0) ∨
    (field payload 2 1 = 1 ∧ field payload 3 2 = 0)) : ∃ mode, unbindMode payload = some mode :=
  h.elim (fun h => ⟨_, unbindMode_graceful h.1 h.2⟩) fun h => ⟨_, unbindMode_abort h.1 h.2⟩

/-! ### UNBIND, by its cases (R15) -/

section

variable {i : StreamId} {r : Request} {s : State}

theorem unbindStream_inGang (h : (s.stream i).gang ≠ none) : unbindStream i r s = refuse r .unbind .inGang s :=
  if_pos (Option.isSome_iff_ne_none.2 h)

theorem unbindStream_alone (h : (s.stream i).gang = none) : unbindStream i r s =
    match unbindMode r.payload with
    | none => refuse r .unbind .badParam s
    | some mode =>
      match freeSlot s.management.ops with
      | none => refuse r .unbind .busy s
      | some slot => startUnbind mode slot i r s := by
  rw [unbindStream, h]
  rfl

theorem unbindStream_badParam (h : (s.stream i).gang = none) (hmode : unbindMode r.payload = none) :
    unbindStream i r s = refuse r .unbind .badParam s := by
  rw [unbindStream_alone h, hmode]

theorem unbindStream_busy {mode : UnbindMode} (h : (s.stream i).gang = none) (hmode : unbindMode r.payload = some mode)
    (hfull : freeSlot s.management.ops = none) : unbindStream i r s = refuse r .unbind .busy s := by
  rw [unbindStream_alone h, hmode]
  dsimp only
  rw [hfull]

theorem unbindStream_starts {mode : UnbindMode} {slot : OpSlot} (h : (s.stream i).gang = none)
    (hmode : unbindMode r.payload = some mode) (hslot : freeSlot s.management.ops = some slot) :
    unbindStream i r s = startUnbind mode slot i r s := by
  rw [unbindStream_alone h, hmode]
  dsimp only
  rw [hslot]

end

/-! ### A STOPPING stream and its table entry (R15, R175) -/

section

variable {i : StreamId} {o : PendingOp} {s t : State}

theorem stopStream_eq : stopStream i o s = opPending i o (setStreamState i .stopping s) := by
  rw [stopStream, opPending, setStreamState, State.modStream, State.modStream, State.modStream, State.setStream_stream,
    State.setStream_setStream]

theorem stopStream_stream :
    (stopStream i o s).stream i = { s.stream i with state := .stopping, pendingOp := some o.slot } :=
  State.setStream_stream ..

theorem stopStream_stream_ne {k : StreamId} (h : k ≠ i) : (stopStream i o s).stream k = s.stream k :=
  State.setStream_stream_ne _ _ h.symm _

theorem stopStream_ring (k : StreamId) : ((stopStream i o s).stream k).ring = (s.stream k).ring := by
  by_cases e : k = i
  · rw [e, stopStream_stream]
  · rw [stopStream_stream_ne e]

theorem streamOp_stopStream (hunused : ∀ x ∈ s.management.ops, x.slot ≠ o.slot) :
    streamOp i (stopStream i o s) = some o := by
  rw [stopStream_eq]
  exact streamOp_opPending hunused

/-- The entry just taken is changed, and no other (R18, R175). -/
theorem modOp_stopStream {f : PendingOp → PendingOp} (hf : (f o).slot = o.slot)
    (hunused : ∀ x ∈ s.management.ops, x.slot ≠ o.slot) :
    modOp o.slot f (stopStream i o s) = stopStream i (f o) s := by
  have hops : (s.management.ops ++ [o]).map (fun x => if x.slot = o.slot then f x else x) = s.management.ops ++ [f o] := by
    have hsame : s.management.ops.map (fun x => if x.slot = o.slot then f x else x) = s.management.ops :=
      (List.map_congr_left fun x hx => if_neg (hunused x hx)).trans (List.map_id' _)
    rw [List.map_append, hsame, List.map_cons, if_pos rfl, List.map_nil]
  unfold stopStream addOp modOp State.modManagement
  dsimp only
  rw [State.modStream_management, hops, hf]
  rfl

/-- The table without the entry just taken (R175). -/
theorem filter_taken {l : List PendingOp} (hunused : ∀ x ∈ l, x.slot ≠ o.slot) :
    (l ++ [o]).filter (fun x => x.slot != o.slot) = l := by
  rw [List.filter_append, List.filter_eq_self.2 (by simpa using hunused)]
  simp

/-- Whether an abort makes the ring EMPTY at once is a matter of the rings, the slabs, the channels and the Fill Engine. -/
theorem abortsAtOnce_congr (hslabs : t.slabs = s.slabs) (hchannels : t.channels = s.channels) (hfill : t.fill = s.fill)
    (hring : ∀ k, (t.stream k).ring = (s.stream k).ring) (h : abortsAtOnce i s) : abortsAtOnce i t := by
  have howner : t.owner = s.owner := funext fun x => owner_congr x hring
  unfold abortsAtOnce State.slab State.channel at h ⊢
  rw [hslabs, hchannels, hfill, hring, howner]
  exact h

theorem discardedBy_congr (hslabs : t.slabs = s.slabs) (hring : (t.stream i).ring = (s.stream i).ring) :
    discardedBy i t = discardedBy i s := by
  unfold discardedBy State.slab
  rw [hslabs, hring]

theorem cutBy_congr (hslabs : t.slabs = s.slabs) (hring : (t.stream i).ring = (s.stream i).ring) :
    cutBy i t = cutBy i s := by
  unfold cutBy State.slab
  rw [hslabs, hring]

/-- The table entry of an unforced UNBIND whose abort has begun (R18). -/
def PendingOp.aborting (n : Nat) (cut : Option Epoch) (o : PendingOp) : PendingOp :=
  { o with deadline := none, detail := .unbind false n cut }

/-- The state in which the abort of an UNBIND reaches the slabs of the ring (R18). -/
def abortBegun (i : StreamId) (o : PendingOp) (s : State) : State :=
  stopStream i (o.aborting (discardedBy i s) (cutBy i s)) s

theorem applyAbort_stopStream (hunused : ∀ x ∈ s.management.ops, x.slot ≠ o.slot) :
    applyAbort i o.slot false (stopStream i o s) =
      runWork (unbindTest i ((s.stream i).ring.foldl (fun acc sl => abortSlab i sl acc) (abortBegun i o s))) := by
  have hring := stopStream_ring (i := i) (o := o) (s := s) i
  have hdetail : modOp o.slot (PendingOp.aborting (discardedBy i (stopStream i o s)) (cutBy i (stopStream i o s)))
      (stopStream i o s) = abortBegun i o s := by
    rw [discardedBy_congr (s := s) (t := stopStream i o s) rfl hring, cutBy_congr (s := s) (t := stopStream i o s) rfl hring]
    exact modOp_stopStream rfl hunused
  rw [← hdetail, ← hring]
  rfl

end

/-! ### A ring that is EMPTY (R19) -/

section

variable {i : StreamId} {o : PendingOp} {cut : Option Epoch} {s : State}

/-- The UNBIND of an EMPTY ring completes where it is taken: the table is as it was (R19). -/
theorem ringReturned_stopStream (hunused : ∀ x ∈ s.management.ops, x.slot ≠ o.slot) :
    ringReturned i o (stopStream i o s) =
      (s.stream i).ring.foldl (fun acc sl => acc.modSlab sl fun v => { Slab.blank with outstanding := v.outstanding })
        ({ s with freeList := s.freeList ++ (s.stream i).ring }.setStream i { s.stream i with
          state := .defined, previous := none, ring := [], ringPointer := none, floor := none
          lastLate := none, pendingOp := none }) := by
  rw [ringReturned, stopStream_ring, modSlabs, modSlabs_eq, modSlabs_eq]
  unfold stopStream releaseOp addOp State.modManagement State.modStream State.setStream State.stream Stream.unbound
  dsimp only
  rw [filter_taken hunused, Table.get_set_self, Table.set_set]
  rfl

theorem ringReturned_fill : (ringReturned i o s).fill = s.fill := by
  rw [ringReturned, modSlabs, modSlabs_eq]
  rfl

/-- An UNBIND whose ring is EMPTY completes with its count 0 (R19). -/
theorem unbindTest_emptyRing (hunused : ∀ x ∈ s.management.ops, x.slot ≠ o.slot) (hdetail : o.detail = .unbind false 0 none)
    (hdiscard : o.discard = false) (hempty : ∀ x ∈ (s.stream i).ring, (s.slab x).state = .empty) :
    unbindTest i (stopStream i o s) =
      pushReply o.port (replySegment o.tag 0x15 .done [0, 0, 0]) (ringReturned i o (stopStream i o s)) := by
  have hall : allEmpty (stopStream i o s) ((stopStream i o s).stream i).ring = true := by
    rw [stopStream_ring]
    exact List.all_eq_true.2 fun x hx => beq_iff_eq.2 (hempty x hx)
  rw [unbindTest, if_pos ⟨by rw [stopStream_stream], hall⟩, streamOp_stopStream hunused]
  dsimp only
  rw [hdetail]
  dsimp only
  rw [completeUnbind_ringReturned, hdiscard]
  rfl

/-- A slab that is not EMPTY keeps the UNBIND pending (R19). -/
theorem unbindTest_waits {x : SlabId} (hx : x ∈ (s.stream i).ring) (hne : (s.slab x).state ≠ .empty) :
    unbindTest i s = s :=
  if_neg fun h => hne (beq_iff_eq.1 (List.all_eq_true.1 h.2 x hx))

theorem discardedBy_emptyRing (hempty : ∀ x ∈ (s.stream i).ring, (s.slab x).state = .empty) : discardedBy i s = 0 := by
  rw [discardedBy, List.filter_eq_nil_iff.2 fun x hx => by rw [hempty x hx]; decide]
  rfl

theorem cutBy_emptyRing (hempty : ∀ x ∈ (s.stream i).ring, (s.slab x).state = .empty) : cutBy i s = none := by
  rw [cutBy, List.find?_eq_none.2 fun x hx => by rw [hempty x hx]; decide]
  rfl

/-- UNBIND of either mode on an EMPTY ring completes at once (R16, R18, R19). -/
theorem startUnbind_emptyRing {mode : UnbindMode} {slot : OpSlot} {r : Request}
    (hslot : freeSlot s.management.ops = some slot) (hempty : ∀ x ∈ (s.stream i).ring, (s.slab x).state = .empty)
    (hwork : s.fill.work = []) : startUnbind mode slot i r s =
      pushReply r.port (replySegment r.tag 0x15 .done [0, 0, 0]) ((s.stream i).ring.foldl
        (fun acc sl => acc.modSlab sl fun v => { Slab.blank with outstanding := v.outstanding })
        ({ s with freeList := s.freeList ++ (s.stream i).ring }.setStream i { s.stream i with
          state := .defined, previous := none, ring := [], ringPointer := none, floor := none
          lastLate := none, pendingOp := none })) := by
  have hunused := freeSlot_unused hslot
  have ends : ∀ o : PendingOp, o.slot = slot → o.detail = .unbind false 0 none → o.discard = false →
      runWork (unbindTest i (stopStream i o s)) =
        pushReply o.port (replySegment o.tag 0x15 .done [0, 0, 0]) (ringReturned i o (stopStream i o s)) := by
    rintro o rfl hdetail hdiscard
    rw [unbindTest_emptyRing hunused hdetail hdiscard hempty, runWork_nil]
    rw [pushReply_fill, ringReturned_fill]
    exact hwork
  cases mode with
  | graceful n =>
    obtain ⟨o, ho⟩ : ∃ o, o = unbindOp slot i r (startTimer s.now (n * Config.millisecond)) := ⟨_, rfl⟩
    have hreach : reachRing i .stopped (stopStream i o s) = stopStream i o s :=
      reachRing_notFilling _ _ fun x hx => by
        rw [stopStream_ring] at hx
        exact fun hst => by cases (hempty x hx).symm.trans hst
    have hstart : startUnbind (.graceful n) slot i r s = runWork (unbindTest i (reachRing i .stopped (stopStream i o s))) := by
      rw [ho]
      rfl
    rw [hstart, hreach, ends o (by rw [ho]; rfl) (by rw [ho]; rfl) (by rw [ho]; rfl), ringReturned_stopStream, ho]
    · rfl
    · rw [ho]
      exact hunused
  | abort =>
    have hstart : startUnbind .abort slot i r s = applyAbort i slot false (stopStream i (unbindOp slot i r none) s) := rfl
    have habort := applyAbort_stopStream (i := i) (o := unbindOp slot i r none) hunused
    rw [abortBegun, discardedBy_emptyRing hempty, cutBy_emptyRing hempty, abortSlabs_empty (by exact hempty),
      ends _ rfl rfl rfl, ringReturned_stopStream (by exact hunused)] at habort
    exact hstart.trans habort

end

/-! ### A GRACEFUL UNBIND (R16) -/

section

variable {i : StreamId} {o : PendingOp} {s u t : State}

/-- A GRACEFUL UNBIND's seal cause reaches the ring, some slab of which is not EMPTY, and the UNBIND waits (R16, R85, R89). -/
theorem reachRing_stopped (hslabs : u.slabs = s.slabs) (hfill : u.fill = s.fill) (hstream : u.stream i = s.stream i)
    (hunused : ∀ x ∈ u.management.ops, x.slot ≠ o.slot) (hdetail : ∀ n l, o.detail ≠ .flush n l)
    (hgang : (s.stream i).gang = none) (hnodup : (s.stream i).ring.Nodup) (hitems : itemsSealed s)
    (hbusy : ∃ x, x ∈ (s.stream i).ring ∧ (s.slab x).state ≠ .empty)
    (hdone : workDone (ringReached i .stopped s (stopStream i o u)) t) :
    runWork (unbindTest i (reachRing i .stopped (stopStream i o u))) = t := by
  have hnoFlush : noFlush i (stopStream i o u) := by
    intro o' n l ho'
    rw [streamOp_stopStream hunused] at ho'
    cases ho'
    exact hdetail n l
  have hreach : reachRing i .stopped (stopStream i o u) = ringReached i .stopped s (stopStream i o u) :=
    reachRing_eq (by rw [stopStream_ring, hstream]) hnodup hslabs (by rw [stopStream_stream, hstream]) hfill hitems
      (.inr ⟨by rw [stopStream_stream, hstream]; exact hgang, hnoFlush⟩)
  obtain ⟨x, hx, hne⟩ := hbusy
  rw [hreach, unbindTest_waits (x := x), runWork_eq hdone]
  · rw [ringReached_ring, stopStream_ring, hstream]
    exact hx
  · refine ringReached_notEmpty x fun hst => hne ?_
    rw [← hst, State.slab, ← hslabs]
    rfl

end

/-! ### An ABORT (R18, R129 to R131) -/

section

variable {i : StreamId} {o : PendingOp} {n : Nat} {cut : Option Epoch} {s y t : State}

/-- The records of the slabs given up and of the UNBIND completed, from the state in which the request was taken (R18, R19,
R119, R130). -/
theorem GivenUp.ended_stopStream (hy : GivenUp i (stopStream i o s) (s.stream i).ring y) (ht : Completed i o y t)
    (hunused : ∀ x ∈ s.management.ops, x.slot ≠ o.slot) (hwork : ∀ it ∈ s.fill.work, it.slab ∈ (s.stream i).ring) :
    unbindEnded i o.slot s t := by
  have hring : (y.stream i).ring = (s.stream i).ring := hy.ring.trans (stopStream_ring i)
  obtain ⟨l, hself⟩ := hy.self
  have hchannel : ∀ c, t.channel c = channelLeft s (s.stream i).ring c := fun c => by
    rw [ht.rest]
    exact hy.channel c
  refine ⟨?_, ?_, fun k hk => ?_, fun x hx => ?_, fun x hx => ?_, ?_, fun x c hx hst hc => ?_, fun c hc => ?_, ?_, ?_,
    ?_, ?_, ?_, ?_, ?_⟩
  · rw [ht.rest, hring, hy.rest]
    rfl
  · rw [ht.self, hself, stopStream_stream]
    rfl
  · rw [ht.others k hk, hy.others k hk, stopStream_stream_ne hk]
  · rw [ht.ring x (hring ▸ hx), Slab.freed, (hy.empty x hx).2]
    rfl
  · rw [ht.slabs x (hring ▸ hx)]
    exact hy.slabs x hx
  · rw [ht.rest]
    exact hy.drain
  · rw [hchannel c]
    exact if_pos (List.any_eq_true.2 ⟨x, hx, by rw [hst, hc, beq_self_eq_true, beq_self_eq_true]; rfl⟩)
  · rw [hchannel c]
    refine if_neg fun hany => ?_
    obtain ⟨x, hx, hxc⟩ := List.any_eq_true.1 hany
    rw [Bool.and_eq_true, beq_iff_eq, beq_iff_eq] at hxc
    exact hc x hx hxc.1 hxc.2
  · rw [ht.rest]
    exact hy.fill.trans (fillLeft_ring hwork)
  · rw [ht.rest, hy.rest]
    refine congrArg (fun ops => { s.management with ops := ops }) ((filter_taken hunused).trans ?_)
    exact (List.filter_eq_self.2 (by simpa using hunused)).symm
  all_goals rw [ht.rest, hy.rest]; rfl

/-- An ABORT of a ring that can be given up at once ends the UNBIND (R18 to R20). -/
theorem abort_ends (hs : abortsAtOnce i s) (hunused : ∀ x ∈ s.management.ops, x.slot ≠ o.slot)
    (hdiscard : o.discard = false) : ∃ t, applyAbort i o.slot false (stopStream i o s) = t ∧ unbindEnded i o.slot s t ∧
      t.now = s.now ∧ ∀ q, t.port q = (if (cutBy i s).isSome = true
        then raise (stoppedNotice i (cutBy i s) (discardedBy i s))
          (pushReply o.port (replySegment o.tag 0x15 .done (0 :: beBytes 2 (discardedBy i s))) s)
        else pushReply o.port (replySegment o.tag 0x15 .done (0 :: beBytes 2 (discardedBy i s))) s).port q := by
  obtain ⟨o', ho'⟩ : ∃ o', o' = o.aborting (discardedBy i s) (cutBy i s) := ⟨_, rfl⟩
  have hunused' : ∀ x ∈ s.management.ops, x.slot ≠ o'.slot := by rw [ho']; exact hunused
  have hbegun : abortsAtOnce i (stopStream i o' s) := abortsAtOnce_congr (s := s) rfl rfl rfl stopStream_ring hs
  obtain ⟨y, hy, htest⟩ := abortSlabs_complete (l := ((stopStream i o' s).stream i).ring) (done := [])
    (n := discardedBy i s) (cut := cutBy i s) hbegun (by rw [stopStream_stream]) (streamOp_stopStream hunused')
    (by rw [ho']; rfl) rfl (GivenUp.nil ..)
  rw [stopStream_ring] at hy htest
  have hdone : Completed i o' y (completeUnbind i o' false (discardedBy i s) (cutBy i s) y) := completeUnbind_completed
  have hended := hy.ended_stopStream hdone hunused' fun it hit => (hs.2.1 it hit).1
  have hidle : (completeUnbind i o' false (discardedBy i s) (cutBy i s) y).fill.work = [] := by
    obtain ⟨-, -, -, -, -, -, -, -, hfill, -⟩ := hended
    rw [hfill]
  have hport : ∀ q, y.port q = s.port q := fun q => by
    rw [hy.rest]
    cases q <;> rfl
  have hroutes : y.routes = s.routes := by
    rw [hy.rest]
    rfl
  refine ⟨completeUnbind i o' false (discardedBy i s) (cutBy i s) y, ?_, ?_, ?_, fun q => ?_⟩
  · rw [applyAbort_stopStream hunused, abortBegun, ← ho', htest, runWork_nil hidle]
  · rw [ho'] at hended ⊢
    exact hended
  · rw [hdone.rest, hy.rest]
    rfl
  · rw [completeUnbind_port (by rw [ho']; exact hdiscard), ho']
    have hpush := pushReply_port_congr o.port (replySegment o.tag 0x15 .done (0 :: beBytes 2 (discardedBy i s))) hport
    split
    · exact raise_port_congr _ (by rw [pushReply_routes, pushReply_routes, hroutes]) hpush q
    · exact hpush q

/-- An ABORT of a ring whose one slab that is not EMPTY drains on a busy channel marks the channel, and the UNBIND waits (R18,
R129, R130). -/
theorem abort_waits {front back : List SlabId} {x : SlabId} {c : ChanId}
    (hunused : ∀ x ∈ s.management.ops, x.slot ≠ o.slot) (hring : (s.stream i).ring = front ++ x :: back)
    (hrest : ∀ y, y ∈ front ∨ y ∈ back → (s.slab y).state = .empty) (hx : (s.slab x).state = .draining)
    (hholder : (s.slab x).holder = some (.channel c)) (ha : (s.channel c).abortable = true)
    (hbusy : (s.channel c).read ≠ none ∨ (s.channel c).inTransmission = true) (hwork : s.fill.work = []) :
    applyAbort i o.slot false (stopStream i o s) =
      (stopStream i (o.aborting 1 (s.slab x).epoch) s).setChannel c
        { s.channel c with state := .aborting, assembled := none } := by
  obtain ⟨w, hw⟩ : ∃ w, w = stopStream i (o.aborting 1 (s.slab x).epoch) s := ⟨_, rfl⟩
  have hslab : w.slab = s.slab := by rw [hw]; rfl
  have hchannel : w.channel = s.channel := by rw [hw]; rfl
  have habort : abortSlab i x w = w.setChannel c { s.channel c with state := .aborting, assembled := none } := by
    rw [abortSlab, hslab, hx]
    dsimp only
    rw [hholder, ← hchannel]
    exact abortChannel_waits (by rw [hchannel]; exact ha) (by rw [hchannel]; exact hbusy)
  have hfold : (s.stream i).ring.foldl (fun acc sl => abortSlab i sl acc) w =
      w.setChannel c { s.channel c with state := .aborting, assembled := none } := by
    rw [hring, List.foldl_append, abortSlabs_empty (l := front) fun y hy => by rw [hslab]; exact hrest y (.inl hy),
      List.foldl_cons, habort]
    exact abortSlabs_empty fun y hy => by
      rw [State.setChannel_slab_of, hslab]
      exact hrest y (.inr hy)
  rw [applyAbort_stopStream hunused, abortBegun, discardedBy_one hring hrest hx, cutBy_one hring hrest hx, ← hw, hfold,
    unbindTest_waits (x := x), runWork_nil]
  · rw [State.setChannel_fill, hw]
    exact hwork
  · rw [State.setChannel_stream_of, hw, stopStream_ring, hring]
    exact List.mem_append_right _ List.mem_cons_self
  · rw [State.setChannel_slab_of, hslab, hx]
    decide

end

end Sys2Proof.Machine

open Sys2Proof Sys2Proof.Machine

/-- Settles O53: the refusals by their checks; a ring that is EMPTY by `startUnbind_emptyRing`, a GRACEFUL UNBIND by
`reachRing_stopped`, and an ABORT by `abort_ends` or `abort_waits`. -/
theorem unbindStarts : Obligations.UnbindStarts := by
  rintro p s u r i hasks hu
  have hexec : exec (.unbind p) s = .next (unbindStream i r u) := by
    rw [hu]
    exact congrArg Host.Outcome.next (serve_asksStream hasks)
  have hport : r.port = p := asksStream_port hasks
  have hstream : u.stream i = s.stream i := by rw [hu, takeRequest_stream]
  have hops : u.management.ops = s.management.ops := by rw [hu, takeRequest_ops]
  have hslabs : u.slabs = s.slabs := by rw [hu]; cases p <;> rfl
  have hchannels : u.channels = s.channels := by rw [hu]; cases p <;> rfl
  have hfill : u.fill = s.fill := by rw [hu, takeRequest_fill]
  have hnow : u.now = s.now := by rw [hu, takeRequest_now]
  rw [hexec]
  refine ⟨fun hgang => ?inGang, fun hgang hmode => ?badParam, fun hgang hmode => ?taken⟩
  case inGang =>
    rw [unbindStream_inGang (by rw [hstream]; exact hgang), refuse, answer, hport]
    rfl
  case badParam =>
    rw [unbindStream_badParam (by rw [hstream]; exact hgang) (unbindMode_eq_none hmode), refuse, answer, hport]
    rfl
  have hgang' : (u.stream i).gang = none := by rw [hstream]; exact hgang
  obtain ⟨mode, hm⟩ := unbindMode_eq_some hmode
  have hstart : ∀ slot, freeSlot s.management.ops = some slot → unbindStream i r u = startUnbind mode slot i r u :=
    fun slot hslot => unbindStream_starts hgang' hm (by rw [hops]; exact hslot)
  have hunused : ∀ slot, freeSlot s.management.ops = some slot → ∀ x ∈ u.management.ops, x.slot ≠ slot := by
    rw [hops]
    exact fun slot hslot => freeSlot_unused hslot
  have habort : field r.payload 2 1 = 1 → mode = .abort := fun h =>
    Option.some_inj.1 (hm.symm.trans (unbindMode_abort h (by omega)))
  refine ⟨fun hfull => ?busy, fun slot hslot hmode1 hs => ?abort,
    fun slot v t hslot hmode0 hnodup hitems hbusy hv hdone => ?graceful,
    fun slot hslot hwork => ⟨fun hempty => ?empty, fun front x back c hmode1 hring hrest hx hholder ha hbusy => ?waits⟩⟩
  case busy =>
    rw [unbindStream_busy hgang' hm (by rw [hops]; exact hfull), refuse, answer, hport]
    rfl
  case abort =>
    have hs' : abortsAtOnce i u := abortsAtOnce_congr hslabs hchannels hfill (fun k => by rw [hu, takeRequest_stream]) hs
    obtain ⟨t, ht, hended, htnow, hports⟩ := abort_ends (o := unbindOp slot i r none) hs' (hunused slot hslot) rfl
    rw [discardedBy_congr hslabs (by rw [hstream]), cutBy_congr hslabs (by rw [hstream])] at hports
    rw [hstart slot hslot, habort hmode1, ← hport]
    exact ⟨t, congrArg Host.Outcome.next ht, hended, htnow.trans hnow, hports⟩
  case graceful =>
    obtain ⟨o, ho⟩ : ∃ o, o = unbindOp slot i r (startTimer u.now (field r.payload 3 2 * 1000)) := ⟨_, rfl⟩
    have hgraceful : mode = .graceful (field r.payload 3 2) :=
      Option.some_inj.1 (hm.symm.trans (unbindMode_graceful hmode0 (by omega)))
    have hstopped : v = ringReached i .stopped s (stopStream i o u) := by
      rw [hv, ho, unbindOp, stopStream, State.modStream, hstream, hport, hnow, ← hops]
      rfl
    have hunused' : ∀ x ∈ u.management.ops, x.slot ≠ o.slot := by rw [ho]; exact hunused slot hslot
    have hreach := reachRing_stopped hslabs hfill hstream hunused' (by rw [ho]; exact fun _ _ h => by cases h) hgang hnodup
      hitems hbusy (hstopped ▸ hdone)
    rw [hstart slot hslot, hgraceful, ← hreach, ho]
    rfl
  case empty =>
    have hempty' : ∀ x ∈ (u.stream i).ring, (u.slab x).state = .empty := by
      unfold State.slab
      rw [hstream, hslabs]
      exact hempty
    have hfree : u.freeList = s.freeList := by rw [hu, takeRequest_freeList]
    rw [hstart slot hslot, startUnbind_emptyRing (by rw [hops]; exact hslot) hempty' (by rw [hfill]; exact hwork), hport,
      hstream, hfree]
  case waits =>
    have hslab : u.slab = s.slab := by unfold State.slab; rw [hslabs]
    have hchannel : u.channel = s.channel := by unfold State.channel; rw [hchannels]
    rw [← hslab] at hrest hx hholder
    rw [← hchannel] at ha hbusy
    rw [← hstream] at hring
    have hwaits := abort_waits (o := unbindOp slot i r none) (hunused slot hslot) hring hrest hx hholder ha hbusy
      (by rw [hfill]; exact hwork)
    rw [hstart slot hslot, habort hmode1]
    refine congrArg Host.Outcome.next (hwaits.trans ?_)
    rw [← hslab, ← hchannel, ← hstream, ← hops, ← hport]
    rfl
end

section
/-! PROOF. A DATA segment that opens a slab for a new epoch, after an OVERTAKEN seal or a RECLAIM where one is due
(04_slabs_and_the_fill_path.md R68 to R76, R78, R80 to R83). -/

namespace Sys2Proof.Machine

/-! ### The slab that is opened (R76, R78, R80) -/

section

variable {i : StreamId} {d : Definition} {seg : Segment} {sl : SlabId} {l : Layout} {u t : State}

theorem openSlab_eq {e : Epoch} (hl : (u.stream i).current = some l) : openSlab i d sl e u =
    (u.setSlab sl ((u.slab sl).opened e (some l.version) (startUnlessZero u.now d.fillTimeout))).setStream i
      { u.stream i with ringPointer := some ((u.stream i).ring.idxOf sl) } := by
  rw [openSlab, hl]
  rfl

/-- The opened slab takes in the segment's range alone, and every index of it is new (R78, R80). -/
theorem countAccepted_openSlab (hl : (u.stream i).current = some l) :
    countAccepted i sl (mergeRange [] seg.first.toNat (seg.payload.length / (d.inWidth / 8)))
      (openSlab i d sl seg.epoch u) = openedFor i d seg sl l u := by
  have hnewly : coveredCount (mergeRange [] seg.first.toNat (seg.payload.length / (d.inWidth / 8))) -
      coveredCount ((openSlab i d sl seg.epoch u).slab sl).coverage = seg.payload.length / (d.inWidth / 8) := by
    rw [openSlab_eq hl, State.setStream_slab_of, State.setSlab_slab]
    simp [mergeRange, coveredCount, Slab.opened, Slab.blank]
  rw [countAccepted, hnewly, openSlab_eq hl, openedFor, State.count, State.modSlab, State.modStream,
    State.setStream_slab_of, State.setSlab_slab, State.setSlab_stream_of, State.setStream_stream]
  unfold State.setStream State.setSlab
  dsimp only
  rw [Table.set_set, Table.set_set]
  rfl

theorem openedFor_slab : ((openedFor i d seg sl l u).slab sl).version = some l.version :=
  congrArg Slab.version (State.setSlab_slab ..)

theorem openedFor_stream :
    ∃ p c, (openedFor i d seg sl l u).stream i = { u.stream i with ringPointer := p, counters := c } :=
  ⟨_, _, State.setStream_stream ..⟩

/-- The segment's samples are placed into the opened slab, by the write walk of the current layout (R30, R76, R81 to R83). -/
theorem openSlab_places (hl : (u.stream i).current = some l) (hd : (u.stream i).defn = some d) (hheld : u.fill.held = none)
    (hwork : u.fill.work = [])
    (h : places { stream := i, slab := sl, next := seg.first.toNat, rest := fieldsOf d seg, aborted := false } d l.writeWalk
      (openedFor i d seg sl l u) t) : runWork (mergeAndPlace i d sl seg (openSlab i d sl seg.epoch u)) = t := by
  have hcoverage : ((openSlab i d sl seg.epoch u).slab sl).coverage = [] := by
    rw [openSlab_eq hl, State.setStream_slab_of, State.setSlab_slab]
    rfl
  obtain ⟨p, c, hstream⟩ := openedFor_stream (i := i) (d := d) (seg := seg) (sl := sl) (l := l) (u := u)
  have hwalk : writeWalkOf (openedFor i d seg sl l u) i sl = some l.writeWalk := by
    rw [writeWalkOf, openedFor_slab, Option.bind_some, layoutOf, hstream, hl]
    dsimp only
    rw [if_pos rfl, Option.map_some]
  rw [mergeAndPlace_accepted (by rw [hcoverage]) Nat.one_le_ofNat, countAccepted_openSlab hl]
  exact continuePlacing_eq (by rw [hstream]; exact hd) hwalk hheld hwork h

end

/-! ### The state in which a slab is chosen (R67, R68) -/

/-- From `s` to `u` the slab `o`, if any, was sealed OVERTAKEN and stays SEALING; what a slab is chosen by stands. -/
structure Overtaken (i : StreamId) (o : Option SlabId) (s u : State) : Prop where
  slab : ∀ x, o ≠ some x → u.slab x = s.slab x
  sealed : ∀ x, o = some x → (s.slab x).state = .filling ∧ (u.slab x).state = .sealing
  epoch : ∀ x, (u.slab x).epoch = (s.slab x).epoch
  version : ∀ x, (u.slab x).version = (s.slab x).version
  stream : ∃ f c, u.stream i = { s.stream i with floor := f, counters := c }
  fill : u.fill = s.fill

theorem Overtaken.none (i : StreamId) (rest : List Segment) (s : State) : Overtaken i none s (afterTake rest s) where
  slab _ _ := rfl
  sealed _ h := by cases h
  epoch _ := rfl
  version _ := rfl
  stream := ⟨(s.stream i).floor, (s.stream i).counters, rfl⟩
  fill := rfl

theorem Overtaken.some {i : StreamId} {older : SlabId} {rest : List Segment} {s : State}
    (h : (s.slab older).state = .filling) :
    Overtaken i (some older) s (sealedWaiting i older .overtaken (afterTake rest s)) := by
  have hother : ∀ x, x ≠ older → (sealedWaiting i older .overtaken (afterTake rest s)).slab x = s.slab x := fun x hx =>
    sealedWaiting_slab hx
  have hself : (sealedWaiting i older .overtaken (afterTake rest s)).slab older =
      sealedRecord (s.slab older) .overtaken (holesOf i older s) := by
    rw [sealedWaiting, State.setStream_slab_of, State.setSlab_slab]
    rfl
  refine ⟨fun x hx => hother x fun e => hx (e ▸ rfl), fun x hx => ?_, fun x => ?_, fun x => ?_,
    ⟨_, _, sealedWaiting_stream ..⟩, rfl⟩
  · cases hx
    exact ⟨h, by rw [hself]; rfl⟩
  all_goals
    by_cases e : x = older
    · rw [e, hself]
      rfl
    · rw [hother x e]

/-- The segment goes on to the choice of a slab, the older of two open ones sealed before (R67, R68). -/
theorem fillData_chooses {i : StreamId} {d : Definition} {seg : Segment} {rest : List Segment} {s u : State}
    (htime : onTime i d seg s) (h : choosesIn i seg rest s u) :
    ∃ o, fillData seg (afterTake rest s) = chooseSlab i d seg o u ∧ Overtaken i o s u := by
  obtain ⟨hopen, hcases⟩ := h
  have hnew : fillData seg (afterTake rest s) = openForEpoch i d seg (afterTake rest s) := by
    rw [fillData_onTime (s := afterTake rest s) htime, placeData_notFound (s := afterTake rest s) fun x hx => (hopen x hx).1]
  rw [hnew]
  rcases hcases with ⟨hlen, rfl⟩ | ⟨older, other, htwo, hn, hnewer, hquiet, rfl⟩
  · exact ⟨none, openForEpoch_one (s := afterTake rest s) (fun x hx => (hopen x hx).2) hlen, .none ..⟩
  · refine ⟨some older, ?_, .some hquiet.1⟩
    rw [openForEpoch_two (s := afterTake rest s) htwo hn fun x hx => (hopen x hx).2]
    refine (if_pos hnewer).trans ?_
    rw [sealSlab_quietly (sealsQuietly_congr (t := afterTake rest s) hquiet rfl rfl rfl)]

/-! ### The choice of a slab (R70, R72) -/

section

variable {i : StreamId} {d : Definition} {seg : Segment} {o : Option SlabId} {sl : SlabId} {s u v : State}

namespace Overtaken

theorem searchOrder (h : Overtaken i o s u) : searchOrder (u.stream i) = searchOrder (s.stream i) := by
  obtain ⟨f, c, hstream⟩ := h.stream
  rw [hstream]
  rfl

/-- A slab sealed OVERTAKEN was not EMPTY, and is not. -/
theorem isEmpty (h : Overtaken i o s u) :
    (fun x => (u.slab x).state == .empty) = fun x => (s.slab x).state == .empty := by
  funext x
  by_cases hx : o = Option.some x
  · obtain ⟨hbefore, hafter⟩ := h.sealed x hx
    rw [hbefore, hafter]
    rfl
  · rw [h.slab x hx]

/-- A slab sealed OVERTAKEN for the segment in hand was no candidate, and is none (R72; log entry 12). -/
theorem candidates (h : Overtaken i o s u) :
    (Machine.searchOrder (u.stream i)).filter (isCandidate u o) = candidates i s := by
  rw [h.searchOrder]
  refine List.filter_congr fun x _ => ?_
  by_cases hx : o = Option.some x
  · rw [isCandidate, hx, (h.sealed x hx).1, bne_self_eq_false, Bool.and_false]
    rfl
  · rw [isCandidate, h.slab x hx, bne_iff_ne.2 hx, Bool.and_true]

theorem slabEpoch (h : Overtaken i o s u) : slabEpoch u = slabEpoch s :=
  funext fun x => congrArg (fun e : Option Epoch => e.getD 0) (h.epoch x)

end Overtaken

/-- The candidate taken is the one older than every other, or the first (R72). -/
theorem chooseCandidate_reclaims (h : reclaims i sl s) : chooseCandidate s (candidates i s) = some sl := by
  have hoffer : ∀ x, ((candidates i s).all fun y => y == x || newer (slabEpoch s y) (slabEpoch s x)) = true ↔
      ∀ y ∈ candidates i s, y = x ∨ newer (slabEpoch s y) (slabEpoch s x) = true := fun x => by simp
  rcases h with ⟨hsl, hold⟩ | ⟨hhead, hnone⟩
  · have hfind : (candidates i s).find? (fun x => (candidates i s).all fun y =>
        y == x || newer (slabEpoch s y) (slabEpoch s x)) = some sl := by
      obtain ⟨x, hx⟩ := Option.isSome_iff_exists.1 (List.find?_isSome (p := fun x => (candidates i s).all fun y =>
        y == x || newer (slabEpoch s y) (slabEpoch s x)) |>.2 ⟨sl, hsl, (hoffer sl).2 hold⟩)
      have hxoffer := List.find?_some hx
      rcases hold x (List.mem_of_find?_eq_some hx) with rfl | hxn
      · exact hx
      rcases (hoffer x).1 hxoffer sl hsl with rfl | hsn
      · exact hx
      · exact absurd hsn (by rw [newer_asymm hxn]; exact Bool.false_ne_true)
    rw [chooseCandidate, hfind]
  · have hfind : (candidates i s).find? (fun x => (candidates i s).all fun y =>
        y == x || newer (slabEpoch s y) (slabEpoch s x)) = none := by
      refine List.find?_eq_none.2 fun x hx hall => ?_
      obtain ⟨y, hy, hne, hnot⟩ := hnone x hx
      exact ((hoffer x).1 hall y hy).elim hne fun hnew => Bool.false_ne_true (hnot.symm.trans hnew)
    rw [chooseCandidate, hfind]
    exact hhead

theorem chooseSlab_opens
    (h : (searchOrder (u.stream i)).find? (fun x => (u.slab x).state == .empty) = some sl) :
    chooseSlab i d seg o u = mergeAndPlace i d sl seg (openSlab i d sl seg.epoch u) := by
  unfold chooseSlab
  dsimp only
  rw [h]

theorem chooseSlab_reclaims
    (hempty : (searchOrder (u.stream i)).find? (fun x => (u.slab x).state == .empty) = none) (hover : d.overflow = .reclaim)
    (h : chooseCandidate u ((searchOrder (u.stream i)).filter (isCandidate u o)) = some sl) :
    chooseSlab i d seg o u = mergeAndPlace i d sl seg (openSlab i d sl seg.epoch (reclaim i sl seg.epoch u)) := by
  unfold chooseSlab
  dsimp only
  rw [hempty]
  dsimp only
  rw [hover]
  dsimp only
  rw [h]

/-! ### The RECLAIM (R72 to R75) -/

/-- The slab leaves its drain entry or its record; no record is released by its going (R73, R74). -/
theorem detachHolder_eq (h : detachedFrom sl u v) : detachHolder sl u = v := by
  rcases h with ⟨hentry, rfl⟩ | ⟨g, e, hholder, hhead, rfl⟩
  · rcases hentry with hholder | ⟨g, e, hholder⟩ <;> rw [detachHolder, hholder] <;> rfl
  · have hrecords : ((u.setGang g { u.gang g with records := recordsWithout sl e (u.gang g).records }).gang g).records =
        [] ++ recordsWithout sl e (u.gang g).records := congrArg Gang.records (State.setGang_gang ..)
    have htest : completionTest g (u.setGang g { u.gang g with records := recordsWithout sl e (u.gang g).records }) =
        u.setGang g { u.gang g with records := recordsWithout sl e (u.gang g).records } :=
      completionTest_eq (done := []) hrecords ⟨by simp, hhead⟩
    rw [detachHolder, hholder]
    unfold detachRecord
    dsimp only
    split
    · exact htest
    · rfl

/-- Detaching a slab leaves the slabs, the streams, the Fill Engine and the time base. -/
theorem detachedFrom.same (h : detachedFrom sl u v) :
    v.slabs = u.slabs ∧ v.streams = u.streams ∧ v.fill = u.fill := by
  rcases h with ⟨-, rfl⟩ | ⟨g, e, -, -, rfl⟩ <;> exact ⟨rfl, rfl, rfl⟩

/-- What an opened slab was before makes no difference but for its outstanding writes (R62, R76). -/
theorem openSlab_atRest (e : Epoch) :
    openSlab i d sl e (u.setSlab sl (u.slab sl).atRest) = openSlab i d sl e u := by
  unfold openSlab State.modSlab
  dsimp only
  rw [State.setSlab_slab, State.setSlab_setSlab]
  rfl

/-- The epoch of a reclaimed slab counted lost and noticed, the previous layout dropped if it was its last (R41, R75). -/
def lossNoted (i : StreamId) (lost : Option Epoch) (e : Epoch) (p : Option Layout) (v : State) : State :=
  raise { kind := .epochLost, subject := some (BitVec.ofNat 8 i.val), epoch := lost, detail := BitVec.ofNat 32 e.toNat }
    (v.setStream i { v.stream i with
      previous := p
      counters := { (v.stream i).counters with epochLost := satAdd (v.stream i).counters.epochLost 1 } })

section

variable {lost : Option Epoch} {e : Epoch} {p : Option Layout}

theorem lossNoted_slab (x : SlabId) : (lossNoted i lost e p v).slab x = v.slab x := by
  obtain ⟨a, b, hraise⟩ := raise_rest _ _
  rw [lossNoted, hraise]
  rfl

theorem lossNoted_stream : ∃ c, (lossNoted i lost e p v).stream i = { v.stream i with previous := p, counters := c } := by
  obtain ⟨a, b, hraise⟩ := raise_rest _ _
  rw [lossNoted, hraise]
  exact ⟨_, State.setStream_stream ..⟩

theorem lossNoted_fill : (lossNoted i lost e p v).fill = v.fill := by
  rw [lossNoted, raise_fill]
  rfl

/-- The slab reclaimed: its epoch lost, its record at rest (R72 to R75). -/
theorem reclaim_eq (hv : detachHolder sl u = v) (hrun : (v.stream i).state ≠ .stopping) : reclaim i sl e u =
    (lossNoted i (u.slab sl).epoch e (previousWithout i sl v) v).setSlab sl (v.slab sl).atRest := by
  rw [lossNoted, ← raise_setSlab, reclaim, hv, emptySlab_eq,
    unbindTest_running (by rw [State.setStream_stream]; exact hrun), State.count, State.modStream, State.setStream_stream,
    State.setStream_setStream]
  rfl

/-- A reclaimed slab that is opened at once: only the loss is left of the RECLAIM (R72 to R76). -/
theorem openSlab_reclaim (hv : detachHolder sl u = v) (hrun : (v.stream i).state ≠ .stopping) :
    openSlab i d sl e (reclaim i sl e u) =
      openSlab i d sl e (lossNoted i (u.slab sl).epoch e (previousWithout i sl v) v) := by
  have hslab := lossNoted_slab (i := i) (v := v) (lost := (u.slab sl).epoch) (e := e) (p := previousWithout i sl v) sl
  rw [reclaim_eq hv hrun, ← hslab, openSlab_atRest]

end

/-- Neither the OVERTAKEN seal nor the detachment changes whether the previous layout outlives the slab (R41). -/
theorem Overtaken.previousWithout (h : Overtaken i o s u) (hv : detachedFrom sl u v) :
    previousWithout i sl v = previousWithout i sl s := by
  obtain ⟨hslabs, hstreams, -⟩ := hv.same
  obtain ⟨f, c, hstream⟩ := h.stream
  have hself : v.stream i = { s.stream i with floor := f, counters := c } :=
    (congrArg (fun t => t.get i) hstreams).trans hstream
  exact previousWithout_congr (by rw [hself]) (by rw [hself]) fun y _ =>
    (congrArg (fun t => (t.get y).version) hslabs).trans (h.version y)

end

end Sys2Proof.Machine

open Sys2Proof Sys2Proof.Machine

/-- Settles O22: `fillData_chooses` is the choice's state, and `openSlab_places` the placement into the opened slab, an EMPTY
one or one that `openSlab_reclaim` has emptied. -/
theorem dataOpensSlab : Obligations.DataOpensSlab := by
  rintro i d seg rest s u t sl l pl hoffer htime hl hchooses rfl
  have ⟨hkind, _, hactive, hdefn, _⟩ := htime
  obtain ⟨o, hfate, hover⟩ := fillData_chooses htime hchooses
  obtain ⟨f, c, hstream⟩ := hover.stream
  have hfill : u.fill = { placing := none, held := none, work := [] } := hover.fill.trans hoffer.1
  rw [exec_fillTakeData hoffer hkind, hfate]
  refine ⟨fun hempty hplaces => ?empty, fun v hnone hreclaim hcandidate hdetached hplaces => ?reclaim⟩
  case empty =>
    rw [chooseSlab_opens (by rw [hover.isEmpty, hover.searchOrder]; exact hempty),
      openSlab_places (by rw [hstream]; exact hl) (by rw [hstream]; exact hdefn) (by rw [hfill]) (by rw [hfill]) hplaces]
  case reclaim =>
    obtain ⟨-, hstreams, hsameFill⟩ := hdetached.same
    have hself : v.stream i = { s.stream i with floor := f, counters := c } :=
      (congrArg (fun t => t.get i) hstreams).trans hstream
    have hrun : (v.stream i).state ≠ .stopping := by
      rw [hself]
      exact fun hs => nomatch hactive.symm.trans hs
    have hnoEmpty : (searchOrder (u.stream i)).find? (fun x => (u.slab x).state == .empty) = none := by
      rw [hover.isEmpty, hover.searchOrder]
      exact List.find?_eq_none.2 fun x hx => by simpa using hnone x (mem_searchOrder hx)
    have hchosen : chooseCandidate u ((searchOrder (u.stream i)).filter (isCandidate u o)) = some sl := by
      rw [hover.candidates, chooseCandidate, hover.slabEpoch]
      exact chooseCandidate_reclaims hcandidate
    rw [chooseSlab_reclaims hnoEmpty hreclaim hchosen, openSlab_reclaim (detachHolder_eq hdetached) hrun, hover.epoch,
      hover.previousWithout hdetached]
    obtain ⟨c', hlost⟩ := lossNoted_stream (i := i) (v := v) (lost := (s.slab sl).epoch) (e := seg.epoch)
      (p := previousWithout i sl s)
    have hrest : (lossNoted i (s.slab sl).epoch seg.epoch (previousWithout i sl s) v).fill = _ :=
      lossNoted_fill.trans (hsameFill.trans hfill)
    exact congrArg Host.Outcome.next (openSlab_places
      (u := lossNoted i (s.slab sl).epoch seg.epoch (previousWithout i sl s) v) (by rw [hlost, hself]; exact hl)
      (by rw [hlost, hself]; exact hdefn) (by rw [hrest]) (by rw [hrest]) hplaces)
end
